-- ==== Sys2Proof/Word.lean ====
section
/-! DEFINITION. The word types of the part: bytes, 32-bit words and sectors (00_scope.md, "Conventions"). -/

namespace Sys2Proof

/-- One byte of a frame or of an on-medium record. -/
abbrev Byte := BitVec 8

/-- A 32-bit value: sector numbers, uptime counters, ages, wall seconds, CRC-32 registers. -/
abbrev Word := BitVec 32

/-- The bytes of one sector, byte 0 first. A sector that is held anywhere has 512 of them (00_scope.md, "Sectors,
lines and the tail"); the empty list stands in a line slot that holds no sector. -/
abbrev Sector := List Byte

end Sys2Proof
end

