-- ==== Sys2Proof/Syntax.lean ====
section
/-! DEFINITION. The commands of the part: one constructor per row of spec/opcode_table.json, with the operands the
row's rule names. -/

namespace Sys2Proof

/-- How an attempt on the sense bus ends (R128, and the errors of chapter 8). PEC_BAD is no ending of its own: the
part forms the PEC over the bytes it received (R129, R137). A TIMEOUT is the command `senseTimeout` (R136). -/
inductive AttemptEnd where
  /-- The attempt reached its STOP; the data bytes received, the PEC byte included for the battery monitor. -/
  | received (bytes : List Byte)
  /-- No acknowledge after an address byte or the register byte (R133, NO_ACK). -/
  | noAck
  /-- SDA found low on a bit the part released (R134, ARB_LOST). -/
  | arbLost
  /-- A START the part did not make, within a byte (R135, BUS_ERROR; the bus stays busy). -/
  | strayStart
  /-- A STOP the part did not make, within a byte (R135, BUS_ERROR; the bus is free). -/
  | strayStop
deriving DecidableEq, Repr

/-- The commands, in the order of spec/opcode_table.json. Bytes 6 and 7 of a request header are not examined
(chapter 10, section 10.1) and are no operand. -/
inductive Instr where
  /-- POWER_ON (R146): supply is applied with the WP input at level `wp` (R66). -/
  | powerOn (wp : Bool)
  /-- READ (R158): a request header with code 1. -/
  | read (count : Byte) (sector : Word)
  /-- WRITE (R58): a request header with code 2. -/
  | write (count : Byte) (sector : Word)
  /-- FLUSH (R14): a request header with code 3. -/
  | flush (count : Byte) (sector : Word)
  /-- INFO (R157): a request header with code 4. -/
  | info (count : Byte) (sector : Word)
  /-- UNKNOWN_CODE_REQUEST (R59): a request header with any other code. -/
  | unknownCodeRequest (code : Byte) (count : Byte) (sector : Word)
  /-- DATA_FRAME (R156): a data frame with one sector. -/
  | dataFrame (data : Sector)
  /-- RESPONSE_SENT (R155). -/
  | responseSent
  /-- LINK_RESET (R161): FRST is asserted. -/
  | linkReset
  /-- FRST_RELEASE (R161). -/
  | frstRelease
  /-- HOLD_LIMIT (R11). -/
  | holdLimit
  /-- MEDIA_OPERATION_COMPLETE (R164): the flash module's response, its status byte and its payload. -/
  | mediaOperationComplete (status : Byte) (payload : List Byte)
  /-- MEDIA_TIMEOUT (R164). -/
  | mediaTimeout
  /-- CONVERSION_CADENCE (R23). -/
  | conversionCadence
  /-- CONVERSION_COMPLETE (R30): the converted voltages in mV, before the clamp of R23. -/
  | conversionComplete (vsys : Int) (vcap : Int)
  /-- BROWNOUT (R31). -/
  | brownout
  /-- RAIL_RETURN (R32). -/
  | railReturn
  /-- RAIL_RETURN_CANCEL (R32). -/
  | railReturnCancel
  /-- RECOVERY_QUALIFIED (R32). -/
  | recoveryQualified
  /-- WP_CHANGE (R66): the WP input changes to its other level. -/
  | wpChange
  /-- WP_DEBOUNCE_EXPIRY (R66). -/
  | wpDebounceExpiry
  /-- MOTION_CADENCE (R130). -/
  | motionCadence
  /-- GAUGE_CADENCE (R130). -/
  | gaugeCadence
  /-- ATTEMPT_COMPLETE (R128). -/
  | attemptComplete (how : AttemptEnd)
  /-- SENSE_TIMEOUT (R136 of chapter 8). -/
  | senseTimeout
  /-- RECOVERY_TRAIN_END (R136 of chapter 8). -/
  | recoveryTrainEnd
  /-- BUS_START_SEEN (R127). -/
  | busStartSeen
  /-- BUS_STOP_SEEN (R127). -/
  | busStopSeen
  /-- ALERT_EDGE (R132). -/
  | alertEdge
  /-- ALERT_DEFER_EXPIRY (R132). -/
  | alertDeferExpiry
  /-- MOTION_SAMPLE (R86): the three axis values as received, signed, in 1/256 g. -/
  | motionSample (x y z : BitVec 16)
  /-- MOTION_MISS (R87). -/
  | motionMiss
  /-- GAUGE_SAMPLE (R105): V unsigned in mV, I signed in mA, T signed in tenths of °C, as received. -/
  | gaugeSample (v i t : BitVec 16)
  /-- GAUGE_MISS (R106). -/
  | gaugeMiss
  /-- FIRST_SAMPLE_TIMER_EXPIRY (R119). -/
  | firstSampleTimerExpiry
  /-- CHECKPOINT_TIMER_EXPIRY (R175). -/
  | checkpointTimerExpiry
  /-- UNTAGGED_FRONT_BYTE (R154). -/
  | untaggedFrontByte (byte : Byte)
  /-- STRAY_MEDIA_BYTES (R164). -/
  | strayMediaBytes (bytes : List Byte)
deriving DecidableEq, Repr

end Sys2Proof
end

