-- ==== Sys2Proof/Decode.lean ====
section
/-! DEFINITION. Decoding a table word. spec/opcode_table.json gives bits to no row ("n_rows_with_fixed": 0 in
98_reader.md), so no word spells a command. -/

namespace Sys2Proof

/-- The command a word spells by the table's bits: none, since no row of the table has any. -/
def decodeTableWord (_nbits _w : Nat) : Option Instr :=
  none

end Sys2Proof
end

