-- ==== Sys2Proof/Config.lean ====
section
/-! DEFINITION. The values and choices the spec leaves open. Each is a constant with no body: no proof can see its
value, so whatever is proved holds for every value it could have. -/

namespace Sys2Proof.Config

/-- R166: when a requester adds a waiter in answer to an outcome, MP may be "already granting the next waiter, or still
idle; either order is allowed". `true`: MP grants from the waiters that stood before the addition. The argument is a
fresh number for each time the order matters (assumption 6). -/
opaque grantBeforeAddition : Nat → Bool

/-- Live status bytes 18 and 19, "V, mV, of the last good sample", when no sample has arrived since power-on: the spec
states no value (assumption 7). The argument is a fresh number for each formation. -/
opaque absentSampleV : Nat → BitVec 16

/-- Live status bytes 20 and 21, "T, tenths of °C", in the same case (assumption 7). -/
opaque absentSampleT : Nat → BitVec 16

end Sys2Proof.Config
end

