-- ==== Sys2Proof/Machine/State.lean ====
section
/-! DEFINITION. The state of the GS24: one structure per block (00_scope.md, "Functional blocks"), the uptime counters,
the input pins and the queue of waiting commands. Plain data throughout. -/

namespace Sys2Proof.Machine

open Sys2Proof

/-! ### Statuses and the front port (chapter 10) -/

/-- The first failing check of a zone entry sector, R46. -/
inductive MapCheck where
  | state | align | bounds | overlap | transition | changed
deriving DecidableEq, Repr

/-- STATUS/SUBCLASS pairs of a front response (chapter 10, section 10.1). -/
inductive Answer where
  | ok
  | busyStarting | busyNoline | busyCost
  | rangeFormat | rangeEnd | rangeSpan
  | protectedOwned | protectedSwitch | protectedNomap | protectedClosed
  | sequenceBehind | sequenceAhead
  | mapReject (check : MapCheck)
  | powerCritical | powerHoldup
  | mediaAbsent | mediaRead | mediaDeferred
deriving DecidableEq, Repr

/-- The port states of FP (chapter 10, section 10.2). -/
inductive PortState where
  | idle | taking | held | completing | assembling | missWait | answering | closed
deriving DecidableEq, Repr

/-- The current front request: its header and the sectors taken or assembled so far. -/
structure Request where
  code : Byte
  count : Byte
  sector : Word
  taken : Nat
deriving DecidableEq, Repr

/-- Why a held sector failed its last admission test (R11). -/
inductive HoldReason where
  | noLine | cost
deriving DecidableEq, Repr

/-- The sector of an admission hold, kept by FP (R10). -/
structure Held where
  data : Sector
  reason : HoldReason
deriving DecidableEq, Repr

/-- A front response: the header's status, subclass and sectors field, and the payload. -/
structure Response where
  answer : Answer
  sectors : Nat
  payload : List Byte
deriving DecidableEq, Repr

/-- FP, the front port. -/
structure FrontPort where
  req : Option Request
  port : PortState
  holdStart : Option Word
  held : Option Held
  mark : Option Word
  readBuf : List Sector
  response : Option Response
deriving DecidableEq, Repr

/-- R162, Power-on column. -/
def FrontPort.reset : FrontPort :=
  { req := none, port := .idle, holdStart := none, held := none, mark := none, readBuf := [], response := none }

/-! ### Write checker (chapter 4) -/

/-- The refusal record, R69. Flag n of the check mask is bit n - 1. -/
structure RefusalRecord where
  answer : Answer
  code : Byte
  mask : BitVec 9
  sector : Word
  count : Byte
  taken : Nat
  uptime : Word
  wall : Word
deriving DecidableEq, Repr

/-- The empty record of R69: every field 0, status OK. -/
def RefusalRecord.empty : RefusalRecord :=
  { answer := .ok, code := 0, mask := 0, sector := 0, count := 0, taken := 0, uptime := 0, wall := 0 }

/-- The running debounce timer: its start and the level being qualified (R66). -/
structure Debounce where
  start : Word
  level : Bool
deriving DecidableEq, Repr

/-- WC, the write checker. -/
structure WriteChecker where
  refusal : RefusalRecord
  slider : Bool
  debounce : Option Debounce
deriving DecidableEq, Repr

/-- R71, Power-on column: the debounced state is the WP level. -/
def WriteChecker.reset (wp : Bool) : WriteChecker :=
  { refusal := .empty, slider := wp, debounce := none }

/-! ### Staging buffer (chapter 1) -/

/-- The states of a line, R1. -/
inductive LineState where
  | free | dirty | draining
deriving DecidableEq, Repr

/-- The classes of a line, R4. -/
inductive LineClass where
  | data | map | record
deriving DecidableEq, Repr

/-- A line record (chapter 1, section 1.1). Slot n of a mask is bit n. `data` has eight places. -/
structure Line where
  state : LineState
  addr : Nat
  valid : BitVec 8
  programmed : BitVec 8
  age : Word
  cls : LineClass
  zone : Option Nat
  data : List Sector
deriving DecidableEq, Repr

/-- A FREE line, R1. Its address, age and class carry no meaning (assumption 9). -/
def Line.free : Line :=
  { state := .free, addr := 0, valid := 0, programmed := 0, age := 0, cls := .data, zone := none,
    data := List.replicate 8 [] }

/-- SB, the staging buffer. The dirty cost and the FREE count are computed from the lines (R3). -/
structure Staging where
  lines : List Line
  ageCounter : Word
  lostCount : Nat
  lastLost : Nat
  deferred : Bool
deriving DecidableEq, Repr

/-- R21, Power-on column. -/
def Staging.reset : Staging :=
  { lines := List.replicate 32 .free, ageCounter := 0, lostCount := 0, lastLost := 0, deferred := false }

/-! ### Media port (chapter 10) -/

/-- What PS asks MP for in HOLDUP (R163). -/
inductive HoldupRequest where
  | drainRun | imageFirst | imageSecond | invalidate
deriving DecidableEq, Repr

/-- The start-up position, R146 to R152; all but the first and the last name the media operation in hand. -/
inductive StartStep where
  | moduleReset | capacity | mapArea | gaugeRecord | dropLog | checkTable | imageFirst | imageSecond | invalidate | served
deriving DecidableEq, Repr

/-- Whom a media operation serves (R163). -/
inductive Requester where
  | readMiss
  | drain
  | holdup (what : HoldupRequest)
  | startup (step : StartStep)
deriving DecidableEq, Repr

/-- The kinds of a media operation, R164. -/
inductive MediaKind where
  | read | write | info
deriving DecidableEq, Repr

/-- The current media operation. `abandoned`: its outcome is discarded and it is not retried (R159, R165). -/
structure MediaOp where
  kind : MediaKind
  sector : Nat
  count : Nat
  data : List Sector
  requester : Requester
  attempt : Nat
  start : Word
  abandoned : Bool
deriving DecidableEq, Repr

/-- A miss run, R158: its first sector and its length. -/
structure MissRun where
  first : Nat
  len : Nat
deriving DecidableEq, Repr

/-- The waiter set, R163: at most one request of each kind. -/
structure Waiters where
  holdup : Option HoldupRequest
  startup : Option StartStep
  readMiss : Option MissRun
  drain : Bool
deriving DecidableEq, Repr

/-- The empty waiter set. -/
def Waiters.none : Waiters :=
  { holdup := Option.none, startup := Option.none, readMiss := Option.none, drain := false }

/-- MP, the media port. `handing` (the model's own, assumption 5) is set while MP hands an outcome over and is not yet
idle; `resetPulses` (the model's own, assumption 21) counts the module reset pulses. -/
structure MediaPort where
  current : Option MediaOp
  waiters : Waiters
  starvation : Nat
  handing : Bool
  resetPulses : Nat
deriving DecidableEq, Repr

/-- R168, Power-on column, before the module reset pulse of R146. -/
def MediaPort.reset : MediaPort :=
  { current := none, waiters := .none, starvation := 0, handing := false, resetPulses := 0 }

/-! ### Zone unit (chapters 3 and 5) -/

/-- The thirteen settings, R38, in the units of its table. -/
structure Settings where
  reserve : Nat
  tf : Nat
  nf : Nat
  settleMs : Nat
  ti : Nat
  design : Nat
  lowSoc : Nat
  criticalSoc : Nat
  cutoff : Nat
  cap : Nat
  vmin : Nat
  ew : Nat
  ei : Nat
deriving DecidableEq, Repr

/-- The defaults of R38. -/
def Settings.default : Settings :=
  { reserve := 2, tf := 90, nf := 40, settleMs := 200, ti := 1536, design := 3400, lowSoc := 15, criticalSoc := 5,
    cutoff := 3000, cap := 4700, vmin := 3000, ew := 900, ei := 4000 }

/-- The states of a zone, R43. -/
inductive ZoneState where
  | unused | opened | closed
deriving DecidableEq, Repr

/-- An entry of the zone table, R43. Base and length carry meaning while the state is OPEN or CLOSED. -/
structure ZoneEntry where
  state : ZoneState
  base : Nat
  length : Nat
deriving DecidableEq, Repr

/-- An UNUSED entry. -/
def ZoneEntry.unused : ZoneEntry :=
  { state := .unused, base := 0, length := 0 }

/-- A runtime record, R72. -/
structure Runtime where
  fillMark : Nat
  crcReg : Word
  frozenCrc : Word
  drops : Nat
  worstPeak : Nat
  minSoc : Nat
  interrupted : Bool
  damaged : Bool
  uncertain : Bool
  openWall : Word
  closeWall : Option Word
deriving DecidableEq, Repr

/-- The cleared record of R52 and R72: all zero, no flag, no close time. -/
def Runtime.cleared : Runtime :=
  { fillMark := 0, crcReg := 0, frozenCrc := 0, drops := 0, worstPeak := 0, minSoc := 0, interrupted := false,
    damaged := false, uncertain := false, openWall := 0, closeWall := none }

/-- ZU, the zone unit. -/
structure ZoneUnit where
  settings : Settings
  timeBase : Word
  latchedUptime : Word
  zones : List ZoneEntry
  runtimes : List Runtime
  ignored : Nat
  readOnly : Bool
deriving DecidableEq, Repr

/-- R56 and R85, Power-on column. -/
def ZoneUnit.reset : ZoneUnit :=
  { settings := .default, timeBase := 0, latchedUptime := 0, zones := List.replicate 64 .unused,
    runtimes := List.replicate 64 .cleared, ignored := 0, readOnly := false }

/-! ### Supply monitor (chapter 2) -/

/-- The write modes, R28. -/
inductive WriteMode where
  | writeBack | writeThrough
deriving DecidableEq, Repr

/-- The rail states, chapter 2 section 2.4. -/
inductive RailState where
  | good | lost | returning
deriving DecidableEq, Repr

/-- SM, the supply monitor. `energy`, `avail`, `budget` and `limit` are E, Avail, H and L; `ewUsed` is the Ew the latest
Avail is compared against (R30). The over-commit flag is computed (R29). -/
structure Supply where
  vsys : Nat
  vcap : Nat
  energy : Nat
  avail : Nat
  budget : Nat
  limit : Nat
  ewUsed : Nat
  mode : WriteMode
  rail : RailState
  qualStart : Word
  converting : Nat
  firstPending : Bool
  cadenceDue : Word
deriving DecidableEq, Repr

/-- R34, Power-on column: the first conversion starts at power-on. -/
def Supply.reset : Supply :=
  { vsys := 0, vcap := 0, energy := 0, avail := 0, budget := 0, limit := 0, ewUsed := 900, mode := .writeThrough,
    rail := .good, qualStart := 0, converting := 1, firstPending := true, cadenceDue := 10 }

/-! ### Motion monitor (chapter 6) -/

/-- The motion states, chapter 6 section 6.3. -/
inductive MotionState where
  | disabled | still | falling | struck | settling
deriving DecidableEq, Repr

/-- The kind of a drop (R92); `other` keeps an unlisted code read from the medium at start-up (assumption 16). -/
inductive DropKind where
  | impact | soft
  | other (code : Byte)
deriving DecidableEq, Repr

/-- The outcome of a drop (R98); `other` as for the kind. -/
inductive DropOutcome where
  | settled | bounced | unsettled | sensorLost | powerLost
  | other (code : Byte)
deriving DecidableEq, Repr

/-- A drop record, R98. -/
structure DropRecord where
  sequence : Nat
  kind : DropKind
  outcome : DropOutcome
  fallSamples : Nat
  height : Nat
  peak : Nat
  uptime : Word
  wall : Word
  soc : Nat
  supplyDip : Bool
  zoneCount : Nat
  zones : List Nat
deriving DecidableEq, Repr

/-- The current drop (chapter 6, section 6.3), beside its fall samples and peak. -/
structure CurrentDrop where
  kind : DropKind
  strikeUptime : Word
  strikeWall : Word
  socAtStrike : Nat
  supplyDip : Bool
deriving DecidableEq, Repr

/-- The fields of the current drop while there is none. -/
def CurrentDrop.none : CurrentDrop :=
  { kind := .soft, strikeUptime := 0, strikeWall := 0, socAtStrike := 0, supplyDip := false }

/-- MM, the motion monitor. -/
structure Motion where
  motion : MotionState
  ffRun : Nat
  fallSamples : Nat
  window : Nat
  peak : Nat
  settleRun : Nat
  settleElapsed : Nat
  stale : Nat
  good : Nat
  drop : CurrentDrop
  log : List DropRecord
  pendingRecs : List DropRecord
  total : Nat
  lastSeq : Nat
deriving DecidableEq, Repr

/-- R104, Power-on column. -/
def Motion.reset : Motion :=
  { motion := .disabled, ffRun := 0, fallSamples := 0, window := 0, peak := 0, settleRun := 0, settleElapsed := 0,
    stale := 0, good := 0, drop := .none, log := [], pendingRecs := [], total := 0, lastSeq := 0 }

/-! ### Battery gauge (chapter 7) -/

/-- A clamped battery sample and its arrival time (R105). -/
structure GaugeSample where
  v : Int
  i : Int
  t : Int
  arrived : Word
deriving DecidableEq, Repr

/-- BG, the battery gauge (chapter 7, section 7.1). `band` is 1 to 5, or 0 for none. -/
structure Gauge where
  rc : Nat
  fcc : Nat
  band : Nat
  iavg : Int
  last : Option GaugeSample
  intPoint : Word
  stale : Nat
  restRun : Nat
  emptyRun : Nat
  fullRun : Nat
  flagStale : Bool
  flagUnknown : Bool
  flagUncertain : Bool
  isSet : Bool
  total : Nat
  residue : Nat
  soc : Nat
  runtime : Nat
  socReported : Bool
  firstTimer : Option Word
deriving DecidableEq, Repr

/-- R125, Power-on column: the design capacity is the default 3400 mAh and D is 256, so FCC_eff is 3400 × 3,600,000. The
total discharged is 0 until the image decision (assumption 21). -/
def Gauge.reset : Gauge :=
  { rc := 0, fcc := 12240000000, band := 0, iavg := 0, last := none, intPoint := 0, stale := 0, restRun := 0,
    emptyRun := 0, fullRun := 0, flagStale := false, flagUnknown := false, flagUncertain := false, isSet := false,
    total := 0, residue := 0, soc := 0, runtime := 65535, socReported := false, firstTimer := none }

/-! ### Power supervisor (chapters 7 and 9) -/

/-- The power states, chapter 7 section 7.7. -/
inductive PowerState where
  | starting | normal | low | critical | holdup | off
deriving DecidableEq, Repr

/-- The hold-up phases, chapter 9 section 9.1. -/
inductive HoldupPhase where
  | drain | save | invalidate
deriving DecidableEq, Repr

/-- The restart causes, R146 and R148. -/
inductive RestartCause where
  | none | cold | restored | imageRejected
deriving DecidableEq, Repr

/-- PS, the power supervisor. -/
structure PowerSup where
  power : PowerState
  phase : Option HoldupPhase
  offreq : Bool
  cause : RestartCause
  startPos : StartStep
  mediaFault : Bool
  capacity : Nat
  mapCopy : Option (List Sector)
  coldTotal : Nat
  checkRead : List Sector
  imageRead : Option (List Sector)
  image : List Sector
  brownedOut : Bool
deriving DecidableEq, Repr

/-- R126 and R153, Power-on column. -/
def PowerSup.reset : PowerSup :=
  { power := .starting, phase := none, offreq := false, cause := .none, startPos := .moduleReset, mediaFault := false,
    capacity := 0, mapCopy := none, coldTotal := 0, checkRead := [], imageRead := none, image := [],
    brownedOut := false }

/-! ### Sense engine (chapter 8) -/

/-- The transaction states of SE, R127. -/
inductive TransState where
  | idle | waitBus | transfer | recovery
deriving DecidableEq, Repr

/-- The two kinds of sense read, R130. -/
inductive SenseKind where
  | motion | gauge
deriving DecidableEq, Repr

/-- What follows the recovery train in progress: the first polling after power-on (R135), the next attempt, the end of
a read whose third attempt failed (R136), or the end without a miss after polling has stopped (R134). -/
inductive AfterTrain where
  | powerOn | retry | miss | quiet
deriving DecidableEq, Repr

/-- A sample or a miss on its way to its consumer (R131). -/
inductive Handover where
  | motionSample (x y z : BitVec 16)
  | motionMiss
  | gaugeSample (v i t : BitVec 16)
  | gaugeMiss
deriving DecidableEq, Repr

/-- SE, the sense engine. -/
structure SenseEngine where
  trans : TransState
  reading : Option SenseKind
  attempt : Nat
  motionPending : Bool
  gaugePending : Bool
  busBusy : Bool
  since : Word
  afterTrain : AfterTrain
  stopping : Bool
  timersOn : Bool
  motionDue : Word
  gaugeDue : Word
  gaugeStart : Option Word
  alertDeferred : Bool
  noAck : Nat
  arbLost : Nat
  busError : Nat
  timeout : Nat
  pecBad : Nat
  handed : List Handover
deriving DecidableEq, Repr

/-- R135, Power-on column: RECOVERY for one train. The bus busy indication during that train and the due instants of
timers that do not run yet: assumption 21. -/
def SenseEngine.reset : SenseEngine :=
  { trans := .recovery, reading := none, attempt := 0, motionPending := false, gaugePending := false, busBusy := false,
    since := 0, afterTrain := .powerOn, stopping := false, timersOn := false, motionDue := 0, gaugeDue := 0,
    gaugeStart := none, alertDeferred := false, noAck := 0, arbLost := 0, busError := 0, timeout := 0, pecBad := 0,
    handed := [] }

/-! ### Report unit (chapter 11) -/

/-- RU, the report unit. `pending` and `changed` are the checkpoint pending set and the changed set, as ascending lists
of record-area tail offsets. The indicator pattern is computed (R177). -/
structure ReportUnit where
  attn : Bool
  pending : List Nat
  changed : List Nat
  timerDue : Option Word
deriving DecidableEq, Repr

/-- R179, Power-on column. -/
def ReportUnit.reset : ReportUnit :=
  { attn := false, pending := [], changed := [], timerDue := none }

/-! ### The whole part -/

/-- The input pins whose level the part keeps looking at. -/
structure Pins where
  wp : Bool
  frst : Bool
deriving DecidableEq, Repr

/-- The state of the part. `msOfSec` and `fresh` are the model's own (assumptions 3 and 6); the queue of
commands that wait, first in first out, is `pending`. -/
structure State where
  uptimeMs : Word
  uptimeSec : Word
  msOfSec : Nat
  fresh : Nat
  pins : Pins
  fp : FrontPort
  wc : WriteChecker
  sb : Staging
  mp : MediaPort
  zu : ZoneUnit
  sm : Supply
  mm : Motion
  bg : Gauge
  ps : PowerSup
  se : SenseEngine
  ru : ReportUnit
  pending : List Instr
deriving DecidableEq, Repr

/-- No rule of the spec stops the part: every error it names is a state with a described behaviour. So no command ends
in a fault, and there is no reason to give. -/
inductive Fault where
deriving DecidableEq, Repr

/-- Why a command has no meaning. -/
inductive Refusal where
  /-- The command is not modelled yet. Raised by exec's arm for it and by nothing else; safe (the model stops where the
  part goes on). No arm of this model raises it. -/
  | notModelled (mnemonic : String)
deriving DecidableEq, Repr

/-- The part at its power-on values, before POWER_ON has pulsed the module reset and issued the capacity INFO (R146):
every field as the Power-on column of its chapter's reset table gives it. Pins and model's own fields: assumptions 8
and 21. -/
def State.reset : State :=
  { uptimeMs := 0, uptimeSec := 0, msOfSec := 0, fresh := 0, pins := { wp := false, frst := false },
    fp := .reset, wc := .reset false, sb := .reset, mp := .reset, zu := .reset, sm := .reset, mm := .reset,
    bg := .reset, ps := .reset, se := .reset, ru := .reset, pending := [] }

end Sys2Proof.Machine
end

