-- ==== Sys2Proof/Machine/Operands.lean ====
section
/-! DEFINITION. How the part reads and forms bytes: little-endian fields, markers, sectors, the values of a command's
operands, and the two cyclic redundancy checks (00_scope.md "Byte order", chapters 5, 8 and 11). -/

namespace Sys2Proof.Machine

open Sys2Proof

/-! ### Numbers -/

/-- 00_scope.md, "Numbers": a value outside a range is replaced by the nearer end. -/
def clampNat (lo hi x : Nat) : Nat :=
  max lo (min hi x)

/-- As `clampNat`, on signed values. -/
def clampInt (lo hi x : Int) : Int :=
  max lo (min hi x)

/-- 00_scope.md, "Numbers": a saturating addition stops at its largest value. -/
def satAdd (most a b : Nat) : Nat :=
  min most (a + b)

/-- Division rounded up, for R112. -/
def ceilDiv (a b : Nat) : Nat :=
  (a + (b - 1)) / b

/-! ### Reading fields -/

/-- The byte at an offset; 0 beyond the bytes that came (assumption 22). -/
def byteAt (l : List Byte) (i : Nat) : Byte :=
  l.getD i 0

/-- A one-byte field. -/
def u8At (l : List Byte) (i : Nat) : Nat :=
  (byteAt l i).toNat

/-- A two-byte little-endian field. -/
def u16At (l : List Byte) (i : Nat) : Nat :=
  u8At l i + 256 * u8At l (i + 1)

/-- A four-byte little-endian field. -/
def u32At (l : List Byte) (i : Nat) : Nat :=
  u16At l i + 65536 * u16At l (i + 2)

/-- An eight-byte little-endian field. -/
def u64At (l : List Byte) (i : Nat) : Nat :=
  u32At l i + 4294967296 * u32At l (i + 4)

/-- A four-byte field as a word. -/
def wordAt (l : List Byte) (i : Nat) : Word :=
  BitVec.ofNat 32 (u32At l i)

/-- A two-byte signed field. -/
def s16At (l : List Byte) (i : Nat) : Int :=
  (BitVec.ofNat 16 (u16At l i)).toInt

/-! ### Forming fields -/

/-- The `k` low bytes of a value, least significant first. -/
def le : Nat → Nat → List Byte
  | 0, _ => []
  | k + 1, n => BitVec.ofNat 8 n :: le k (n / 256)

/-- The two bytes of a signed value. -/
def le16s (x : Int) : List Byte :=
  le 2 (BitVec.ofInt 16 x).toNat

/-- One byte whose bits are the given flags, bit 0 first. -/
def flagByte : List Bool → Nat
  | [] => 0
  | b :: bs => (if b then 1 else 0) + 2 * flagByte bs

/-- ASCII characters in reading order. -/
def ascii (cs : List Char) : List Byte :=
  cs.map fun c => BitVec.ofNat 8 c.toNat

/-- The bytes `bs` put at offset `off` of `l`. -/
def putAt (off : Nat) (bs l : List Byte) : List Byte :=
  l.take off ++ bs ++ l.drop (off + bs.length)

/-- `n` bytes, zero but for the listed fields (chapter 11, section 11.6: "every byte not listed is written as 0"). -/
def layout (n : Nat) (fields : List (Nat × List Byte)) : List Byte :=
  fields.foldl (fun l f => putAt f.1 f.2 l) (List.replicate n 0)

/-- Exactly 512 bytes: what is missing reads 0, what is more is dropped (assumption 22). -/
def toSector (l : List Byte) : Sector :=
  (l ++ List.replicate 512 0).take 512

/-- The first `n` sectors of a payload, in sector order (chapter 10, section 10.1). -/
def sectorsOf : Nat → List Byte → List Sector
  | 0, _ => []
  | n + 1, l => toSector l :: sectorsOf n (l.drop 512)

/-- A sector of zeros. -/
def zeroSector : Sector :=
  List.replicate 512 0

/-! ### Markers (chapter 11, section 11.6) -/

/-- The map header's marker, R39. -/
def markerZoneMap : List Byte :=
  ascii ['Z', 'O', 'N', 'E', 'M', 'A', 'P', '1']

/-- The live status marker. -/
def markerLive : List Byte :=
  ascii ['G', 'S', '2', '4', 'L', 'I', 'V', 'E']

/-- The gauge record's marker. -/
def markerGauge : List Byte :=
  ascii ['G', 'S', '2', '4', 'G', 'A', 'U', 'G']

/-- The drop log's marker. -/
def markerDropLog : List Byte :=
  ascii ['D', 'L', 'O', 'G']

/-- The context image's marker, R140. -/
def markerImage : List Byte :=
  ascii ['G', 'S', '2', '4', 'C', 'T', 'X', 'I']

/-- The marker of an invalidated image, R145: "EMPTY" and three zero bytes. -/
def markerEmpty : List Byte :=
  ascii ['E', 'M', 'P', 'T', 'Y'] ++ [0, 0, 0]

/-- The bytes at an offset read as a marker. -/
def hasMarker (marker : List Byte) (off : Nat) (l : List Byte) : Bool :=
  (l.drop off).take marker.length = marker

/-! ### CRC-32 (R74) -/

/-- One of the eight shifts of a byte: the register is combined with 0xEDB88320 when a 1 was shifted out. -/
def crc32Shift (r : Word) : Word :=
  if r.getLsbD 0 then (r >>> 1) ^^^ 0xEDB88320#32 else r >>> 1

/-- One byte into the CRC-32 register. -/
def crc32Byte (r : Word) (b : Byte) : Word :=
  crc32Shift (crc32Shift (crc32Shift (crc32Shift (crc32Shift (crc32Shift (crc32Shift (crc32Shift
    (r ^^^ b.setWidth 32))))))))

/-- Bytes in order into the CRC-32 register. -/
def crc32Update (r : Word) (bytes : List Byte) : Word :=
  bytes.foldl crc32Byte r

/-- The initial register, R74. -/
def crc32Init : Word :=
  0xFFFFFFFF#32

/-- Register to reported value and back, R74. -/
def crc32Report (r : Word) : Word :=
  r ^^^ 0xFFFFFFFF#32

/-- The reported CRC-32 of some bytes. -/
def crc32 (bytes : List Byte) : Word :=
  crc32Report (crc32Update crc32Init bytes)

/-! ### CRC-8 (R129) -/

/-- One shift: the register is combined with 0x07 when a 1 was shifted out. -/
def crc8Shift (r : Byte) : Byte :=
  if r.getLsbD 7 then (r <<< 1) ^^^ 0x07#8 else r <<< 1

/-- One byte into the CRC-8 register. -/
def crc8Byte (r b : Byte) : Byte :=
  crc8Shift (crc8Shift (crc8Shift (crc8Shift (crc8Shift (crc8Shift (crc8Shift (crc8Shift (r ^^^ b))))))))

/-- The CRC-8 of some bytes: register 0 at the start, no final inversion. -/
def crc8 (bytes : List Byte) : Byte :=
  bytes.foldl crc8Byte 0

/-! ### The devices of the sense bus (R127) -/

/-- A row of R127's device table: 7-bit address, register byte, data bytes without a PEC byte, and whether one follows. -/
structure SenseDevice where
  address : BitVec 7
  register : Byte
  dataBytes : Nat
  pec : Bool
deriving DecidableEq, Repr

/-- R127: the device that a read of a kind addresses, the accelerometer or the battery monitor. -/
def SenseKind.device : SenseKind → SenseDevice
  | .motion => { address := 0x26#7, register := 0x10#8, dataBytes := 6, pec := false }
  | .gauge => { address := 0x5A#7, register := 0x20#8, dataBytes := 6, pec := true }

/-- R127: the address byte of a write. -/
def SenseDevice.writeByte (d : SenseDevice) : Byte :=
  d.address ++ 0#1

/-- R127: the address byte of a read. -/
def SenseDevice.readByte (d : SenseDevice) : Byte :=
  d.address ++ 1#1

/-- R128: the bytes SE sends in an attempt, in the order they pass on the bus. -/
def SenseDevice.sent (d : SenseDevice) : List Byte :=
  [d.writeByte, d.register, d.readByte]

/-- R128: how many bytes the device returns. -/
def SenseDevice.returned (d : SenseDevice) : Nat :=
  if d.pec then d.dataBytes + 1 else d.dataBytes

/-- R129: the PEC of a read covers the bytes SE sends and the data bytes. -/
def SenseDevice.pecOf (d : SenseDevice) (data : List Byte) : Byte :=
  crc8 (d.sent ++ data.take d.dataBytes)

/-! ### Data bytes of a sense read (R127) -/

/-- A data byte of an attempt; a device that does not drive its bytes gives ones (R133). -/
def senseByte (l : List Byte) (i : Nat) : Byte :=
  l.getD i 0xFF#8

/-- One of the three 16-bit values of a read, least significant byte first. -/
def senseValue (l : List Byte) (k : Nat) : BitVec 16 :=
  senseByte l (2 * k + 1) ++ senseByte l (2 * k)

/-- The six data bytes of a read as they came, ones where none came. -/
def senseData (l : List Byte) : List Byte :=
  [senseByte l 0, senseByte l 1, senseByte l 2, senseByte l 3, senseByte l 4, senseByte l 5]

end Sys2Proof.Machine
end

