-- ==== Sys2Proof/Machine/Flags.lean ====
section
/-! DEFINITION. What the part computes from its state without storing it again: runs and the dirty cost, the brace, the
over-commit flag, regions and zones, wall seconds, the output pins and the indicator bar. -/

namespace Sys2Proof.Machine

open Sys2Proof

/-! ### Ages, runs and the dirty cost (chapter 1) -/

/-- R2: age `a` is earlier than age `b`. -/
def earlier (a b : Word) : Bool :=
  1 ≤ (b - a).toNat && (b - a).toNat ≤ 2147483648

/-- The mask of `len` slots from slot `first`. -/
def slotMask (first len : Nat) : BitVec 8 :=
  BitVec.ofNat 8 ((2 ^ len - 1) * 2 ^ first)

/-- The slots of a line that are valid and not programmed. -/
def Line.undone (l : Line) : BitVec 8 :=
  l.valid &&& ~~~l.programmed

/-- A run of R3 starts at slot `i` of a mask: slot `i` is in it and slot `i - 1` is not. -/
def runStartsAt (m : BitVec 8) (i : Nat) : Bool :=
  m.getLsbD i && (i == 0 || !m.getLsbD (i - 1))

/-- R3: the number of maximal groups of consecutive slots of a mask. -/
def maskRuns (m : BitVec 8) : Nat :=
  ((List.range 8).filter fun i => runStartsAt m i).length

/-- The number of consecutive slots of a mask from slot `i` on, at most `fuel`. -/
def runLenFrom (m : BitVec 8) : Nat → Nat → Nat
  | 0, _ => 0
  | fuel + 1, i => if m.getLsbD i then runLenFrom m fuel (i + 1) + 1 else 0

/-- R18: the run with the lowest slot: its first slot and its length. -/
def firstRun (m : BitVec 8) : Option (Nat × Nat) :=
  ((List.range 8).find? fun i => m.getLsbD i).map fun i => (i, runLenFrom m 8 i)

/-- A line holds sectors: it is DIRTY or DRAINING. -/
def Line.live (l : Line) : Bool :=
  l.state != .free

/-- R3: a line's run count; a FREE line has none. -/
def Line.runCount (l : Line) : Nat :=
  if l.live then maskRuns l.undone else 0

/-- R3: the dirty cost, the sum of the run counts of all DIRTY and DRAINING lines. -/
def dirtyCost (lines : List Line) : Nat :=
  (lines.map Line.runCount).sum

/-- The number of FREE line records (R6, R170). -/
def freeCount (lines : List Line) : Nat :=
  (lines.filter fun l => !l.live).length

/-- Some line is DIRTY or DRAINING. -/
def staged (lines : List Line) : Bool :=
  lines.any Line.live

/-- The place of the best line that meets `p`, where `better a b` says that `a` goes before `b`. -/
def pickLine (better : Line → Line → Bool) (p : Line → Bool) : List Line → Nat → Option (Nat × Line)
  | [], _ => none
  | l :: ls, i =>
    match pickLine better p ls (i + 1) with
    | none => if p l then some (i, l) else none
    | some (j, m) => if p l && !better m l then some (i, l) else some (j, m)

/-- The oldest line that meets `p` (R2). -/
def oldestLine (p : Line → Bool) (lines : List Line) : Option (Nat × Line) :=
  pickLine (fun a b => earlier a.age b.age) p lines 0

/-- The newest line that meets `p` (R2). -/
def newestLine (p : Line → Bool) (lines : List Line) : Option (Nat × Line) :=
  pickLine (fun a b => earlier b.age a.age) p lines 0

/-- R16: the newest DIRTY or DRAINING line that holds a sector valid. -/
def holderOf (lines : List Line) (sector : Nat) : Option (Nat × Line) :=
  newestLine (fun l => l.live && l.addr == sector / 8 && l.valid.getLsbD (sector % 8)) lines

/-- R2, R13, R14: some DIRTY or DRAINING line is below a mark. -/
def anyBelow (lines : List Line) (mark : Word) : Bool :=
  lines.any fun l => l.live && earlier l.age mark

/-! ### The brace, the flags of the supply monitor, and the gauge -/

/-- Chapter 6, section 6.3: the part is braced while FALLING, STRUCK or SETTLING. -/
def bracedState : MotionState → Bool
  | .disabled => false
  | .still => false
  | .falling => true
  | .struck => true
  | .settling => true

/-- R29: the over-commit flag is set while the dirty cost is greater than L and clear otherwise. -/
def overCommit (s : State) : Bool :=
  s.sm.limit < dirtyCost s.sb.lines

/-- R114: the charging indication. -/
def charging (g : Gauge) : Bool :=
  g.iavg < -10

/-- NORMAL, LOW and CRITICAL: the states in which requests are checked and checkpoints offered. -/
def inService : PowerState → Bool
  | .starting => false
  | .normal => true
  | .low => true
  | .critical => true
  | .holdup => false
  | .off => false

/-- R86, R105: the power states in which samples and misses are discarded. -/
def consumersStopped (s : State) : Bool :=
  s.ps.power == .holdup || s.ps.power == .off

/-- R148: the image decision of start-up has been made. -/
def imageDecided : StartStep → Bool
  | .invalidate => true
  | .served => true
  | _ => false

/-! ### Regions and zones (chapter 3) -/

/-- T, the tail base: the working capacity minus 32. -/
def tailBase (s : State) : Nat :=
  s.ps.capacity - 32

/-- The tail offset of a sector at or beyond T. -/
def tailOffset? (s : State) (sector : Nat) : Option Nat :=
  if sector < tailBase s then none else some (sector - tailBase s)

/-- The sector lies in the live window, tail offsets 5 to 10. -/
def inLiveWindow (s : State) (sector : Nat) : Bool :=
  tailBase s + 5 ≤ sector && sector ≤ tailBase s + 10

/-- The entry's range holds the sector, and its zone is OPEN or CLOSED (R37). -/
def ZoneEntry.holds (z : ZoneEntry) (sector : Nat) : Bool :=
  z.state != .unused && z.base ≤ sector && sector < z.base + z.length

/-- R37: the zone a sector lies in. -/
def zoneOf (zones : List ZoneEntry) (sector : Nat) : Option Nat :=
  zones.findIdx? fun z => z.holds sector

/-- Entry k of the zone table. -/
def zoneAt (s : State) (k : Nat) : ZoneEntry :=
  s.zu.zones.getD k .unused

/-- The runtime record of zone k. -/
def runtimeAt (s : State) (k : Nat) : Runtime :=
  s.zu.runtimes.getD k .cleared

/-- The tail offset of the persisted check-table sector of zone k (R49). -/
def checkOffset (k : Nat) : Nat :=
  13 + k / 16

/-! ### Time -/

/-- R41: the wall seconds of the present instant. -/
def wallSeconds (s : State) : Word :=
  if s.zu.timeBase = 0 then 0 else s.zu.timeBase + s.uptimeSec - s.zu.latchedUptime

/-- Milliseconds from an instant to now, modulo 2^32. -/
def elapsedMs (s : State) (since : Word) : Nat :=
  (s.uptimeMs - since).toNat

/-! ### Outputs (R127, R143, R154, R156, R161, R171, R177, R178) -/

/-- An output pin: released (high impedance), or driven inactive or active. -/
inductive OutPin where
  | released | inactive | active
deriving DecidableEq, Repr

/-- R156, R162, R143: WAIT is asserted in HELD, COMPLETING and MISS_WAIT, and released in OFF. -/
def waitPin (s : State) : OutPin :=
  match s.fp.port with
  | .held => .active
  | .completing => .active
  | .missWait => .active
  | .closed => .released
  | .idle => .inactive
  | .taking => .inactive
  | .assembling => .inactive
  | .answering => .inactive

/-- R171: ATTN follows the latch from the first service on, and is released in OFF (R143). -/
def attnPin (s : State) : OutPin :=
  if s.ps.power = .off then .released
  else if s.ps.startPos = .served then (if s.ru.attn then .active else .inactive)
  else .inactive

/-- R124, R143: OFFREQ. -/
def offreqPin (s : State) : OutPin :=
  if s.ps.power = .off then .released else if s.ps.offreq then .active else .inactive

/-- R143, R146, R164: MRST, the module reset. A pulse is over within the step that makes it (`resetPulses` counts them);
released in OFF. -/
def mrstPin (s : State) : OutPin :=
  if s.ps.power = .off then .released else .inactive

/-- Lines that the part drives at times and lets go at others. -/
inductive Lines where
  | released | driven
deriving DecidableEq, Repr

/-- R143, R154, R161: FD0 to FD7 and FSTB are the part's to drive while a response is pending or being sent. -/
def frontLines (s : State) : Lines :=
  match s.fp.port with
  | .answering => .driven
  | .idle => .released
  | .taking => .released
  | .held => .released
  | .completing => .released
  | .assembling => .released
  | .missWait => .released
  | .closed => .released

/-- R143, R154, R164, R168: MD0 to MD7 and MSTB are the part's to drive during a media operation; released in OFF. -/
def mediaLines (s : State) : Lines :=
  if s.ps.power = .off then .released else if s.mp.current.isSome then .driven else .released

/-- R127, R128, R134, R136, R143: SCL and SDA are SE's to drive during an attempt and a recovery train; it lets them go
otherwise, and in OFF. -/
def senseLines (s : State) : Lines :=
  if s.ps.power = .off then .released
  else
    match s.se.trans with
    | .idle => .released
    | .waitBus => .released
    | .transfer => .driven
    | .recovery => .driven

/-- R127, R128: the address and register bytes that SE sends in the attempt on the bus. -/
def attemptBytes (s : State) : List Byte :=
  match s.se.trans, s.se.reading with
  | .transfer, some k => k.device.sent
  | _, _ => []

/-- The indicator patterns of R177. `bar` carries the number of LEDs lit by SOC, the LOW blink and the charging
blink. -/
inductive Pattern where
  | allOff
  | unknown
  | critical
  | bar (lit : Nat) (low : Bool) (charge : Bool)
deriving DecidableEq, Repr

/-- R177: how many LEDs the bar by SOC lights: 0 for SOC 0, 1 for 1 to 25, 2 for 26 to 50, 3 for 51 to 75, else 4. -/
def barBySoc (soc : Nat) : Nat :=
  (soc + 24) / 25

/-- R177: the pattern is the first row whose condition holds. -/
def indicatorPattern (s : State) : Pattern :=
  if !inService s.ps.power || s.ps.mediaFault then .allOff
  else if s.bg.flagUnknown then .unknown
  else if s.ps.power = .critical then .critical
  else .bar (barBySoc s.bg.soc) (s.ps.power = .low) (charging s.bg)

/-- R178: a 1 Hz blink is on while the counter modulo 1000 is below 500. -/
def blink1Hz (ms : Word) : Bool :=
  ms.toNat % 1000 < 500

/-- R178: a 4 Hz blink is on while the counter modulo 250 is below 125. -/
def blink4Hz (ms : Word) : Bool :=
  ms.toNat % 250 < 125

/-- Whether LED `n` (1 to 4) is lit under a pattern at an instant (R177, R178). -/
def ledLit (p : Pattern) (ms : Word) (n : Nat) : Bool :=
  match p with
  | .allOff => false
  | .unknown => (n == 1 && blink1Hz ms) || (n == 4 && !blink1Hz ms)
  | .critical => n == 1 && blink4Hz ms
  | .bar lit low charge =>
    if low && n == 1 then blink1Hz ms
    else if n ≤ lit then true
    else charge && n == lit + 1 && blink1Hz ms

/-- The pin of LED `n`: released in OFF, else as the pattern says. -/
def ledPin (s : State) (n : Nat) : OutPin :=
  if s.ps.power = .off then .released
  else if ledLit (indicatorPattern s) s.uptimeMs n then .active else .inactive

end Sys2Proof.Machine
end

