-- ==== Sys2Proof/Machine/Ops.lean ====
section
/-! DEFINITION. The named operations shared by the blocks: the passage of time, the reports to the report unit, and the
access to the zone records. -/

namespace Sys2Proof.Machine

open Sys2Proof

/-! ### Time (00_scope.md "Time inside the part"; assumptions 2 and 3) -/

/-- `n` milliseconds pass: the millisecond counter wraps, the second counter saturates. -/
def passTime (n : Nat) (s : State) : State :=
  { s with
    uptimeMs := s.uptimeMs + BitVec.ofNat 32 n
    uptimeSec := BitVec.ofNat 32 (satAdd 4294967295 s.uptimeSec.toNat ((s.msOfSec + n) / 1000))
    msOfSec := (s.msOfSec + n) % 1000 }

/-- Time passes up to an instant of the millisecond counter; nothing happens when the instant is now or past. -/
def waitUntil (instant : Word) (s : State) : State :=
  if (instant - s.uptimeMs).toNat ≤ 2147483648 then passTime (instant - s.uptimeMs).toNat s else s

/-! ### Reports to the report unit (chapter 11) -/

/-- R171: a report sets the ATTN latch. -/
def raiseAttn (s : State) : State :=
  { s with ru := { s.ru with attn := true } }

/-- A tail offset put into an ascending set, at most once. -/
def insertOffset (o : Nat) : List Nat → List Nat
  | [] => [o]
  | x :: xs => if o < x then o :: x :: xs else if o = x then x :: xs else x :: insertOffset o xs

/-- R173: a sector is marked for checkpoint. -/
def markSector (o : Nat) (s : State) : State :=
  { s with ru := { s.ru with pending := insertOffset o s.ru.pending } }

/-- R122, R149: all six record-area sectors are marked. -/
def markAll (s : State) : State :=
  { s with ru := { s.ru with pending := [11, 12, 13, 14, 15, 16] } }

/-- R175: a sector joins the changed set. -/
def noteChanged (o : Nat) (s : State) : State :=
  { s with ru := { s.ru with changed := insertOffset o s.ru.changed } }

/-- R83: a runtime change of zone k. -/
def runtimeChange (k : Nat) (s : State) : State :=
  noteChanged (checkOffset k) s

/-! ### Zone records -/

/-- The runtime record of zone k replaced. -/
def setRuntime (k : Nat) (r : Runtime) (s : State) : State :=
  { s with zu := { s.zu with runtimes := s.zu.runtimes.set k r } }

/-- The zone table entry of zone k replaced. -/
def setZone (k : Nat) (z : ZoneEntry) (s : State) : State :=
  { s with zu := { s.zu with zones := s.zu.zones.set k z } }

/-- The three zone flags of R79. -/
inductive ZoneFlag where
  | interrupted | damaged | uncertain
deriving DecidableEq, Repr

/-- A flag of a runtime record. -/
def Runtime.flag (r : Runtime) : ZoneFlag → Bool
  | .interrupted => r.interrupted
  | .damaged => r.damaged
  | .uncertain => r.uncertain

/-- A runtime record with a flag set. -/
def Runtime.withFlag (r : Runtime) : ZoneFlag → Runtime
  | .interrupted => { r with interrupted := true }
  | .damaged => { r with damaged := true }
  | .uncertain => { r with uncertain := true }

/-- R79: the setting of a flag that was clear marks the zone's check sector, reports a new zone flag (ATTN) and is a
runtime change; a flag already set changes nothing. -/
def setZoneFlag (f : ZoneFlag) (k : Nat) (s : State) : State :=
  if (runtimeAt s k).flag f then s
  else raiseAttn (markSector (checkOffset k) (runtimeChange k (setRuntime k ((runtimeAt s k).withFlag f) s)))

/-- A step made for each zone number below `n`, in ascending order. -/
def forZones (n : Nat) (step : Nat → State → State) (s : State) : State :=
  (List.range n).foldl (fun s k => step k s) s

/-! ### Hand-over of sense events (R131) -/

/-- SE hands a sample or a miss to its consumer, which acts on it as an event of its own. In HOLDUP and OFF the consumer
discards it at the hand-over (R86, R105, R134). -/
def handOver (h : Handover) (s : State) : State :=
  if consumersStopped s then s else { s with se := { s.se with handed := s.se.handed ++ [h] } }

/-- The consumer takes a handed-over sample or miss. -/
def takeHandover (h : Handover) (s : State) : State :=
  { s with se := { s.se with handed := s.se.handed.erase h } }

end Sys2Proof.Machine
end

