-- ==== Sys2Proof/Machine/Staging.lean ====
section
/-! DEFINITION. The staging buffer, chapter 1: placing a sector, the admission test, choosing and finishing runs. -/

namespace Sys2Proof.Machine

open Sys2Proof

/-- R5: a merge target is a DIRTY line of the sector's line address and class; a MAP sector never merges. -/
def mergeTarget (lines : List Line) (cls : LineClass) (sector : Nat) : Option (Nat × Line) :=
  if cls = .map then none
  else newestLine (fun l => l.state == .dirty && l.addr == sector / 8 && l.cls == cls) lines

/-- R6: which class may allocate, by the FREE count and the reserve R. -/
def mayAllocate (lines : List Line) (cls : LineClass) (reserve : Nat) : Bool :=
  match cls with
  | .data => reserve < freeCount lines
  | .map => 1 ≤ freeCount lines
  | .record => 1 ≤ freeCount lines

/-- R8: a sector stored in its slot of a line, its valid flag set. -/
def Line.store (l : Line) (slot : Nat) (data : Sector) : Line :=
  { l with valid := l.valid ||| slotMask slot 1, data := l.data.set slot data }

/-- R6: the line an allocation makes of a FREE record. -/
def newLine (cls : LineClass) (sector : Nat) (zone : Option Nat) (age : Word) (data : Sector) : Line :=
  Line.store { Line.free with state := .dirty, addr := sector / 8, age := age, cls := cls, zone := zone }
    (sector % 8) data

/-- R5, R6: the buffer with the sector merged, or stored in the lowest-numbered FREE line; none when it needs a line and
none is allowed. The allocation advances the age counter (R2). -/
def placeSector (sb : Staging) (cls : LineClass) (sector : Nat) (zone : Option Nat) (reserve : Nat) (data : Sector) :
    Option Staging :=
  match mergeTarget sb.lines cls sector with
  | some (i, l) => some { sb with lines := sb.lines.set i (l.store (sector % 8) data) }
  | none =>
    if mayAllocate sb.lines cls reserve then
      match sb.lines.findIdx? fun l => !l.live with
      | some i =>
        some { sb with
          lines := sb.lines.set i (newLine cls sector zone sb.ageCounter data)
          ageCounter := sb.ageCounter + 1 }
      | none => none
    else none

/-- What an admission test answers (R8, R10, R11). -/
inductive AdmitTest where
  | admitted (sb : Staging)
  | refused (why : HoldReason)

/-- R7: the cost an admission would produce is allowed. -/
def costAllows (before after limit : Nat) : Bool :=
  after ≤ max 1 limit || after ≤ before

/-- R5 to R8: the admission test of a sector. -/
def admitTest (sb : Staging) (cls : LineClass) (sector : Nat) (zone : Option Nat) (reserve limit : Nat)
    (data : Sector) : AdmitTest :=
  match placeSector sb cls sector zone reserve data with
  | none => .refused .noLine
  | some sb' =>
    if costAllows (dirtyCost sb.lines) (dirtyCost sb'.lines) limit then .admitted sb' else .refused .cost

/-- R4: the class of a front write sector. -/
def frontClass (s : State) (sector : Nat) : LineClass :=
  if tailBase s ≤ sector && sector ≤ tailBase s + 4 then .map else .data

/-- R4: the zone number a DATA line records, the OPEN zone it lies in. -/
def lineZone (s : State) (cls : LineClass) (sector : Nat) : Option Nat :=
  if cls = .data then (zoneOf s.zu.zones sector).filter fun k => (zoneAt s k).state = .opened else none

/-- The admission test of a front write sector against the state of the part. -/
def frontAdmitTest (s : State) (sector : Nat) (data : Sector) : AdmitTest :=
  admitTest s.sb (frontClass s sector) sector (lineZone s (frontClass s sector) sector) s.zu.settings.reserve
    s.sm.limit data

/-! ### Drains (R17, R18) -/

/-- A media operation drains a run of SB. -/
def Requester.isDrain : Requester → Bool
  | .drain => true
  | .holdup .drainRun => true
  | _ => false

/-- A run is in flight. -/
def runInFlight (s : State) : Bool :=
  match s.mp.current with
  | some op => op.requester.isDrain
  | none => false

/-- R17: a DRAINING line has a run not yet issued. -/
def hasUnissuedRun (s : State) : Bool :=
  s.sb.lines.any fun l => l.state == .draining && (if runInFlight s then 1 else 0) < l.runCount

/-- R17: SB keeps a drain request while lines wait and the part is not braced, or is in HOLDUP. -/
def drainWanted (s : State) : Bool :=
  (s.sb.lines.any (fun l => l.state == .dirty) || hasUnissuedRun s) &&
    (!bracedState s.mm.motion || s.ps.power == .holdup)

/-- R17: the line whose run is issued next: the DRAINING line, else the DIRTY line of oldest age. -/
def nextDrainLine (lines : List Line) : Option (Nat × Line) :=
  match newestLine (fun l => l.state == .draining) lines with
  | some p => some p
  | none => oldestLine (fun l => l.state == .dirty) lines

/-- A run chosen for a drain grant: the line record's number, the run's first slot and its length. -/
structure RunChoice where
  idx : Nat
  line : Line
  first : Nat
  len : Nat

/-- R17, R18: the run that a drain grant issues. -/
def chooseRun (lines : List Line) : Option RunChoice :=
  match nextDrainLine lines with
  | none => none
  | some (i, l) =>
    match firstRun l.undone with
    | none => none
    | some (first, len) => some { idx := i, line := l, first := first, len := len }

/-- The media sector number of a run's first slot (R18). -/
def RunChoice.sector (c : RunChoice) : Nat :=
  c.line.addr * 8 + c.first

/-- R1: the chosen line becomes DRAINING. -/
def startDraining (c : RunChoice) (s : State) : State :=
  { s with sb := { s.sb with lines := s.sb.lines.set c.idx { c.line with state := .draining } } }

/-- R18, R19: a run's slots are set programmed; the line becomes FREE when no valid slot remains unprogrammed. -/
def Line.finishRun (l : Line) (first len : Nat) : Line :=
  if l.valid &&& ~~~(l.programmed ||| slotMask first len) = 0 then Line.free
  else { l with programmed := l.programmed ||| slotMask first len }

/-- The DRAINING line's run of `len` sectors from media sector `sector` is finished, programmed or discarded. -/
def finishRunAt (sector len : Nat) (s : State) : State :=
  { s with sb := { s.sb with
    lines := s.sb.lines.map fun l => if l.state = .draining then l.finishRun (sector % 8) len else l } }

/-- The zone number of the DRAINING line (R19). -/
def drainingZone (lines : List Line) : Option Nat :=
  match lines.find? fun l => l.state == .draining with
  | some l => l.zone
  | none => none

/-- R80: ZU decides whether the lost sectors damage a zone: the reported zone where it still holds them, else the zone
they lie in now. -/
def damageZone (sector : Nat) (zone : Option Nat) (s : State) : State :=
  match (match zone with
    | some k => if (zoneAt s k).holds sector then some k else zoneOf s.zu.zones sector
    | none => zoneOf s.zu.zones sector) with
  | some k => setZoneFlag .damaged k s
  | none => s

/-- R19, R20: the run's sectors are counted lost. -/
def countLost (sector len : Nat) (s : State) : State :=
  { s with sb := { s.sb with
    lostCount := satAdd 65535 s.sb.lostCount len
    lastLost := sector + len - 1
    deferred := true } }

/-- R19: the run that could not be programmed is finished and its sectors counted lost. -/
def dropRun (sector len : Nat) (s : State) : State :=
  countLost sector len (finishRunAt sector len s)

/-- R19: the loss is reported to ZU, with the zone number the line carried (R80), and to RU (ATTN). -/
def reportLoss (sector : Nat) (zone : Option Nat) (s : State) : State :=
  raiseAttn (damageZone sector zone s)

/-- R19, R139: a discard of the hold-up sequence: the run is dropped and its loss reported. -/
def discardRun (sector len : Nat) (s : State) : State :=
  reportLoss sector (drainingZone s.sb.lines) (dropRun sector len s)

/-- R139: every run that remains is discarded, oldest line first and lowest slot first; at most `fuel` runs. -/
def discardAll : Nat → State → State
  | 0, s => s
  | fuel + 1, s =>
    match chooseRun s.sb.lines with
    | none => s
    | some c => discardAll fuel (discardRun c.sector c.len (startDraining c s))

end Sys2Proof.Machine
end

