-- ==== Sys2Proof/Machine/Supply.lean ====
section
/-! DEFINITION. The supply monitor's arithmetic, chapter 2: E, Avail, H, L and the write mode. -/

namespace Sys2Proof.Machine

open Sys2Proof

/-- R24: E in µJ from VCAP, C and Vmin. -/
def storedEnergy (vcap cap vmin : Nat) : Nat :=
  if vcap ≤ vmin then 0 else cap * (vcap ^ 2 - vmin ^ 2) / 2000000

/-- R25: Avail, E less Ei, or 0. -/
def availEnergy (energy ei : Nat) : Nat :=
  energy - ei

/-- R25: H, the media writes Avail pays for, clamped to 0..128. -/
def holdupBudget (avail ew : Nat) : Nat :=
  min 128 (avail / ew)

/-- R27: L from H and the motion state. -/
def costLimit (budget : Nat) (m : MotionState) : Nat :=
  if m = .disabled then min (min budget 128) 8 else min budget 128

/-- R28: the write mode. -/
def selectMode (p : PowerState) (unknown : Bool) (limit : Nat) : WriteMode :=
  if p = .low ∨ p = .critical ∨ unknown = true ∨ limit < 2 then .writeThrough else .writeBack

/-- R27: L is recomputed from the stored H. -/
def recomputeLimit (s : State) : State :=
  { s with sm := { s.sm with limit := costLimit s.sm.budget s.mm.motion } }

/-- R23, R30 steps 1 and 2: a completed conversion stores VSYS and VCAP and forms E, Avail and H from the settings ZU
holds now (R26). -/
def storeConversion (vsys vcap : Int) (s : State) : State :=
  let v := (clampInt 0 6000 vcap).toNat
  let e := storedEnergy v s.zu.settings.cap s.zu.settings.vmin
  let a := availEnergy e s.zu.settings.ei
  { s with sm := { s.sm with
    vsys := (clampInt 0 6000 vsys).toNat
    vcap := v
    energy := e
    avail := a
    budget := holdupBudget a s.zu.settings.ew
    ewUsed := s.zu.settings.ew } }

/-- R33, R138: the energy test of a hold-up run. -/
def energyTest (s : State) : Bool :=
  s.sm.ewUsed ≤ s.sm.avail

/-- R30, R98: a conversion with VSYS below 3300 mV sets the supply dip flag of a braced drop. -/
def railDip (s : State) : State :=
  if s.sm.vsys < 3300 ∧ bracedState s.mm.motion = true then
    { s with mm := { s.mm with drop := { s.mm.drop with supplyDip := true } } }
  else s

end Sys2Proof.Machine
end

