-- ==== Sys2Proof/Machine/Zones.lean ====
section
/-! DEFINITION. The zone unit, chapters 3 and 5: the map header, validation and application of entry sectors, fill mark
and CRC, attribution, and the rebuild of runtime records. -/

namespace Sys2Proof.Machine

open Sys2Proof

/-! ### Map header (R38, R39, R41, R42) -/

/-- R39 step 3: critical SOC stays below low SOC. -/
def Settings.fixSoc (x : Settings) : Settings :=
  if x.lowSoc ≤ x.criticalSoc then { x with criticalSoc := x.lowSoc - 1 } else x

/-- R39 steps 1 to 3: the settings a header sector gives, from its layout in chapter 11 section 11.6. -/
def headerSettings (h : Sector) : Settings :=
  if hasMarker markerZoneMap 0 h then
    Settings.fixSoc
      { reserve := clampNat 0 7 (u8At h 12)
        tf := clampNat 32 160 (u8At h 13)
        nf := clampNat 10 100 (u8At h 14)
        lowSoc := clampNat 1 50 (u8At h 15)
        criticalSoc := clampNat 0 49 (u8At h 16)
        vmin := 2500 + 10 * min 200 (u8At h 17)
        settleMs := clampNat 50 1000 (u16At h 18)
        ti := clampNat 512 4095 (u16At h 20)
        design := clampNat 200 20000 (u16At h 22)
        cutoff := clampNat 2500 3400 (u16At h 24)
        cap := clampNat 100 20000 (u16At h 26)
        ew := clampNat 100 5000 (u16At h 28)
        ei := clampNat 500 20000 (u16At h 30) }
  else .default

/-- R39 steps 1 and 4: the time base of a header, 0 when the marker is wrong. -/
def headerTimeBase (h : Sector) : Word :=
  if hasMarker markerZoneMap 0 h then wordAt h 8 else 0

/-- R41: the time base is latched with the present uptime. -/
def latchTimeBase (tb : Word) (s : State) : State :=
  { s with zu := { s.zu with timeBase := tb, latchedUptime := s.uptimeSec } }

/-- R40: the settings ZU holds are replaced. -/
def setSettings (x : Settings) (s : State) : State :=
  { s with zu := { s.zu with settings := x } }

/-! ### Entry sectors: validation (R45 to R48) -/

/-- An entry as its 32 bytes give it: the state value, base and length (chapter 11, section 11.6). -/
structure RawEntry where
  st : Nat
  base : Nat
  length : Nat
deriving DecidableEq, Repr

/-- The entry at a position of a sector. -/
def rawEntry (sec : Sector) (pos : Nat) : RawEntry :=
  { st := u8At sec (32 * pos), base := u32At sec (32 * pos + 4), length := u32At sec (32 * pos + 8) }

/-- The state value of a zone state. -/
def ZoneState.code : ZoneState → Nat
  | .unused => 0
  | .opened => 1
  | .closed => 2

/-- The zone state of a state value below 3. -/
def zoneStateOf (st : Nat) : ZoneState :=
  if st = 1 then .opened else if st = 2 then .closed else .unused

/-- An entry of ZU's table in the form of a raw entry. -/
def ZoneEntry.raw (z : ZoneEntry) : RawEntry :=
  { st := z.state.code, base := z.base, length := z.length }

/-- The entry's state value says OPEN or CLOSED. -/
def RawEntry.used (e : RawEntry) : Bool :=
  e.st == 1 || e.st == 2

/-- R45: the final table: ZU's table with the sixteen entries of sector number `sec` (0 to 3) replaced. -/
def finalTable (zones : List ZoneEntry) (sec : Nat) (data : Sector) : List RawEntry :=
  (List.range 64).map fun k =>
    if k / 16 = sec then rawEntry data (k % 16) else (zones.getD k .unused).raw

/-- Two ranges share at least one sector. -/
def rangesMeet (a b : RawEntry) : Bool :=
  a.base < b.base + b.length && b.base < a.base + a.length && 0 < a.length && 0 < b.length

/-- R46 ALIGN. -/
def alignFails (e : RawEntry) : Bool :=
  e.used && (e.base % 8 != 0 || e.length % 8 != 0 || e.length < 8)

/-- R46 BOUNDS. -/
def boundsFails (t : Nat) (e : RawEntry) : Bool :=
  e.used && t < e.base + e.length

/-- R46 OVERLAP: entry `k` of a table meets another entry that is OPEN or CLOSED. -/
def overlapFails (table : List RawEntry) (k : Nat) (e : RawEntry) : Bool :=
  e.used && (table.zipIdx.any fun p => p.2 != k && p.1.used && rangesMeet e p.1)

/-- R44: the legal moves. -/
def legalMove : ZoneState → ZoneState → Bool
  | .unused, .unused => true
  | .unused, .opened => true
  | .unused, .closed => false
  | .opened, .opened => true
  | .opened, .closed => true
  | .opened, .unused => true
  | .closed, .closed => true
  | .closed, .unused => true
  | .closed, .opened => false

/-- R46 CHANGED: an OPEN or CLOSED zone that stays OPEN or CLOSED, or closes, with another base or length. -/
def changedFails (old : ZoneEntry) (e : RawEntry) : Bool :=
  old.state != .unused && e.used && legalMove old.state (zoneStateOf e.st) &&
    (e.base != old.base || e.length != old.length)

/-- R46: the first check that entry `k` of the final table fails. -/
def entryCheck (t : Nat) (table : List RawEntry) (old : ZoneEntry) (k : Nat) (e : RawEntry) : Option MapCheck :=
  if 3 ≤ e.st then some .state
  else if alignFails e then some .align
  else if boundsFails t e then some .bounds
  else if overlapFails table k e then some .overlap
  else if !legalMove old.state (zoneStateOf e.st) then some .transition
  else if changedFails old e then some .changed
  else none

/-- R47: the subclass of the lowest-numbered failing entry of entry sector `sec` (0 to 3). -/
def validateSector (s : State) (sec : Nat) (data : Sector) : Option MapCheck :=
  let table := finalTable s.zu.zones sec data
  (List.range 16).findSome? fun pos =>
    entryCheck (tailBase s) table (zoneAt s (16 * sec + pos)) (16 * sec + pos) (rawEntry data pos)

/-! ### Entry sectors: application (R49 to R53) -/

/-- R50: the runtime record of a zone just opened. -/
def openedRuntime (s : State) (base : Nat) : Runtime :=
  { Runtime.cleared with fillMark := base, crcReg := crc32Init, minSoc := s.bg.soc, openWall := wallSeconds s }

/-- R51: the runtime record frozen at a close. -/
def closedRuntime (s : State) (r : Runtime) : Runtime :=
  { r with frozenCrc := crc32Report r.crcReg, crcReg := 0, closeWall := some (wallSeconds s) }

/-- R50 to R52: the runtime record after a transition. -/
def movedRuntime (s : State) (old new : ZoneState) (base : Nat) (r : Runtime) : Runtime :=
  match old, new with
  | .unused, .opened => openedRuntime s base
  | .opened, .closed => closedRuntime s r
  | .opened, .unused => .cleared
  | .closed, .unused => .cleared
  | .unused, .unused => r
  | .unused, .closed => r
  | .opened, .opened => r
  | .closed, .closed => r
  | .closed, .opened => r

/-- R49 step 1: the zone table entry a raw entry gives. -/
def enteredZone (e : RawEntry) : ZoneEntry :=
  if zoneStateOf e.st = .unused then .unused else { state := zoneStateOf e.st, base := e.base, length := e.length }

/-- R49: one entry applied: the table entry, and for a transition the runtime record and the checkpoint mark. -/
def applyEntry (k : Nat) (e : RawEntry) (s : State) : State :=
  if zoneStateOf e.st = (zoneAt s k).state then setZone k (enteredZone e) s
  else
    markSector (checkOffset k) (runtimeChange k (setRuntime k
      (movedRuntime s (zoneAt s k).state (zoneStateOf e.st) e.base (runtimeAt s k)) (setZone k (enteredZone e) s)))

/-- R49: an admitted entry sector's sixteen entries applied in ascending order. -/
def applyEntrySector (sec : Nat) (data : Sector) (s : State) : State :=
  (List.range 16).foldl (fun s pos => applyEntry (16 * sec + pos) (rawEntry data pos) s) s

/-! ### Start-up build (R54, R55) -/

/-- R54 step 3: an entry read at start-up fails STATE, ALIGN, BOUNDS, or OVERLAP against the accepted entries. -/
def buildFails (t : Nat) (accepted : List ZoneEntry) (e : RawEntry) : Bool :=
  3 ≤ e.st || alignFails e || boundsFails t e ||
    (e.used && (accepted.any fun z => z.raw.used && rangesMeet e z.raw))

/-- R54 steps 2 to 5: the table of the accepted entries and the count of ignored ones, entries in ascending order. -/
def buildTable (t : Nat) : List RawEntry → List ZoneEntry × Nat → List ZoneEntry × Nat
  | [], acc => acc
  | e :: es, (accepted, ignored) =>
    if buildFails t accepted e then buildTable t es (accepted ++ [.unused], ignored + 1)
    else buildTable t es (accepted ++ [enteredZone e], ignored)

/-- The 64 raw entries of the four entry sectors. -/
def mapEntries (sectors : List Sector) : List RawEntry :=
  (List.range 64).map fun k => rawEntry (sectors.getD (1 + k / 16) []) (k % 16)

/-- R42, R54: ZU's state built from the five map sectors read at start-up. The time base is not latched. -/
def buildFromMap (sectors : List Sector) (s : State) : State :=
  let built := buildTable (tailBase s) (mapEntries sectors) ([], 0)
  { s with zu := { s.zu with
    settings := headerSettings (sectors.getD 0 [])
    zones := built.1
    ignored := built.2 } }

/-- R55: the map area could not be read. -/
def setReadOnly (s : State) : State :=
  { s with zu := { s.zu with readOnly := true, settings := .default, timeBase := 0,
                             zones := List.replicate 64 .unused, ignored := 0 } }

/-! ### Appending (R73 to R75) -/

/-- R73, R75: the admission of a front write sector advances the fill mark and the CRC register of its OPEN zone. -/
def appendToZone (sector : Nat) (data : Sector) (s : State) : State :=
  match zoneOf s.zu.zones sector with
  | none => s
  | some k =>
    if (zoneAt s k).state = .opened then
      runtimeChange k (setRuntime k { runtimeAt s k with
        fillMark := sector + 1
        crcReg := crc32Update (runtimeAt s k).crcReg data } s)
    else s

/-! ### Attribution (R77, R78) -/

/-- The numbers of the OPEN zones, ascending. -/
def openZones (s : State) : List Nat :=
  (List.range 64).filter fun k => (zoneAt s k).state = .opened

/-- R77: one OPEN zone counts a drop. -/
def attributeDrop (peak k : Nat) (s : State) : State :=
  markSector (checkOffset k) (runtimeChange k (setRuntime k { runtimeAt s k with
    drops := satAdd 255 (runtimeAt s k).drops 1
    worstPeak := max (runtimeAt s k).worstPeak peak } s))

/-- R77: every OPEN zone counts the drop, in ascending zone order. -/
def attributeAll (peak : Nat) (s : State) : State :=
  (openZones s).foldl (fun s k => attributeDrop peak k s) s

/-- R77: the lowest four of the attributed zones, 255 in each unused place. -/
def zoneNames (zs : List Nat) : List Nat :=
  (zs ++ [255, 255, 255, 255]).take 4

/-- R78: an OPEN zone takes a lower SOC into its minimum. -/
def lowerMinSoc (soc k : Nat) (s : State) : State :=
  if (zoneAt s k).state = .opened ∧ soc < (runtimeAt s k).minSoc then
    runtimeChange k (setRuntime k { runtimeAt s k with minSoc := soc } s)
  else s

/-- R78: a SOC change reaches every OPEN zone. -/
def attributeSoc (soc : Nat) (s : State) : State :=
  forZones 64 (lowerMinSoc soc) s

/-! ### Check records (R84) and their use at start-up (R81, R82) -/

/-- The CRC a check record shows: the reported running value, the frozen value, or 0. -/
def shownCrc (z : ZoneState) (r : Runtime) : Word :=
  match z with
  | .unused => 0
  | .opened => crc32Report r.crcReg
  | .closed => r.frozenCrc

/-- The zone flags as a byte: bit 0 INTERRUPTED, 1 DAMAGED, 2 UNCERTAIN. -/
def Runtime.flagBits (r : Runtime) : Nat :=
  flagByte [r.interrupted, r.damaged, r.uncertain]

/-- The check record of a zone, chapter 11 section 11.6. -/
def checkRecord (z : ZoneState) (r : Runtime) : List Byte :=
  layout 32 [(0, le 1 z.code), (1, le 1 r.flagBits), (2, le 1 r.drops), (3, le 1 r.minSoc), (4, le 2 r.worstPeak),
    (6, le 4 r.fillMark), (10, le 4 (shownCrc z r).toNat), (14, le 4 r.openWall.toNat),
    (18, le 4 (r.closeWall.getD 0).toNat)]

/-- The sixteen check records of check sector number `sec` (0 to 3). -/
def checkSector (s : State) (sec : Nat) : Sector :=
  (List.range 16).flatMap fun pos => checkRecord (zoneAt s (16 * sec + pos)).state (runtimeAt s (16 * sec + pos))

/-- The fields of a check record read back, the record beginning at `off`. Its CRC is taken both ways; the caller sets
the one its zone state keeps. -/
def readRecord (l : List Byte) (off : Nat) : Runtime :=
  { fillMark := u32At l (off + 6), crcReg := crc32Report (wordAt l (off + 10)), frozenCrc := wordAt l (off + 10),
    drops := u8At l (off + 2), worstPeak := u16At l (off + 4), minSoc := u8At l (off + 3),
    interrupted := (byteAt l (off + 1)).getLsbD 0, damaged := (byteAt l (off + 1)).getLsbD 1,
    uncertain := (byteAt l (off + 1)).getLsbD 2, openWall := wordAt l (off + 14),
    closeWall := some (wordAt l (off + 18)) }

/-- A record read back for a zone in a given state: an OPEN zone keeps the register and has no close time, a CLOSED one
keeps the frozen value, an UNUSED one is cleared (R72). -/
def recordFor (z : ZoneState) (r : Runtime) : Runtime :=
  match z with
  | .unused => .cleared
  | .opened => { r with frozenCrc := 0, closeWall := none }
  | .closed => { r with crcReg := 0 }

/-- R81: zone k restored from the image body, whose zone records begin at body byte 3520; a zone OPEN in the image takes
INTERRUPTED. -/
def restoreZone (body : List Byte) (k : Nat) (s : State) : State :=
  let z := zoneStateOf (u8At body (3520 + 32 * k))
  let s1 := setRuntime k (recordFor z (readRecord body (3520 + 32 * k))) s
  if z = .unused then s1
  else if z = .opened then setZoneFlag .interrupted k (runtimeChange k s1)
  else runtimeChange k s1

/-- R82: a persisted record matches a zone when its fill mark lies from base to base plus length. -/
def recordMatches (z : ZoneEntry) (r : Runtime) : Bool :=
  z.base ≤ r.fillMark && r.fillMark ≤ z.base + z.length

/-- R82, last row: the record of a zone treated as full. -/
def fullRuntime (z : ZoneEntry) : Runtime :=
  recordFor z.state { Runtime.cleared with
    fillMark := z.base + z.length, crcReg := crc32Report 0, frozenCrc := 0, minSoc := 100,
    closeWall := some 0 }

/-- R82: the record rebuilt for an accepted zone from its persisted record, and whether UNCERTAIN is added. -/
def rebuiltRuntime (z : ZoneEntry) (st : Nat) (r : Runtime) : Runtime × Bool :=
  if recordMatches z r = false then (fullRuntime z, true)
  else if z.state = .opened ∧ st = 1 then (recordFor .opened r, true)
  else if z.state = .closed ∧ st = 2 then (recordFor .closed r, false)
  else if z.state = .closed ∧ st = 1 then ({ recordFor .closed r with closeWall := some 0 }, true)
  else (fullRuntime z, true)

/-- R82: a rebuilt record with UNCERTAIN set as a new flag (R79), also where the persisted record carried it: the record
that start-up rebuilds was cleared at power-on (assumption 41). -/
def addUncertain (k : Nat) (r : Runtime) (s : State) : State :=
  setZoneFlag .uncertain k (runtimeChange k (setRuntime k { r with uncertain := false } s))

/-- R82: zone k rebuilt from the check-table sectors as start-up read them. -/
def rebuildZone (check : List Sector) (k : Nat) (s : State) : State :=
  if (zoneAt s k).state = .unused then s
  else
    let sec := check.getD (k / 16) []
    let b := rebuiltRuntime (zoneAt s k) (u8At sec (32 * (k % 16))) (readRecord sec (32 * (k % 16)))
    if b.2 then addUncertain k b.1 s else runtimeChange k (setRuntime k b.1 s)

end Sys2Proof.Machine
end

