-- ==== Sys2Proof/Machine/Report.lean ====
section
/-! DEFINITION. The sectors the part forms from its own state, chapter 11 section 11.6: live window, record area and
context image; and the reading of the records start-up takes back (R147 to R149). -/

namespace Sys2Proof.Machine

open Sys2Proof

/-! ### Codes of chapter 10 section 10.1 and chapter 11 section 11.6 -/

/-- The status code of an answer. -/
def Answer.status : Answer → Nat
  | .ok => 0
  | .busyStarting => 1
  | .busyNoline => 1
  | .busyCost => 1
  | .rangeFormat => 2
  | .rangeEnd => 2
  | .rangeSpan => 2
  | .protectedOwned => 3
  | .protectedSwitch => 3
  | .protectedNomap => 3
  | .protectedClosed => 3
  | .sequenceBehind => 4
  | .sequenceAhead => 4
  | .mapReject _ => 5
  | .powerCritical => 6
  | .powerHoldup => 6
  | .mediaAbsent => 7
  | .mediaRead => 7
  | .mediaDeferred => 7

/-- The subclass code of a MAP_REJECT. -/
def MapCheck.code : MapCheck → Nat
  | .state => 1
  | .align => 2
  | .bounds => 3
  | .overlap => 4
  | .transition => 5
  | .changed => 6

/-- The subclass code of an answer, numbered within its status. -/
def Answer.subclass : Answer → Nat
  | .ok => 0
  | .busyStarting => 1
  | .busyNoline => 2
  | .busyCost => 3
  | .rangeFormat => 1
  | .rangeEnd => 2
  | .rangeSpan => 3
  | .protectedOwned => 1
  | .protectedSwitch => 2
  | .protectedNomap => 3
  | .protectedClosed => 4
  | .sequenceBehind => 1
  | .sequenceAhead => 2
  | .mapReject c => c.code
  | .powerCritical => 1
  | .powerHoldup => 2
  | .mediaAbsent => 1
  | .mediaRead => 2
  | .mediaDeferred => 3

/-- The four bytes of a response header. -/
def Response.header (r : Response) : List Byte :=
  le 1 r.answer.status ++ le 1 r.answer.subclass ++ le 1 r.sectors ++ [0]

/-- Live status byte 8; OFF has no code, as no live status is formed in it. -/
def PowerState.code : PowerState → Nat
  | .starting => 0
  | .normal => 1
  | .low => 2
  | .critical => 3
  | .holdup => 4
  | .off => 4

/-- Live status byte 40. -/
def MotionState.code : MotionState → Nat
  | .disabled => 0
  | .still => 1
  | .falling => 2
  | .struck => 3
  | .settling => 4

/-- Live status byte 41. -/
def RestartCause.code : RestartCause → Nat
  | .none => 0
  | .cold => 1
  | .restored => 2
  | .imageRejected => 3

/-- Live status byte 38. -/
def WriteMode.code : WriteMode → Nat
  | .writeBack => 0
  | .writeThrough => 1

/-- Drop record byte 2. -/
def DropKind.code : DropKind → Nat
  | .impact => 1
  | .soft => 2
  | .other c => c.toNat

/-- Drop record byte 3. -/
def DropOutcome.code : DropOutcome → Nat
  | .settled => 1
  | .bounced => 2
  | .unsettled => 3
  | .sensorLost => 4
  | .powerLost => 5
  | .other c => c.toNat

/-- A flag shown as a byte. -/
def bit (b : Bool) : Nat :=
  if b then 1 else 0

/-- Live status byte 10: bit 0 STALE, 1 UNKNOWN, 2 UNCERTAIN, 3 gauge set, 4 charging. -/
def Gauge.flagBits (g : Gauge) : Nat :=
  flagByte [g.flagStale, g.flagUnknown, g.flagUncertain, g.isSet, charging g]

/-! ### Live window (R169, R170) -/

/-- R110: the cycle count. -/
def cycleCount (s : State) : Nat :=
  s.bg.total / s.zu.settings.design

/-- The V and T bytes of the live status: the last good sample's, or free values while none has come (assumption 7). -/
def shownSample (s : State) : List Byte :=
  match s.bg.last with
  | some x => le16s x.v ++ le16s x.t
  | none => le 2 (Config.absentSampleV s.fresh).toNat ++ le 2 (Config.absentSampleT s.fresh).toNat

/-- The live status sector, tail offset 5. -/
def liveStatus (s : State) : Sector :=
  layout 512 [
    (0, markerLive),
    (8, le 1 s.ps.power.code),
    (9, le 1 s.bg.soc),
    (10, le 1 s.bg.flagBits),
    (11, le 1 s.bg.band),
    (12, le 4 (s.bg.rc / 3600000)),
    (16, le16s s.bg.iavg),
    (18, shownSample s),
    (22, le 2 s.bg.runtime),
    (24, le 4 (cycleCount s)),
    (28, le 4 s.bg.total),
    (32, le 2 s.sm.vcap),
    (34, le 1 s.sm.budget),
    (35, le 1 s.sm.limit),
    (36, le 1 (dirtyCost s.sb.lines)),
    (37, le 1 (freeCount s.sb.lines)),
    (38, le 1 s.sm.mode.code),
    (39, le 1 (bit (overCommit s))),
    (40, le 1 s.mm.motion.code),
    (41, le 1 s.ps.cause.code),
    (42, le 2 s.mm.total),
    (44, le 2 s.mm.lastSeq),
    (46, le 2 s.se.noAck ++ le 2 s.se.arbLost ++ le 2 s.se.busError ++ le 2 s.se.timeout ++ le 2 s.se.pecBad),
    (56, le 2 s.sb.lostCount),
    (58, le 4 s.sb.lastLost),
    (62, le 1 (bit s.sb.deferred)),
    (63, le 1 (bit s.zu.readOnly)),
    (64, le 1 s.zu.ignored),
    (65, le 1 (bit s.ru.attn)),
    (68, le 4 s.uptimeSec.toNat),
    (72, le 4 (wallSeconds s).toNat),
    (80, le 1 s.wc.refusal.answer.status),
    (81, le 1 s.wc.refusal.answer.subclass),
    (82, [s.wc.refusal.code]),
    (83, [s.wc.refusal.count]),
    (84, le 2 s.wc.refusal.mask.toNat),
    (86, le 1 s.wc.refusal.taken),
    (88, le 4 s.wc.refusal.sector.toNat),
    (92, le 4 s.wc.refusal.uptime.toNat),
    (96, le 4 s.wc.refusal.wall.toNat)]

/-- A drop record's 32 bytes with a log trailer. -/
def dropBytes (r : DropRecord) (trailer : List Byte) : List Byte :=
  layout 32 [
    (0, le 2 r.sequence), (2, le 1 r.kind.code), (3, le 1 r.outcome.code), (4, le 2 r.fallSamples), (6, le 2 r.height),
    (8, le 2 r.peak), (10, le 4 r.uptime.toNat), (14, le 4 r.wall.toNat), (18, le 1 r.soc),
    (19, le 1 (bit r.supplyDip)), (20, le 1 r.zoneCount),
    (21, le 1 (r.zones.getD 0 255) ++ le 1 (r.zones.getD 1 255) ++ le 1 (r.zones.getD 2 255) ++ le 1 (r.zones.getD 3 255)),
    (28, trailer)]

/-- The 32 bytes of a place: its record, or an empty place, all zero but for a trailer. -/
def dropPlace (recs : List DropRecord) (i : Nat) (trailer : List Byte) : List Byte :=
  match recs[i]? with
  | some r => dropBytes r trailer
  | none => layout 32 [(28, trailer)]

/-- The trailer of a drop log place: "DLOG" in place 0, the totals in place 1. -/
def logTrailer (s : State) (i : Nat) : List Byte :=
  if i = 0 then markerDropLog
  else if i = 1 then le 2 s.mm.total ++ le 2 s.mm.lastSeq
  else []

/-- The drop log sector, live at tail offset 6 and persisted at 12 (R100). -/
def dropLogSector (s : State) : Sector :=
  (List.range 16).flatMap fun i => dropPlace s.mm.log i (logTrailer s i)

/-- The gauge record sector, tail offset 11. -/
def gaugeSector (s : State) : Sector :=
  layout 512 [
    (0, markerGauge), (8, le 4 s.bg.total), (12, le 4 (s.bg.rc / 3600000)), (16, le 1 s.bg.soc), (17, le 1 s.bg.band),
    (18, le 1 s.bg.flagBits), (20, le 4 (cycleCount s)), (24, le 4 s.uptimeSec.toNat),
    (28, le 4 (wallSeconds s).toNat)]

/-- R169: the live sector at a tail offset, 5 to 10. -/
def liveSector (s : State) (o : Nat) : Sector :=
  if o = 5 then liveStatus s else if o = 6 then dropLogSector s else checkSector s (o - 7)

/-- R174: the record-area sector at a tail offset, 11 to 16. -/
def recordSector (s : State) (o : Nat) : Sector :=
  if o = 11 then gaugeSector s else if o = 12 then dropLogSector s else checkSector s (o - 13)

/-- R169, R172: the formation of a live sector; forming the live status clears the ATTN latch. -/
def formLive (o : Nat) (s : State) : Sector × State :=
  (liveSector s o,
    if o = 5 then { s with ru := { s.ru with attn := false }, fresh := s.fresh + 1 } else s)

/-! ### Context image (R140, R141) -/

/-- The body of the context image, 7,616 bytes. -/
def imageBody (s : State) : List Byte :=
  layout 7616 [
    (0, le 8 s.bg.rc), (8, le16s s.bg.iavg), (10, le 1 s.bg.band), (11, le 1 (s.bg.flagBits % 16)),
    (12, le 4 s.bg.total), (16, le 2 s.mm.total), (18, le 2 s.mm.lastSeq), (20, le 1 s.mm.pendingRecs.length),
    (24, le 2 s.sb.lostCount), (28, le 4 s.sb.lastLost), (32, le 1 (bit s.sb.deferred)),
    (64, (List.range 16).flatMap fun i => dropPlace s.mm.pendingRecs i []),
    (3520, (List.range 64).flatMap fun k => checkRecord (zoneAt s k).state (runtimeAt s k))]

/-- R141: the map CRC, over the copy's 2,560 bytes, offset 0 first. -/
def mapCrc (sectors : List Sector) : Word :=
  crc32 sectors.flatten

/-- The header of the context image, 64 bytes. -/
def imageHeader (s : State) (body : List Byte) : List Byte :=
  layout 64 [
    (0, markerImage), (8, le 4 7616), (12, le 4 s.ps.capacity), (16, le 4 (mapCrc (s.ps.mapCopy.getD [])).toNat),
    (20, le 1 1), (24, le 4 s.uptimeSec.toNat), (28, le 4 s.zu.timeBase.toNat), (32, le 4 s.zu.latchedUptime.toNat),
    (36, le 4 (crc32 body).toNat)]

/-- R140: the fifteen sectors of the context image. -/
def formImage (s : State) : List Sector :=
  sectorsOf 15 (imageHeader s (imageBody s) ++ imageBody s)

/-- R145: the sector of the invalidation write. -/
def emptyHeader : Sector :=
  layout 512 [(0, markerEmpty)]

/-! ### Reading records back (R147 to R149) -/

/-- The kind a code byte stands for. -/
def dropKindOf (c : Byte) : DropKind :=
  if c = 1 then .impact else if c = 2 then .soft else .other c

/-- The outcome a code byte stands for. -/
def dropOutcomeOf (c : Byte) : DropOutcome :=
  if c = 1 then .settled else if c = 2 then .bounced else if c = 3 then .unsettled
  else if c = 4 then .sensorLost else if c = 5 then .powerLost else .other c

/-- The drop record that begins at `off`. -/
def readDrop (l : List Byte) (off : Nat) : DropRecord :=
  { sequence := u16At l off, kind := dropKindOf (byteAt l (off + 2)), outcome := dropOutcomeOf (byteAt l (off + 3)),
    fallSamples := u16At l (off + 4), height := u16At l (off + 6), peak := u16At l (off + 8),
    uptime := wordAt l (off + 10), wall := wordAt l (off + 14), soc := u8At l (off + 18),
    supplyDip := (byteAt l (off + 19)).getLsbD 0, zoneCount := u8At l (off + 20),
    zones := [u8At l (off + 21), u8At l (off + 22), u8At l (off + 23), u8At l (off + 24)] }

/-- The records a drop log sector holds, oldest first: the places whose kind byte is not 0. -/
def readDropLog (l : Sector) : List DropRecord :=
  ((List.range 16).filter fun i => byteAt l (32 * i + 2) ≠ 0).map fun i => readDrop l (32 * i)

/-- The saved pending records of an image body, sixteen at most (assumption 27). -/
def readPending (body : List Byte) : List DropRecord :=
  (List.range (min 16 (u8At body 20))).map fun i => readDrop body (64 + 32 * i)

/-- R100: a record appended to the ring of sixteen; the oldest leaves when it is full. -/
def appendRing (r : DropRecord) (log : List DropRecord) : List DropRecord :=
  (if log.length < 16 then log else log.drop 1) ++ [r]

end Sys2Proof.Machine
end

