-- ==== Sys2Proof/Machine/Front.lean ====
section
/-! DEFINITION. The front port's answers and endings, and the write checker's request checks: chapters 4 and 10, with
the completion waits of R13 and R14 and the write mode's hand-over (R28). -/

namespace Sys2Proof.Machine

open Sys2Proof

/-! ### Answers (R155) and the refusal record (R69, R70) -/

/-- A response is formed: FP enters ANSWERING; a hold, a completion wait and the read buffer end with it. -/
def respond (a : Answer) (sectors : Nat) (payload : List Byte) (s : State) : State :=
  { s with fp := { s.fp with
    port := .answering, holdStart := none, held := none, mark := none, readBuf := []
    response := some { answer := a, sectors := sectors, payload := payload } } }

/-- R70: the refusal record replaced whole, for the current request. -/
def writeRefusal (a : Answer) (mask : BitVec 9) (taken : Nat) (s : State) : State :=
  match s.fp.req with
  | none => s
  | some r =>
    { s with wc := { s.wc with refusal :=
      { answer := a, code := r.code, mask := mask, sector := r.sector, count := r.count, taken := taken,
        uptime := s.uptimeSec, wall := wallSeconds s } } }

/-- An answer that R70 records: the refusal record is written when the response is formed. -/
def refuse (a : Answer) (mask : BitVec 9) (sectors : Nat) (payload : List Byte) (s : State) : State :=
  respond a sectors payload (writeRefusal a mask sectors s)

/-- The sectors taken or assembled of the current request. -/
def takenCount (s : State) : Nat :=
  match s.fp.req with
  | some r => r.taken
  | none => 0

/-- Flag `n` of a check mask (R62). -/
def maskFlag (n : Nat) : BitVec 9 :=
  BitVec.ofNat 9 (2 ^ (n - 1))

/-- R63: a WRITE in transfer or held ends early, with the count taken. -/
def endTransfer (a : Answer) (mask : BitVec 9) (s : State) : State :=
  match s.fp.port with
  | .taking => refuse a mask (takenCount s) [] s
  | .held => refuse a mask (takenCount s) [] s
  | _ => s

/-- The bytes of the assembled sectors of a READ. -/
def assembledBytes (s : State) : List Byte :=
  s.fp.readBuf.flatten

/-! ### Abandonment (R159 to R161) -/

/-- R159: the READ's media read leaves the waiters, or completes with its data discarded. -/
def abandonRead (s : State) : State :=
  { s with mp := { s.mp with
    waiters := { s.mp.waiters with readMiss := none }
    current := s.mp.current.map fun op =>
      if op.requester = .readMiss then { op with abandoned := true } else op } }

/-- R160 steps 1 to 5: the current request is abandoned without a response; FP is then IDLE. -/
def abandonRequest (s : State) : State :=
  abandonRead { s with fp := .reset }

/-! ### Completion waits (R13, R14) -/

/-- R14: the answer that ends a FLUSH's wait; MEDIA/DEFERRED clears the deferred write error flag. -/
def answerFlush (r : Request) (s : State) : State :=
  if s.sb.deferred then
    respond .mediaDeferred r.count.toNat [] { s with sb := { s.sb with deferred := false } }
  else respond .ok r.count.toNat [] s

/-- R13, R14: the completion wait ends when no DIRTY or DRAINING line is below its mark. -/
def testWait (s : State) : State :=
  match s.fp.port, s.fp.mark, s.fp.req with
  | .completing, some m, some r =>
    if anyBelow s.sb.lines m then s
    else if r.code = 3 then answerFlush r s else respond .ok r.taken [] s
  | _, _, _ => s

/-- R13, R28: a change to WRITE_BACK ends a write-through wait, which is answered OK. -/
def endThroughWait (s : State) : State :=
  match s.fp.port, s.fp.req with
  | .completing, some r => if r.code = 2 then respond .ok r.taken [] s else s
  | _, _ => s

/-- R28: the write mode is recomputed; a change to WRITE_BACK is handed to the staging buffer. -/
def recomputeMode (s : State) : State :=
  if selectMode s.ps.power s.bg.flagUnknown s.sm.limit = .writeBack ∧ s.sm.mode = .writeThrough then
    endThroughWait { s with sm := { s.sm with mode := .writeBack } }
  else { s with sm := { s.sm with mode := selectMode s.ps.power s.bg.flagUnknown s.sm.limit } }

/-- R13: the answer to a write whose last sector has been taken. -/
def answerWrite (s : State) : State :=
  match s.sm.mode with
  | .writeBack => respond .ok (takenCount s) [] s
  | .writeThrough => testWait { s with fp := { s.fp with port := .completing, mark := some s.sb.ageCounter } }

/-! ### Request checks (R58 to R62) -/

/-- The category of a sector for check 7 (R60). -/
inductive Category where
  | general
  | zone (k : Nat)
  | mapArea
deriving DecidableEq, Repr

/-- R60: the category a sector below the working capacity belongs to; tail offsets 5 to 31 belong to none. -/
def categoryOf (s : State) (sector : Nat) : Option Category :=
  if sector < tailBase s then
    match zoneOf s.zu.zones sector with
    | some k => some (.zone k)
    | none => some .general
  else if sector ≤ tailBase s + 4 then some .mapArea
  else none

/-- R60: the sectors of a request's range, formed without wrapping. -/
def rangeSectors (sector : Word) (count : Byte) : List Nat :=
  (List.range count.toNat).map fun i => sector.toNat + i

/-- Check 1, the count part (R58). -/
def countFails (count : Byte) : Bool :=
  count.toNat == 0 || 64 < count.toNat

/-- Check 2 (R60). -/
def check2 (s : State) (count : Byte) (sector : Word) : Bool :=
  s.ps.capacity < sector.toNat + count.toNat

/-- Check 3. -/
def check3 (s : State) : Bool :=
  s.ps.power == .critical || s.ps.power == .holdup

/-- Check 4 (R60): some sector of the range lies at tail offsets 5 to 31. -/
def check4 (s : State) (count : Byte) (sector : Word) : Bool :=
  (rangeSectors sector count).any fun n => tailBase s + 5 ≤ n && n ≤ tailBase s + 31 && n < s.ps.capacity

/-- Check 7 (R60): the range covers sectors of more than one category. -/
def check7 (s : State) (count : Byte) (sector : Word) : Bool :=
  let cats := ((rangeSectors sector count).filter fun n => n < s.ps.capacity).filterMap (categoryOf s)
  cats.any fun c => some c != cats.head?

/-- R60: the target zone of a request, the zone its first sector lies in. An empty range has none. -/
def targetZone (s : State) (count : Byte) (sector : Word) : Option Nat :=
  if count.toNat = 0 then none else zoneOf s.zu.zones sector.toNat

/-- Check 8. -/
def check8 (s : State) (count : Byte) (sector : Word) : Bool :=
  match targetZone s count sector with
  | some k => (zoneAt s k).state == .closed
  | none => false

/-- Check 9 (R61): the fill mark of the OPEN target zone, where the sector number is another one. -/
def check9 (s : State) (count : Byte) (sector : Word) : Option Answer :=
  match targetZone s count sector with
  | some k =>
    if (zoneAt s k).state = .opened then
      if sector.toNat < (runtimeAt s k).fillMark then some .sequenceBehind
      else if (runtimeAt s k).fillMark < sector.toNat then some .sequenceAhead
      else none
    else none
  | none => none

/-- R62: the check mask of nine failures. -/
def maskOf (fails : List Bool) : BitVec 9 :=
  BitVec.ofNat 9 (flagByte fails)

/-- R62: the nine checks of a WRITE, all evaluated. -/
def writeMask (s : State) (count : Byte) (sector : Word) : BitVec 9 :=
  maskOf [countFails count, check2 s count sector, check3 s, check4 s count sector, s.wc.slider, s.zu.readOnly,
    check7 s count sector, check8 s count sector, (check9 s count sector).isSome]

/-- The POWER answer after the power state (R58 check 3). -/
def powerAnswer (p : PowerState) : Answer :=
  if p = .critical then .powerCritical else .powerHoldup

/-- R58: the first check, in order, that a WRITE fails. -/
def writeRefusalOf (s : State) (count : Byte) (sector : Word) : Option Answer :=
  if countFails count then some .rangeFormat
  else if check2 s count sector then some .rangeEnd
  else if check3 s then some (powerAnswer s.ps.power)
  else if check4 s count sector then some .protectedOwned
  else if s.wc.slider then some .protectedSwitch
  else if s.zu.readOnly then some .protectedNomap
  else if check7 s count sector then some .rangeSpan
  else if check8 s count sector then some .protectedClosed
  else check9 s count sector

/-- R59: the first check that a READ fails, and its mask. -/
def readRefusalOf (s : State) (count : Byte) (sector : Word) : Option Answer :=
  if countFails count then some .rangeFormat
  else if check2 s count sector then some .rangeEnd
  else none

/-- R62: the mask of a READ. -/
def readMask (s : State) (count : Byte) (sector : Word) : BitVec 9 :=
  maskOf [countFails count, check2 s count sector]

/-! ### Arrival of a header (R57, R155, R160) -/

/-- R143, R155, R161: in CLOSED and while FRST is asserted no frame is taken. -/
def takesFrames (s : State) : Bool :=
  s.fp.port != .closed && !s.pins.frst

/-- R155: a header becomes the current front request; a request in progress is first abandoned (R160). -/
def newRequest (code count : Byte) (sector : Word) (s : State) : State :=
  { abandonRequest s with
    fp := { (abandonRequest s).fp with req := some { code := code, count := count, sector := sector, taken := 0 } } }

/-- R57: the answer given before the checks, in media FAULT or STARTING. -/
def answerBeforeChecks (s : State) : Option Answer :=
  if s.ps.mediaFault then some .mediaAbsent
  else if s.ps.power = .starting then some .busyStarting
  else none

/-- A header arrives: it is taken as the current request, answered by R57, or passed on. -/
def arrive (code count : Byte) (sector : Word) (go : State → State) (s : State) : State :=
  if takesFrames s then
    match answerBeforeChecks s with
    | some a => respond a 0 [] (newRequest code count sector s)
    | none => go (newRequest code count sector s)
  else s

end Sys2Proof.Machine
end

