-- ==== Sys2Proof/Machine/Power.lean ====
section
/-! DEFINITION. The power supervisor's states: the SOC-derived state, the report of a change, the wind-down test, the
entry to OFF (chapters 7 and 9). -/

namespace Sys2Proof.Machine

open Sys2Proof

/-- R121: the SOC-derived state. -/
def socDerived (s : State) : PowerState :=
  if !s.bg.isSet || s.bg.flagUnknown then .low
  else if s.bg.soc ≤ s.zu.settings.criticalSoc then .critical
  else if s.bg.soc ≤ s.zu.settings.lowSoc then .low
  else .normal

/-- R120: the state that an evaluation in state `p` selects, from SOC, the two thresholds and the empty anchor report. -/
def socTransition (p : PowerState) (soc low critical : Nat) (emptyAnchor : Bool) : PowerState :=
  match p with
  | .normal => if soc ≤ critical ∨ emptyAnchor = true then .critical else if soc ≤ low then .low else .normal
  | .low => if soc ≤ critical ∨ emptyAnchor = true then .critical else if low + 3 ≤ soc then .normal else .low
  | .critical => if low + 3 ≤ soc then .normal else if critical + 2 ≤ soc then .low else .critical
  | .starting => .starting
  | .holdup => .holdup
  | .off => .off

/-- R123, R124: in CRITICAL, OFFREQ is asserted when nothing is staged and no checkpoint is pending. -/
def testWindDown (s : State) : State :=
  if s.ps.power = .critical ∧ staged s.sb.lines = false ∧ s.ru.pending = [] then
    { s with ps := { s.ps with offreq := true } }
  else s

/-- R9, R65, R122: at entry to CRITICAL a WRITE in transfer or held ends POWER/CRITICAL. -/
def frontAtPower (p : PowerState) (s : State) : State :=
  if p = .critical then endTransfer .powerCritical (maskFlag 3) s else s

/-- R122: entry to LOW or CRITICAL marks all six record-area sectors; the wind-down is tested after the marks
(assumption 30). -/
def marksAtPower (p : PowerState) (s : State) : State :=
  if p = .critical then testWindDown (markAll s) else if p = .low then markAll s else s

/-- R122: the power state changes and the change is reported: ATTN, the write mode, the front request, the marks. OFFREQ
falls when CRITICAL is left (R124); outside CRITICAL it is deasserted already. -/
def changePower (p : PowerState) (s : State) : State :=
  marksAtPower p (recomputeMode (frontAtPower p (raiseAttn
    { s with ps := { s.ps with power := p, offreq := false } })))

/-- R120: PS evaluates a SOC hand-over or an empty anchor report. -/
def evaluatePower (emptyAnchor : Bool) (s : State) : State :=
  if s.bg.flagUnknown then s
  else
    let p := socTransition s.ps.power s.bg.soc s.zu.settings.lowSoc s.zu.settings.criticalSoc emptyAnchor
    if p = s.ps.power then s else changePower p s

/-- SE with no read in progress, none pending, no timer running and nothing handed over (R86, R105, R134; at OFF
assumption 18). -/
def SenseEngine.quiet (e : SenseEngine) : SenseEngine :=
  { e with trans := .idle, reading := none, attempt := 0, motionPending := false, gaugePending := false,
           stopping := false, timersOn := false, alertDeferred := false, handed := [] }

/-- R143, R162, R168: the part enters OFF; every output is released, FP is CLOSED, MP empty, SE quiet. -/
def enterOff (s : State) : State :=
  let s1 := changePower .off s
  { s1 with
    ps := { s1.ps with phase := none, brownedOut := false }
    fp := { FrontPort.reset with port := .closed }
    mp := { s1.mp with current := none, waiters := .none, starvation := 0 }
    se := s1.se.quiet }

end Sys2Proof.Machine
end

