-- ==== Sys2Proof/Machine/GaugeOps.lean ====
section
/-! DEFINITION. The battery gauge, chapter 7: integration, derating bands, derived values, anchors, flags and their
reports. -/

namespace Sys2Proof.Machine

open Sys2Proof

/-! ### Bands (R109, R111) -/

/-- D, the derating factor of a band, in 256ths; no band counts as D = 256 (R125). -/
def bandFactor (band : Nat) : Nat :=
  if band = 1 then 154 else if band = 2 then 179 else if band = 3 then 205 else if band = 4 then 230 else 256

/-- R109: FCC_eff. -/
def fccOf (design band : Nat) : Nat :=
  design * 3600000 * bandFactor band / 256

/-- R111: the band of a temperature, directly by the table. -/
def bandByTable (t : Int) : Nat :=
  if t < -200 then 1 else if t < -100 then 2 else if t < 0 then 3 else if t < 100 then 4 else 5

/-- The edge between band `j` and band `j + 1`, in tenths of a degree. -/
def bandEdge (j : Nat) : Int :=
  100 * (j : Int) - 300

/-- R111, warmer: through every edge on the way, at most `fuel` of them. -/
def warmTo (t : Int) : Nat → Nat → Nat
  | 0, b => b
  | fuel + 1, b => if b < 5 ∧ bandEdge b + 10 ≤ t then warmTo t fuel (b + 1) else b

/-- R111, colder. -/
def coolTo (t : Int) : Nat → Nat → Nat
  | 0, b => b
  | fuel + 1, b => if 1 < b ∧ t < bandEdge (b - 1) - 10 then coolTo t fuel (b - 1) else b

/-- R111: the band a sample moves to, with the hysteresis of 10 tenths about each edge. -/
def nextBand (b : Nat) (t : Int) : Nat :=
  coolTo t 4 (warmTo t 4 b)

/-! ### Charge (R108, R110, R112 to R115) -/

/-- R113: SOC. -/
def socOf (rc fcc : Nat) : Nat :=
  rc * 100 / fcc

/-- R112: RC rescaled from factor `old` to factor `new` so that SOC `soc` is kept at the new FCC_eff. -/
def rescaleCharge (rc soc old new fcc : Nat) : Nat :=
  let r := rc * new / old
  min fcc
    (if socOf r fcc < soc then ceilDiv (fcc * soc) 100
     else if soc < socOf r fcc then ceilDiv (fcc * (soc + 1)) 100 - 1
     else r)

/-- R114: the runtime in minutes; 65535 when not discharging at 10 mA or more. -/
def runtimeOf (rc : Nat) (iavg : Int) : Nat :=
  if iavg < 10 then 65535 else min 65534 (rc / (iavg.toNat * 60000))

/-- R113, R114: SOC and runtime are computed. -/
def Gauge.derive (g : Gauge) : Gauge :=
  { g with soc := socOf g.rc g.fcc, runtime := runtimeOf g.rc g.iavg }

/-- R108: Δt, from the integration point to now, clamped to 1..1000. -/
def integrationTime (now point : Word) : Nat :=
  clampNat 1 1000 (now - point).toNat

/-- R108: RC less ΔQ, clamped to 0..FCC_eff. -/
def chargeAfter (rc fcc : Nat) (dq : Int) : Nat :=
  (clampInt 0 (fcc : Int) ((rc : Int) - dq)).toNat

/-- R108, R110: current `i` is integrated over `dt` ms, up to `now`. -/
def Gauge.integrate (i : Int) (dt : Nat) (now : Word) (g : Gauge) : Gauge :=
  let drawn := (i * (dt : Int)).toNat
  { g with
    rc := chargeAfter g.rc g.fcc (i * (dt : Int))
    total := satAdd 4294967295 g.total ((g.residue + drawn) / 3600000)
    residue := (g.residue + drawn) % 3600000
    intPoint := now }

/-- The voltage table's intervals, R115. -/
def voltageIntervals : List (Nat × Nat) :=
  [(3300, 3550), (3550, 3640), (3640, 3690), (3690, 3730), (3730, 3770), (3770, 3820), (3820, 3880), (3880, 3950),
   (3950, 4040), (4040, 4150)]

/-- R115: the per-mille of a voltage at or above the interval list's first point, point `k` being that point. -/
def perMilleFrom (v : Nat) : Nat → List (Nat × Nat) → Nat
  | _, [] => 1000
  | k, (lo, hi) :: rest => if v < hi then 100 * k + 100 * (v - lo) / (hi - lo) else perMilleFrom v (k + 1) rest

/-- R115: the per-mille p of a voltage. -/
def perMille (v : Nat) : Nat :=
  if v < 3300 then 0 else perMilleFrom v 0 voltageIntervals

/-- R115: the anchored RC. -/
def anchoredCharge (fcc : Nat) (v : Int) : Nat :=
  fcc * perMille v.toNat / 1000

/-- R114: the average current after a sample; the division rounds toward zero. -/
def nextAverage (iavg i : Int) : Int :=
  iavg + (i - iavg).tdiv 16

/-! ### Anchors (R116, R117) -/

/-- R116: the rest run advances; at 240 RC is anchored. -/
def Gauge.restAnchor (x : GaugeSample) (g : Gauge) : Gauge :=
  if -20 < x.i ∧ x.i < 20 ∧ 0 ≤ x.t then
    if 240 ≤ g.restRun + 1 then
      { g with rc := anchoredCharge g.fcc x.v, restRun := 0, flagUncertain := false }
    else { g with restRun := g.restRun + 1 }
  else { g with restRun := 0 }

/-- R117: the sample completes an empty anchor. -/
def emptyCompletes (cutoff : Nat) (x : GaugeSample) (g : Gauge) : Bool :=
  x.v < (cutoff : Int) && 0 < x.i && 3 ≤ g.emptyRun + 1

/-- R117: the empty run advances; at 3 RC becomes 0. -/
def Gauge.emptyAnchor (cutoff : Nat) (x : GaugeSample) (g : Gauge) : Gauge :=
  if x.v < (cutoff : Int) ∧ 0 < x.i then
    if 3 ≤ g.emptyRun + 1 then { g with rc := 0, emptyRun := 0, flagUncertain := false }
    else { g with emptyRun := g.emptyRun + 1 }
  else { g with emptyRun := 0 }

/-- R117: the full run advances; at 8 RC becomes FCC_eff. -/
def Gauge.fullAnchor (x : GaugeSample) (g : Gauge) : Gauge :=
  if 4150 ≤ x.v ∧ -50 < x.i ∧ x.i ≤ 0 then
    if 8 ≤ g.fullRun + 1 then { g with rc := g.fcc, fullRun := 0, flagUncertain := false }
    else { g with fullRun := g.fullRun + 1 }
  else { g with fullRun := 0 }

/-! ### Samples (R105, R107, R119) -/

/-- R105: the sample as BG stores it. -/
def clampSample (v i t : BitVec 16) (now : Word) : GaugeSample :=
  { v := clampInt 0 5000 v.toNat, i := clampInt (-8000) 8000 i.toInt, t := clampInt (-400) 850 t.toInt, arrived := now }

/-- R105: the stale count is cleared and the sample stored. -/
def Gauge.store (x : GaugeSample) (g : Gauge) : Gauge :=
  { g with stale := 0, last := some x }

/-- R111, R112: the band test of a sample, with its rescale. -/
def Gauge.testBand (design : Nat) (x : GaugeSample) (g : Gauge) : Gauge :=
  if nextBand g.band x.t = g.band then g
  else
    { g with
      band := nextBand g.band x.t
      fcc := fccOf design (nextBand g.band x.t)
      rc := rescaleCharge g.rc (socOf g.rc g.fcc) (bandFactor g.band) (bandFactor (nextBand g.band x.t))
        (fccOf design (nextBand g.band x.t)) }

/-- R105 steps 1 to 4: integration, band, average; the anchors follow. -/
def Gauge.follow (design : Nat) (x : GaugeSample) (g : Gauge) : Gauge :=
  let g1 := (g.integrate x.i (integrationTime x.arrived g.intPoint) x.arrived).testBand design x
  { g1 with iavg := nextAverage g1.iavg x.i }

/-- R105 steps 1 to 6, for a gauge that is set and not UNKNOWN. -/
def Gauge.process (design cutoff : Nat) (x : GaugeSample) (g : Gauge) : Gauge :=
  { (((g.follow design x).restAnchor x).emptyAnchor cutoff x |>.fullAnchor x).derive with flagStale := false }

/-- R119: RC is established from a sample, the band picked by the table. -/
def Gauge.establish (design : Nat) (x : GaugeSample) (g : Gauge) : Gauge :=
  Gauge.derive { g with
    band := bandByTable x.t
    fcc := fccOf design (bandByTable x.t)
    rc := anchoredCharge (fccOf design (bandByTable x.t)) x.v
    iavg := x.i
    flagUncertain := true
    intPoint := x.arrived
    isSet := true
    firstTimer := none }

/-- R107: the band a re-anchor chooses; by the table when no band is held (assumption 36). -/
def anchorBand (g : Gauge) (t : Int) : Nat :=
  if g.band = 0 then bandByTable t else nextBand g.band t

/-- R107: the re-anchor of the first sample while UNKNOWN is set. -/
def Gauge.reAnchor (design : Nat) (x : GaugeSample) (g : Gauge) : Gauge :=
  Gauge.derive { g with
    flagUnknown := false
    flagStale := false
    band := anchorBand g x.t
    fcc := fccOf design (anchorBand g x.t)
    rc := anchoredCharge (fccOf design (anchorBand g x.t)) x.v
    iavg := x.i
    restRun := 0
    emptyRun := 0
    fullRun := 0
    flagUncertain := true
    intPoint := x.arrived
    isSet := true
    firstTimer := none }

/-! ### Misses (R106, R107) -/

/-- The last good I; the restored Iavg when no sample has come since power-on. -/
def Gauge.lastCurrent (g : Gauge) : Int :=
  match g.last with
  | some x => x.i
  | none => g.iavg

/-- R106: the miss is counted and the anchor runs are broken. -/
def Gauge.countMiss (g : Gauge) : Gauge :=
  { g with stale := g.stale + 1, restRun := 0, emptyRun := 0, fullRun := 0 }

/-- R106: the integration of the fourth miss over the time since the integration point, and of the fifth to
thirty-ninth over 250 ms. -/
def missTime (n : Nat) (now point : Word) : Nat :=
  if n = 4 then integrationTime now point else 250

/-- R106: the fourth miss sets STALE; the fifth to thirty-ninth leave it as it is. -/
def Gauge.staleAfter (g : Gauge) : Bool :=
  g.stale == 4 || g.flagStale

/-- R106: an integration at a miss. -/
def Gauge.missIntegrate (now : Word) (g : Gauge) : Gauge :=
  Gauge.derive { g.integrate g.lastCurrent (missTime g.stale now g.intPoint) now with flagStale := g.staleAfter }

/-! ### Reports (R113, R118, R110) -/

/-- Some gauge flag differs. -/
def flagsDiffer (a b : Gauge) : Bool :=
  a.flagStale != b.flagStale || a.flagUnknown != b.flagUnknown || a.flagUncertain != b.flagUncertain

/-- R110: a gauge change for the periodic checkpoint. -/
def gaugeDiffers (a b : Gauge) : Bool :=
  a.rc != b.rc || a.iavg != b.iavg || a.total != b.total || flagsDiffer a b

/-- R118: flag changes are reported to RU, UNKNOWN to SM also. -/
def reportFlags (old : Gauge) (s : State) : State :=
  let s1 := if flagsDiffer old s.bg then raiseAttn s else s
  if old.flagUnknown = s.bg.flagUnknown then s1 else recomputeMode s1

/-- R175: a gauge change puts offset 11 into the changed set. -/
def reportGaugeChange (old : Gauge) (s : State) : State :=
  if gaugeDiffers old s.bg then noteChanged 11 s else s

/-- R113, R78: a SOC change reaches ZU; the first SOC after power-on counts as one. -/
def reportSoc (old : Gauge) (s : State) : State :=
  if old.socReported = true ∧ old.soc = s.bg.soc then s
  else attributeSoc s.bg.soc { s with bg := { s.bg with socReported := true } }

/-- BG's new state `g` with the reports its change from the present one calls for, in the order flags, gauge change, SOC
(assumption 32). -/
def publishGauge (g : Gauge) (s : State) : State :=
  reportSoc s.bg (reportGaugeChange s.bg (reportFlags s.bg { s with bg := g }))

/-- BG's new state with its flag and change reports alone: no SOC was computed. -/
def publishFlags (g : Gauge) (s : State) : State :=
  reportGaugeChange s.bg (reportFlags s.bg { s with bg := g })

/-- R109, R112: ZU reports a new design capacity. -/
def takeDesign (old : Nat) (s : State) : State :=
  let g := s.bg
  let new := s.zu.settings.design
  if old = new then s
  else if !g.isSet then { s with bg := { g with fcc := fccOf new g.band } }
  else
    publishGauge (Gauge.derive { g with
      fcc := fccOf new g.band
      rc := rescaleCharge g.rc (socOf g.rc g.fcc) old new (fccOf new g.band) }) s

/-- R119: the cold decision: RC from a sample already received, or the first-sample timer. -/
def coldDecision (s : State) : State :=
  match s.bg.last with
  | some x => publishGauge (s.bg.establish s.zu.settings.design x) s
  | none => { s with bg := { s.bg with firstTimer := some s.uptimeMs } }

/-- R105, R107, R119: BG takes a sample in a power state in which samples are processed. -/
def takeGaugeSample (x : GaugeSample) (s : State) : State :=
  let g := s.bg.store x
  if g.flagUnknown then evaluatePower false (publishGauge (g.reAnchor s.zu.settings.design x) s)
  else if g.isSet then
    evaluatePower (emptyCompletes s.zu.settings.cutoff x g)
      (publishGauge (g.process s.zu.settings.design s.zu.settings.cutoff x) s)
  else if imageDecided s.ps.startPos then
    evaluatePower false (publishGauge (g.establish s.zu.settings.design x) s)
  else { s with bg := g }

/-- R106: BG takes a miss. -/
def takeGaugeMiss (s : State) : State :=
  let g := s.bg.countMiss
  if !g.isSet || g.flagUnknown then { s with bg := g }
  else if 4 ≤ g.stale ∧ g.stale < 40 then evaluatePower false (publishGauge (g.missIntegrate s.uptimeMs) s)
  else if g.stale = 40 then publishFlags { g with flagUnknown := true } s
  else { s with bg := g }

end Sys2Proof.Machine
end

