-- ==== Sys2Proof/Machine/Media.lean ====
section
/-! DEFINITION. The media port: waiters, grants and the issue of operations (R163 to R168), with the hold-up sequence's
energy test, discards and image writes at their grants (R138, R139, R142, R180). -/

namespace Sys2Proof.Machine

open Sys2Proof

/-! ### Issue (R164) -/

/-- MP is idle: no operation in progress and no outcome being handed over. -/
def mpIdle (s : State) : Bool :=
  s.mp.current.isNone && !s.mp.handing

/-- R164: MP issues an operation, its first attempt, timed from now. -/
def issueOp (kind : MediaKind) (sector count : Nat) (data : List Sector) (who : Requester) (s : State) : State :=
  { s with mp := { s.mp with
    current := some { kind := kind, sector := sector, count := count, data := data, requester := who, attempt := 1,
                      start := s.uptimeMs, abandoned := false } } }

/-- R18: a run is issued as one media WRITE of the line's data for its slots; its line is DRAINING. -/
def issueRun (who : Requester) (c : RunChoice) (s : State) : State :=
  issueOp .write c.sector c.len ((c.line.data.drop c.first).take c.len) who (startDraining c s)

/-- The start-up operations, R146 to R148 and R151. The count and the sector number of the INFO are 0, which the rules do
not state (assumption 47). -/
def issueStartup (step : StartStep) (s : State) : State :=
  match step with
  | .moduleReset => s
  | .capacity => issueOp .info 0 0 [] (.startup .capacity) s
  | .mapArea => issueOp .read (tailBase s) 5 [] (.startup .mapArea) s
  | .gaugeRecord => issueOp .read (tailBase s + 11) 1 [] (.startup .gaugeRecord) s
  | .dropLog => issueOp .read (tailBase s + 12) 1 [] (.startup .dropLog) s
  | .checkTable => issueOp .read (tailBase s + 13) 4 [] (.startup .checkTable) s
  | .imageFirst => issueOp .read (tailBase s + 17) 7 [] (.startup .imageFirst) s
  | .imageSecond => issueOp .read (tailBase s + 24) 8 [] (.startup .imageSecond) s
  | .invalidate => issueOp .write (tailBase s + 17) 1 [emptyHeader] (.startup .invalidate) s
  | .served => s

/-- The image writes of R142 and the invalidation write of R145. -/
def issueImage (what : HoldupRequest) (s : State) : State :=
  match what with
  | .drainRun => s
  | .imageFirst => issueOp .write (tailBase s + 17) 7 (s.ps.image.take 7) (.holdup .imageFirst) s
  | .imageSecond => issueOp .write (tailBase s + 24) 8 (s.ps.image.drop 7) (.holdup .imageSecond) s
  | .invalidate => issueOp .write (tailBase s + 17) 1 [emptyHeader] (.holdup .invalidate) s

/-! ### Waiters (R163) -/

/-- R17, R167: SB's drain request stands exactly while R17 says so; a withdrawal sets the starvation count to 0. In OFF
nothing is added (R168). -/
def syncDrain (s : State) : State :=
  if s.ps.power = .off then s
  else if drainWanted s then { s with mp := { s.mp with waiters := { s.mp.waiters with drain := true } } }
  else if s.mp.waiters.drain then
    { s with mp := { s.mp with waiters := { s.mp.waiters with drain := false }, starvation := 0 } }
  else s

/-- PS adds its hold-up request. -/
def requestHoldup (what : HoldupRequest) (s : State) : State :=
  { s with mp := { s.mp with waiters := { s.mp.waiters with holdup := some what } } }

/-- PS adds its start-up request and stands at that step. -/
def requestStartup (step : StartStep) (s : State) : State :=
  { s with
    ps := { s.ps with startPos := step }
    mp := { s.mp with waiters := { s.mp.waiters with startup := some step } } }

/-- FP adds its read miss request. -/
def requestMiss (r : MissRun) (s : State) : State :=
  { s with mp := { s.mp with waiters := { s.mp.waiters with readMiss := some r } } }

/-! ### Phase SAVE (R140, R142, R180) -/

/-- R137, R142: in read-only no image is written; the part enters OFF, once the operation in progress has completed. -/
def offWithoutImage (s : State) : State :=
  if s.mp.current.isNone then enterOff s else s

/-- The phase becomes SAVE: the image is formed and its first write requested, but for read-only (R142). -/
def enterSave (s : State) : State :=
  let s1 := { s with ps := { s.ps with phase := some .save } }
  if s1.zu.readOnly then offWithoutImage s1
  else requestHoldup .imageFirst { s1 with ps := { s1.ps with image := formImage s1 } }

/-- R180: in DRAIN, SAVE follows when no line is DIRTY or DRAINING; otherwise the next run is asked for (R138). -/
def testDrained (s : State) : State :=
  if staged s.sb.lines then requestHoldup .drainRun s else enterSave s

/-! ### Grants (R166, R167) -/

/-- R17: a drain grant; braced and not in HOLDUP, SB returns it unused. -/
def grantDrain (s : State) : State :=
  let s1 := { s with mp := { s.mp with waiters := { s.mp.waiters with drain := false }, starvation := 0 } }
  if bracedState s1.mm.motion && s1.ps.power != .holdup then s1
  else
    match chooseRun s1.sb.lines with
    | some c => issueRun .drain c s1
    | none => s1

/-- R158: a read miss grant; the starvation count rises when a drain request stands (R167). -/
def grantMiss (r : MissRun) (s : State) : State :=
  issueOp .read r.first r.len [] .readMiss
    { s with mp := { s.mp with
      waiters := { s.mp.waiters with readMiss := none }
      starvation := if s.mp.waiters.drain then min 4 (s.mp.starvation + 1) else s.mp.starvation } }

/-- A read miss that waits is granted if MP is idle. -/
def grantWaitingMiss (s : State) : State :=
  match s.mp.waiters.readMiss with
  | some r => if mpIdle s then grantMiss r s else s
  | none => s

/-- R166, R167: the grant in NORMAL, LOW and CRITICAL. -/
def grantService (s : State) : State :=
  if s.mp.waiters.drain && (s.mp.waiters.readMiss.isNone || s.mp.starvation == 4) then
    grantWaitingMiss (grantDrain s)
  else grantWaitingMiss s

/-- R139: the energy test fails: every remaining run is discarded, the phase becomes SAVE and, MP being idle, the first
image write is granted at its addition. -/
def stopDraining (s : State) : State :=
  let s1 := enterSave (discardAll (dirtyCost s.sb.lines) s)
  match s1.mp.waiters.holdup with
  | some what => issueImage what { s1 with mp := { s1.mp with waiters := { s1.mp.waiters with holdup := none } } }
  | none => s1

/-- R138, R142: a hold-up grant. A hold-up drain grant is a drain grant (assumption 19). -/
def grantHoldup (what : HoldupRequest) (s : State) : State :=
  let s1 := { s with mp := { s.mp with waiters := { s.mp.waiters with holdup := none } } }
  if what = .drainRun then
    let s2 := { s1 with mp := { s1.mp with starvation := 0 } }
    if energyTest s2 then
      match chooseRun s2.sb.lines with
      | some c => issueRun (.holdup .drainRun) c s2
      | none => s2
    else stopDraining s2
  else issueImage what s1

/-- R166: the grant in STARTING. -/
def grantStarting (s : State) : State :=
  match s.mp.waiters.startup with
  | some step => issueStartup step { s with mp := { s.mp with waiters := { s.mp.waiters with startup := none } } }
  | none => if s.mp.waiters.drain then grantDrain s else s

/-- R166: MP, idle with waiters present, grants one of them by the power state. -/
def grantNext (s : State) : State :=
  if mpIdle s then
    match s.ps.power with
    | .holdup =>
      match s.mp.waiters.holdup with
      | some what => grantHoldup what s
      | none => s
    | .starting => grantStarting s
    | .normal => grantService s
    | .low => grantService s
    | .critical => grantService s
    | .off => s
  else s

/-- R17, R166: SB's drain request is brought up to date and a request that finds MP idle is granted (assumption 20). -/
def pump (s : State) : State :=
  syncDrain (grantNext (syncDrain s))

/-! ### Going idle (R166) -/

/-- The waiters of `b` that still wait in `a`. -/
def Waiters.common (b a : Waiters) : Waiters :=
  { holdup := if b.holdup = a.holdup then a.holdup else Option.none
    startup := if b.startup = a.startup then a.startup else Option.none
    readMiss := if b.readMiss = a.readMiss then a.readMiss else Option.none
    drain := b.drain && a.drain }

/-- The waiters of `a` joined to those of `b`. -/
def Waiters.join (b a : Waiters) : Waiters :=
  { holdup := b.holdup.or a.holdup, startup := b.startup.or a.startup, readMiss := b.readMiss.or a.readMiss
    drain := b.drain || a.drain }

/-- The waiters of `a` that are not among `b`. -/
def Waiters.without (a b : Waiters) : Waiters :=
  { holdup := if b.holdup = a.holdup then Option.none else a.holdup
    startup := if b.startup = a.startup then Option.none else a.startup
    readMiss := if b.readMiss = a.readMiss then Option.none else a.readMiss
    drain := a.drain && !b.drain }

/-- A grant from the waiters `old` alone; the others join the set after it. -/
def grantAmong (old : Waiters) (s : State) : State :=
  let added := s.mp.waiters.without old
  let s1 := grantNext { s with mp := { s.mp with waiters := old } }
  syncDrain { s1 with mp := { s1.mp with waiters := s1.mp.waiters.join added } }

/-- R166: MP, having handed an outcome over, goes idle and grants. Where the requesters' answers added waiters to others
that stood `before`, either order is allowed: the choice is free (assumption 6). -/
def goIdle (before : Waiters) (s : State) : State :=
  let s1 := syncDrain { s with mp := { s.mp with handing := false } }
  let old := before.common s1.mp.waiters
  if inService s1.ps.power = true ∧ old ≠ .none ∧ old ≠ s1.mp.waiters then
    if Config.grantBeforeAddition s1.fresh then grantAmong old { s1 with fresh := s1.fresh + 1 }
    else pump { s1 with fresh := s1.fresh + 1 }
  else pump s1

end Sys2Proof.Machine
end

