-- ==== Sys2Proof/Machine/Admission.lean ====
section
/-! DEFINITION. Admissions: front sectors and what an admitted one does (R8, R39, R49, R73, R141), holds and their
retries (R9 to R11), checkpoint offers (R174), and the events that call for them (R10). -/

namespace Sys2Proof.Machine

open Sys2Proof

/-! ### What an admitted front sector does (R8) -/

/-- R141: the map copy takes an admitted MAP sector in its place. -/
def noteMapCopy (o : Nat) (data : Sector) (s : State) : State :=
  { s with ps := { s.ps with mapCopy := s.ps.mapCopy.map fun c => c.set o data } }

/-- R39 to R41: an admitted map header. -/
def applyHeader (data : Sector) (s : State) : State :=
  takeDesign s.zu.settings.design (latchTimeBase (headerTimeBase data) (setSettings (headerSettings data) s))

/-- R8: ZU's part of an admission, and the map copy's. -/
def takeContent (sector : Nat) (data : Sector) (s : State) : State :=
  match tailOffset? s sector with
  | none => appendToZone sector data s
  | some o =>
    if o = 0 then noteMapCopy 0 data (applyHeader data s)
    else if o ≤ 4 then noteMapCopy o data (applyEntrySector (o - 1) data s)
    else s

/-- R8, R10, R156: FP counts the sector as taken; a hold episode ends. -/
def countTaken (s : State) : State :=
  { s with fp := { s.fp with
    req := s.fp.req.map fun r => { r with taken := r.taken + 1 }
    port := .taking, held := none, holdStart := none } }

/-- The whole WRITE has been taken. -/
def allTaken (s : State) : Bool :=
  match s.fp.req with
  | some r => r.count.toNat ≤ r.taken
  | none => false

/-- R8, R13: a front sector is admitted; the last one has the write answered under its mode. -/
def acceptSector (sector : Nat) (data : Sector) (sb : Staging) (s : State) : State :=
  let s1 := pump (takeContent sector data (countTaken { s with sb := sb }))
  if allTaken s1 then answerWrite s1 else s1

/-! ### Admission test of a front sector (R9, R10) -/

/-- The sector lies in the context image area, tail offsets 17 to 31. -/
def inImageArea (s : State) (sector : Nat) : Bool :=
  tailBase s + 17 ≤ sector && sector ≤ tailBase s + 31

/-- R9: the sectors that are refused at the admission test, with the check flag of R70. -/
def admissionRefusal (s : State) (sector : Nat) : Option (Answer × Nat) :=
  if s.ps.power = .critical then some (.powerCritical, 3)
  else if s.ps.power = .holdup then some (.powerHoldup, 3)
  else if (zoneOf s.zu.zones sector).any fun k => (zoneAt s k).state == .closed then some (.protectedClosed, 8)
  else if inLiveWindow s sector || inImageArea s sector then some (.protectedOwned, 4)
  else none

/-- R10: a hold begins, or goes on, with the reason of the last test. -/
def holdSector (data : Sector) (why : HoldReason) (s : State) : State :=
  { s with fp := { s.fp with
    port := .held
    holdStart := if s.fp.port = .held then s.fp.holdStart else some s.uptimeMs
    held := some { data := data, reason := why } } }

/-- R8 to R10: the admission test of a front sector and what follows it. -/
def offerSector (sector : Nat) (data : Sector) (s : State) : State :=
  match admissionRefusal s sector with
  | some (a, n) => refuse a (maskFlag n) (takenCount s) [] s
  | none =>
    match frontAdmitTest s sector data with
    | .admitted sb => acceptSector sector data sb s
    | .refused why => holdSector data why s

/-- R10: the held sector is tried again. -/
def retryHeld (s : State) : State :=
  match s.fp.port, s.fp.held, s.fp.req with
  | .held, some h, some r => offerSector (r.sector.toNat + r.taken) h.data s
  | _, _, _ => s

/-! ### Checkpoint offers (R174) -/

/-- R174: no offer is made in STARTING, HOLDUP or OFF, nor in media FAULT. -/
def offersAllowed (s : State) : Bool :=
  inService s.ps.power && !s.ps.mediaFault

/-- R101: MM removes the records a persisted drop log sector carried. -/
def dropCarried (s : State) : State :=
  { s with mm := { s.mm with
    pendingRecs := s.mm.pendingRecs.filter fun r => !(s.mm.log.any fun l => l.sequence == r.sequence) } }

/-- R174: what RU does at the admission of offset `o`; the wind-down is tested at the removal (R123). -/
def checkpointTaken (o : Nat) (s : State) : State :=
  testWindDown
    (let s1 := { s with ru := { s.ru with
        pending := s.ru.pending.filter (· != o), changed := s.ru.changed.filter (· != o) } }
     if o = 12 then dropCarried s1 else s1)

/-- R174: one offer; none when the sector is not admitted. Its content is formed at the admission. -/
def offerCheckpoint (o : Nat) (s : State) : Option State :=
  match admitTest s.sb .record (tailBase s + o) none s.zu.settings.reserve s.sm.limit (recordSector s o) with
  | .admitted sb => some (pump (checkpointTaken o { s with sb := sb }))
  | .refused _ => none

/-- R174: the pending sectors among the given offsets are offered in order, up to the first that is not admitted; an
admission that lowers the dirty cost is a space event, and the held front sector goes first (R10). -/
def offerFrom : List Nat → State → State
  | [], s => s
  | o :: os, s =>
    if s.ru.pending.contains o then
      match offerCheckpoint o s with
      | none => s
      | some t => offerFrom os (if dirtyCost t.sb.lines < dirtyCost s.sb.lines then retryHeld t else t)
    else offerFrom os s

/-- R174: an offer of the pending set. -/
def offerAll (s : State) : State :=
  if offersAllowed s then offerFrom [11, 12, 13, 14, 15, 16] s else s

/-! ### The events that retry and offer (R10, R174) -/

/-- Between two states of one step, one of the events of R10 came about: the cost fell or a line became FREE, or L or R
changed. -/
def retryDue (a b : State) : Bool :=
  dirtyCost b.sb.lines < dirtyCost a.sb.lines || freeCount a.sb.lines < freeCount b.sb.lines ||
    a.sm.limit != b.sm.limit || a.zu.settings.reserve != b.zu.settings.reserve

/-- R174: between two states of one step a sector was marked. -/
def markedSince (a b : State) : Bool :=
  b.ru.pending.any fun o => !a.ru.pending.contains o

/-- R10, R174: the held front sector is tried first, at an event of R10 alone; then the checkpoint sectors are offered. -/
def retryRound (before : State) (s : State) : State :=
  offerAll (if retryDue before s then retryHeld s else s)

/-- R10, R174: the retries and offers that the changes since `before` call for. The last offers serve the marks that an
admission among them has made. -/
def react (before : State) (s : State) : State :=
  if retryDue before s || markedSince before s then offerAll (retryRound before s) else s

/-- A step's change followed by its retries and offers, and the media port's grant. -/
def settle (before : State) (s : State) : State :=
  pump (react before s)

/-! ### Data frames (R156) -/

/-- R45 to R47: ZU's validation of an entry sector; none for any other sector. -/
def validation (s : State) (sector : Nat) (data : Sector) : Option MapCheck :=
  match tailOffset? s sector with
  | none => none
  | some o => if 1 ≤ o ∧ o ≤ 4 then validateSector s (o - 1) data else none

/-- R156, R63: the next sector of the write has arrived. -/
def takeFrame (sector : Nat) (data : Sector) (s : State) : State :=
  match validation s sector data with
  | some c => refuse (.mapReject c) 0 (takenCount s) [] s
  | none => offerSector sector data s

/-- R154, R156: FP takes a data frame in TAKING alone; in STARTING and OFF no sector is offered (R9). -/
def takesSector (s : State) : Bool :=
  takesFrames s && s.fp.port == .taking && s.ps.power != .starting && s.ps.power != .off

/-- R154, R156: a data frame arrives: the next sector of the write, or discarded and counted nowhere. -/
def dataArrives (data : Sector) (s : State) : State :=
  if takesSector s then
    match s.fp.req with
    | some r => settle s (takeFrame (r.sector.toNat + r.taken) data s)
    | none => s
  else s

end Sys2Proof.Machine
end

