-- ==== Sys2Proof/Machine/Reads.lean ====
section
/-! DEFINITION. Read assembly, R158 and R159. -/

namespace Sys2Proof.Machine

open Sys2Proof

/-- A formed, copied or read sector goes into the read buffer and is counted. -/
def putRead (sec : Sector) (s : State) : State :=
  { s with fp := { s.fp with
    readBuf := s.fp.readBuf ++ [sec]
    req := s.fp.req.map fun r => { r with taken := r.taken + 1 } } }

/-- R158: the sector is a miss: neither in the live window nor held valid in staging (R16). -/
def isMiss (s : State) (sector : Nat) : Bool :=
  !inLiveWindow s sector && (holderOf s.sb.lines sector).isNone

/-- R158: the length of the miss run that begins at `sector` with `left` sectors of the request left. -/
def missLength (s : State) (sector left : Nat) : Nat :=
  ((List.range left).takeWhile fun i => isMiss s (sector + i)).length

/-- R158: a miss run is handed to MP and FP waits. -/
def waitForMiss (sector left : Nat) (s : State) : State :=
  pump (requestMiss { first := sector, len := missLength s sector left } { s with fp := { s.fp with port := .missWait } })

/-- R158: the READ is answered OK. -/
def answerRead (s : State) : State :=
  respond .ok (takenCount s) (assembledBytes s) s

/-- R158: a sector that is no miss: formed by RU, or copied from the newest line that holds it. -/
def readSource (s : State) (sector : Nat) : Option (Sector × State) :=
  if inLiveWindow s sector then some (formLive (sector - tailBase s) s)
  else
    match holderOf s.sb.lines sector with
    | some (_, l) => some (l.data.getD (sector % 8) [], s)
    | none => none

/-- R158: assembly from sector `sector` with `left` sectors still to assemble. -/
def assembleFrom : Nat → Nat → State → State
  | 0, _, s => answerRead s
  | left + 1, sector, s =>
    match readSource s sector with
    | some (sec, t) => assembleFrom left (sector + 1) (putRead sec t)
    | none => waitForMiss sector (left + 1) s

/-- R158: FP is in ASSEMBLING and goes on with the current READ. -/
def assemble (s : State) : State :=
  match s.fp.req with
  | some r =>
    assembleFrom (r.count.toNat - r.taken) (r.sector.toNat + r.taken) { s with fp := { s.fp with port := .assembling } }
  | none => s

/-- R158, R159: the outcome of FP's media read: its sectors, or none after a failed retry. -/
def readMissDone (count : Nat) (result : Option (List Byte)) (s : State) : State :=
  match result with
  | some payload => assemble ((sectorsOf count payload).foldl (fun s sec => putRead sec s) s)
  | none => respond .mediaRead (takenCount s) (assembledBytes s) s

end Sys2Proof.Machine
end

