-- ==== Sys2Proof/Machine/FrontCommands.lean ====
section
/-! DEFINITION. The commands of the front link: READ, WRITE, FLUSH, INFO, UNKNOWN_CODE_REQUEST, DATA_FRAME,
RESPONSE_SENT, LINK_RESET, FRST_RELEASE, HOLD_LIMIT and UNTAGGED_FRONT_BYTE. -/

namespace Sys2Proof.Machine

open Sys2Proof

/-- R58, R59, R155: a READ that has become the current request. In HOLDUP it is answered at once, with no flag. -/
def beginRead (count : Byte) (sector : Word) (s : State) : State :=
  match readRefusalOf s count sector with
  | some a => refuse a (readMask s count sector) 0 [] s
  | none => if s.ps.power = .holdup then refuse .powerHoldup 0 0 [] s else assemble s

/-- READ (R158). -/
def execRead (count : Byte) (sector : Word) (s : State) : Host.Outcome State Fault Refusal :=
  .next (arrive 1 count sector (beginRead count sector) s)

/-- R58, R155: a WRITE that has become the current request: refused, or TAKING with 0 taken. -/
def beginWrite (count : Byte) (sector : Word) (s : State) : State :=
  match writeRefusalOf s count sector with
  | some a => refuse a (writeMask s count sector) 0 [] s
  | none => { s with fp := { s.fp with port := .taking } }

/-- WRITE (R58). -/
def execWrite (count : Byte) (sector : Word) (s : State) : Host.Outcome State Fault Refusal :=
  .next (arrive 2 count sector (beginWrite count sector) s)

/-- R14, R59: a FLUSH that has become the current request: refused in HOLDUP, else COMPLETING with its mark. -/
def beginFlush (s : State) : State :=
  if s.ps.power = .holdup then refuse .powerHoldup (maskFlag 3) 0 [] s
  else testWait { s with fp := { s.fp with port := .completing, mark := some s.sb.ageCounter } }

/-- FLUSH (R14). -/
def execFlush (count : Byte) (sector : Word) (s : State) : Host.Outcome State Fault Refusal :=
  .next (arrive 3 count sector beginFlush s)

/-- R157: the INFO payload, the working capacity and T. -/
def infoPayload (s : State) : List Byte :=
  le 4 s.ps.capacity ++ le 4 (tailBase s)

/-- R59, R157: an INFO that has become the current request. -/
def beginInfo (s : State) : State :=
  if s.ps.power = .holdup then refuse .powerHoldup 0 0 [] s else respond .ok 0 (infoPayload s) s

/-- INFO (R157). -/
def execInfo (count : Byte) (sector : Word) (s : State) : Host.Outcome State Fault Refusal :=
  .next (arrive 4 count sector beginInfo s)

/-- R59, R62: an unknown code fails FORMAT with flag 1 alone. -/
def beginUnknown (s : State) : State :=
  refuse .rangeFormat (maskFlag 1) 0 [] s

/-- UNKNOWN_CODE_REQUEST (R59). -/
def execUnknownCodeRequest (code count : Byte) (sector : Word) (s : State) : Host.Outcome State Fault Refusal :=
  .next (arrive code count sector beginUnknown s)

/-- DATA_FRAME (R156). The frame carries one sector of 512 bytes. -/
def execDataFrame (data : Sector) (s : State) : Host.Outcome State Fault Refusal :=
  .next (dataArrives (toSector data) s)

/-- RESPONSE_SENT (R155): the last byte of a response has been sent; FP enters IDLE. -/
def execResponseSent (s : State) : Host.Outcome State Fault Refusal :=
  .next (if s.fp.port = .answering then { s with fp := .reset } else s)

/-- R161, R162: the current request is abandoned; CLOSED is left only by power-on. -/
def linkResetPort (s : State) : State :=
  if s.fp.port = .closed then s else abandonRequest s

/-- LINK_RESET (R161). -/
def execLinkReset (s : State) : Host.Outcome State Fault Refusal :=
  .next (linkResetPort { s with pins := { s.pins with frst := true } })

/-- FRST_RELEASE (R161): FP, idle since the assertion, takes frames again. -/
def execFrstRelease (s : State) : Host.Outcome State Fault Refusal :=
  .next { s with pins := { s.pins with frst := false } }

/-- R11: the BUSY answer of a hold. -/
def busyAnswer : HoldReason → Answer
  | .noLine => .busyNoline
  | .cost => .busyCost

/-- HOLD_LIMIT (R11): the hold episode reaches 25 ms. -/
def execHoldLimit (s : State) : Host.Outcome State Fault Refusal :=
  .next
    (match s.fp.port, s.fp.holdStart, s.fp.held with
      | .held, some start, some h => refuse (busyAnswer h.reason) 0 (takenCount s) [] (waitUntil (start + 25) s)
      | _, _, _ => s)

/-- UNTAGGED_FRONT_BYTE (R154): a byte at a frame boundary that is neither tag is discarded. -/
def execUntaggedFrontByte (_byte : Byte) (s : State) : Host.Outcome State Fault Refusal :=
  .next s

end Sys2Proof.Machine
end

