-- ==== Sys2Proof/Machine/MotionOps.lean ====
section
/-! DEFINITION. The motion monitor, chapter 6: thresholds, motion states, the recording of drops. -/

namespace Sys2Proof.Machine

open Sys2Proof

/-! ### Arithmetic (R86, R88, R96, R97) -/

/-- R86: one axis, clamped to -4095..4095 and squared. -/
def axisSquare (a : BitVec 16) : Nat :=
  (clampInt (-4095) 4095 a.toInt).natAbs ^ 2

/-- R86: the magnitude square M. -/
def magnitude (x y z : BitVec 16) : Nat :=
  axisSquare x + axisSquare y + axisSquare z

/-- R88: a low sample. -/
def lowSample (tf m : Nat) : Bool :=
  m < tf ^ 2

/-- R88: a sample inside the still band. -/
def inBand (m : Nat) : Bool :=
  36864 ≤ m && m ≤ 102400

/-- R88: the settle target in samples. -/
def settleTarget (settleMs : Nat) : Nat :=
  settleMs / 2

/-- R92: the kind of a peak. -/
def kindOf (ti peak : Nat) : DropKind :=
  if ti ^ 2 < peak then .impact else .soft

/-- R96: the fall height in millimetres. -/
def fallHeight (n : Nat) : Nat :=
  min 65535 ((n ^ 2 * 1961 + 50000) / 100000)

/-- The root of `m` above `r`, one binary place at a time. -/
def rootFrom (m : Nat) : Nat → Nat → Nat
  | 0, r => r
  | k + 1, r => if (r + 2 ^ k) ^ 2 ≤ m then rootFrom m k (r + 2 ^ k) else rootFrom m k r

/-- R97: the reported peak, the square root rounded down. -/
def reportedPeak (m : Nat) : Nat :=
  rootFrom m 13 0

/-! ### Recording a drop (R98 to R101) -/

/-- R92, R98: the kind of the current drop at its recording. Section 6.2 has the thresholds read at each sample; a drop
recorded while STRUCK by a miss or a brownout is decided at no sample, and which ti then counts, where a header has
changed it since the last sample, is left open: the model takes the ti that ZU holds at the recording (assumption 48,
DESIGN CHOICE). -/
def dropKindNow (s : State) : DropKind :=
  match s.mm.motion with
  | .falling => .soft
  | .struck => kindOf s.zu.settings.ti s.mm.peak
  | .settling => s.mm.drop.kind
  | .still => .soft
  | .disabled => .soft

/-- R97: the reported peak of the current drop; 0 before the strike. -/
def dropPeakNow (s : State) : Nat :=
  if s.mm.motion = .falling then 0 else reportedPeak s.mm.peak

/-- R98: the strike time and the SOC at strike, or those of the recording before the strike. -/
def strikeNow (s : State) : CurrentDrop :=
  if s.mm.motion = .falling then
    { s.mm.drop with strikeUptime := s.uptimeSec, strikeWall := wallSeconds s, socAtStrike := s.bg.soc }
  else s.mm.drop

/-- R98, R99 step 1: the drop record, with the zones that count it. -/
def formDrop (o : DropOutcome) (s : State) : DropRecord :=
  { sequence := (s.mm.lastSeq + 1) % 65536, kind := dropKindNow s, outcome := o, fallSamples := s.mm.fallSamples
    height := fallHeight s.mm.fallSamples, peak := dropPeakNow s, uptime := (strikeNow s).strikeUptime
    wall := (strikeNow s).strikeWall, soc := (strikeNow s).socAtStrike, supplyDip := s.mm.drop.supplyDip
    zoneCount := (openZones s).length, zones := zoneNames (openZones s) }

/-- R99 steps 2 to 4: sequence, log, pending records and total. -/
def Motion.enter (r : DropRecord) (m : Motion) : Motion :=
  { m with
    lastSeq := r.sequence
    log := appendRing r m.log
    pendingRecs := appendRing r m.pendingRecs
    total := satAdd 65535 m.total 1 }

/-- R99: the current drop is recorded: attribution, log, checkpoint mark, ATTN. -/
def recordDrop (o : DropOutcome) (s : State) : State :=
  let s1 := attributeAll (formDrop o s).peak s
  raiseAttn (markSector 12 (noteChanged 12 { s1 with mm := s1.mm.enter (formDrop o s) }))

/-! ### Transitions -/

/-- R27, R28: the motion state entered or left DISABLED: L and then the write mode are recomputed. -/
def limitAtMotion (s : State) : State :=
  recomputeMode (recomputeLimit s)

/-- The counts cleared. -/
def Motion.clearCounts (m : Motion) : Motion :=
  { m with ffRun := 0, fallSamples := 0, window := 0, peak := 0, settleRun := 0, settleElapsed := 0, good := 0 }

/-- R87: entry to DISABLED; a drop in progress is first recorded SENSOR_LOST. -/
def enterDisabled (s : State) : State :=
  let s1 := if bracedState s.mm.motion then recordDrop .sensorLost s else s
  raiseAttn (limitAtMotion { s1 with mm := { s1.mm.clearCounts with motion := .disabled } })

/-- R89: DISABLED is left for STILL. -/
def leaveDisabled (s : State) : State :=
  raiseAttn (limitAtMotion { s with mm := { s.mm with motion := .still, ffRun := 0, good := 0 } })

/-- R90, R94: a drop begins in FALLING with the free-fall run as its fall samples and the supply dip flag clear. -/
def beginFall (run : Nat) (s : State) : State :=
  { s with mm := { s.mm with motion := .falling, ffRun := run, fallSamples := run, drop := .none } }

/-- R91: the strike. -/
def strike (m : Nat) (s : State) : State :=
  { s with mm := { s.mm with
    motion := .struck, peak := m, window := 1
    drop := { s.mm.drop with strikeUptime := s.uptimeSec, strikeWall := wallSeconds s, socAtStrike := s.bg.soc } } }

/-- R90, R93, R95: a drop ends in STILL, with the free-fall run cleared. -/
def comeToRest (o : DropOutcome) (s : State) : State :=
  let s1 := recordDrop o s
  { s1 with mm := { s1.mm with motion := .still, ffRun := 0 } }

/-! ### Samples by motion state (R89 to R94) -/

/-- The free-fall run after a sample. -/
def nextRun (run : Nat) (holds : Bool) : Nat :=
  if holds then run + 1 else 0

/-- R89. -/
def sampleDisabled (m : Nat) (s : State) : State :=
  if inBand m then
    if 16 ≤ s.mm.good + 1 then leaveDisabled s else { s with mm := { s.mm with good := s.mm.good + 1 } }
  else { s with mm := { s.mm with good := 0 } }

/-- R90. -/
def sampleStill (m : Nat) (s : State) : State :=
  let run := nextRun s.mm.ffRun (lowSample s.zu.settings.tf m)
  if s.zu.settings.nf ≤ run then beginFall run s else { s with mm := { s.mm with ffRun := run } }

/-- R91. -/
def sampleFalling (m : Nat) (s : State) : State :=
  if lowSample s.zu.settings.tf m then
    let s1 := { s with mm := { s.mm with fallSamples := s.mm.fallSamples + 1 } }
    if 4095 ≤ s1.mm.fallSamples then enterDisabled s1 else s1
  else strike m s

/-- R92. -/
def sampleStruck (m : Nat) (s : State) : State :=
  let p := max s.mm.peak m
  if 20 ≤ s.mm.window + 1 then
    { s with mm := { s.mm with
      motion := .settling, window := s.mm.window + 1, peak := p, ffRun := 0, settleRun := 0, settleElapsed := 0
      drop := { s.mm.drop with kind := kindOf s.zu.settings.ti p } } }
  else { s with mm := { s.mm with window := s.mm.window + 1, peak := p } }

/-- R93, R94. -/
def sampleSettling (m : Nat) (s : State) : State :=
  let run := nextRun s.mm.ffRun (lowSample s.zu.settings.tf m)
  let rest := nextRun s.mm.settleRun (inBand m)
  let s1 := { s with mm := { s.mm with ffRun := run, settleRun := rest, settleElapsed := s.mm.settleElapsed + 1 } }
  if s.zu.settings.nf ≤ run then beginFall run (recordDrop .bounced s1)
  else if settleTarget s.zu.settings.settleMs ≤ rest then comeToRest .settled s1
  else if 2500 ≤ s.mm.settleElapsed + 1 then comeToRest .unsettled s1
  else s1

/-- R86: MM takes a sample in a power state in which samples are processed. -/
def takeMotionSample (x y z : BitVec 16) (s : State) : State :=
  let s1 := { s with mm := { s.mm with stale := 0 } }
  match s.mm.motion with
  | .disabled => sampleDisabled (magnitude x y z) s1
  | .still => sampleStill (magnitude x y z) s1
  | .falling => sampleFalling (magnitude x y z) s1
  | .struck => sampleStruck (magnitude x y z) s1
  | .settling => sampleSettling (magnitude x y z) s1

/-- R87: MM takes a miss. -/
def takeMotionMiss (s : State) : State :=
  let s1 := { s with mm := { s.mm with stale := s.mm.stale + 1 } }
  if s.mm.motion = .disabled then { s1 with mm := { s1.mm with good := 0 } }
  else if 8 ≤ s1.mm.stale then enterDisabled s1
  else s1

/-! ### The hold-up sequence (R95) -/

/-- R95: at entry to HOLDUP a drop in progress is recorded POWER_LOST and the state becomes STILL, which clears the
free-fall run (R90). -/
def motionAtHoldup (s : State) : State :=
  if bracedState s.mm.motion then comeToRest .powerLost s else s

/-- R95, R104: at a hold-up recovery MM is in STILL with its counts cleared; leaving DISABLED is reported. -/
def motionAtRecovery (s : State) : State :=
  let s1 := { s with mm := { s.mm.clearCounts with motion := .still, stale := 0 } }
  if s.mm.motion = .disabled then raiseAttn (limitAtMotion s1) else s1

end Sys2Proof.Machine
end

