-- ==== Sys2Proof/Machine/Consumers.lean ====
section
/-! DEFINITION. What the motion monitor and the battery gauge do with the samples and misses that SE hands over (R86, R87,
R105, R106, R131, R134). -/

namespace Sys2Proof.Machine

open Sys2Proof

/-- R86, R87, R105, R106: the consumer of a sample or a miss processes it. -/
def process (h : Handover) (s : State) : State :=
  match h with
  | .motionSample x y z => takeMotionSample x y z s
  | .motionMiss => takeMotionMiss s
  | .gaugeSample v i t => takeGaugeSample (clampSample v i t s.uptimeMs) s
  | .gaugeMiss => takeGaugeMiss s

/-- The consumer takes a sample or a miss, as an event of its own; in HOLDUP and OFF it discards it (R86, R105). -/
def consume (s : State) (h : Handover) : State :=
  let s1 := takeHandover h s
  if consumersStopped s1 then s1 else settle s1 (process h s1)

/-- R134: what SE handed over before the entry to HOLDUP or OFF is processed before it, oldest first (assumption 43). -/
def deliverHanded (s : State) : State :=
  s.se.handed.foldl consume s

end Sys2Proof.Machine
end

