-- ==== Sys2Proof/Machine/SenseOps.lean ====
section
/-! DEFINITION. The sense engine, chapter 8: transactions, attempts, errors, the stop and the resumption of polling. -/

namespace Sys2Proof.Machine

open Sys2Proof

/-- SE replaced. -/
def setSense (e : SenseEngine) (s : State) : State :=
  { s with se := e }

/-! ### Attempts and transactions (R131) -/

/-- SE enters WAIT_BUS, and TRANSFER at once when the bus is free; its own START makes the bus busy (R127). -/
def SenseEngine.beginAttempt (now : Word) (e : SenseEngine) : SenseEngine :=
  if e.busBusy then { e with trans := .waitBus, since := now }
  else { e with trans := .transfer, busBusy := true, since := now }

/-- R131: IDLE with a read pending, a transaction starts; the motion read goes first. R132: the gauge start time. -/
def SenseEngine.startIfIdle (now : Word) (e : SenseEngine) : SenseEngine :=
  if e.trans = .idle then
    if e.motionPending then SenseEngine.beginAttempt now { e with reading := some .motion, attempt := 1 }
    else if e.gaugePending then
      SenseEngine.beginAttempt now { e with reading := some .gauge, attempt := 1, gaugeStart := some now }
    else e
  else e

/-- The read in progress leaves the pending set and SE is IDLE; the next read starts (R131). A read that ends after
polling stopped leaves alone what a recovery has since added (assumption 45). -/
def SenseEngine.endRead (now : Word) (e : SenseEngine) : SenseEngine :=
  SenseEngine.startIfIdle now { e with
    trans := .idle
    reading := none
    attempt := 0
    stopping := false
    motionPending := e.motionPending && (e.reading != some SenseKind.motion || (e.stopping && e.timersOn))
    gaugePending := e.gaugePending && (e.reading != some SenseKind.gauge || (e.stopping && e.timersOn)) }

/-- The miss of a read. -/
def SenseKind.miss : SenseKind → Handover
  | .motion => .motionMiss
  | .gauge => .gaugeMiss

/-- The sample a read's bytes give (R127). -/
def SenseKind.sample (bytes : List Byte) : SenseKind → Handover
  | .motion => .motionSample (senseValue bytes 0) (senseValue bytes 1) (senseValue bytes 2)
  | .gauge => .gaugeSample (senseValue bytes 0) (senseValue bytes 1) (senseValue bytes 2)

/-- SE ends its read now. -/
def endRead (s : State) : State :=
  setSense (s.se.endRead s.uptimeMs) s

/-- R131: an attempt failed without a recovery train: retried, or ended with a miss at the third; after polling has
stopped it ends without a miss (R134). -/
def attemptFailed (s : State) : State :=
  if s.se.stopping then endRead s
  else if s.se.attempt < 3 then
    setSense (SenseEngine.beginAttempt s.uptimeMs { s.se with attempt := s.se.attempt + 1 }) s
  else
    match s.se.reading with
    | some k => endRead (handOver k.miss s)
    | none => endRead s

/-- R129: the bytes of an attempt check: those of a device without PEC always, the battery monitor's when the PEC formed
over the attempt equals the byte that follows the data. -/
def SenseKind.checks (bytes : List Byte) (k : SenseKind) : Bool :=
  !k.device.pec || k.device.pecOf (senseData bytes) == senseByte bytes k.device.dataBytes

/-- The bus after an attempt's ending: our STOP or a stray one frees it; a lost arbitration or a stray START leaves it
to another master (R133 to R135). -/
def leavesBusBusy : AttemptEnd → Bool
  | .received _ => false
  | .noAck => false
  | .arbLost => true
  | .strayStart => true
  | .strayStop => false

/-- R133: an error counter, 16 bits, saturating. -/
def countUp (n : Nat) : Nat :=
  satAdd 65535 n 1

/-- R128, R131, R133: the attempt on the bus ends. -/
def endAttempt (k : SenseKind) (how : AttemptEnd) (s : State) : State :=
  let s1 := setSense { s.se with busBusy := leavesBusBusy how } s
  match how with
  | .received bytes =>
    if k.checks bytes then endRead (handOver (k.sample bytes) s1)
    else attemptFailed (setSense { s1.se with pecBad := countUp s1.se.pecBad } s1)
  | .noAck => attemptFailed (setSense { s1.se with noAck := countUp s1.se.noAck } s1)
  | .arbLost => attemptFailed (setSense { s1.se with arbLost := countUp s1.se.arbLost } s1)
  | .strayStart => attemptFailed (setSense { s1.se with busError := countUp s1.se.busError } s1)
  | .strayStop => attemptFailed (setSense { s1.se with busError := countUp s1.se.busError } s1)

/-- What follows the train that a TIMEOUT sends. -/
def SenseEngine.afterTimeout (e : SenseEngine) : AfterTrain :=
  if e.stopping then .quiet else if e.attempt < 3 then .retry else .miss

/-- R131: a failure below the third attempt adds 1 to the attempt count, before the train is sent. -/
def SenseEngine.attemptAfterTimeout (e : SenseEngine) : Nat :=
  if e.stopping then e.attempt else if e.attempt < 3 then e.attempt + 1 else e.attempt

/-- R131, R136: the attempt fails TIMEOUT and SE enters RECOVERY. -/
def failTimeout (s : State) : State :=
  setSense { s.se with
    trans := .recovery, attempt := s.se.attemptAfterTimeout, timeout := countUp s.se.timeout
    afterTrain := s.se.afterTimeout } s

/-! ### Polling (R130, R134, R135) -/

/-- Both reads are added and both timers start, from now. -/
def SenseEngine.startPolling (now : Word) (e : SenseEngine) : SenseEngine :=
  { e with motionPending := true, gaugePending := true, timersOn := true, motionDue := now + 2, gaugeDue := now + 250 }

/-- R135, R136: the recovery train in progress has ended; the bus is free. -/
def endTrain (s : State) : State :=
  let e := { s.se with busBusy := false }
  match s.se.afterTrain with
  | .powerOn =>
    setSense (SenseEngine.startIfIdle s.uptimeMs (SenseEngine.startPolling s.uptimeMs { e with trans := .idle })) s
  | .retry => setSense (SenseEngine.beginAttempt s.uptimeMs e) s
  | .miss =>
    match e.reading with
    | some k => endRead (handOver k.miss (setSense e s))
    | none => endRead (setSense e s)
  | .quiet => endRead (setSense { e with stopping := true } s)

/-- R134: polling stops. -/
def stopPolling (s : State) : State :=
  let e := { s.se with
    timersOn := false
    alertDeferred := false
    motionPending := s.se.motionPending && (s.se.reading == some SenseKind.motion)
    gaugePending := s.se.gaugePending && (s.se.reading == some SenseKind.gauge) }
  match e.trans with
  | .idle => setSense e s
  | .transfer => setSense { e with stopping := true } s
  | .recovery => setSense { e with afterTrain := .quiet } s
  | .waitBus =>
    setSense { e with trans := .idle, reading := none, attempt := 0, motionPending := false, gaugePending := false } s

/-- R134, R135: polling resumes at a hold-up recovery. A read from before the entry that is still in TRANSFER or RECOVERY
runs on beside the two reads added (assumption 45). -/
def resumePolling (s : State) : State :=
  let e := { SenseEngine.startPolling s.uptimeMs s.se with gaugeStart := none, alertDeferred := false }
  setSense (e.startIfIdle s.uptimeMs) s

/-! ### Cadence and ALERT (R130, R132) -/

/-- R130: a motion tick. -/
def motionTick (s : State) : State :=
  if s.se.motionPending then handOver .motionMiss s
  else setSense (SenseEngine.startIfIdle s.uptimeMs { s.se with motionPending := true }) s

/-- R130, R132: a gauge read is added. -/
def addGaugeRead (s : State) : State :=
  setSense (SenseEngine.startIfIdle s.uptimeMs { s.se with gaugePending := true }) s

/-- R130: a gauge tick. -/
def gaugeTick (s : State) : State :=
  if s.se.gaugePending then handOver .gaugeMiss s else addGaugeRead s

/-- R132: the earliest start of an early read has come. -/
def earlyReadAllowed (s : State) : Bool :=
  match s.se.gaugeStart with
  | some g => 10 ≤ elapsedMs s g
  | none => true

end Sys2Proof.Machine
end

