-- ==== Sys2Proof/Machine/HoldUp.lean ====
section
/-! DEFINITION. The hold-up sequence's entry and its recoveries, and the first service (R136, R137, R144, R145, R152). -/

namespace Sys2Proof.Machine

open Sys2Proof

/-! ### Entry to HOLDUP (R137) -/

/-- R137: the front request in progress ends POWER/HOLDUP. -/
def frontAtHoldup (s : State) : State :=
  match s.fp.req with
  | none => s
  | some r =>
    match s.fp.port with
    | .taking => refuse .powerHoldup (maskFlag 3) r.taken [] s
    | .held => refuse .powerHoldup (maskFlag 3) r.taken [] s
    | .completing => refuse .powerHoldup (maskFlag 3) (if r.code = 3 then r.count.toNat else r.taken) [] s
    | .assembling => abandonRead (refuse .powerHoldup 0 r.taken (assembledBytes s) s)
    | .missWait => abandonRead (refuse .powerHoldup 0 r.taken (assembledBytes s) s)
    | .idle => s
    | .answering => s
    | .closed => s

/-- R119: the first-sample timer stops at entry to HOLDUP. -/
def stopFirstTimer (s : State) : State :=
  { s with bg := { s.bg with firstTimer := none } }

/-- R136: the power state becomes HOLDUP with phase DRAIN. The front request ends first, and the write mode is recomputed
at the change (R28, R122) although R31 has it keep its value until the next conversion: both assumption 31. -/
def powerAtHoldup (s : State) : State :=
  let s1 := changePower .holdup (frontAtHoldup s)
  { s1 with ps := { s1.ps with phase := some .drain, brownedOut := false } }

/-- R180: the test at the entry; with a run in flight it is made at that run's completion. -/
def testAtEntry (s : State) : State :=
  if runInFlight s then s else testDrained s

/-- R136, R137, R180: the entry to HOLDUP. -/
def enterHoldup (s : State) : State :=
  testAtEntry (stopFirstTimer (stopPolling (motionAtHoldup (powerAtHoldup s))))

/-! ### Recovery (R144, R145) -/

/-- R119, R125: a gauge still not set has its first-sample timer started afresh. -/
def gaugeAtRecovery (s : State) : State :=
  if s.bg.isSet then s else { s with bg := { s.bg with firstTimer := some s.uptimeMs } }

/-- R152, R175: the first service: start-up is over and the checkpoint timer starts. -/
def noteServed (s : State) : State :=
  if s.ps.startPos = .served then s
  else
    raiseAttn { s with
      ps := { s.ps with startPos := .served }
      ru := { s.ru with timerDue := some (s.uptimeMs + 30000) } }

/-- R144, R162: the hold-up phase and its waiter are cleared and FP is IDLE (assumption 10); the SOC-derived state is
taken. -/
def powerAtRecovery (s : State) : State :=
  changePower (socDerived s)
    { s with
      ps := { s.ps with phase := none, brownedOut := false }
      mp := { s.mp with waiters := { s.mp.waiters with holdup := none } }
      fp := .reset }

/-- R144: service is resumed in the SOC-derived state; the pending checkpoints are offered (R174). -/
def resumeService (s : State) : State :=
  pump (offerAll (noteServed (gaugeAtRecovery (motionAtRecovery (resumePolling (powerAtRecovery s))))))

/-- R152: the first service at the end of start-up. -/
def firstService (s : State) : State :=
  pump (offerAll (noteServed (changePower (socDerived s) s)))

/-! ### Brownout at the power supervisor (R136, R145) -/

/-- The brownout waits for the media operation in progress. -/
def noteBrownedOut (s : State) : State :=
  { s with ps := { s.ps with brownedOut := true } }

/-- R136: with no operation in progress the part enters OFF; otherwise when it has completed. -/
def offAfterOperation (s : State) : State :=
  if s.mp.current.isNone then enterOff s else noteBrownedOut s

/-- R136: start-up stops: no further operation of it is issued. -/
def stopStartup (s : State) : State :=
  offAfterOperation { s with mp := { s.mp with waiters := { s.mp.waiters with startup := none } } }

/-- R136: a brownout in STARTING. An invalidation write that has been issued completes first. -/
def brownoutStarting (s : State) : State :=
  if s.ps.startPos = .served then enterHoldup s
  else stopStartup s

/-- R136: PS acts on a brownout event. In HOLDUP with phase DRAIN or SAVE, which the table does not have, it takes no
action (assumption 46). -/
def supplyLost (s : State) : State :=
  if s.ps.mediaFault then (if s.ps.power = .off then s else offAfterOperation s)
  else
    match s.ps.power with
    | .normal => enterHoldup s
    | .low => enterHoldup s
    | .critical => enterHoldup s
    | .starting => brownoutStarting s
    | .holdup => if s.ps.phase = some .invalidate then noteBrownedOut s else s
    | .off => s

/-! ### Power-on (R146) -/

/-- R146: every block takes its power-on values. What is no state of a block carries on: the queue, the pins' levels, the
model's own counters. The module reset is pulsed and the capacity INFO requested. -/
def powerOnState (wp : Bool) (s : State) : State :=
  requestStartup .capacity { State.reset with
    fresh := s.fresh
    pins := { wp := wp, frst := s.pins.frst }
    wc := .reset wp
    mp := { MediaPort.reset with resetPulses := s.mp.resetPulses + 1 }
    pending := s.pending }

/-- R146: power-on, and the start of start-up. -/
def startUp (wp : Bool) (s : State) : State :=
  pump (powerOnState wp s)

/-! ### Recovery at the power supervisor (R143 to R145) -/

/-- R144: the image has not been issued: DRAIN, or SAVE with the first image write still waiting, or read-only, which
issues none (R142). -/
def imageUnissued (s : State) : Bool :=
  s.ps.phase == some .drain ||
    (s.ps.phase == some .save && (s.zu.readOnly || s.mp.waiters.holdup == some .imageFirst))

/-- R145: the phase becomes INVALIDATE; a second image write not yet issued is not issued. With no image write in
progress the invalidation write is asked for at once. -/
def beginInvalidate (s : State) : State :=
  let s1 := { s with
    ps := { s.ps with phase := some .invalidate }
    mp := { s.mp with waiters := { s.mp.waiters with holdup := none } } }
  if s1.mp.current.isNone then pump (requestHoldup .invalidate s1) else s1

/-- A recovery in phase INVALIDATE takes back a brownout that is still waiting (assumption 11). -/
def recoverInvalidate (s : State) : State :=
  { s with ps := { s.ps with brownedOut := false } }

/-- R143 to R145: PS acts on a recovery event. -/
def supplyReturned (s : State) : State :=
  match s.ps.power with
  | .off => startUp s.pins.wp s
  | .holdup =>
    if imageUnissued s then resumeService s
    else if s.ps.phase = some .save then beginInvalidate s
    else if s.ps.mediaFault then s
    else recoverInvalidate s
  | .starting => s
  | .normal => s
  | .low => s
  | .critical => s

end Sys2Proof.Machine
end

