-- ==== Sys2Proof/Machine/StartUp.lean ====
section
/-! DEFINITION. Start-up, R146 to R152: what PS does with the outcome of each of its media operations. -/

namespace Sys2Proof.Machine

open Sys2Proof

/-- R146, R151: the part enters media FAULT. -/
def enterMediaFault (s : State) : State :=
  { s with ps := { s.ps with mediaFault := true } }

/-! ### Capacity and tail (R146, R147) -/

/-- R146 step 3: the working capacity of a reported capacity. -/
def workingCapacity (reported : Nat) : Nat :=
  min (reported / 8 * 8) 4294967288

/-- R146: the capacity INFO has ended. -/
def capacityKnown (result : Option (List Byte)) (s : State) : State :=
  match result with
  | none => enterMediaFault s
  | some payload =>
    if u32At payload 0 < 1048576 then enterMediaFault s
    else requestStartup .mapArea { s with ps := { s.ps with capacity := workingCapacity (u32At payload 0) } }

/-- R147: the map area read has ended. -/
def mapAreaRead (result : Option (List Byte)) (s : State) : State :=
  requestStartup .gaugeRecord
    (match result with
      | none => setReadOnly { s with ps := { s.ps with mapCopy := none } }
      | some payload =>
        takeDesign s.zu.settings.design
          (buildFromMap (sectorsOf 5 payload) { s with ps := { s.ps with mapCopy := some (sectorsOf 5 payload) } }))

/-- R147: the gauge record read has ended. -/
def gaugeRecordRead (result : Option (List Byte)) (s : State) : State :=
  requestStartup .dropLog
    (match result with
      | none => { s with ps := { s.ps with coldTotal := 0 } }
      | some payload =>
        { s with ps := { s.ps with coldTotal := if hasMarker markerGauge 0 payload then u32At payload 8 else 0 } })

/-- R147: MM takes the persisted drop log; what a drop recorded before has put into ring, totals and pending records is
discarded (assumption 42). -/
def takeDropLog (log : List DropRecord) (total lastSeq : Nat) (s : State) : State :=
  { s with mm := { s.mm with log := log, total := total, lastSeq := lastSeq, pendingRecs := [] } }

/-- R147: the drop log read has ended. -/
def dropLogRead (result : Option (List Byte)) (s : State) : State :=
  requestStartup .checkTable
    (match result with
      | none => takeDropLog [] 0 0 s
      | some payload =>
        if hasMarker markerDropLog 28 payload then
          takeDropLog (readDropLog payload) (u16At payload 60) (u16At payload 62) s
        else takeDropLog [] 0 0 s)

/-- R147: the check table read has ended; a failed read gives all-zero records. -/
def checkTableRead (result : Option (List Byte)) (s : State) : State :=
  requestStartup .imageFirst
    { s with ps := { s.ps with checkRead := match result with
      | none => List.replicate 4 zeroSector
      | some payload => sectorsOf 4 payload } }

/-- R148: the first image read has ended. The second is made in either case (assumption 34). -/
def imageFirstRead (result : Option (List Byte)) (s : State) : State :=
  requestStartup .imageSecond { s with ps := { s.ps with imageRead := result.map (sectorsOf 7) } }

/-! ### The image decision (R148) -/

/-- R148: the five checks of an image whose marker is right; `image` is its fifteen sectors as bytes. -/
def imageChecks (s : State) (image : List Byte) : Bool :=
  !s.zu.readOnly &&
  (u32At image 8 ≤ 7616 && crc32 ((image.drop 64).take (u32At image 8)) == wordAt image 36) &&
  u8At image 20 == 1 &&
  u32At image 12 == s.ps.capacity &&
  wordAt image 16 == mapCrc (s.ps.mapCopy.getD [])

/-- R148: the restart cause from the two image reads. -/
def decideCause (s : State) (first second : Option (List Sector)) : RestartCause :=
  match first, second with
  | some a, some b =>
    if hasMarker markerImage 0 a.flatten then
      if imageChecks s (a.flatten ++ b.flatten) then .restored else .imageRejected
    else .cold
  | _, _ => .imageRejected

/-- R151: the header read is anything but EMPTY, so the invalidation write is issued; never in read-only. -/
def needsInvalidation (s : State) (first : Option (List Sector)) : Bool :=
  !s.zu.readOnly &&
    match first with
    | some a => !hasMarker markerEmpty 0 a.flatten
    | none => true

/-! ### Restore and rebuild (R149, R150) -/

/-- R149: the staging buffer's part; a deferred byte other than 0 counts as set (assumption 27). -/
def restoreStaging (body : List Byte) (s : State) : State :=
  { s with sb := { s.sb with
    lostCount := u16At body 24, lastLost := u32At body 28, deferred := u8At body 32 != 0 } }

/-- The ring without the drops recorded since the drop-log read of start-up: those are its pending records, which that
read left empty (assumption 42). -/
def Motion.persistedLog (m : Motion) : List DropRecord :=
  m.log.filter fun l => !(m.pendingRecs.any fun p => p.sequence == l.sequence)

/-- R149: the motion monitor's part: saved pending records whose sequence is not in the ring join it. A drop recorded in
STARTING leaves the ring, as the last sequence restored gives its number again (R100; assumption 42). -/
def restoreMotion (body : List Byte) (s : State) : State :=
  let saved := readPending body
  let ring := s.mm.persistedLog
  let fresh := saved.filter fun r => !(ring.any fun l => l.sequence == r.sequence)
  { s with mm := { s.mm with
    total := u16At body 16, lastSeq := u16At body 18
    log := fresh.foldl (fun log r => appendRing r log) ring
    pendingRecs := saved } }

/-- R149, R42: the wall seconds at the save become the time base, latched now. -/
def savedWall (image : List Byte) : Word :=
  if wordAt image 28 = 0 then 0 else wordAt image 28 + wordAt image 24 - wordAt image 32

/-- R81, R149: the zone unit's part. -/
def restoreZones (image : List Byte) (s : State) : State :=
  latchTimeBase (savedWall image) (forZones 64 (restoreZone (image.drop 64)) s)

/-- R119, R149: the gauge as the image body gives it. -/
def restoredGauge (body : List Byte) (s : State) : Gauge :=
  let fcc := fccOf s.zu.settings.design (u8At body 10)
  Gauge.derive { s.bg with
    rc := min fcc (u64At body 0), fcc := fcc, band := u8At body 10, iavg := s16At body 8, total := u32At body 12
    flagStale := (byteAt body 11).getLsbD 0, flagUnknown := (byteAt body 11).getLsbD 1
    flagUncertain := (byteAt body 11).getLsbD 2, isSet := true, stale := 0, intPoint := s.uptimeMs
    firstTimer := none }

/-- R149: the battery gauge's part; one saved as not set keeps the saved total and is established cold
(assumption 15). -/
def restoreGauge (body : List Byte) (s : State) : State :=
  if (byteAt body 11).getLsbD 3 then publishGauge (restoredGauge body s) s
  else coldDecision { s with bg := { s.bg with total := u32At body 12 } }

/-- R149: the cause is RESTORED. An image of a shorter body length is taken whole, as read (assumption 27). -/
def restoreImage (image : List Byte) (s : State) : State :=
  markAll (restoreGauge (image.drop 64) (restoreMotion (image.drop 64)
    (restoreStaging (image.drop 64) (restoreZones image s))))

/-- R150: the cause is COLD or IMAGE_REJECTED. A drop recorded since the drop-log read stays in the ring and pending
(assumption 42); the total discharged is taken as a power-on value, no gauge change (assumption 44). -/
def rebuildCold (s : State) : State :=
  let s1 := forZones 64 (rebuildZone s.ps.checkRead) { s with zu := { s.zu with timeBase := 0 } }
  coldDecision { s1 with bg := { s1.bg with total := s1.ps.coldTotal } }

/-- R148 to R150: the image decision and what follows from it. -/
def applyDecision (first second : Option (List Sector)) (s : State) : State :=
  let cause := decideCause s first second
  let s1 := { s with ps := { s.ps with cause := cause, startPos := .invalidate } }
  if cause = .restored then restoreImage ((first.getD []).flatten ++ (second.getD []).flatten) s1
  else rebuildCold s1

/-- R148, R151: the second image read has ended: decision, then the invalidation write or the first service. -/
def imageSecondRead (result : Option (List Byte)) (s : State) : State :=
  let second := result.map (sectorsOf 8)
  let s1 := applyDecision s.ps.imageRead second s
  if needsInvalidation s s.ps.imageRead then requestStartup .invalidate s1 else firstService s1

/-- R151: the invalidation write of start-up has ended. -/
def startupInvalidated (ok : Bool) (s : State) : State :=
  if ok then firstService s else enterMediaFault s

/-! ### Outcomes -/

/-- R136: a brownout was waiting for this operation: after a completed invalidation write the hold-up sequence runs on
the state start-up has built, with what SE handed over before processed before (R134); otherwise the part enters OFF. -/
def stoppedStartupDone (step : StartStep) (ok : Bool) (s : State) : State :=
  if step = .invalidate then
    if ok then enterHoldup (deliverHanded s) else enterOff (enterMediaFault s)
  else enterOff s

/-- R146 to R152: a start-up operation has ended with its final outcome. -/
def startupDone (step : StartStep) (result : Option (List Byte)) (s : State) : State :=
  if s.ps.brownedOut then stoppedStartupDone step result.isSome s
  else
    match step with
    | .moduleReset => s
    | .capacity => capacityKnown result s
    | .mapArea => mapAreaRead result s
    | .gaugeRecord => gaugeRecordRead result s
    | .dropLog => dropLogRead result s
    | .checkTable => checkTableRead result s
    | .imageFirst => imageFirstRead result s
    | .imageSecond => imageSecondRead result s
    | .invalidate => startupInvalidated result.isSome s
    | .served => s

end Sys2Proof.Machine
end

