-- ==== Sys2Proof/Machine/MediaOutcome.lean ====
section
/-! DEFINITION. The outcome of a media operation: retries (R165), and what each requester does (R18, R19, R142, R145,
R158, R166). -/

namespace Sys2Proof.Machine

open Sys2Proof

/-! ### Drain runs (R18, R19) -/

/-- R18, R19: the space event, the completion waits, and staging empty. -/
def afterRun (before : State) (s : State) : State :=
  let s1 := testWait (react before s)
  if staged s1.sb.lines then s1 else testWindDown s1

/-- R138, R180: in phase DRAIN the test follows each run's completion or discard. -/
def testAfterRun (s : State) : State :=
  if s.ps.power = .holdup ∧ s.ps.phase = some .drain then testDrained s else s

/-- R18: a run succeeded. -/
def runDone (op : MediaOp) (s : State) : State :=
  testAfterRun (afterRun s (finishRunAt op.sector op.count s))

/-- R19: a run is discarded; its loss is reported after the waits have been tested, and a zone flag it sets is a mark
(R174). -/
def runLost (op : MediaOp) (s : State) : State :=
  let zone := drainingZone s.sb.lines
  let s1 := afterRun s (dropRun op.sector op.count s)
  testAfterRun (react s1 (reportLoss op.sector zone s1))

/-! ### Image and invalidation writes (R142, R145) -/

/-- R145: an image write has ended in phase INVALIDATE. -/
def imageThenInvalidate (s : State) : State :=
  if s.ps.brownedOut then enterOff s else requestHoldup .invalidate s

/-- R142, R145: the first image write has ended. -/
def imageFirstDone (ok : Bool) (s : State) : State :=
  if s.ps.phase = some .invalidate then imageThenInvalidate s
  else if ok then requestHoldup .imageSecond s
  else enterOff s

/-- R142, R145: the second image write has ended, either way. -/
def imageSecondDone (s : State) : State :=
  if s.ps.phase = some .invalidate then imageThenInvalidate s else enterOff s

/-- R145: the invalidation write has ended. -/
def invalidateDone (ok : Bool) (s : State) : State :=
  if s.ps.brownedOut then
    if ok then enterSave { s with ps := { s.ps with brownedOut := false } } else enterOff s
  else if ok then resumeService { s with ps := { s.ps with mediaFault := false } }
  else enterMediaFault s

/-! ### Read misses (R137, R158, R159) -/

/-- R137, R142: a read miss that was in progress at a read-only part's entry to SAVE has completed. -/
def leaveReadOnlySave (s : State) : State :=
  if s.ps.power = .holdup ∧ s.ps.phase = some .save ∧ s.zu.readOnly = true then offWithoutImage s else s

/-- R158, R159: FP's media read has ended; the data of an abandoned one is discarded. -/
def missEnded (op : MediaOp) (result : Option (List Byte)) (s : State) : State :=
  leaveReadOnlySave (if op.abandoned then s else readMissDone op.count result s)

/-! ### Final outcomes (R165, R166) -/

/-- What the requester does with the final outcome: the payload, or none after the last failure. -/
def handOutcome (op : MediaOp) (result : Option (List Byte)) (s : State) : State :=
  match op.requester with
  | .readMiss => missEnded op result s
  | .drain => if result.isSome then runDone op s else runLost op s
  | .holdup .drainRun => if result.isSome then runDone op s else runLost op s
  | .holdup .imageFirst => imageFirstDone result.isSome s
  | .holdup .imageSecond => imageSecondDone s
  | .holdup .invalidate => invalidateDone result.isSome s
  | .startup step => startupDone step result s

/-- R165, R166: the operation is over: its outcome is handed over and MP goes idle. -/
def finishOp (op : MediaOp) (result : Option (List Byte)) (s : State) : State :=
  goIdle s.mp.waiters
    (handOutcome op result { s with mp := { s.mp with current := none, handing := true } })

/-- R165: a failed operation is tried again. -/
def mayRetry (op : MediaOp) (s : State) : Bool :=
  match op.requester with
  | .readMiss => op.attempt < 2 && !op.abandoned && s.ps.power != .holdup
  | .drain => op.attempt < 2 && (s.ps.power != .holdup || energyTest s)
  | .holdup .drainRun => op.attempt < 2 && (s.ps.power != .holdup || energyTest s)
  | .holdup .imageFirst => op.attempt < 2
  | .holdup .imageSecond => op.attempt < 2
  | .holdup .invalidate => op.attempt < 2
  | .startup step => if step = .capacity then op.attempt < 3 else op.attempt < 2

/-- R165: the retry is issued at once, without returning to arbitration. -/
def retryOp (op : MediaOp) (s : State) : State :=
  { s with mp := { s.mp with current := some { op with attempt := op.attempt + 1, start := s.uptimeMs } } }

/-- R165: an attempt has failed. -/
def attemptFailure (op : MediaOp) (s : State) : State :=
  if mayRetry op s then retryOp op s else finishOp op none s

/-- R164: the flash module's response frame has been received whole. -/
def operationComplete (status : Byte) (payload : List Byte) (s : State) : State :=
  match s.mp.current with
  | none => s
  | some op => if status = 0 then finishOp op (some payload) s else attemptFailure op s

/-- R146, R164: the module reset is pulsed. -/
def pulseReset (s : State) : State :=
  { s with mp := { s.mp with resetPulses := s.mp.resetPulses + 1 } }

/-- R164: the timeout of the current operation expires, 200 ms from its start. -/
def operationTimeout (s : State) : State :=
  match s.mp.current with
  | none => s
  | some op => attemptFailure op (pulseReset (waitUntil (op.start + 200) s))

end Sys2Proof.Machine
end

