-- ==== Sys2Proof/Machine/MediaCommands.lean ====
section
/-! DEFINITION. The commands of the media link: MEDIA_OPERATION_COMPLETE, MEDIA_TIMEOUT and STRAY_MEDIA_BYTES. -/

namespace Sys2Proof.Machine

open Sys2Proof

/-- MEDIA_OPERATION_COMPLETE (R164). -/
def execMediaOperationComplete (status : Byte) (payload : List Byte) (s : State) :
    Host.Outcome State Fault Refusal :=
  .next (operationComplete status payload s)

/-- MEDIA_TIMEOUT (R164). -/
def execMediaTimeout (s : State) : Host.Outcome State Fault Refusal :=
  .next (operationTimeout s)

/-- STRAY_MEDIA_BYTES (R164): bytes that arrive with no operation in progress are discarded. -/
def execStrayMediaBytes (_bytes : List Byte) (s : State) : Host.Outcome State Fault Refusal :=
  .next s

end Sys2Proof.Machine
end

