-- ==== Sys2Proof/Machine/PowerCommands.lean ====
section
/-! DEFINITION. The commands of the supply and of the slider: POWER_ON, CONVERSION_CADENCE, CONVERSION_COMPLETE,
BROWNOUT, RAIL_RETURN, RAIL_RETURN_CANCEL, RECOVERY_QUALIFIED, WP_CHANGE, WP_DEBOUNCE_EXPIRY, and
CHECKPOINT_TIMER_EXPIRY. -/

namespace Sys2Proof.Machine

open Sys2Proof

/-- POWER_ON (R146). -/
def execPowerOn (wp : Bool) (s : State) : Host.Outcome State Fault Refusal :=
  .next (startUp wp s)

/-- R23: a conversion starts. -/
def startConversion (s : State) : State :=
  { s with sm := { s.sm with converting := s.sm.converting + 1, cadenceDue := s.sm.cadenceDue + 10 } }

/-- CONVERSION_CADENCE (R23): the next 10 ms instant comes. -/
def execConversionCadence (s : State) : Host.Outcome State Fault Refusal :=
  .next (startConversion (waitUntil s.sm.cadenceDue s))

/-- R23: the conversion in progress ends; the first one completes 10 ms after power-on. -/
def endConversion (s : State) : State :=
  let s1 := if s.sm.firstPending then waitUntil 10 s else s
  { s1 with sm := { s1.sm with converting := s1.sm.converting - 1, firstPending := false } }

/-- R30: the computation of a completed conversion and the rail dip indication. -/
def computeConversion (vsys vcap : Int) (s : State) : State :=
  railDip (recomputeMode (recomputeLimit (storeConversion vsys vcap s)))

/-- CONVERSION_COMPLETE (R30). -/
def execConversionComplete (vsys vcap : Int) (s : State) : Host.Outcome State Fault Refusal :=
  .next (if s.sm.converting = 0 then s else settle s (computeConversion vsys vcap (endConversion s)))

/-- The rail state replaced. -/
def setRail (r : RailState) (s : State) : State :=
  { s with sm := { s.sm with rail := r } }

/-- BROWNOUT (R31, R136). What SE handed over before it is processed before it (R134). -/
def execBrownout (s : State) : Host.Outcome State Fault Refusal :=
  .next (if s.sm.rail = .good then pump (supplyLost (setRail .lost (deliverHanded s))) else s)

/-- RAIL_RETURN (R32): the start of the qualification. -/
def execRailReturn (s : State) : Host.Outcome State Fault Refusal :=
  .next
    (if s.sm.rail = .lost then { s with sm := { s.sm with rail := .returning, qualStart := s.uptimeMs } } else s)

/-- RAIL_RETURN_CANCEL (R32). -/
def execRailReturnCancel (s : State) : Host.Outcome State Fault Refusal :=
  .next (if s.sm.rail = .returning then setRail .lost s else s)

/-- RECOVERY_QUALIFIED (R32): 50 ms after the start of the qualification. -/
def execRecoveryQualified (s : State) : Host.Outcome State Fault Refusal :=
  .next
    (if s.sm.rail = .returning then supplyReturned (setRail .good (waitUntil (s.sm.qualStart + 50) s)) else s)

/-- R66: WC notes a changed WP level; in OFF the part does not run (assumption 23). -/
def noteSlider (s : State) : State :=
  if s.ps.power = .off then s
  else if s.pins.wp = s.wc.slider then { s with wc := { s.wc with debounce := none } }
  else { s with wc := { s.wc with debounce := some { start := s.uptimeMs, level := s.pins.wp } } }

/-- WP_CHANGE (R66). -/
def execWpChange (s : State) : Host.Outcome State Fault Refusal :=
  .next (noteSlider { s with pins := { s.pins with wp := !s.pins.wp } })

/-- R66, R67: the debounced state takes the qualified level; turned on, it ends a WRITE in transfer or held. -/
def takeSlider (level : Bool) (s : State) : State :=
  let s1 := { s with wc := { s.wc with slider := level, debounce := none } }
  if level then endTransfer .protectedSwitch (maskFlag 5) s1 else s1

/-- WP_DEBOUNCE_EXPIRY (R66): 20 ms after the start of the debounce timer. -/
def execWpDebounceExpiry (s : State) : Host.Outcome State Fault Refusal :=
  .next
    (match s.wc.debounce with
      | some d => if s.ps.power = .off then s else takeSlider d.level (waitUntil (d.start + 20) s)
      | none => s)

/-- R175: every sector of the changed set is marked. -/
def markChanged (s : State) : State :=
  s.ru.changed.foldl (fun s o => markSector o s) s

/-- R175: an expiry of the checkpoint timer: the next comes 30 s later, and in NORMAL, LOW or CRITICAL it marks. -/
def checkpointExpiry (due : Word) (s : State) : State :=
  let s1 := waitUntil due s
  let s2 := { s1 with ru := { s1.ru with timerDue := some (due + 30000) } }
  if inService s2.ps.power then settle s2 (markChanged s2) else s2

/-- CHECKPOINT_TIMER_EXPIRY (R175). -/
def execCheckpointTimerExpiry (s : State) : Host.Outcome State Fault Refusal :=
  .next
    (match s.ru.timerDue with
      | some due => checkpointExpiry due s
      | none => s)

end Sys2Proof.Machine
end

