-- ==== Sys2Proof/Machine/SenseCommands.lean ====
section
/-! DEFINITION. The commands of the sense bus and of its two consumers: MOTION_CADENCE, GAUGE_CADENCE,
ATTEMPT_COMPLETE, SENSE_TIMEOUT, RECOVERY_TRAIN_END, BUS_START_SEEN, BUS_STOP_SEEN, ALERT_EDGE, ALERT_DEFER_EXPIRY,
MOTION_SAMPLE, MOTION_MISS, GAUGE_SAMPLE, GAUGE_MISS and FIRST_SAMPLE_TIMER_EXPIRY. -/

namespace Sys2Proof.Machine

open Sys2Proof

/-! ### The engine (chapter 8) -/

/-- MOTION_CADENCE (R130): the next 2 ms tick comes, while the timers run. -/
def execMotionCadence (s : State) : Host.Outcome State Fault Refusal :=
  .next
    (if s.se.timersOn then
      let s1 := waitUntil s.se.motionDue s
      motionTick (setSense { s1.se with motionDue := s.se.motionDue + 2 } s1)
    else s)

/-- GAUGE_CADENCE (R130): the next 250 ms tick comes, while the timers run. -/
def execGaugeCadence (s : State) : Host.Outcome State Fault Refusal :=
  .next
    (if s.se.timersOn then
      let s1 := waitUntil s.se.gaugeDue s
      gaugeTick (setSense { s1.se with gaugeDue := s.se.gaugeDue + 250 } s1)
    else s)

/-- ATTEMPT_COMPLETE (R128): the attempt on the bus ends. -/
def execAttemptComplete (how : AttemptEnd) (s : State) : Host.Outcome State Fault Refusal :=
  .next
    (match s.se.trans, s.se.reading with
      | .transfer, some k => endAttempt k how s
      | _, _ => s)

/-- SENSE_TIMEOUT (R136): a wait of 25 ms in WAIT_BUS or TRANSFER expires (assumption 25). -/
def execSenseTimeout (s : State) : Host.Outcome State Fault Refusal :=
  .next
    (match s.se.trans with
      | .waitBus => failTimeout (waitUntil (s.se.since + 25) s)
      | .transfer => failTimeout (waitUntil (s.se.since + 25) s)
      | .idle => s
      | .recovery => s)

/-- RECOVERY_TRAIN_END (R136). -/
def execRecoveryTrainEnd (s : State) : Host.Outcome State Fault Refusal :=
  .next (if s.se.trans = .recovery then endTrain s else s)

/-- BUS_START_SEEN (R127). -/
def execBusStartSeen (s : State) : Host.Outcome State Fault Refusal :=
  .next (setSense { s.se with busBusy := true } s)

/-- R127, R131: a STOP frees the bus, and an attempt that waits for it begins. -/
def stopSeen (s : State) : State :=
  let e := { s.se with busBusy := false }
  if s.se.trans = .waitBus then setSense (e.beginAttempt s.uptimeMs) s else setSense e s

/-- BUS_STOP_SEEN (R127). -/
def execBusStopSeen (s : State) : Host.Outcome State Fault Refusal :=
  .next (stopSeen s)

/-- R132: a falling edge of ALERT while the timers run. -/
def alertFalls (s : State) : State :=
  if !s.se.timersOn || s.se.gaugePending then s
  else if earlyReadAllowed s then addGaugeRead s
  else setSense { s.se with alertDeferred := true } s

/-- ALERT_EDGE (R132). -/
def execAlertEdge (s : State) : Host.Outcome State Fault Refusal :=
  .next (alertFalls s)

/-- R132: the ALERT deferred latch clears and a gauge read is added if none is pending. -/
def deferredAlert (s : State) : State :=
  let s1 := setSense { s.se with alertDeferred := false } s
  if s1.se.gaugePending then s1 else addGaugeRead s1

/-- ALERT_DEFER_EXPIRY (R132): 10 ms have passed since the gauge start time. -/
def execAlertDeferExpiry (s : State) : Host.Outcome State Fault Refusal :=
  .next
    (if s.se.timersOn && s.se.alertDeferred then
      match s.se.gaugeStart with
      | some g => deferredAlert (waitUntil (g + 10) s)
      | none => deferredAlert s
    else s)

/-! ### The consumers (chapters 6 and 7) -/

/-- MOTION_SAMPLE (R86). -/
def execMotionSample (x y z : BitVec 16) (s : State) : Host.Outcome State Fault Refusal :=
  .next (consume s (.motionSample x y z))

/-- MOTION_MISS (R87). -/
def execMotionMiss (s : State) : Host.Outcome State Fault Refusal :=
  .next (consume s .motionMiss)

/-- GAUGE_SAMPLE (R105). -/
def execGaugeSample (v i t : BitVec 16) (s : State) : Host.Outcome State Fault Refusal :=
  .next (consume s (.gaugeSample v i t))

/-- GAUGE_MISS (R106). -/
def execGaugeMiss (s : State) : Host.Outcome State Fault Refusal :=
  .next (consume s .gaugeMiss)

/-- R119: the first-sample timer expires: UNKNOWN is set, but for HOLDUP and OFF. -/
def firstTimerExpiry (s : State) : State :=
  let g := { s.bg with firstTimer := none }
  if consumersStopped s then { s with bg := g } else publishFlags { g with flagUnknown := true } s

/-- FIRST_SAMPLE_TIMER_EXPIRY (R119): 1 s after the timer's start. -/
def execFirstSampleTimerExpiry (s : State) : Host.Outcome State Fault Refusal :=
  .next
    (match s.bg.firstTimer with
      | some t => firstTimerExpiry (waitUntil (t + 1000) s)
      | none => s)

end Sys2Proof.Machine
end

