-- ==== Sys2Proof/Machine/Dispatch.lean ====
section
/-! DEFINITION. exec: one arm per command, each one call of its meaning. -/

namespace Sys2Proof.Machine

open Sys2Proof

/-- The effect of a command on everything but the queue. -/
def exec (i : Instr) (s : State) : Host.Outcome State Fault Refusal :=
  match i with
  | .powerOn wp => Sys2Proof.Machine.execPowerOn wp s
  | .read count sector => Sys2Proof.Machine.execRead count sector s
  | .write count sector => Sys2Proof.Machine.execWrite count sector s
  | .flush count sector => Sys2Proof.Machine.execFlush count sector s
  | .info count sector => Sys2Proof.Machine.execInfo count sector s
  | .unknownCodeRequest code count sector => Sys2Proof.Machine.execUnknownCodeRequest code count sector s
  | .dataFrame data => Sys2Proof.Machine.execDataFrame data s
  | .responseSent => Sys2Proof.Machine.execResponseSent s
  | .linkReset => Sys2Proof.Machine.execLinkReset s
  | .frstRelease => Sys2Proof.Machine.execFrstRelease s
  | .holdLimit => Sys2Proof.Machine.execHoldLimit s
  | .mediaOperationComplete status payload => Sys2Proof.Machine.execMediaOperationComplete status payload s
  | .mediaTimeout => Sys2Proof.Machine.execMediaTimeout s
  | .conversionCadence => Sys2Proof.Machine.execConversionCadence s
  | .conversionComplete vsys vcap => Sys2Proof.Machine.execConversionComplete vsys vcap s
  | .brownout => Sys2Proof.Machine.execBrownout s
  | .railReturn => Sys2Proof.Machine.execRailReturn s
  | .railReturnCancel => Sys2Proof.Machine.execRailReturnCancel s
  | .recoveryQualified => Sys2Proof.Machine.execRecoveryQualified s
  | .wpChange => Sys2Proof.Machine.execWpChange s
  | .wpDebounceExpiry => Sys2Proof.Machine.execWpDebounceExpiry s
  | .motionCadence => Sys2Proof.Machine.execMotionCadence s
  | .gaugeCadence => Sys2Proof.Machine.execGaugeCadence s
  | .attemptComplete how => Sys2Proof.Machine.execAttemptComplete how s
  | .senseTimeout => Sys2Proof.Machine.execSenseTimeout s
  | .recoveryTrainEnd => Sys2Proof.Machine.execRecoveryTrainEnd s
  | .busStartSeen => Sys2Proof.Machine.execBusStartSeen s
  | .busStopSeen => Sys2Proof.Machine.execBusStopSeen s
  | .alertEdge => Sys2Proof.Machine.execAlertEdge s
  | .alertDeferExpiry => Sys2Proof.Machine.execAlertDeferExpiry s
  | .motionSample x y z => Sys2Proof.Machine.execMotionSample x y z s
  | .motionMiss => Sys2Proof.Machine.execMotionMiss s
  | .gaugeSample v cur t => Sys2Proof.Machine.execGaugeSample v cur t s
  | .gaugeMiss => Sys2Proof.Machine.execGaugeMiss s
  | .firstSampleTimerExpiry => Sys2Proof.Machine.execFirstSampleTimerExpiry s
  | .checkpointTimerExpiry => Sys2Proof.Machine.execCheckpointTimerExpiry s
  | .untaggedFrontByte byte => Sys2Proof.Machine.execUntaggedFrontByte byte s
  | .strayMediaBytes bytes => Sys2Proof.Machine.execStrayMediaBytes bytes s

end Sys2Proof.Machine
end

