-- ==== Sys2Proof/Machine/StepOps.lean ====
section
/-! DEFINITION. What a step does while no command waits. -/

namespace Sys2Proof.Machine

open Sys2Proof

/-- R131: the command by which a consumer acts on what SE handed over. -/
def handoverCommand : Handover → Instr
  | .motionSample x y z => .motionSample x y z
  | .motionMiss => .motionMiss
  | .gaugeSample v i t => .gaugeSample v i t
  | .gaugeMiss => .gaugeMiss

/-- With no command waiting, the oldest sample or miss that SE handed over reaches its consumer (R131); with none, one
millisecond passes (assumption 1). -/
def idleStep (s : State) : Host.Outcome State Fault Refusal :=
  match s.se.handed with
  | h :: _ => exec (handoverCommand h) s
  | [] => .next (passTime 1 s)

/-- The command put at the front of the queue. -/
def putFront (c : Option Instr) (s : State) : State :=
  match c with
  | some i => { s with pending := i :: s.pending }
  | none => s

end Sys2Proof.Machine
end

