-- ==== Sys2Proof/Machine/Step.lean ====
section
/-! DEFINITION. step: the command at the front of the queue, or the idle step. -/

namespace Sys2Proof.Machine

open Sys2Proof

/-- One step: the front command is taken from the queue and executed with the queue's rest. -/
def step (s : State) : Host.Outcome State Fault Refusal :=
  match s.pending with
  | c :: rest => exec c { s with pending := rest }
  | [] => idleStep s

/-- The state with the command a table word spells put at the front of its queue. -/
def State.withFetchWord (s : State) (nbits w : Nat) : State :=
  putFront (decodeTableWord nbits w) s

end Sys2Proof.Machine
end

