-- ==== Sys2Proof/WellFormed.lean ====
section
/-! DEFINITION. Which commands are well formed: their operands have the shapes the frames of the links and of the
sense bus carry (chapters 8 and 10). A meaning is total all the same (assumption 22). -/

namespace Sys2Proof

/-- The request codes of the front link: 1 READ, 2 WRITE, 3 FLUSH, 4 INFO (chapter 10, section 10.1). -/
def knownCode (code : Byte) : Bool :=
  code = 1 || code = 2 || code = 3 || code = 4

/-- The shape of an attempt's ending: the accelerometer returns 6 data bytes and the battery monitor 6 and a PEC byte
(R127, R128). -/
def AttemptEnd.wellFormed : AttemptEnd → Bool
  | .received bytes => bytes.length = 6 || bytes.length = 7
  | .noAck => true
  | .arbLost => true
  | .strayStart => true
  | .strayStop => true

/-- A command's operands have the shape its frame gives them: an unknown code is none of the four, a data frame carries
512 bytes, a media payload is at most the 64 sectors of the longest read, an untagged byte is neither tag. -/
def Instr.wellFormed : Instr → Bool
  | .powerOn _ => true
  | .read _ _ => true
  | .write _ _ => true
  | .flush _ _ => true
  | .info _ _ => true
  | .unknownCodeRequest code _ _ => !knownCode code
  | .dataFrame data => data.length = 512
  | .responseSent => true
  | .linkReset => true
  | .frstRelease => true
  | .holdLimit => true
  | .mediaOperationComplete _ payload => payload.length ≤ 32768
  | .mediaTimeout => true
  | .conversionCadence => true
  | .conversionComplete _ _ => true
  | .brownout => true
  | .railReturn => true
  | .railReturnCancel => true
  | .recoveryQualified => true
  | .wpChange => true
  | .wpDebounceExpiry => true
  | .motionCadence => true
  | .gaugeCadence => true
  | .attemptComplete how => how.wellFormed
  | .senseTimeout => true
  | .recoveryTrainEnd => true
  | .busStartSeen => true
  | .busStopSeen => true
  | .alertEdge => true
  | .alertDeferExpiry => true
  | .motionSample _ _ _ => true
  | .motionMiss => true
  | .gaugeSample _ _ _ => true
  | .gaugeMiss => true
  | .firstSampleTimerExpiry => true
  | .checkpointTimerExpiry => true
  | .untaggedFrontByte byte => byte ≠ 0xC1 && byte ≠ 0xD2
  | .strayMediaBytes bytes => bytes ≠ []

end Sys2Proof
end

