-- ==== Sys2Proof/Safety.lean ====
section
/-! DEFINITION. What every state of the part keeps, in the terms the statements use: the rules of the chapters about the
whole machine rather than about one command. -/

namespace Sys2Proof.Machine

open Sys2Proof

/-- R28: the write mode is the one that the four rows of its table give. -/
def ModeAgrees (s : State) : Prop :=
  (s.ps.power = .low ∨ s.ps.power = .critical → s.sm.mode = .writeThrough) ∧
  (s.bg.flagUnknown = true → s.sm.mode = .writeThrough) ∧
  (s.sm.limit < 2 → s.sm.mode = .writeThrough) ∧
  (s.ps.power ≠ .low → s.ps.power ≠ .critical → s.bg.flagUnknown = false → 2 ≤ s.sm.limit → s.sm.mode = .writeBack)

/-- R27: L is the smaller of H and 128, and of 8 while the motion state is DISABLED. -/
def LimitAgrees (s : State) : Prop :=
  (s.mm.motion = .disabled → s.sm.limit = min (min s.sm.budget 128) 8) ∧
  (s.mm.motion ≠ .disabled → s.sm.limit = min s.sm.budget 128)

/-- R124: OFFREQ is asserted in CRITICAL alone. -/
def OffreqInCritical (s : State) : Prop :=
  s.ps.offreq = true → s.ps.power = .critical

/-- R143, R162, R168: in OFF the front port is CLOSED, and CLOSED in OFF alone; no media operation is in progress
there. -/
def ClosedInOff (s : State) : Prop :=
  (s.fp.port = .closed ↔ s.ps.power = .off) ∧ (s.ps.power = .off → s.mp.current = none)

/-- R167: the starvation count lies from 0 to 4. -/
def StarvationBounded (s : State) : Prop :=
  s.mp.starvation ≤ 4

/-- R1, R43, R72: 32 line records of eight data places, 64 zone entries, 64 runtime records. -/
def TablesSized (s : State) : Prop :=
  s.sb.lines.length = 32 ∧ (∀ l ∈ s.sb.lines, l.data.length = 8) ∧ s.zu.zones.length = 64 ∧
    s.zu.runtimes.length = 64

/-- R100, R101: the ring and the pending records hold at most sixteen records each. -/
def LogBounded (s : State) : Prop :=
  s.mm.log.length ≤ 16 ∧ s.mm.pendingRecs.length ≤ 16

/-- R38: every setting lies within its range, and critical SOC is less than low SOC. -/
def SettingsInRange (x : Settings) : Prop :=
  x.reserve ≤ 7 ∧ 32 ≤ x.tf ∧ x.tf ≤ 160 ∧ 10 ≤ x.nf ∧ x.nf ≤ 100 ∧ 50 ≤ x.settleMs ∧ x.settleMs ≤ 1000 ∧
    512 ≤ x.ti ∧ x.ti ≤ 4095 ∧ 200 ≤ x.design ∧ x.design ≤ 20000 ∧ 1 ≤ x.lowSoc ∧ x.lowSoc ≤ 50 ∧
    x.criticalSoc ≤ 49 ∧ 2500 ≤ x.cutoff ∧ x.cutoff ≤ 3400 ∧ 100 ≤ x.cap ∧ x.cap ≤ 20000 ∧ 2500 ≤ x.vmin ∧
    x.vmin ≤ 4500 ∧ 100 ≤ x.ew ∧ x.ew ≤ 5000 ∧ 500 ≤ x.ei ∧ x.ei ≤ 20000 ∧ x.criticalSoc < x.lowSoc

/-- R156: the request of a port in TAKING or HELD is a WRITE. -/
def WriteInTransfer (s : State) : Prop :=
  ∀ r, s.fp.port = .taking ∨ s.fp.port = .held → s.fp.req = some r → r.code = 2

/-- A line that holds sectors has a run still to program, and at most one line is DRAINING (R1, R17). -/
def LinesRun (lines : List Line) : Prop :=
  (∀ l ∈ lines, l.live = true → l.undone ≠ 0) ∧
    (lines.filter fun l => l.state == .draining).length ≤ 1

/-- R17, outside OFF: SB's drain request waits exactly while a line is DIRTY, or a DRAINING one has a run besides the one in
flight, and the part is not braced or is in HOLDUP. -/
def DrainStands (s : State) : Prop :=
  s.ps.power ≠ .off →
    (s.mp.waiters.drain = true ↔
      (∃ l ∈ s.sb.lines, l.state = .dirty ∨
        (l.state = .draining ∧ (if runInFlight s then 1 else 0) < maskRuns l.undone)) ∧
      (bracedState s.mm.motion = false ∨ s.ps.power = .holdup))

/-- R48: a zone that is not UNUSED is aligned to lines and lies wholly below T, and no two of them share a sector. -/
def ZonesApart (s : State) : Prop :=
  (∀ k, (zoneAt s k).state ≠ .unused → (zoneAt s k).base % 8 = 0 ∧ (zoneAt s k).length % 8 = 0 ∧
    8 ≤ (zoneAt s k).length ∧ (zoneAt s k).base + (zoneAt s k).length ≤ tailBase s) ∧
  ∀ j k n, j ≠ k → (zoneAt s j).holds n = true → (zoneAt s k).holds n = false

/-- R45: an entry sector that is held has passed validation against the table, which is still the same. -/
def HeldChecked (s : State) : Prop :=
  ∀ r h o, s.fp.port = .held → s.fp.req = some r → s.fp.held = some h → 1 ≤ o → o ≤ 4 →
    r.sector.toNat + r.taken = tailBase s + o → validateSector s (o - 1) h.data = none

/-- R9, R57: a write is in transfer in NORMAL and LOW alone. -/
def TransferInService (s : State) : Prop :=
  s.fp.port = .taking ∨ s.fp.port = .held → s.ps.power = .normal ∨ s.ps.power = .low

/-- R146 to R152: a start-up operation, issued or waiting, is the one of the step start-up stands at, and the power state
is STARTING; no zone is in use before the map is read; service comes after the image decision, and STARTING ends with the
first service. -/
def StartUpStands (s : State) : Prop :=
  (∀ op step, s.mp.current = some op → op.requester = .startup step →
    s.ps.power = .starting ∧ s.ps.startPos = step ∧ s.mp.waiters.startup = none) ∧
  (∀ step, s.mp.waiters.startup = some step → s.ps.power = .starting ∧ s.ps.startPos = step) ∧
  (s.ps.startPos = .capacity → ∀ k, (zoneAt s k).state = .unused) ∧
  (s.ps.power ≠ .starting → s.ps.power ≠ .off → imageDecided s.ps.startPos = true) ∧
  (s.ps.power = .starting → s.ps.startPos ≠ .served)

/-- R138, R142 to R145: where an image or an invalidation write of the hold-up sequence stands, in progress or waiting:
in HOLDUP, in phase SAVE or INVALIDATE, and never on a read-only part. -/
def ImageWriteStands (s : State) : Prop :=
  s.ps.power = .holdup ∧ (s.ps.phase = some .save ∨ s.ps.phase = some .invalidate) ∧ s.zu.readOnly = false

/-- R138, R142 to R145: the operations of the hold-up sequence. Beside one in progress no hold-up request waits, and a
request waits in HOLDUP alone; the image and invalidation writes stand in the phases that make them (a run that the
sequence has issued may still be in progress after a recovery). -/
def HoldupStands (s : State) : Prop :=
  (∀ op h, s.mp.current = some op → op.requester = .holdup h →
    s.mp.waiters.holdup = none ∧ (h ≠ .drainRun → ImageWriteStands s)) ∧
  (∀ h, s.mp.waiters.holdup = some h → s.ps.power = .holdup ∧ (h ≠ .drainRun → ImageWriteStands s))

/-- R45, R48: the zones stand apart, with what keeps them so. -/
def ZonesStand (s : State) : Prop :=
  TablesSized s ∧ ZonesApart s ∧ HeldChecked s ∧ TransferInService s ∧ StartUpStands s ∧ HoldupStands s ∧
    ClosedInOff s

/-- R75: from the image decision on the fill mark of an OPEN zone lies from its base to its end. -/
def FillMarksStand (s : State) : Prop :=
  imageDecided s.ps.startPos = true → ∀ k, k < 64 → (zoneAt s k).state = .opened →
    (zoneAt s k).base ≤ (runtimeAt s k).fillMark ∧
    (runtimeAt s k).fillMark ≤ (zoneAt s k).base + (zoneAt s k).length

/-- R9: the sectors that SB refuses wherever they come from: those of a CLOSED zone, of the live window (tail offsets 5 to
10) and of the context image area (17 to 31). -/
def StagingRefused (s : State) (n : Nat) : Prop :=
  (∃ k, (zoneAt s k).state = .closed ∧ (zoneAt s k).holds n = true) ∨
    (tailBase s + 5 ≤ n ∧ n ≤ tailBase s + 10) ∨ (tailBase s + 17 ≤ n ∧ n ≤ tailBase s + 31)

/-- R8: from `s` to `t` sector `n` has been taken into a slot of a DATA or MAP line: the slot is valid, and the same line
did not hold the sector before. -/
def SlotTaken (n : Nat) (s t : State) : Prop :=
  ∃ (i : Nat) (l : Line), t.sb.lines[i]? = some l ∧ l.live = true ∧ l.cls ≠ .record ∧ l.addr = n / 8 ∧
    l.valid.getLsbD (n % 8) = true ∧
    ∀ a, s.sb.lines[i]? = some a → a.live = true → a.cls = l.cls → a.addr = l.addr → a.valid.getLsbD (n % 8) = false

/-- The bounds that the tables, the counts and the drop log keep. -/
def Sized (s : State) : Prop :=
  TablesSized s ∧ LogBounded s ∧ StarvationBounded s

/-! ### Terms of the statements -/

/-- The header that a request command carries: code, count, sector number. -/
def requestHeader : Instr → Option (Byte × Byte × Word)
  | .read count sector => some (1, count, sector)
  | .write count sector => some (2, count, sector)
  | .flush count sector => some (3, count, sector)
  | .info count sector => some (4, count, sector)
  | .unknownCodeRequest code count sector => some (code, count, sector)
  | _ => none

/-- A response with no sector and no payload is formed and FP is ANSWERING. -/
def Answers (t : State) (a : Answer) (sectors : Nat) (payload : List Byte) : Prop :=
  t.fp.port = .answering ∧ t.fp.response = some { answer := a, sectors := sectors, payload := payload }

/-- R69: the refusal record of a request of code `code`, with its other fields. -/
def Recorded (t : State) (a : Answer) (code count : Byte) (sector : Word) (mask : BitVec 9) (taken : Nat) : Prop :=
  t.wc.refusal.answer = a ∧ t.wc.refusal.code = code ∧ t.wc.refusal.count = count ∧ t.wc.refusal.sector = sector ∧
    t.wc.refusal.mask = mask ∧ t.wc.refusal.taken = taken

/-- R57 does not answer: the request is passed to the checks, and the frame is taken. -/
def PassedOn (s : State) : Prop :=
  takesFrames s = true ∧ s.ps.mediaFault = false ∧ s.ps.power ≠ .starting

/-- Check 1, the count part (R58). -/
def FormatFails (count : Byte) : Prop :=
  count.toNat = 0 ∨ 64 < count.toNat

/-- Check 2 (R60). -/
def EndFails (s : State) (count : Byte) (sector : Word) : Prop :=
  s.ps.capacity < sector.toNat + count.toNat

/-- Check 4 (R60): a sector of the range, below the capacity, lies at tail offsets 5 to 31. -/
def OwnedFails (s : State) (count : Byte) (sector : Word) : Prop :=
  ∃ i, i < count.toNat ∧ tailBase s + 5 ≤ sector.toNat + i ∧ sector.toNat + i ≤ tailBase s + 31 ∧
    sector.toNat + i < s.ps.capacity

/-- Check 7 (R60): two sectors of the range, below the capacity, lie in different categories. -/
def SpanFails (s : State) (count : Byte) (sector : Word) : Prop :=
  ∃ i j c d, i < count.toNat ∧ j < count.toNat ∧ sector.toNat + i < s.ps.capacity ∧
    sector.toNat + j < s.ps.capacity ∧ categoryOf s (sector.toNat + i) = some c ∧
    categoryOf s (sector.toNat + j) = some d ∧ c ≠ d

/-- Check 8: the target zone is CLOSED. -/
def ClosedFails (s : State) (count : Byte) (sector : Word) : Prop :=
  0 < count.toNat ∧ ∃ k, zoneOf s.zu.zones sector.toNat = some k ∧ (zoneAt s k).state = .closed

/-- The target zone is OPEN and its fill mark is `mark` (R61). -/
def OpenAt (s : State) (count : Byte) (sector : Word) (mark : Nat) : Prop :=
  0 < count.toNat ∧ ∃ k, zoneOf s.zu.zones sector.toNat = some k ∧ (zoneAt s k).state = .opened ∧
    (runtimeAt s k).fillMark = mark

/-- R16: line `l` is DIRTY or DRAINING and holds sector `n` valid. -/
def HoldsSector (l : Line) (n : Nat) : Prop :=
  l.live = true ∧ l.addr = n / 8 ∧ l.valid.getLsbD (n % 8) = true

/-- The data of the newest line that holds a sector (R16). -/
def stagedSector (s : State) (sector : Nat) : Sector :=
  match holderOf s.sb.lines sector with
  | some (_, l) => l.data.getD (sector % 8) []
  | none => []

/-- R158, R169: `out` are the `len` sectors that a READ assembles from sector `first` on, none of them a miss: the live
sectors as they are formed at that moment, the others from staging. -/
def Assembles (s : State) (first len : Nat) (out : List Sector) : Prop :=
  out.length = len ∧ ∀ (i : Nat) (b : Sector), out[i]? = some b →
    (first + i = tailBase s + 5 → b = liveStatus s) ∧ (first + i = tailBase s + 6 → b = dropLogSector s) ∧
    (∀ q, q < 4 → first + i = tailBase s + 7 + q → b = checkSector s q) ∧
    (inLiveWindow s (first + i) = false → b = stagedSector s (first + i))

/-- The live status is among the `len` sectors from `first` on. -/
def CoversStatus (s : State) (first len : Nat) : Prop :=
  first ≤ tailBase s + 5 ∧ tailBase s + 5 < first + len

/-- R172: the live status, where it is read, clears the ATTN latch (and advances the model's own counter, log entry 7). -/
def StatusRead (read : Prop) (s t : State) : Prop :=
  (read → t.ru = { s.ru with attn := false } ∧ t.fresh = s.fresh + 1) ∧ (¬read → t.ru = s.ru ∧ t.fresh = s.fresh)

/-- The bytes of a field: `len` bytes from offset `off` (section 11.6). -/
def field (l : List Byte) (off len : Nat) : List Byte :=
  (l.drop off).take len

/-! ### Staged sectors (R5, R6, R8) -/

/-- R2, R4, R5, R6, R8: from one line table to the next, a sector is stored in line record `i`: the line is DIRTY or
DRAINING, of the sector's line address and class, and holds the data in the sector's slot, valid. A slot beside it is valid
just where it was before, with the data it had. A line allocated for it is the lowest-numbered FREE one and takes the age
and the zone number given; a line it merges into was DIRTY and keeps its own. -/
def StoredAt (i : Nat) (cls : LineClass) (age : Word) (zone : Option Nat) (sector : Nat) (data : Sector)
    (old new : List Line) : Prop :=
  ∃ a b, old[i]? = some a ∧ new[i]? = some b ∧ b.live = true ∧ b.cls = cls ∧ b.addr = sector / 8 ∧
    b.valid.getLsbD (sector % 8) = true ∧ b.data[sector % 8]? = some data ∧
    (∀ n, n < 8 → n ≠ sector % 8 → b.valid.getLsbD n = (a.live && a.valid.getLsbD n)) ∧
    (a.live = false → b.age = age ∧ b.zone = zone ∧ b.programmed = 0 ∧
      ∀ (j : Nat) (l : Line), j < i → old[j]? = some l → l.live = true) ∧
    (a.live = true → a.state = .dirty ∧ a.cls = cls ∧ a.addr = sector / 8 ∧ b.age = a.age ∧ b.zone = a.zone ∧
      b.programmed = a.programmed ∧ ∀ n, n ≠ sector % 8 → b.data[n]? = a.data[n]?)

/-- R8, R17: every line but record `i` that was DIRTY or DRAINING, and is none of the record area's, is as it was, but for
a drain grant that makes it DRAINING. -/
def OtherLinesKept (i : Nat) (old new : List Line) : Prop :=
  ∀ (j : Nat) (a : Line), j ≠ i → old[j]? = some a → a.live = true → a.cls ≠ .record →
    ∃ b, new[j]? = some b ∧ b.live = true ∧ b = { a with state := b.state }

/-- R1, R17: the lines are as they were, but that a drain grant may have made the chosen line DRAINING. -/
def OnlyDrainStarted (old new : List Line) : Prop :=
  new = old ∨ ∃ c, chooseRun old = some c ∧ new = old.set c.idx { c.line with state := .draining }

/-- R174: the record-area sector of an offset has been admitted: a DIRTY or DRAINING RECORD line holds it. -/
def RecordStaged (s : State) (o : Nat) : Prop :=
  ∃ l ∈ s.sb.lines, l.live = true ∧ l.cls = .record ∧ l.addr = (tailBase s + o) / 8 ∧
    l.valid.getLsbD ((tailBase s + o) % 8) = true

/-- R83, R110, R175: the sectors `put` are in the changed set, with those that were, and no others. One that was pending,
or is marked by the event, may have been admitted instead, which takes it out (R174). -/
def ChangedBy (put marked : Nat → Prop) (s t : State) : Prop :=
  (∀ o, put o ∨ o ∈ s.ru.changed →
    o ∈ t.ru.changed ∨ (RecordStaged t o ∧ (o ∈ s.ru.pending ∨ marked o))) ∧
  ∀ o, o ∈ t.ru.changed → put o ∨ o ∈ s.ru.changed

/-! ### Admitted and held sectors of a write (R8, R10, R13, R73, R75) -/

/-- R8, R13, R156: a sector of the write `r` has been admitted in state `s`, `sb` being the buffer with it. The sector is
counted; after the last one the write is answered OK in WRITE_BACK, and in WRITE_THROUGH once no line is below its mark. -/
def WriteGoesOn (sb : Staging) (r : Request) (s t : State) : Prop :=
  (r.taken + 1 < r.count.toNat →
    t.fp = { s.fp with req := some { r with taken := r.taken + 1 }, port := .taking, held := none,
                       holdStart := none }) ∧
  (r.count.toNat ≤ r.taken + 1 →
    (s.sm.mode = .writeBack ∨ anyBelow sb.lines sb.ageCounter = false → Answers t .ok (r.taken + 1) []) ∧
    (s.sm.mode = .writeThrough → anyBelow sb.lines sb.ageCounter = true →
      t.fp.port = .completing ∧ t.fp.mark = some sb.ageCounter ∧ waitPin t = .active))

/-- R4, R8, R73, R75: a sector below T, in an OPEN zone or in none, has been admitted in state `s`: it is stored in its
slot, beside which every staged sector stays, in a line of that zone where it is a new one; and it advances the fill mark
and the CRC register of the zone it lies in, and of no other. R83, R175: the zone's check sector is in the changed set, or
has been admitted since. -/
def DataTaken (sector : Nat) (data : Sector) (s t : State) : Prop :=
  (∃ i, StoredAt i .data s.sb.ageCounter (zoneOf s.zu.zones sector) sector data s.sb.lines t.sb.lines ∧
    OtherLinesKept i s.sb.lines t.sb.lines) ∧
  (∀ k, zoneOf s.zu.zones sector = some k →
    (runtimeAt t k).fillMark = sector + 1 ∧
    (runtimeAt t k).crcReg = crc32Update (runtimeAt s k).crcReg data ∧
    (runtimeAt t k).drops = (runtimeAt s k).drops ∧ (runtimeAt t k).minSoc = (runtimeAt s k).minSoc ∧
    (13 + k / 16 ∈ t.ru.changed ∨ RecordStaged t (13 + k / 16))) ∧
  (∀ k, zoneOf s.zu.zones sector ≠ some k → runtimeAt t k = runtimeAt s k)

/-- R10: the sector that a WRITE holds has been tried again in state `u`: it is still held, with the reason of this test, or
it is admitted and its hold ends. -/
def HoldRetried (u t : State) : Prop :=
  ∀ r h, u.fp.req = some r → u.fp.held = some h → r.code = 2 → u.ps.power = .normal ∨ u.ps.power = .low →
    r.sector.toNat + r.taken ≤ tailBase u + 4 →
    (∀ k, zoneOf u.zu.zones (r.sector.toNat + r.taken) = some k → (zoneAt u k).state = .opened) →
    (∀ why, frontAdmitTest u (r.sector.toNat + r.taken) h.data = .refused why →
      t.fp = { u.fp with held := some { h with reason := why } } ∧ waitPin t = .active) ∧
    (∀ sb, frontAdmitTest u (r.sector.toNat + r.taken) h.data = .admitted sb → WriteGoesOn sb r u t ∧
      (r.sector.toNat + r.taken < tailBase u → DataTaken (r.sector.toNat + r.taken) h.data u t))

/-- R18, R19: the lines after the run of a drain operation is finished. -/
def linesAfterRun (op : MediaOp) (lines : List Line) : List Line :=
  lines.map fun l => if l.state = .draining then l.finishRun (op.sector % 8) op.count else l

/-- The state right after a drain run is finished, the rest as it was. -/
def runFinished (op : MediaOp) (s : State) : State :=
  { s with sb := { s.sb with lines := linesAfterRun op s.sb.lines } }

/-- R18: a finished run makes the dirty cost fall or a line FREE, which is a space event. -/
def SpaceEvent (old new : List Line) : Prop :=
  dirtyCost new < dirtyCost old ∨ freeCount old < freeCount new

/-- R13, R14: the completion wait of request `r` with mark `m` has been tested against `lines`: it goes on while a line is
below the mark; otherwise a write is answered OK, and a FLUSH by the deferred write error flag `d`, which its answer
clears. -/
def WaitTested (r : Request) (m : Word) (d : Bool) (lines : List Line) (s t : State) : Prop :=
  (anyBelow lines m = true → t.fp = s.fp ∧ t.sb.deferred = d) ∧
  (anyBelow lines m = false →
    (r.code ≠ 3 → Answers t .ok r.taken [] ∧ t.sb.deferred = d) ∧
    (r.code = 3 → d = false → Answers t .ok r.count.toNat [] ∧ t.sb.deferred = false) ∧
    (r.code = 3 → d = true → Answers t .mediaDeferred r.count.toNat [] ∧ t.sb.deferred = false))

/-! ### Runs and grants (R17, R18, R138, R139) -/

/-- R17, R18: the run that a drain grant issues: of the DRAINING line, or else of the oldest DIRTY line; the lowest of its
runs, whole. -/
def RunChosen (lines : List Line) (c : RunChoice) : Prop :=
  lines[c.idx]? = some c.line ∧
  ((∃ l ∈ lines, l.state = .draining) → c.line.state = .draining) ∧
  ((∀ l ∈ lines, l.state ≠ .draining) → c.line.state = .dirty ∧
    ∀ l ∈ lines, l.state = .dirty → earlier l.age c.line.age = false) ∧
  1 ≤ c.len ∧ c.first + c.len ≤ 8 ∧ (∀ n, n < c.first → c.line.undone.getLsbD n = false) ∧
  (∀ n, n < c.len → c.line.undone.getLsbD (c.first + n) = true) ∧ c.line.undone.getLsbD (c.first + c.len) = false

/-- R2: the ages of the lines lie in one window of 2^31. -/
def AgesClose (lines : List Line) : Prop :=
  ∃ base : Word, ∀ l ∈ lines, l.live = true → (l.age - base).toNat < 2147483648

/-- R18: a run is issued as one media WRITE of the line's data for its slots, and its line is DRAINING. -/
def RunIssued (who : Requester) (c : RunChoice) (now : Word) (lines : List Line) (t : State) : Prop :=
  t.mp.current = some { kind := .write, sector := c.line.addr * 8 + c.first, count := c.len
                        data := (c.line.data.drop c.first).take c.len, requester := who, attempt := 1
                        start := now, abandoned := false } ∧
    t.sb.lines = lines.set c.idx { c.line with state := .draining }

/-- The sectors that the DIRTY and DRAINING lines have still to program. -/
def undoneSectors (lines : List Line) : Nat :=
  (lines.map fun l => if l.live then ((List.range 8).filter fun n => l.undone.getLsbD n).length else 0).sum

/-- R80: the zone that a loss report damages: the zone it names, where that one is OPEN or CLOSED and holds the run's
first sector; otherwise the zone the sector lies in. -/
def DamagedBy (s : State) (sector : Nat) (zone : Option Nat) (k : Nat) : Prop :=
  (zone = some k ∧ (zoneAt s k).holds sector = true) ∨
    ((∀ z, zone = some z → (zoneAt s z).holds sector = false) ∧ zoneOf s.zu.zones sector = some k)

/-- R138, R165: a failed first attempt of an operation is retried: outside HOLDUP, and in HOLDUP an image or an invalidation
write, and a drain run where the energy test passes. -/
def Retried (op : MediaOp) (s : State) : Prop :=
  s.ps.power ≠ .holdup ∨ op.requester = .holdup .imageFirst ∨ op.requester = .holdup .imageSecond ∨
    op.requester = .holdup .invalidate ∨
    ((op.requester = .drain ∨ op.requester = .holdup .drainRun) ∧ s.sm.ewUsed ≤ s.sm.avail)

/-- R142: phase SAVE, with the first image write issued; a read-only part is in OFF instead. -/
def ImageBegun (s t : State) : Prop :=
  (s.zu.readOnly = true → t.ps.power = .off) ∧
  (s.zu.readOnly = false → t.ps.power = .holdup ∧ t.ps.phase = some .save ∧ t.ps.image.length = 15 ∧
    t.mp.current = some { kind := .write, sector := tailBase s + 17, count := 7, data := t.ps.image.take 7
                          requester := .holdup .imageFirst, attempt := 1, start := s.uptimeMs, abandoned := false })

/-- R138, R139, R180: phase DRAIN with MP idle and these lines: the next run is issued when the energy test passes; when it
fails every remaining run is discarded and counted lost; with nothing staged, or nothing left, the image is saved. -/
def DrainTested (lines : List Line) (s t : State) : Prop :=
  (staged lines = false → ImageBegun s t) ∧
  (staged lines = true → s.sm.ewUsed ≤ s.sm.avail → t.ps.power = .holdup ∧ t.ps.phase = some .drain ∧
    ∃ c, chooseRun lines = some c ∧ RunIssued (.holdup .drainRun) c s.uptimeMs lines t) ∧
  (staged lines = true → s.sm.avail < s.sm.ewUsed → ImageBegun s t ∧ staged t.sb.lines = false ∧
    t.sb.lostCount = min 65535 (s.sb.lostCount + undoneSectors lines) ∧ t.sb.deferred = true ∧ t.ru.attn = true)

/-- R19, R138, R139: a drain run of phase DRAIN is discarded and counted lost, which damages the zone of its sectors; the
energy test for what is left follows. -/
def RunLostInHoldup (op : MediaOp) (s t : State) : Prop :=
  DrainTested (linesAfterRun op s.sb.lines)
    { s with sb := { s.sb with lostCount := min 65535 (s.sb.lostCount + op.count) } } t ∧
  t.sb.deferred = true ∧ t.ru.attn = true ∧
  (staged (linesAfterRun op s.sb.lines) = false ∨ s.sm.ewUsed ≤ s.sm.avail →
    t.sb.lostCount = min 65535 (s.sb.lostCount + op.count) ∧ t.sb.lastLost = op.sector + op.count - 1) ∧
  ∀ k, TablesSized s → DamagedBy s op.sector (drainingZone s.sb.lines) k → (runtimeAt t k).damaged = true

/-- R145: the invalidation write is issued: one sector at tail offset 17, "EMPTY", three zero bytes and zeros. -/
def InvalidationIssued (who : Requester) (s t : State) : Prop :=
  ∃ d, t.mp.current = some { kind := .write, sector := tailBase s + 17, count := 1, data := [d], requester := who
                             attempt := 1, start := s.uptimeMs, abandoned := false } ∧
    d.length = 512 ∧ field d 0 8 = [0x45#8, 0x4D#8, 0x50#8, 0x54#8, 0x59#8, 0, 0, 0] ∧
    ∀ n, 8 ≤ n → n < 512 → byteAt d n = 0

/-! ### SOC changes and gauge changes (R78, R110, R113, R175) -/

/-- R78, R113: at a change of SOC, the first one after power-on among them, every OPEN zone takes a lower SOC into its
minimum, and no other part of a runtime record changes; without one no record changes. -/
def MinSocFollows (s t : State) : Prop :=
  (t.bg.soc ≠ s.bg.soc ∨ s.bg.socReported = false → ∀ k,
    ((zoneAt s k).state = .opened →
      runtimeAt t k = { runtimeAt s k with minSoc := min (runtimeAt s k).minSoc t.bg.soc }) ∧
    ((zoneAt s k).state ≠ .opened → runtimeAt t k = runtimeAt s k)) ∧
  (t.bg.soc = s.bg.soc → s.bg.socReported = true → ∀ k, runtimeAt t k = runtimeAt s k)

/-- R110: RC, Iavg, the total discharged or a gauge flag has changed. -/
def GaugeChanged (s t : State) : Prop :=
  t.bg.rc ≠ s.bg.rc ∨ t.bg.iavg ≠ s.bg.iavg ∨ t.bg.total ≠ s.bg.total ∨ t.bg.flagStale ≠ s.bg.flagStale ∨
    t.bg.flagUnknown ≠ s.bg.flagUnknown ∨ t.bg.flagUncertain ≠ s.bg.flagUncertain

/-- R78, R175: what a gauge event puts into the changed set: the gauge record at a gauge change, and the check sector of
each zone whose minimum SOC is lowered. -/
def GaugePuts (s t : State) (o : Nat) : Prop :=
  (o = 11 ∧ GaugeChanged s t) ∨ ∃ k, k < 64 ∧ runtimeAt t k ≠ runtimeAt s k ∧ o = 13 + k / 16

/-- R78, R175: the zones and the changed set follow a gauge event; an entry to LOW or CRITICAL marks all six sectors. -/
def GaugeSeen (s t : State) : Prop :=
  MinSocFollows s t ∧ ChangedBy (GaugePuts s t) (fun _ => t.ps.power ≠ s.ps.power) s t

/-! ### The map area (R38, R39, R49 to R52) -/

/-- R38, R39: the settings that a map header leaves: every field clamped, critical SOC below low SOC; the defaults when
its marker is wrong. -/
def HeaderGives (h : Sector) (x : Settings) : Prop :=
  (field h 0 8 ≠ markerZoneMap → x =
    { reserve := 2, tf := 90, nf := 40, settleMs := 200, ti := 1536, design := 3400, lowSoc := 15, criticalSoc := 5,
      cutoff := 3000, cap := 4700, vmin := 3000, ew := 900, ei := 4000 }) ∧
  (field h 0 8 = markerZoneMap → x =
    { reserve := min 7 (u8At h 12)
      tf := max 32 (min 160 (u8At h 13))
      nf := max 10 (min 100 (u8At h 14))
      settleMs := max 50 (min 1000 (u16At h 18))
      ti := max 512 (min 4095 (u16At h 20))
      design := max 200 (min 20000 (u16At h 22))
      lowSoc := max 1 (min 50 (u8At h 15))
      criticalSoc := min (min 49 (u8At h 16)) (max 1 (min 50 (u8At h 15)) - 1)
      cutoff := max 2500 (min 3400 (u16At h 24))
      cap := max 100 (min 20000 (u16At h 26))
      vmin := 2500 + 10 * min 200 (u8At h 17)
      ew := max 100 (min 5000 (u16At h 28))
      ei := max 500 (min 20000 (u16At h 30)) })

/-- R39, R41: the time base that a map header latches; 0 when its marker is wrong. -/
def HeaderTimes (h : Sector) (base : Word) : Prop :=
  (field h 0 8 ≠ markerZoneMap → base = 0) ∧ (field h 0 8 = markerZoneMap → base = wordAt h 8)

/-- R45: entry `k` of the final table: the entry sector's own for its sixteen, ZU's for the others. -/
def finalEntry (s : State) (sec : Nat) (data : Sector) (k : Nat) : RawEntry :=
  if k / 16 = sec then rawEntry data (k % 16) else (zoneAt s k).raw

/-- A raw entry is OPEN or CLOSED, and its range holds sector `n`. -/
def EntryHolds (e : RawEntry) (n : Nat) : Prop :=
  (e.st = 1 ∨ e.st = 2) ∧ e.base ≤ n ∧ n < e.base + e.length

/-- R46: entry `k` of the final table meets the condition of a check's row. -/
def EntryFails (s : State) (sec : Nat) (data : Sector) (k : Nat) : MapCheck → Prop
  | .state => 3 ≤ (finalEntry s sec data k).st
  | .align => ((finalEntry s sec data k).st = 1 ∨ (finalEntry s sec data k).st = 2) ∧
      ((finalEntry s sec data k).base % 8 ≠ 0 ∨ (finalEntry s sec data k).length % 8 ≠ 0 ∨
        (finalEntry s sec data k).length < 8)
  | .bounds => ((finalEntry s sec data k).st = 1 ∨ (finalEntry s sec data k).st = 2) ∧
      tailBase s < (finalEntry s sec data k).base + (finalEntry s sec data k).length
  | .overlap => ∃ j n, j < 64 ∧ j ≠ k ∧ EntryHolds (finalEntry s sec data k) n ∧ EntryHolds (finalEntry s sec data j) n
  | .transition => ((zoneAt s k).state = .unused ∧ (finalEntry s sec data k).st = 2) ∨
      ((zoneAt s k).state = .closed ∧ (finalEntry s sec data k).st = 1)
  | .changed => (((zoneAt s k).state = .opened ∧ (finalEntry s sec data k).st = 1) ∨
      ((zoneAt s k).state = .closed ∧ (finalEntry s sec data k).st = 2) ∨
      ((zoneAt s k).state = .opened ∧ (finalEntry s sec data k).st = 2)) ∧
      ((finalEntry s sec data k).base ≠ (zoneAt s k).base ∨ (finalEntry s sec data k).length ≠ (zoneAt s k).length)

/-- R46, R47: the sector is refused with subclass `c`: its lowest-numbered failing entry meets the row of `c`, and no row
above it (the subclass codes number the rows). -/
def SectorRefused (s : State) (sec : Nat) (data : Sector) (c : MapCheck) : Prop :=
  ∃ pos, pos < 16 ∧ EntryFails s sec data (16 * sec + pos) c ∧
    (∀ d, d.code < c.code → ¬EntryFails s sec data (16 * sec + pos) d) ∧
    ∀ p, p < pos → ∀ d, ¬EntryFails s sec data (16 * sec + p) d

/-- R47: every entry of the sector passes every check. -/
def SectorPasses (s : State) (sec : Nat) (data : Sector) : Prop :=
  ∀ pos, pos < 16 → ∀ d, ¬EntryFails s sec data (16 * sec + pos) d

/-- R49 to R52: what an applied entry makes of its zone: the table's entry, and the runtime record by the zone's move. -/
def ZoneMoved (k : Nat) (e : RawEntry) (s t : State) : Prop :=
  (zoneAt t k).state = zoneStateOf e.st ∧
    (zoneStateOf e.st ≠ .unused → (zoneAt t k).base = e.base ∧ (zoneAt t k).length = e.length) ∧
    (zoneStateOf e.st = (zoneAt s k).state → runtimeAt t k = runtimeAt s k) ∧
    (zoneStateOf e.st ≠ (zoneAt s k).state →
      (13 + k / 16 ∈ t.ru.pending ∧ 13 + k / 16 ∈ t.ru.changed) ∨ RecordStaged t (13 + k / 16)) ∧
    ((zoneAt s k).state = .unused → e.st = 1 → runtimeAt t k =
      { fillMark := e.base, crcReg := 0xFFFFFFFF#32, frozenCrc := 0, drops := 0, worstPeak := 0, minSoc := s.bg.soc,
        interrupted := false, damaged := false, uncertain := false, openWall := wallSeconds s, closeWall := none }) ∧
    ((zoneAt s k).state = .opened → e.st = 2 → runtimeAt t k =
      { runtimeAt s k with
        frozenCrc := (runtimeAt s k).crcReg ^^^ 0xFFFFFFFF#32, crcReg := 0, closeWall := some (wallSeconds s) }) ∧
    ((zoneAt s k).state ≠ .unused → e.st = 0 → runtimeAt t k = .cleared)

/-- R39, R41, R109, R112: an admitted header replaces all thirteen settings, relatches the time base, and hands a new
design capacity to the gauge, which keeps SOC. -/
def HeaderTaken (data : Sector) (s t : State) : Prop :=
  HeaderGives data t.zu.settings ∧ HeaderTimes data t.zu.timeBase ∧
    t.zu = { s.zu with settings := t.zu.settings, timeBase := t.zu.timeBase, latchedUptime := s.uptimeSec
                       runtimes := t.zu.runtimes } ∧
    (t.zu.settings.design = s.zu.settings.design → t.bg = s.bg) ∧
    (s.bg.isSet = false ∨ t.zu.settings.design = s.zu.settings.design → t.zu.runtimes = s.zu.runtimes) ∧
    (s.bg.isSet = true → t.zu.settings.design ≠ s.zu.settings.design → MinSocFollows s t) ∧
    (t.zu.settings.design ≠ s.zu.settings.design →
      t.bg = { s.bg with fcc := t.bg.fcc, rc := t.bg.rc, soc := t.bg.soc, runtime := t.bg.runtime,
                         socReported := t.bg.socReported } ∧
      t.bg.fcc = t.zu.settings.design * 3600000 * bandFactor s.bg.band / 256 ∧
      (s.bg.isSet = false → t.bg.rc = s.bg.rc ∧ t.bg.soc = s.bg.soc) ∧
      (s.bg.isSet = true →
        t.bg.rc = rescaleCharge s.bg.rc (socOf s.bg.rc s.bg.fcc) s.zu.settings.design t.zu.settings.design t.bg.fcc ∧
        t.bg.soc = t.bg.rc * 100 / t.bg.fcc))

/-- R49, R173: the check sector of a zone that has made a transition. -/
def ZoneMarks (s t : State) (p : Nat) : Prop :=
  ∃ k, k < 64 ∧ (zoneAt t k).state ≠ (zoneAt s k).state ∧ p = 13 + k / 16

/-- R8, R39, R49, R141: the MAP sector of tail offset `o` has been admitted in state `s`: it is stored in a line of its
own and taken into the map copy; a header is taken, an entry sector moves its sixteen zones and no other. R83, R175: the
check sectors of the records that change, and the gauge record at a rescale, are in the changed set. -/
def MapTaken (o : Nat) (data : Sector) (s t : State) : Prop :=
  (∃ i, StoredAt i .map s.sb.ageCounter none (tailBase s + o) data s.sb.lines t.sb.lines ∧
    (∀ a, s.sb.lines[i]? = some a → a.live = false) ∧ OtherLinesKept i s.sb.lines t.sb.lines) ∧
  t.ps.mapCopy = s.ps.mapCopy.map (fun c => c.set o data) ∧
  (o = 0 → HeaderTaken data s t) ∧
  (1 ≤ o → t.bg = s.bg ∧
    t.zu = { s.zu with zones := t.zu.zones, runtimes := t.zu.runtimes } ∧
    (∀ pos, pos < 16 → ZoneMoved (16 * (o - 1) + pos) (rawEntry data pos) s t) ∧
    (∀ k, k / 16 ≠ o - 1 → zoneAt t k = zoneAt s k ∧ runtimeAt t k = runtimeAt s k)) ∧
  ChangedBy (fun p => GaugePuts s t p ∨ ZoneMarks s t p) (ZoneMarks s t) s t

/-- R8, R10: the MAP sector that a WRITE holds has been tried again in state `u`; where it is admitted, it is applied. -/
def MapRetried (u t : State) : Prop :=
  ∀ r h o sb, u.fp.req = some r → u.fp.held = some h → r.code = 2 → u.ps.power = .normal ∨ u.ps.power = .low →
    o ≤ 4 → r.sector.toNat + r.taken = tailBase u + o → (1 ≤ o → SectorPasses u (o - 1) h.data) →
    (∀ k, zoneOf u.zu.zones (tailBase u + o) = some k → (zoneAt u k).state = .opened) →
    frontAdmitTest u (tailBase u + o) h.data = .admitted sb → MapTaken o h.data u t

/-! ### Sectors the part forms (section 11.6) -/

/-- Live status bytes 0 to 31: marker, power state, gauge. -/
def StatusGauge (s : State) (sec : Sector) : Prop :=
  sec.length = 512 ∧ field sec 0 8 = markerLive ∧
    (s.ps.power = .normal → u8At sec 8 = 1) ∧ (s.ps.power = .low → u8At sec 8 = 2) ∧
    (s.ps.power = .critical → u8At sec 8 = 3) ∧
    field sec 9 1 = le 1 s.bg.soc ∧
    (byteAt sec 10).getLsbD 0 = s.bg.flagStale ∧ (byteAt sec 10).getLsbD 1 = s.bg.flagUnknown ∧
    (byteAt sec 10).getLsbD 2 = s.bg.flagUncertain ∧ (byteAt sec 10).getLsbD 3 = s.bg.isSet ∧
    ((byteAt sec 10).getLsbD 4 = true ↔ s.bg.iavg < -10) ∧ u8At sec 10 < 32 ∧
    field sec 11 1 = le 1 s.bg.band ∧ field sec 12 4 = le 4 (s.bg.rc / 3600000) ∧ field sec 16 2 = le16s s.bg.iavg ∧
    (∀ x, s.bg.last = some x → field sec 18 2 = le16s x.v ∧ field sec 20 2 = le16s x.t) ∧
    field sec 22 2 = le 2 s.bg.runtime ∧ field sec 24 4 = le 4 (s.bg.total / s.zu.settings.design) ∧
    field sec 28 4 = le 4 s.bg.total

/-- Live status bytes 32 to 65: supply, staging, motion, restart cause, sense counters, ATTN. -/
def StatusSupply (s : State) (sec : Sector) : Prop :=
  field sec 32 2 = le 2 s.sm.vcap ∧ field sec 34 1 = le 1 s.sm.budget ∧ field sec 35 1 = le 1 s.sm.limit ∧
    field sec 36 1 = le 1 (dirtyCost s.sb.lines) ∧ field sec 37 1 = le 1 (freeCount s.sb.lines) ∧
    (s.sm.mode = .writeBack → u8At sec 38 = 0) ∧ (s.sm.mode = .writeThrough → u8At sec 38 = 1) ∧
    (dirtyCost s.sb.lines ≤ s.sm.limit → u8At sec 39 = 0) ∧ (s.sm.limit < dirtyCost s.sb.lines → u8At sec 39 = 1) ∧
    (s.mm.motion = .disabled → u8At sec 40 = 0) ∧ (s.mm.motion = .still → u8At sec 40 = 1) ∧
    (s.mm.motion = .falling → u8At sec 40 = 2) ∧ (s.mm.motion = .struck → u8At sec 40 = 3) ∧
    (s.mm.motion = .settling → u8At sec 40 = 4) ∧
    (s.ps.cause = .cold → u8At sec 41 = 1) ∧ (s.ps.cause = .restored → u8At sec 41 = 2) ∧
    (s.ps.cause = .imageRejected → u8At sec 41 = 3) ∧
    field sec 42 2 = le 2 s.mm.total ∧ field sec 44 2 = le 2 s.mm.lastSeq ∧ field sec 46 2 = le 2 s.se.noAck ∧
    field sec 48 2 = le 2 s.se.arbLost ∧ field sec 50 2 = le 2 s.se.busError ∧ field sec 52 2 = le 2 s.se.timeout ∧
    field sec 54 2 = le 2 s.se.pecBad ∧ field sec 56 2 = le 2 s.sb.lostCount ∧ field sec 58 4 = le 4 s.sb.lastLost ∧
    u8At sec 62 = s.sb.deferred.toNat ∧ u8At sec 63 = s.zu.readOnly.toNat ∧ field sec 64 1 = le 1 s.zu.ignored ∧
    u8At sec 65 = s.ru.attn.toNat

/-- The status and subclass codes of chapter 10, section 10.1. -/
def statusCodes : List (Answer × Nat × Nat) :=
  [(.ok, 0, 0), (.busyStarting, 1, 1), (.busyNoline, 1, 2), (.busyCost, 1, 3), (.rangeFormat, 2, 1), (.rangeEnd, 2, 2),
   (.rangeSpan, 2, 3), (.protectedOwned, 3, 1), (.protectedSwitch, 3, 2), (.protectedNomap, 3, 3),
   (.protectedClosed, 3, 4), (.sequenceBehind, 4, 1), (.sequenceAhead, 4, 2), (.mapReject .state, 5, 1),
   (.mapReject .align, 5, 2), (.mapReject .bounds, 5, 3), (.mapReject .overlap, 5, 4), (.mapReject .transition, 5, 5),
   (.mapReject .changed, 5, 6), (.powerCritical, 6, 1), (.powerHoldup, 6, 2), (.mediaAbsent, 7, 1), (.mediaRead, 7, 2),
   (.mediaDeferred, 7, 3)]

/-- Live status bytes 66 to 511: times, the refusal record, zeros. -/
def StatusRest (s : State) (sec : Sector) : Prop :=
  field sec 68 4 = le 4 s.uptimeSec.toNat ∧ field sec 72 4 = le 4 (wallSeconds s).toNat ∧
    (s.wc.refusal.answer, u8At sec 80, u8At sec 81) ∈ statusCodes ∧ byteAt sec 82 = s.wc.refusal.code ∧
    byteAt sec 83 = s.wc.refusal.count ∧ field sec 84 2 = le 2 s.wc.refusal.mask.toNat ∧
    field sec 86 1 = le 1 s.wc.refusal.taken ∧ field sec 88 4 = le 4 s.wc.refusal.sector.toNat ∧
    field sec 92 4 = le 4 s.wc.refusal.uptime.toNat ∧ field sec 96 4 = le 4 s.wc.refusal.wall.toNat ∧
    ∀ n, n < 512 → n = 66 ∨ n = 67 ∨ (76 ≤ n ∧ n ≤ 79) ∨ n = 87 ∨ 100 ≤ n → byteAt sec n = 0

/-- The check record of a zone in a state, 32 bytes. -/
def CheckFields (z : ZoneState) (r : Runtime) (b : List Byte) : Prop :=
  b.length = 32 ∧ (z = .unused → u8At b 0 = 0) ∧ (z = .opened → u8At b 0 = 1) ∧ (z = .closed → u8At b 0 = 2) ∧
    (byteAt b 1).getLsbD 0 = r.interrupted ∧ (byteAt b 1).getLsbD 1 = r.damaged ∧
    (byteAt b 1).getLsbD 2 = r.uncertain ∧ u8At b 1 < 8 ∧ field b 2 1 = le 1 r.drops ∧ field b 3 1 = le 1 r.minSoc ∧
    field b 4 2 = le 2 r.worstPeak ∧ field b 6 4 = le 4 r.fillMark ∧
    (z = .unused → field b 10 4 = le 4 0) ∧
    (z = .opened → field b 10 4 = le 4 (r.crcReg ^^^ 0xFFFFFFFF#32).toNat) ∧
    (z = .closed → field b 10 4 = le 4 r.frozenCrc.toNat) ∧ field b 14 4 = le 4 r.openWall.toNat ∧
    (r.closeWall = none → field b 18 4 = le 4 0) ∧ (∀ w, r.closeWall = some w → field b 18 4 = le 4 w.toNat) ∧
    ∀ n, 22 ≤ n → n < 32 → byteAt b n = 0

/-- A place of a drop log or of the image's pending records, but for its trailer. -/
def DropFields (r : Option DropRecord) (b : List Byte) : Prop :=
  b.length = 32 ∧ (r = none → ∀ n, n < 28 → byteAt b n = 0) ∧
    ∀ d, r = some d → field b 0 2 = le 2 d.sequence ∧
      (d.kind = .impact → u8At b 2 = 1) ∧ (d.kind = .soft → u8At b 2 = 2) ∧
      (d.outcome = .settled → u8At b 3 = 1) ∧ (d.outcome = .bounced → u8At b 3 = 2) ∧
      (d.outcome = .unsettled → u8At b 3 = 3) ∧ (d.outcome = .sensorLost → u8At b 3 = 4) ∧
      (d.outcome = .powerLost → u8At b 3 = 5) ∧ field b 4 2 = le 2 d.fallSamples ∧ field b 6 2 = le 2 d.height ∧
      field b 8 2 = le 2 d.peak ∧ field b 10 4 = le 4 d.uptime.toNat ∧ field b 14 4 = le 4 d.wall.toNat ∧
      field b 18 1 = le 1 d.soc ∧ u8At b 19 = d.supplyDip.toNat ∧ field b 20 1 = le 1 d.zoneCount ∧
      (∀ n, n < 4 → field b (21 + n) 1 = le 1 (d.zones.getD n 255)) ∧ ∀ n, 25 ≤ n → n < 28 → byteAt b n = 0

/-- The gauge record sector. -/
def GaugeFields (s : State) (sec : Sector) : Prop :=
  sec.length = 512 ∧ field sec 0 8 = markerGauge ∧ field sec 8 4 = le 4 s.bg.total ∧
    field sec 12 4 = le 4 (s.bg.rc / 3600000) ∧ field sec 16 1 = le 1 s.bg.soc ∧ field sec 17 1 = le 1 s.bg.band ∧
    (byteAt sec 18).getLsbD 0 = s.bg.flagStale ∧ (byteAt sec 18).getLsbD 1 = s.bg.flagUnknown ∧
    (byteAt sec 18).getLsbD 2 = s.bg.flagUncertain ∧ (byteAt sec 18).getLsbD 3 = s.bg.isSet ∧
    ((byteAt sec 18).getLsbD 4 = true ↔ s.bg.iavg < -10) ∧ u8At sec 18 < 32 ∧
    field sec 20 4 = le 4 (s.bg.total / s.zu.settings.design) ∧ field sec 24 4 = le 4 s.uptimeSec.toNat ∧
    field sec 28 4 = le 4 (wallSeconds s).toNat ∧ ∀ n, n < 512 → n = 19 ∨ 32 ≤ n → byteAt sec n = 0

/-- The drop log sector. -/
def LogFields (s : State) (sec : Sector) : Prop :=
  sec.length = 512 ∧ field sec 28 4 = markerDropLog ∧ field sec 60 2 = le 2 s.mm.total ∧
    field sec 62 2 = le 2 s.mm.lastSeq ∧ (∀ i, i < 16 → DropFields (s.mm.log[i]?) (field sec (32 * i) 32)) ∧
    ∀ i, 2 ≤ i → i < 16 → field sec (32 * i + 28) 4 = le 4 0

/-- R84, R174: a checkpoint sector of tail offset `o` as the state gives it. -/
def RecordFormed (s : State) (o : Nat) (sec : Sector) : Prop :=
  (o = 11 → GaugeFields s sec) ∧ (o = 12 → LogFields s sec) ∧
    (13 ≤ o → o ≤ 16 → sec.length = 512 ∧ ∀ pos, pos < 16 →
      CheckFields (zoneAt s (16 * (o - 13) + pos)).state (runtimeAt s (16 * (o - 13) + pos))
        (field sec (32 * pos) 32))

/-! ### Checkpoint offers (R174) -/

/-- R174: the checkpoint sector of tail offset `o` would be admitted, if it were offered in state `s`. -/
def Admissible (s : State) (o : Nat) : Prop :=
  ∃ sb, admitTest s.sb .record (tailBase s + o) none s.zu.settings.reserve s.sm.limit (recordSector s o) = .admitted sb

/-- R174: the checkpoint sector of tail offset `o` has been admitted: a DIRTY or DRAINING RECORD line holds it, formed from
the state as it stands, and it is in neither set. -/
def CheckpointTaken (o : Nat) (t : State) : Prop :=
  o ∉ t.ru.pending ∧ o ∉ t.ru.changed ∧
    ∃ l ∈ t.sb.lines, l.live = true ∧ l.cls = .record ∧ l.addr = (tailBase t + o) / 8 ∧
      l.valid.getLsbD ((tailBase t + o) % 8) = true ∧
      ∃ sec, l.data[(tailBase t + o) % 8]? = some sec ∧ RecordFormed t o sec

/-- R174: the sectors `marked` have been offered in ascending order from state `s`: those below `cut` are admitted; the one
at `cut` is not, and neither it nor one above it leaves the pending set. With a line FREE and the cost test passing, the
lowest one is admitted. -/
def OffersMade (marked : Nat → Prop) (s t : State) : Prop :=
  (∃ cut, (cut = 17 ∨ (marked cut ∧ ¬Admissible t cut)) ∧
    ∀ o, 11 ≤ o → o ≤ 16 → marked o → (o < cut → CheckpointTaken o t) ∧ (cut ≤ o → o ∈ t.ru.pending)) ∧
  (1 ≤ freeCount s.sb.lines → dirtyCost s.sb.lines + 1 ≤ max 1 t.sm.limit →
    ∀ o, 11 ≤ o → o ≤ 16 → marked o → (∀ p, 11 ≤ p → p < o → ¬marked p) → CheckpointTaken o t)

/-- R140: the header of the context image `im`, bytes 0 to 63. -/
def ImageHeader (s : State) (im : List Byte) : Prop :=
  im.length = 7680 ∧ field im 0 8 = markerImage ∧ field im 8 4 = le 4 7616 ∧ field im 12 4 = le 4 s.ps.capacity ∧
    field im 16 4 = le 4 (crc32 (s.ps.mapCopy.getD []).flatten).toNat ∧ u8At im 20 = 1 ∧
    field im 24 4 = le 4 s.uptimeSec.toNat ∧ field im 28 4 = le 4 s.zu.timeBase.toNat ∧
    field im 32 4 = le 4 s.zu.latchedUptime.toNat ∧ field im 36 4 = le 4 (crc32 (field im 64 7616)).toNat ∧
    ∀ n, n < 64 → (21 ≤ n ∧ n ≤ 23) ∨ 40 ≤ n → byteAt im n = 0

/-- R140: the body of the context image `im`, from byte 64 on. -/
def ImageBody (s : State) (im : List Byte) : Prop :=
  field im 64 8 = le 8 s.bg.rc ∧ field im 72 2 = le16s s.bg.iavg ∧ field im 74 1 = le 1 s.bg.band ∧
    (byteAt im 75).getLsbD 0 = s.bg.flagStale ∧ (byteAt im 75).getLsbD 1 = s.bg.flagUnknown ∧
    (byteAt im 75).getLsbD 2 = s.bg.flagUncertain ∧ (byteAt im 75).getLsbD 3 = s.bg.isSet ∧ u8At im 75 < 16 ∧
    field im 76 4 = le 4 s.bg.total ∧ field im 80 2 = le 2 s.mm.total ∧ field im 82 2 = le 2 s.mm.lastSeq ∧
    field im 84 1 = le 1 s.mm.pendingRecs.length ∧ field im 88 2 = le 2 s.sb.lostCount ∧
    field im 92 4 = le 4 s.sb.lastLost ∧ u8At im 96 = s.sb.deferred.toNat ∧
    (∀ i, i < 16 → DropFields (s.mm.pendingRecs[i]?) (field im (128 + 32 * i) 32) ∧
      field im (128 + 32 * i + 28) 4 = le 4 0) ∧
    (∀ k, k < 64 → CheckFields (zoneAt s k).state (runtimeAt s k) (field im (3584 + 32 * k) 32)) ∧
    ∀ n, (85 ≤ n ∧ n ≤ 87) ∨ (90 ≤ n ∧ n ≤ 91) ∨ (97 ≤ n ∧ n ≤ 127) ∨ (640 ≤ n ∧ n ≤ 3583) ∨ (5632 ≤ n ∧ n < 7680) →
      byteAt im n = 0

/-! ### Start-up (R54, R81, R82, R119, R121, R147 to R152) -/

/-- R147, R148: PS stands at a start-up read, `count` sectors from a tail offset, and MP has issued it. -/
def StartupReads (step : StartStep) (offset count : Nat) (s t : State) : Prop :=
  t.ps.startPos = step ∧
    t.mp.current = some { kind := .read, sector := tailBase s + offset, count := count, data := [], requester := .startup step
                          attempt := 1, start := s.uptimeMs, abandoned := false }

/-- R54: entry `k` fails STATE, ALIGN, BOUNDS, or OVERLAP against the entries below it that were accepted. -/
def entryIgnored (t : State) (k : Nat) (e : RawEntry) : Bool :=
  3 ≤ e.st || ((e.st == 1 || e.st == 2) &&
    (e.base % 8 != 0 || e.length % 8 != 0 || e.length < 8 || tailBase t < e.base + e.length ||
      (List.range k).any fun j => (zoneAt t j).state != .unused &&
        (zoneAt t j).base < e.base + e.length && e.base < (zoneAt t j).base + (zoneAt t j).length))

/-- R42, R54: the zone unit built from the five map sectors; the time base is not latched. -/
def MapBuilt (sectors : List Sector) (s t : State) : Prop :=
  HeaderGives (sectors.getD 0 []) t.zu.settings ∧
  t.zu = { s.zu with settings := t.zu.settings, zones := t.zu.zones, ignored := t.zu.ignored } ∧
  (∀ k e, k < 64 → e = rawEntry (sectors.getD (1 + k / 16) []) (k % 16) →
    (entryIgnored t k e = true ∨ e.st = 0 → (zoneAt t k).state = .unused) ∧
    (entryIgnored t k e = false → e.st ≠ 0 →
      (zoneAt t k).state = zoneStateOf e.st ∧ (zoneAt t k).base = e.base ∧ (zoneAt t k).length = e.length)) ∧
  t.zu.ignored = ((List.range 64).filter fun k =>
    entryIgnored t k (rawEntry (sectors.getD (1 + k / 16) []) (k % 16))).length

/-- R55: the map area could not be read: read-only, defaults, no zone. -/
def MapUnread (s t : State) : Prop :=
  t.zu = { s.zu with
    readOnly := true, timeBase := 0, zones := List.replicate 64 .unused, ignored := 0
    settings :=
      { reserve := 2, tf := 90, nf := 40, settleMs := 200, ti := 1536, design := 3400, lowSoc := 15, criticalSoc := 5,
        cutoff := 3000, cap := 4700, vmin := 3000, ew := 900, ei := 4000 } }

/-- Section 11.6: the record that a drop record's bytes give, for the codes it lists. -/
def DropRead (b : List Byte) (r : DropRecord) : Prop :=
  r.sequence = u16At b 0 ∧ (u8At b 2 = 1 → r.kind = .impact) ∧ (u8At b 2 = 2 → r.kind = .soft) ∧
    (u8At b 3 = 1 → r.outcome = .settled) ∧ (u8At b 3 = 2 → r.outcome = .bounced) ∧
    (u8At b 3 = 3 → r.outcome = .unsettled) ∧ (u8At b 3 = 4 → r.outcome = .sensorLost) ∧
    (u8At b 3 = 5 → r.outcome = .powerLost) ∧ r.fallSamples = u16At b 4 ∧ r.height = u16At b 6 ∧ r.peak = u16At b 8 ∧
    r.uptime = wordAt b 10 ∧ r.wall = wordAt b 14 ∧ r.soc = u8At b 18 ∧ r.supplyDip = (byteAt b 19).getLsbD 0 ∧
    r.zoneCount = u8At b 20 ∧ r.zones = [u8At b 21, u8At b 22, u8At b 23, u8At b 24]

/-- R147: the ring read from a drop log sector: a record for each place that is not empty, in the order of the places. -/
def DropLogRead (b : List Byte) (log : List DropRecord) : Prop :=
  ∃ places : List Nat, places = (List.range 16).filter (fun i => u8At b (32 * i + 2) != 0) ∧ log.length = places.length ∧
    ∀ (n i : Nat), places[n]? = some i → ∃ r, log[n]? = some r ∧ DropRead (field b (32 * i) 32) r

/-- R119, R125: the cold decision of a gauge whose total discharged is `total`: RC from the last good sample, or the
first-sample timer. -/
def GaugeCold (total : Nat) (s t : State) : Prop :=
  (s.bg.last = none → t.bg = { s.bg with total := total, firstTimer := some s.uptimeMs }) ∧
  (∀ x, s.bg.last = some x →
    t.bg = { s.bg with
      total := total, band := bandByTable x.t, iavg := x.i, flagUncertain := true, intPoint := x.arrived, isSet := true
      firstTimer := none, socReported := true
      fcc := s.zu.settings.design * 3600000 * bandFactor (bandByTable x.t) / 256
      rc := t.bg.fcc * perMille x.v.toNat / 1000
      soc := t.bg.rc * 100 / t.bg.fcc
      runtime := runtimeOf t.bg.rc x.i })

/-- R78, R113: the minimum SOC of zone `k` after the decision, `m` in its record: an OPEN zone takes the first SOC. -/
def MinSocTaken (computed : Bool) (k m : Nat) (s t : State) : Prop :=
  (runtimeAt t k).minSoc = if (zoneAt s k).state = .opened ∧ computed = true then min m t.bg.soc else m

/-- R148: the five checks of an image whose marker is right. -/
def ImageFits (s : State) (im : List Byte) : Prop :=
  s.zu.readOnly = false ∧ u32At im 8 ≤ 7616 ∧ crc32 (field im 64 (u32At im 8)) = wordAt im 36 ∧ u8At im 20 = 1 ∧
    u32At im 12 = s.ps.capacity ∧ wordAt im 16 = crc32 (s.ps.mapCopy.getD []).flatten

/-- R81, section 11.6: the runtime record `r` that a restore takes from the record bytes `b`, the minimum SOC apart. -/
def RecordRestored (b : List Byte) (r : Runtime) : Prop :=
  (u8At b 0 = 0 → r = { Runtime.cleared with minSoc := r.minSoc }) ∧
  (u8At b 0 = 1 → r =
    { fillMark := u32At b 6, crcReg := wordAt b 10 ^^^ 0xFFFFFFFF#32, frozenCrc := 0, drops := u8At b 2
      worstPeak := u16At b 4, minSoc := r.minSoc, interrupted := true, damaged := (byteAt b 1).getLsbD 1
      uncertain := (byteAt b 1).getLsbD 2, openWall := wordAt b 14, closeWall := none }) ∧
  (u8At b 0 = 2 → r =
    { fillMark := u32At b 6, crcReg := 0, frozenCrc := wordAt b 10, drops := u8At b 2, worstPeak := u16At b 4
      minSoc := r.minSoc, interrupted := (byteAt b 1).getLsbD 0, damaged := (byteAt b 1).getLsbD 1
      uncertain := (byteAt b 1).getLsbD 2, openWall := wordAt b 14, closeWall := some (wordAt b 18) })

/-- R100, R147, R149: the ring from which a restore goes on: the records read from the record area. What start-up has
recorded since that read is the pending records, which it left empty. -/
def ringRead (s : State) : List DropRecord :=
  s.mm.log.filter fun l => !s.mm.pendingRecs.any fun p => p.sequence == l.sequence

/-- R149, section 11.6: every block has taken its part of the image `im`, and all six record-area sectors are marked. -/
def ImageRestored (im : List Byte) (s t : State) : Prop :=
  t.sb = { s.sb with lostCount := u16At im 88, lastLost := u32At im 92, deferred := u8At im 96 != 0 } ∧
  t.ru.pending = [11, 12, 13, 14, 15, 16] ∧
  (∀ k, k < 64 → u8At im (3584 + 32 * k) = 1 ∨ u8At im (3584 + 32 * k) = 2 → 13 + k / 16 ∈ t.ru.changed) ∧
  ((byteAt im 75).getLsbD 3 = true →
    t.bg = { s.bg with
      fcc := s.zu.settings.design * 3600000 * bandFactor (u8At im 74) / 256
      rc := min t.bg.fcc (u64At im 64), iavg := s16At im 72, band := u8At im 74, total := u32At im 76
      flagStale := (byteAt im 75).getLsbD 0, flagUnknown := (byteAt im 75).getLsbD 1
      flagUncertain := (byteAt im 75).getLsbD 2, isSet := true, stale := 0, intPoint := s.uptimeMs, firstTimer := none
      soc := t.bg.rc * 100 / t.bg.fcc, runtime := runtimeOf t.bg.rc t.bg.iavg, socReported := true }) ∧
  ((byteAt im 75).getLsbD 3 = false → GaugeCold (u32At im 76) s t) ∧
  t.mm = { s.mm with
    total := u16At im 80, lastSeq := u16At im 82, pendingRecs := t.mm.pendingRecs
    log := (t.mm.pendingRecs.filter fun r => !(ringRead s).any fun l => l.sequence == r.sequence).foldl
      (fun log r => appendRing r log) (ringRead s) } ∧
  t.mm.pendingRecs.length = min 16 (u8At im 84) ∧
  (∀ (n : Nat) (r : DropRecord), t.mm.pendingRecs[n]? = some r → DropRead (field im (128 + 32 * n) 32) r) ∧
  t.zu = { s.zu with runtimes := t.zu.runtimes, timeBase := t.zu.timeBase, latchedUptime := s.uptimeSec } ∧
  (wordAt im 28 = 0 → t.zu.timeBase = 0) ∧
  (wordAt im 28 ≠ 0 → t.zu.timeBase = wordAt im 28 + wordAt im 24 - wordAt im 32) ∧
  (∀ k, k < 64 → RecordRestored (field im (3584 + 32 * k) 32) (runtimeAt t k) ∧
    MinSocTaken ((byteAt im 75).getLsbD 3 || s.bg.last.isSome) k
      (if u8At im (3584 + 32 * k) = 1 ∨ u8At im (3584 + 32 * k) = 2 then u8At im (3587 + 32 * k) else 0) s t)

/-- R82: the persisted record `b` matches a zone. -/
def Matching (z : ZoneEntry) (b : List Byte) : Prop :=
  z.base ≤ u32At b 6 ∧ u32At b 6 ≤ z.base + z.length

/-- R82: the runtime record `r` rebuilt for an accepted zone from the persisted record `b`; `m` is its minimum SOC. -/
def RecordRebuilt (z : ZoneEntry) (b : List Byte) (r : Runtime) (m : Nat) : Prop :=
  (z.state = .opened → u8At b 0 = 1 → Matching z b → m = u8At b 3 ∧ r =
    { fillMark := u32At b 6, crcReg := wordAt b 10 ^^^ 0xFFFFFFFF#32, frozenCrc := 0, drops := u8At b 2
      worstPeak := u16At b 4, minSoc := r.minSoc, interrupted := (byteAt b 1).getLsbD 0
      damaged := (byteAt b 1).getLsbD 1, uncertain := true, openWall := wordAt b 14, closeWall := none }) ∧
  (z.state = .closed → u8At b 0 = 2 → Matching z b → m = u8At b 3 ∧ r =
    { fillMark := u32At b 6, crcReg := 0, frozenCrc := wordAt b 10, drops := u8At b 2, worstPeak := u16At b 4
      minSoc := r.minSoc, interrupted := (byteAt b 1).getLsbD 0, damaged := (byteAt b 1).getLsbD 1
      uncertain := (byteAt b 1).getLsbD 2, openWall := wordAt b 14, closeWall := some (wordAt b 18) }) ∧
  (z.state = .closed → u8At b 0 = 1 → Matching z b → m = u8At b 3 ∧ r =
    { fillMark := u32At b 6, crcReg := 0, frozenCrc := wordAt b 10, drops := u8At b 2, worstPeak := u16At b 4
      minSoc := r.minSoc, interrupted := (byteAt b 1).getLsbD 0, damaged := (byteAt b 1).getLsbD 1
      uncertain := true, openWall := wordAt b 14, closeWall := some 0 }) ∧
  (¬Matching z b ∨ (z.state = .opened ∧ u8At b 0 ≠ 1) ∨ (z.state = .closed ∧ u8At b 0 ≠ 1 ∧ u8At b 0 ≠ 2) →
    m = 100 ∧ r =
    { fillMark := z.base + z.length, crcReg := if z.state = .opened then 0xFFFFFFFF#32 else 0, frozenCrc := 0, drops := 0
      worstPeak := 0, minSoc := r.minSoc, interrupted := false, damaged := false, uncertain := true, openWall := 0
      closeWall := if z.state = .closed then some 0 else none })

/-- R150: the records of the accepted zones are rebuilt from the check table as read, the gauge makes its cold decision, and
what the staging buffer has lost and the drop log stay. -/
def ColdRebuilt (s t : State) : Prop :=
  t.zu = { s.zu with timeBase := 0, runtimes := t.zu.runtimes } ∧
  (∀ k, k < 64 → (zoneAt s k).state = .unused → runtimeAt t k = runtimeAt s k) ∧
  (∀ k, k < 64 → (zoneAt s k).state ≠ .unused →
    (13 + k / 16 ∈ t.ru.changed ∨ RecordStaged t (13 + k / 16)) ∧
    ∃ m, RecordRebuilt (zoneAt s k) (field (s.ps.checkRead.getD (k / 16) []) (32 * (k % 16)) 32) (runtimeAt t k) m ∧
      MinSocTaken s.bg.last.isSome k m s t) ∧
  GaugeCold s.ps.coldTotal s t ∧ t.sb.lostCount = s.sb.lostCount ∧ t.sb.lastLost = s.sb.lastLost ∧
  t.sb.deferred = s.sb.deferred ∧ t.mm = { s.mm with pendingRecs := t.mm.pendingRecs }

/-- R121: the SOC-derived state. -/
def SocDerived (s : State) (p : PowerState) : Prop :=
  (s.bg.isSet = false ∨ s.bg.flagUnknown = true → p = .low) ∧
  (s.bg.isSet = true → s.bg.flagUnknown = false →
    (s.bg.soc ≤ s.zu.settings.criticalSoc → p = .critical) ∧
    (s.zu.settings.criticalSoc < s.bg.soc → s.bg.soc ≤ s.zu.settings.lowSoc → p = .low) ∧
    (s.zu.settings.criticalSoc < s.bg.soc → s.zu.settings.lowSoc < s.bg.soc → p = .normal))

/-- R79, R82: the check sector of a zone whose rebuilt record takes UNCERTAIN, which is every accepted zone but a CLOSED one
with a matching record of a CLOSED zone. -/
def RebuildMarks (s : State) (o : Nat) : Prop :=
  ∃ k, k < 64 ∧ (zoneAt s k).state ≠ .unused ∧ o = 13 + k / 16 ∧
    ∀ b, b = field (s.ps.checkRead.getD (k / 16) []) (32 * (k % 16)) 32 →
      ¬((zoneAt s k).state = .closed ∧ u8At b 0 = 2 ∧ Matching (zoneAt s k) b)

/-- R152: the first service: the SOC-derived state, ATTN, the checkpoint timer, the write mode, the marks and the offers
(R174), with the sectors `rebuilt` that the same event has marked before. -/
def FirstService (rebuilt : Nat → Prop) (s t : State) : Prop :=
  t.ps.startPos = .served ∧ SocDerived t t.ps.power ∧ t.ru.attn = true ∧ attnPin t = .active ∧
    t.ru.timerDue = some (s.uptimeMs + 30000) ∧
    t.sm = { s.sm with mode := t.sm.mode } ∧ ModeAgrees t ∧
    (s.fp.port = .idle ∨ s.fp.port = .answering → t.fp = s.fp) ∧
    (∀ o, 11 ≤ o → o ≤ 16 → t.ps.power = .low ∨ t.ps.power = .critical ∨ o ∈ s.ru.pending ∨ rebuilt o →
      o ∈ t.ru.pending ∨ RecordStaged t o) ∧
    (t.ps.mediaFault = false → TablesSized s →
      OffersMade (fun o => t.ps.power = .low ∨ t.ps.power = .critical ∨ o ∈ s.ru.pending ∨ rebuilt o) s t)

/-- R144, R162: service is resumed at a hold-up recovery, and the pending checkpoints are offered (R174). -/
def ServiceResumed (s t : State) : Prop :=
  t.ps.phase = none ∧ SocDerived s t.ps.power ∧ t.fp = FrontPort.reset ∧ t.mm.motion = .still ∧ t.mm.log = s.mm.log ∧
    t.se.timersOn = true ∧ t.se.motionPending = true ∧ t.se.gaugePending = true ∧ t.ru.attn = true ∧
    t.ps.startPos = .served ∧ t.bg = { s.bg with firstTimer := t.bg.firstTimer } ∧ t.zu = s.zu ∧ t.wc = s.wc ∧
    t.pins = s.pins ∧ t.pending = s.pending ∧
    (t.ps.mediaFault = false → TablesSized s →
      OffersMade (fun o => t.ps.power = .low ∨ t.ps.power = .critical ∨ o ∈ s.ru.pending) s t)

/-! ### Indicators (R177, R178) -/

/-- A LED is on or off. -/
def ledPinIs (on : Bool) : OutPin :=
  if on then .active else .inactive

/-- R178: a 1 Hz blink is on while the counter modulo 1000 is below 500. -/
def on1Hz (s : State) : Bool :=
  s.uptimeMs.toNat % 1000 < 500

/-- R178: a 4 Hz blink is on while the counter modulo 250 is below 125. -/
def on4Hz (s : State) : Bool :=
  s.uptimeMs.toNat % 250 < 125

/-- R177: the SOC from which the bar lights LED `n`. -/
def barFrom (n : Nat) : Nat :=
  if n = 1 then 1 else if n = 2 then 26 else if n = 3 then 51 else 76

/-- R177: LED `n` of the bar: in LOW, LED1 blinks; lit by SOC; while charging the lowest unlit LED blinks. -/
def barLed (s : State) (n : Nat) : OutPin :=
  if s.ps.power = .low ∧ n = 1 then ledPinIs (on1Hz s)
  else if barFrom n ≤ s.bg.soc then .active
  else if s.bg.iavg < -10 ∧ (n = 1 ∨ barFrom (n - 1) ≤ s.bg.soc) then ledPinIs (on1Hz s)
  else .inactive

/-! ### The sense bus (R131, R133, R134) -/

/-- A sense bus event changes SE and nothing else. -/
def OnlySense (s t : State) : Prop :=
  t = { s with se := t.se }

/-- R131, R134: SE hands a sample or a miss over; in HOLDUP and OFF its consumer discards it at once. -/
def HandsOver (h : Handover) (s t : State) : Prop :=
  (s.ps.power = .holdup ∨ s.ps.power = .off → t.se.handed = s.se.handed) ∧
    (s.ps.power ≠ .holdup → s.ps.power ≠ .off → t.se.handed = s.se.handed ++ [h])

/-- R133: no error counter changes. -/
def CountersKept (s t : State) : Prop :=
  t.se.noAck = s.se.noAck ∧ t.se.arbLost = s.se.arbLost ∧ t.se.busError = s.se.busError ∧
    t.se.timeout = s.se.timeout ∧ t.se.pecBad = s.se.pecBad

/-- A read of a kind is pending (R130). -/
def pendingRead (s : State) : SenseKind → Bool
  | .motion => s.se.motionPending
  | .gauge => s.se.gaugePending

/-- The other kind of read. -/
def SenseKind.other : SenseKind → SenseKind
  | .motion => .gauge
  | .gauge => .motion

/-- R131, R132: a read of a kind joins the pending set of `e`. SE, IDLE, starts the transaction of the read that is pending,
the motion read first; otherwise nothing more happens. -/
def ReadAdded (k : SenseKind) (now : Word) (e e' : SenseEngine) : Prop :=
  (e.trans ≠ .idle →
    e' = { e with motionPending := e.motionPending || k == .motion, gaugePending := e.gaugePending || k == .gauge }) ∧
  (e.trans = .idle → k = .motion ∨ e.motionPending = true →
    e' = { e with
      motionPending := true, gaugePending := e.gaugePending || k == .gauge, reading := some .motion, attempt := 1
      busBusy := true, since := now, trans := if e.busBusy then .waitBus else .transfer }) ∧
  (e.trans = .idle → k = .gauge → e.motionPending = false →
    e' = { e with
      gaugePending := true, reading := some .gauge, attempt := 1, busBusy := true, since := now
      trans := if e.busBusy then .waitBus else .transfer, gaugeStart := some now })

/-- R131, R134: the read of a kind ends with the bus left as `busy` says. It leaves the pending set, unless polling has
stopped during it and has been resumed since, which added its kind afresh. SE is IDLE, or starts the read that is pending,
the motion read first. Timers and latch are as they were. -/
def ReadEnds (k : SenseKind) (busy : Bool) (s t : State) : Prop :=
  pendingRead t k = (pendingRead s k && s.se.stopping && s.se.timersOn) ∧
    pendingRead t k.other = pendingRead s k.other ∧ t.se.stopping = false ∧ t.se.timersOn = s.se.timersOn ∧
    t.se.motionDue = s.se.motionDue ∧ t.se.gaugeDue = s.se.gaugeDue ∧ t.se.alertDeferred = s.se.alertDeferred ∧
    (t.se.motionPending = false → t.se.gaugePending = false →
      t.se.trans = .idle ∧ t.se.reading = none ∧ t.se.attempt = 0 ∧ t.se.busBusy = busy ∧
      t.se.gaugeStart = s.se.gaugeStart) ∧
    (t.se.motionPending = true → t.se.reading = some .motion ∧ t.se.gaugeStart = s.se.gaugeStart) ∧
    (t.se.motionPending = false → t.se.gaugePending = true →
      t.se.reading = some .gauge ∧ t.se.gaugeStart = some s.uptimeMs) ∧
    (t.se.motionPending = true ∨ t.se.gaugePending = true →
      t.se.attempt = 1 ∧ t.se.busBusy = true ∧ t.se.since = s.uptimeMs ∧
      (busy = true → t.se.trans = .waitBus) ∧ (busy = false → t.se.trans = .transfer))

/-! ### Drops and anchors (R93, R94, R98, R116, R117) -/

/-- R77, R175: the record-area sectors that a drop completion changes: the drop log, and the check sector of each OPEN
zone. -/
def DropChanges (s : State) (o : Nat) : Prop :=
  o = 12 ∨ ∃ k, k < 64 ∧ (zoneAt s k).state = .opened ∧ o = 13 + k / 16

/-- R93, R94, R98: the drop that settles is recorded with an outcome, as it stands, and ATTN is raised. R175: the sectors
that it changes are in the changed set, or have been admitted since; R174: with its marks the pending sectors are offered. -/
def DropEnds (o : DropOutcome) (s t : State) : Prop :=
  t.ru.attn = true ∧ t.mm.total = min 65535 (s.mm.total + 1) ∧
    (∀ p, DropChanges s p → p ∈ t.ru.changed ∨ RecordStaged t p) ∧
    (s.fp.port ≠ .held → inService s.ps.power = true → s.ps.mediaFault = false → TablesSized s →
      (∃ p, DropChanges s p ∧ p ∉ s.ru.pending) → OffersMade (fun o => o ∈ s.ru.pending ∨ DropChanges s o) s t) ∧
    ∃ r, t.mm.log = appendRing r s.mm.log ∧ r.outcome = o ∧ r.sequence = (s.mm.lastSeq + 1) % 65536 ∧
      r.kind = s.mm.drop.kind ∧ r.fallSamples = s.mm.fallSamples ∧ r.peak = reportedPeak s.mm.peak ∧
      r.uptime = s.mm.drop.strikeUptime ∧ r.wall = s.mm.drop.strikeWall ∧ r.soc = s.mm.drop.socAtStrike ∧
      r.supplyDip = s.mm.drop.supplyDip

/-- R92, R96 to R98: the record `r` of a drop in progress that ends with an outcome: the fields besides the zones (R77).
The ti that decides the kind in STRUCK is the one ZU holds at the recording: where a miss or a brownout records the drop,
that is the model's choice (assumption 48). -/
def RecordOfDrop (o : DropOutcome) (s : State) (r : DropRecord) : Prop :=
  r.sequence = (s.mm.lastSeq + 1) % 65536 ∧ r.outcome = o ∧ r.fallSamples = s.mm.fallSamples ∧
    r.height = min 65535 ((s.mm.fallSamples ^ 2 * 1961 + 50000) / 100000) ∧ r.supplyDip = s.mm.drop.supplyDip ∧
    (s.mm.motion = .falling → r.kind = .soft ∧ r.peak = 0 ∧ r.uptime = s.uptimeSec ∧ r.wall = wallSeconds s ∧
      r.soc = s.bg.soc) ∧
    (s.mm.motion = .struck → (s.zu.settings.ti ^ 2 < s.mm.peak → r.kind = .impact) ∧
      (s.mm.peak ≤ s.zu.settings.ti ^ 2 → r.kind = .soft)) ∧
    (s.mm.motion = .settling → r.kind = s.mm.drop.kind) ∧
    (s.mm.motion ≠ .falling → r.peak = reportedPeak s.mm.peak ∧ r.uptime = s.mm.drop.strikeUptime ∧
      r.wall = s.mm.drop.strikeWall ∧ r.soc = s.mm.drop.socAtStrike)

/-- R95, R98, R99, R137: the motion monitor at the entry to HOLDUP. A drop in progress is recorded POWER_LOST: logged,
counted, attributed to the OPEN zones, its sectors marked, and MM is STILL. In DISABLED and STILL it stays as it is. The
losses of a failing energy test may set DAMAGED flags besides (R80, R139); no pending or changed sector is admitted (R176). -/
def MotionAtHoldup (s t : State) : Prop :=
  (bracedState s.mm.motion = false → t.mm = s.mm) ∧
  (bracedState s.mm.motion = true →
    t.mm = { s.mm with
      motion := .still, ffRun := 0, lastSeq := (s.mm.lastSeq + 1) % 65536, total := min 65535 (s.mm.total + 1)
      log := (recordDrop .powerLost s).mm.log, pendingRecs := (recordDrop .powerLost s).mm.pendingRecs } ∧
    RecordOfDrop .powerLost s (formDrop .powerLost s)) ∧
  (∀ k, runtimeAt t k = { runtimeAt s k with
    drops := if bracedState s.mm.motion = true ∧ (zoneAt s k).state = .opened then min 255 ((runtimeAt s k).drops + 1)
      else (runtimeAt s k).drops
    worstPeak := if bracedState s.mm.motion = true ∧ (zoneAt s k).state = .opened then
        max (runtimeAt s k).worstPeak (formDrop .powerLost s).peak
      else (runtimeAt s k).worstPeak
    damaged := (runtimeAt t k).damaged }) ∧
  (∀ p, p ∈ s.ru.pending ∨ (bracedState s.mm.motion = true ∧ DropChanges s p) → p ∈ t.ru.pending) ∧
  (∀ p, p ∈ s.ru.changed ∨ (bracedState s.mm.motion = true ∧ DropChanges s p) → p ∈ t.ru.changed) ∧
  (staged s.sb.lines = false ∨ s.sm.ewUsed ≤ s.sm.avail →
    (∀ k, (runtimeAt t k).damaged = (runtimeAt s k).damaged) ∧
    (∀ p, p ∈ t.ru.pending → p ∈ s.ru.pending ∨ (bracedState s.mm.motion = true ∧ DropChanges s p)) ∧
    ∀ p, p ∈ t.ru.changed → p ∈ s.ru.changed ∨ (bracedState s.mm.motion = true ∧ DropChanges s p))

/-- R116: the sample completes the rest run. -/
def RestCompletes (s : State) (x : GaugeSample) : Prop :=
  -20 < x.i ∧ x.i < 20 ∧ 0 ≤ x.t ∧ 239 ≤ s.bg.restRun

/-- R117: the sample completes the empty run. -/
def EmptyCompletes (s : State) (x : GaugeSample) : Prop :=
  x.v < (s.zu.settings.cutoff : Int) ∧ 0 < x.i ∧ 2 ≤ s.bg.emptyRun

/-- R117: the sample completes the full run. -/
def FullCompletes (s : State) (x : GaugeSample) : Prop :=
  4150 ≤ x.v ∧ -50 < x.i ∧ x.i ≤ 0 ∧ 7 ≤ s.bg.fullRun

/-! ### Power states driven by SOC (R120, R122) -/

/-- R120: the power state that an evaluation takes from the SOC of the new state and the empty anchor report. -/
def PowerFollows (emptyReport : Bool) (s t : State) : Prop :=
  (s.ps.power = .normal →
    (t.bg.soc ≤ s.zu.settings.criticalSoc ∨ emptyReport = true → t.ps.power = .critical) ∧
    (s.zu.settings.criticalSoc < t.bg.soc → emptyReport = false → t.bg.soc ≤ s.zu.settings.lowSoc →
      t.ps.power = .low) ∧
    (s.zu.settings.criticalSoc < t.bg.soc → emptyReport = false → s.zu.settings.lowSoc < t.bg.soc →
      t.ps.power = .normal)) ∧
  (s.ps.power = .low →
    (t.bg.soc ≤ s.zu.settings.criticalSoc ∨ emptyReport = true → t.ps.power = .critical) ∧
    (s.zu.settings.criticalSoc < t.bg.soc → emptyReport = false → s.zu.settings.lowSoc + 3 ≤ t.bg.soc →
      t.ps.power = .normal) ∧
    (s.zu.settings.criticalSoc < t.bg.soc → emptyReport = false → t.bg.soc < s.zu.settings.lowSoc + 3 →
      t.ps.power = .low)) ∧
  (s.ps.power = .critical →
    (s.zu.settings.lowSoc + 3 ≤ t.bg.soc → t.ps.power = .normal) ∧
    (t.bg.soc < s.zu.settings.lowSoc + 3 → s.zu.settings.criticalSoc + 2 ≤ t.bg.soc → t.ps.power = .low) ∧
    (t.bg.soc < s.zu.settings.lowSoc + 3 → t.bg.soc < s.zu.settings.criticalSoc + 2 → t.ps.power = .critical)) ∧
  (s.ps.power = .starting → t.ps.power = .starting)

/-- No checkpoint of this event can merge, which could try a held sector again (R5, R10): with a sector held, no RECORD line
is staged. -/
def HoldUndisturbed (s : State) : Prop :=
  s.fp.port = .held → ∀ l ∈ s.sb.lines, l.live = true → l.cls ≠ .record

/-- R10, R12: a held sector goes on being held, unless the power state has become CRITICAL. -/
def HoldGoesOn (s t : State) : Prop :=
  s.fp.port = .held → t.ps.power ≠ .critical ∨ s.ps.power = .critical → t.fp = s.fp

/-- R9, R65, R122, R124, R174: what the report of another power state than before brings about. -/
def PowerReported (s t : State) : Prop :=
  t.ps.power ≠ s.ps.power →
    t.ru.attn = true ∧ (s.ps.power = .critical → t.ps.offreq = false) ∧
    (t.ps.power = .low ∨ t.ps.power = .critical → ∀ o, 11 ≤ o → o ≤ 16 → o ∈ t.ru.pending ∨ RecordStaged t o) ∧
    (t.ps.power = .low ∨ t.ps.power = .critical → s.ps.mediaFault = false → TablesSized s →
      (∃ o, 11 ≤ o ∧ o ≤ 16 ∧ o ∉ s.ru.pending) → OffersMade (fun _ => True) s t) ∧
    (∀ r, t.ps.power = .critical → s.fp.req = some r → s.fp.port = .taking ∨ s.fp.port = .held →
      Answers t .powerCritical r.taken [] ∧ Recorded t .powerCritical r.code r.count r.sector 4#9 r.taken)

/-! ### What a command leaves alone

Each names the parts of the state that may differ; every other part is the same. -/

/-- A request that is answered or begun: the front port, the refusal record, and the media read of a READ that the new
header abandons (R160). -/
def OnlyRequest (s t : State) : Prop :=
  t = { s with fp := t.fp, wc := { s.wc with refusal := t.wc.refusal }, mp := (abandonRead s).mp }

/-- A motion sample or miss outside HOLDUP and OFF, with no front sector held: MM, the zones' runtime records, L and the
write mode, the front port (a completion wait that the mode ends), what the checkpoint offers and the media port's grant
change, and the event leaves SE's list. -/
def OnlyMotion (h : Handover) (s t : State) : Prop :=
  t = { s with
    mm := t.mm
    zu := { s.zu with runtimes := t.zu.runtimes }
    sm := { s.sm with limit := t.sm.limit, mode := t.sm.mode }
    fp := t.fp
    sb := { s.sb with lines := t.sb.lines, ageCounter := t.sb.ageCounter }
    mp := { t.mp with resetPulses := s.mp.resetPulses }
    ps := { s.ps with offreq := t.ps.offreq }
    ru := { t.ru with timerDue := s.ru.timerDue }
    se := { s.se with handed := s.se.handed.erase h } }

/-- A gauge sample or miss outside HOLDUP and OFF, with no front sector tried again: as `OnlyMotion`, with BG and the power state
in place of MM and L; a WRITE in transfer may end POWER/CRITICAL. -/
def OnlyGauge (h : Handover) (s t : State) : Prop :=
  t = { s with
    bg := t.bg
    mm := { s.mm with pendingRecs := t.mm.pendingRecs }
    zu := { s.zu with runtimes := t.zu.runtimes }
    sm := { s.sm with mode := t.sm.mode }
    fp := t.fp
    wc := { s.wc with refusal := t.wc.refusal }
    sb := { s.sb with lines := t.sb.lines, ageCounter := t.sb.ageCounter }
    mp := { t.mp with resetPulses := s.mp.resetPulses }
    ps := { s.ps with power := t.ps.power, offreq := t.ps.offreq }
    ru := { t.ru with timerDue := s.ru.timerDue }
    se := { s.se with handed := s.se.handed.erase h } }

/-- What the checkpoint offers and the media port's grant may change, besides the parts a command names. -/
def OnlyOffers (s t : State) : Prop :=
  t = { s with
    sb := { s.sb with lines := t.sb.lines, ageCounter := t.sb.ageCounter }
    mp := { t.mp with resetPulses := s.mp.resetPulses }
    mm := { s.mm with pendingRecs := t.mm.pendingRecs }
    ps := { s.ps with offreq := t.ps.offreq }
    ru := { s.ru with pending := t.ru.pending, changed := t.ru.changed } }

/-! ### Losses (R19, R20, R80) -/

/-- R79, R173: the check sector of the zone that the loss of the run of `op` newly damages. -/
def DamageMarks (op : MediaOp) (s : State) (o : Nat) : Prop :=
  ∃ k, DamagedBy s op.sector (drainingZone s.sb.lines) k ∧ (runtimeAt s k).damaged = false ∧ o = 13 + k / 16

/-- R19, R20, R80: a drain run has been discarded: its sectors are counted lost, the zone they lie in is DAMAGED, and
nothing else changes but what the space event, a completion wait and MP's next grant bring about. R19, R174: the pending
checkpoints are offered at the space event, in the state `u` that it leaves; the report of the loss comes after it, and a
zone flag that it sets is a mark, at which they are offered again. -/
def RunDiscarded (op : MediaOp) (s t : State) : Prop :=
  t.sb.lostCount = min 65535 (s.sb.lostCount + op.count) ∧ t.sb.lastLost = op.sector + op.count - 1 ∧
    t.ru.attn = true ∧ (s.fp.port ≠ .completing → t.sb.deferred = true ∧ t.fp = s.fp) ∧
    (∀ k, DamagedBy s op.sector (drainingZone s.sb.lines) k → (runtimeAt t k).damaged = true ∧
      ((runtimeAt s k).damaged = false →
        (13 + k / 16 ∈ t.ru.pending ∧ 13 + k / 16 ∈ t.ru.changed) ∨ RecordStaged t (13 + k / 16)) ∧
      ∀ j, j ≠ k → runtimeAt t j = runtimeAt s j) ∧
    ((∀ k, ¬DamagedBy s op.sector (drainingZone s.sb.lines) k) → t.zu = s.zu) ∧
    (inService s.ps.power = true → s.ps.mediaFault = false → TablesSized s →
      SpaceEvent s.sb.lines (linesAfterRun op s.sb.lines) →
      ((∀ o, ¬DamageMarks op s o) → OffersMade (fun o => o ∈ s.ru.pending) (runFinished op s) t) ∧
      ∃ u, OffersMade (fun o => o ∈ s.ru.pending) (runFinished op s) u ∧
        OnlyOffers
          { s with
            fresh := u.fresh
            fp := t.fp
            sb := { s.sb with lostCount := t.sb.lostCount, lastLost := t.sb.lastLost, deferred := t.sb.deferred } } u ∧
        OffersMade (fun o => o ∈ u.ru.pending ∨ DamageMarks op s o) u t) ∧
    OnlyOffers
      { s with
        fresh := t.fresh
        fp := t.fp
        sb := { s.sb with lostCount := t.sb.lostCount, lastLost := t.sb.lastLost, deferred := t.sb.deferred }
        zu := { s.zu with runtimes := t.zu.runtimes }
        ru := { s.ru with attn := true } } t

end Sys2Proof.Machine
end

