-- ==== Sys2Proof/Certificates/Slice0/Obligations.lean ====
section
/-! DEFINITION. The statements about the model, one definition each. -/

open Sys2Proof Sys2Proof.Machine

/-! ### The step -/

/-- The queue and the idle step are the model's own (log entry 1): a step with a command at the front of the queue is
exec of that command on the state with the queue's rest. With no command waiting, the oldest sample or miss that SE
has handed over goes to its consumer (R131) as the command of its kind; with none, one millisecond passes. The
milliseconds counter wraps, the seconds counter rises at every thousandth millisecond (log entry 3) and saturates; a
command that names an instant lets time run to it, and takes no time where it is past (log entry 2). R41: the wall
seconds are 0 while the time base is 0, and otherwise the time base plus the uptime seconds minus the latched uptime,
modulo 2^32. -/
def Obligations.StepRunsFrontCommand : Prop :=
  (∀ (c : Instr) (rest : List Instr) (s : State), s.pending = c :: rest →
    step s = exec c { s with pending := rest }) ∧
  (∀ (h : Handover) (rest : List Handover) (s : State), s.pending = [] → s.se.handed = h :: rest →
    step s = exec
      (match h with
        | .motionSample x y z => .motionSample x y z
        | .motionMiss => .motionMiss
        | .gaugeSample v i t => .gaugeSample v i t
        | .gaugeMiss => .gaugeMiss) s) ∧
  (∀ s : State, s.pending = [] → s.se.handed = [] →
    ∃ t, step s = .next t ∧ t.uptimeMs = s.uptimeMs + 1 ∧
      (s.msOfSec < 999 → t.msOfSec = s.msOfSec + 1 ∧ t.uptimeSec = s.uptimeSec) ∧
      (s.msOfSec = 999 → t.msOfSec = 0 ∧ t.uptimeSec.toNat = min 4294967295 (s.uptimeSec.toNat + 1)) ∧
      t = { s with uptimeMs := t.uptimeMs, uptimeSec := t.uptimeSec, msOfSec := t.msOfSec }) ∧
  (∀ (instant : Word) (n : Nat) (s : State), n = (instant - s.uptimeMs).toNat →
    (n ≤ 2147483648 → waitUntil instant s =
      { s with
        uptimeMs := instant
        uptimeSec := BitVec.ofNat 32 (min 4294967295 (s.uptimeSec.toNat + (s.msOfSec + n) / 1000))
        msOfSec := (s.msOfSec + n) % 1000 }) ∧
    (2147483648 < n → waitUntil instant s = s)) ∧
  (∀ s : State, (s.zu.timeBase = 0 → wallSeconds s = 0) ∧
    (s.zu.timeBase ≠ 0 → wallSeconds s = s.zu.timeBase + s.uptimeSec - s.zu.latchedUptime))

/-- No rule stops the part: from every state a step answers a next state, never a fault and never a refusal. (That an
empty queue lets time pass is the model's choice, log entry 1.) -/
def Obligations.StepNeverStops : Prop :=
  ∀ s : State, ∃ t, step s = .next t

/-! ### Power-on (R146) -/

/-- R146: POWER_ON gives every block its power-on values, the debounced slider the WP level, pulses the module reset
and has MP issue the capacity INFO. R143: a qualified recovery in OFF starts the same start-up: every block takes its
power-on values and the uptime counters restart at zero. The queue (log entry 1), the WP level as the command's
operand and the FRST level kept (log entry 8), and the model's own counters (log entries 6 and 21) are the model's
choices, and so are the count 0 and the sector number 0 of the INFO that MP issues, which no rule states (log entry
47): the frame that the module sees holds of the model's values alone. -/
def Obligations.PowerOnIssuesInfo : Prop :=
  ∀ (wp : Bool) (s : State), ∃ t, exec (.powerOn wp) s = .next t ∧
    t = { State.reset with
      uptimeMs := 0
      uptimeSec := 0
      msOfSec := 0
      fresh := s.fresh
      pins := { wp := wp, frst := s.pins.frst }
      wc := { refusal := .empty, slider := wp, debounce := none }
      mp := { MediaPort.reset with
        resetPulses := s.mp.resetPulses + 1
        current := some { kind := .info, sector := 0, count := 0, data := [], requester := .startup .capacity,
                          attempt := 1, start := 0, abandoned := false } }
      ps := { PowerSup.reset with startPos := .capacity }
      pending := s.pending } ∧
    (s.sm.rail = .returning → s.ps.power = .off → s.pins.wp = wp → exec .recoveryQualified s = .next t)

/-! ### Requests (chapters 4 and 10) -/

/-- R57: in media FAULT every request is answered MEDIA/ABSENT, and in STARTING otherwise BUSY/STARTING, whatever its
code, count and sector number; no refusal record is written and nothing changes but the front port and an abandoned
media read. -/
def Obligations.AnswersBeforeService : Prop :=
  ∀ (c : Instr) (h : Byte × Byte × Word) (s : State), requestHeader c = some h → takesFrames s = true →
    (s.ps.mediaFault = true →
      ∃ t, exec c s = .next t ∧ Answers t .mediaAbsent 0 [] ∧ t = { s with fp := t.fp, mp := (abandonRead s).mp }) ∧
    (s.ps.mediaFault = false → s.ps.power = .starting →
      ∃ t, exec c s = .next t ∧ Answers t .busyStarting 0 [] ∧ t = { s with fp := t.fp, mp := (abandonRead s).mp })

/-- R58, R60, R61: a WRITE outside STARTING and media FAULT is answered with the first of the nine checks that fails,
and otherwise is TAKING with 0 taken and no refusal is recorded; nothing is staged by the header. -/
def Obligations.WriteFirstFailingCheck : Prop :=
  ∀ (count : Byte) (sector : Word) (s : State), PassedOn s →
    ∃ t, exec (.write count sector) s = .next t ∧ OnlyRequest s t ∧
      (FormatFails count → Answers t .rangeFormat 0 []) ∧
      (¬FormatFails count → EndFails s count sector → Answers t .rangeEnd 0 []) ∧
      (¬FormatFails count → ¬EndFails s count sector →
        (s.ps.power = .critical → Answers t .powerCritical 0 []) ∧
        (s.ps.power = .holdup → Answers t .powerHoldup 0 []) ∧
        (s.ps.power ≠ .critical → s.ps.power ≠ .holdup →
          (OwnedFails s count sector → Answers t .protectedOwned 0 []) ∧
          (¬OwnedFails s count sector →
            (s.wc.slider = true → Answers t .protectedSwitch 0 []) ∧
            (s.wc.slider = false → s.zu.readOnly = true → Answers t .protectedNomap 0 []) ∧
            (s.wc.slider = false → s.zu.readOnly = false →
              (SpanFails s count sector → Answers t .rangeSpan 0 []) ∧
              (¬SpanFails s count sector →
                (ClosedFails s count sector → Answers t .protectedClosed 0 []) ∧
                (∀ mark, OpenAt s count sector mark →
                  (sector.toNat < mark → Answers t .sequenceBehind 0 []) ∧
                  (mark < sector.toNat → Answers t .sequenceAhead 0 [])) ∧
                (¬ClosedFails s count sector → (∀ mark, OpenAt s count sector mark → sector.toNat = mark) →
                  t.fp = { FrontPort.reset with
                    port := .taking, req := some { code := 2, count := count, sector := sector, taken := 0 } } ∧
                  t.wc = s.wc))))))

/-- R62, R69, R70: a WRITE refused by a check writes the refusal record, whose mask has a flag for every check that
fails, not only the first. -/
def Obligations.RefusedWriteRecorded : Prop :=
  ∀ (count : Byte) (sector : Word) (s : State) (a : Answer), PassedOn s → writeRefusalOf s count sector = some a →
    ∃ t, exec (.write count sector) s = .next t ∧ OnlyRequest s t ∧ Answers t a 0 [] ∧
      Recorded t a 2 count sector t.wc.refusal.mask 0 ∧ t.wc.refusal.uptime = s.uptimeSec ∧
      t.wc.refusal.wall = wallSeconds s ∧
      (t.wc.refusal.mask.getLsbD 0 = true ↔ FormatFails count) ∧
      (t.wc.refusal.mask.getLsbD 1 = true ↔ EndFails s count sector) ∧
      (t.wc.refusal.mask.getLsbD 2 = true ↔ s.ps.power = .critical ∨ s.ps.power = .holdup) ∧
      (t.wc.refusal.mask.getLsbD 3 = true ↔ OwnedFails s count sector) ∧
      (t.wc.refusal.mask.getLsbD 4 = true ↔ s.wc.slider = true) ∧
      (t.wc.refusal.mask.getLsbD 5 = true ↔ s.zu.readOnly = true) ∧
      (t.wc.refusal.mask.getLsbD 6 = true ↔ SpanFails s count sector) ∧
      (t.wc.refusal.mask.getLsbD 7 = true ↔ ClosedFails s count sector) ∧
      (t.wc.refusal.mask.getLsbD 8 = true ↔ ∃ mark, OpenAt s count sector mark ∧ sector.toNat ≠ mark)

/-- R59, R62: a READ is checked by checks 1 and 2 alone; in HOLDUP one that passes is answered POWER/HOLDUP with an
empty mask. -/
def Obligations.ReadRefused : Prop :=
  ∀ (count : Byte) (sector : Word) (s : State), PassedOn s →
    ∃ t, exec (.read count sector) s = .next t ∧
      (FormatFails count → OnlyRequest s t ∧ Answers t .rangeFormat 0 [] ∧
        (EndFails s count sector → Recorded t .rangeFormat 1 count sector 3#9 0) ∧
        (¬EndFails s count sector → Recorded t .rangeFormat 1 count sector 1#9 0)) ∧
      (¬FormatFails count → EndFails s count sector → OnlyRequest s t ∧
        Answers t .rangeEnd 0 [] ∧ Recorded t .rangeEnd 1 count sector 2#9 0) ∧
      (¬FormatFails count → ¬EndFails s count sector → s.ps.power = .holdup → OnlyRequest s t ∧
        Answers t .powerHoldup 0 [] ∧ Recorded t .powerHoldup 1 count sector 0#9 0)

/-- R16: the line that serves a sector is the newest DIRTY or DRAINING one that holds it valid, and there is none just
where no such line holds it; a sector is a miss just where it lies outside the live window and no such line holds it
(R158). R158, R169, R172: a READ whose every sector lies in the live window or is held in staging, in any mixture, is
answered OK with the live sectors as they are formed at that moment and the staged ones from the newest lines that
hold them; where the live status is among them it clears the ATTN latch. Nothing else changes but the model's own
counter (log entry 7). -/
def Obligations.ReadServedFromStaging : Prop :=
  (∀ (lines : List Line) (n : Nat),
    (holderOf lines n = none ↔ ∀ l ∈ lines, ¬HoldsSector l n) ∧
    ∀ base : Word, (∀ l ∈ lines, l.live = true → (l.age - base).toNat < 2147483648) →
      ∀ (i : Nat) (l : Line), holderOf lines n = some (i, l) → lines[i]? = some l ∧ HoldsSector l n ∧
        ∀ m ∈ lines, HoldsSector m n → (m.age - base).toNat ≤ (l.age - base).toNat) ∧
  (∀ (s : State) (n : Nat), isMiss s n = true ↔
    (n < tailBase s + 5 ∨ tailBase s + 10 < n) ∧ ∀ l ∈ s.sb.lines, ¬HoldsSector l n) ∧
  (∀ (count : Byte) (sector : Word) (s : State), PassedOn s → inService s.ps.power = true →
    ¬FormatFails count → ¬EndFails s count sector →
    (∀ i, i < count.toNat → isMiss s (sector.toNat + i) = false) →
    ∃ t out, exec (.read count sector) s = .next t ∧ Assembles s sector.toNat count.toNat out ∧
      Answers t .ok count.toNat out.flatten ∧ StatusRead (CoversStatus s sector.toNat count.toNat) s t ∧
      t = { s with fp := t.fp, mp := (abandonRead s).mp, ru := t.ru, fresh := t.fresh })

/-- R158, R163, R166: a READ assembles its live and staged sectors up to its first miss, hands MP the miss run and
waits; MP, idle with no other waiter, issues one media READ of the run, and busy it lets the run wait. R158: the run's
sectors go into the read buffer and are counted, and the assembly goes on behind them: live sectors are formed and
staged ones copied, the READ is answered OK when it is complete, and the next miss is issued with its own run. R169,
R172: where the live status is formed it clears the ATTN latch (and advances the model's own counter, log entry 7).
R159, R165: a second failure or timeout answers the READ MEDIA/READ with the sectors assembled before the run, and no
refusal record is written. That the timeout lets time run to 200 ms after the operation's start is the model's choice
(log entry 2). -/
def Obligations.ReadMissIssued : Prop :=
  (∀ (count : Byte) (sector : Word) (s : State) (k : Nat), PassedOn s → inService s.ps.power = true →
    ¬FormatFails count → ¬EndFails s count sector → k < count.toNat →
    (∀ i, i < k → isMiss s (sector.toNat + i) = false) → isMiss s (sector.toNat + k) = true →
    ∃ t len out, exec (.read count sector) s = .next t ∧ Assembles s sector.toNat k out ∧
      1 ≤ len ∧ k + len ≤ count.toNat ∧ (∀ i, i < len → isMiss s (sector.toNat + k + i) = true) ∧
      (k + len < count.toNat → isMiss s (sector.toNat + k + len) = false) ∧
      t.fp = { FrontPort.reset with
        req := some { code := 1, count := count, sector := sector, taken := k }, port := .missWait, readBuf := out } ∧
      waitPin t = .active ∧ StatusRead (CoversStatus s sector.toNat k) s t ∧
      (s.mp.current = none → s.mp.handing = false → s.mp.waiters = .none → drainWanted s = false →
        t = { s with
          fp := t.fp, ru := t.ru, fresh := t.fresh
          mp := { s.mp with
            current := some { kind := .read, sector := sector.toNat + k, count := len, data := []
                              requester := .readMiss, attempt := 1, start := s.uptimeMs, abandoned := false } } }) ∧
      (s.mp.current.isSome = true →
        t = { s with fp := t.fp, ru := t.ru, fresh := t.fresh, mp := t.mp } ∧
        t.mp.current = (abandonRead s).mp.current ∧
        t.mp.waiters.readMiss = some { first := sector.toNat + k, len := len })) ∧
  (∀ (payload : List Byte) (s : State) (op : MediaOp) (r : Request) (next : Nat), s.mp.current = some op →
    op.requester = .readMiss → op.abandoned = false → inService s.ps.power = true → s.fp.port = .missWait →
    s.fp.req = some r → next = r.taken + op.count → next ≤ r.count.toNat →
    ∃ t, exec (.mediaOperationComplete 0 payload) s = .next t ∧
      ((∀ i, next ≤ i → i < r.count.toNat → isMiss s (r.sector.toNat + i) = false) →
        ∃ out, Assembles s (r.sector.toNat + next) (r.count.toNat - next) out ∧
          Answers t .ok r.count.toNat ((s.fp.readBuf ++ sectorsOf op.count payload).flatten ++ out.flatten) ∧
          (CoversStatus s (r.sector.toNat + next) (r.count.toNat - next) → t.ru = { s.ru with attn := false }) ∧
          (¬CoversStatus s (r.sector.toNat + next) (r.count.toNat - next) → t.ru = s.ru) ∧
          t = { s with fresh := t.fresh, fp := t.fp, ru := t.ru, mp := { t.mp with resetPulses := s.mp.resetPulses }
                       sb := { s.sb with lines := t.sb.lines } }) ∧
      (∀ k, next + k < r.count.toNat → (∀ i, i < k → isMiss s (r.sector.toNat + next + i) = false) →
        isMiss s (r.sector.toNat + next + k) = true → s.mp.waiters = .none → drainWanted s = false →
        ∃ len out, Assembles s (r.sector.toNat + next) k out ∧ 1 ≤ len ∧ next + k + len ≤ r.count.toNat ∧
          (∀ i, i < len → isMiss s (r.sector.toNat + next + k + i) = true) ∧
          (next + k + len < r.count.toNat → isMiss s (r.sector.toNat + next + k + len) = false) ∧
          StatusRead (CoversStatus s (r.sector.toNat + next) k) s t ∧
          t = { s with
            fp := { s.fp with
              req := some { r with taken := next + k }
              readBuf := s.fp.readBuf ++ sectorsOf op.count payload ++ out }
            ru := t.ru, fresh := t.fresh
            mp := { s.mp with
              handing := false
              current := some { kind := .read, sector := r.sector.toNat + next + k, count := len, data := []
                                requester := .readMiss, attempt := 1, start := s.uptimeMs, abandoned := false } } })) ∧
  (∀ (status : Byte) (payload : List Byte) (s : State) (op : MediaOp) (r : Request), s.mp.current = some op →
    op.requester = .readMiss → op.abandoned = false → inService s.ps.power = true → s.fp.port = .missWait →
    s.fp.req = some r → status ≠ 0 → 2 ≤ op.attempt →
    (∃ t, exec (.mediaOperationComplete status payload) s = .next t ∧
      Answers t .mediaRead r.taken s.fp.readBuf.flatten ∧
      t = { s with fresh := t.fresh, fp := t.fp, mp := { t.mp with resetPulses := s.mp.resetPulses }
                   sb := { s.sb with lines := t.sb.lines } }) ∧
    ∃ t, exec .mediaTimeout s = .next t ∧ Answers t .mediaRead r.taken s.fp.readBuf.flatten ∧
      t = { waitUntil (op.start + 200) s with
        fresh := t.fresh, fp := t.fp, mp := { t.mp with resetPulses := s.mp.resetPulses + 1 }
        sb := { s.sb with lines := t.sb.lines } })

/-- R169, R172: a READ of tail offset 5 is answered with the live status of that moment and clears the ATTN latch; one
of offsets 6 to 10 is answered with the live drop log or check sector. R170, section 11.6: every field of the live
status, of a check record and of the drop log. The counter fresh, which is read with the free V and T of a part that
has taken no sample, is the model's own (log entry 7). -/
def Obligations.LiveStatusClearsAttn : Prop :=
  (∀ (sector : Word) (s : State), PassedOn s → inService s.ps.power = true → 32 ≤ s.ps.capacity →
    (sector.toNat = tailBase s + 5 →
      ∃ t, exec (.read 1#8 sector) s = .next t ∧ Answers t .ok 1 (liveStatus s) ∧
        t = { s with fp := t.fp, mp := (abandonRead s).mp, ru := { s.ru with attn := false }, fresh := s.fresh + 1 }) ∧
    (∀ o, 6 ≤ o → o ≤ 10 → sector.toNat = tailBase s + o →
      ∃ t, exec (.read 1#8 sector) s = .next t ∧
        (o = 6 → Answers t .ok 1 (dropLogSector s)) ∧ (7 ≤ o → Answers t .ok 1 (checkSector s (o - 7))) ∧
        t = { s with fp := t.fp, mp := (abandonRead s).mp })) ∧
  (∀ s : State, StatusGauge s (liveStatus s) ∧ StatusSupply s (liveStatus s) ∧ StatusRest s (liveStatus s)) ∧
  (∀ (s : State) (q pos : Nat), q < 4 → pos < 16 →
    CheckFields (zoneAt s (16 * q + pos)).state (runtimeAt s (16 * q + pos))
      (field (checkSector s q) (32 * pos) 32)) ∧
  (∀ s : State, field (dropLogSector s) 28 4 = markerDropLog ∧ field (dropLogSector s) 60 2 = le 2 s.mm.total ∧
    field (dropLogSector s) 62 2 = le 2 s.mm.lastSeq ∧
    ∀ i, i < 16 → DropFields (s.mm.log[i]?) (field (dropLogSector s) (32 * i) 32))

/-- R14, R59: a FLUSH waits while a line below its mark is DIRTY or DRAINING; otherwise it is answered at once, and
MEDIA/DEFERRED clears the deferred write error flag. In HOLDUP it is answered POWER/HOLDUP with flag 3. -/
def Obligations.FlushAnswered : Prop :=
  ∀ (count : Byte) (sector : Word) (s : State), PassedOn s →
    ∃ t, exec (.flush count sector) s = .next t ∧
      (s.ps.power = .holdup → OnlyRequest s t ∧
        Answers t .powerHoldup 0 [] ∧ Recorded t .powerHoldup 3 count sector 4#9 0) ∧
      (s.ps.power ≠ .holdup → t = { s with fp := t.fp, mp := (abandonRead s).mp, sb := t.sb } ∧
        (anyBelow s.sb.lines s.sb.ageCounter = true →
          t.fp.port = .completing ∧ t.fp.mark = some s.sb.ageCounter ∧ waitPin t = .active ∧ t.sb = s.sb) ∧
        (anyBelow s.sb.lines s.sb.ageCounter = false → s.sb.deferred = false →
          Answers t .ok count.toNat [] ∧ t.sb = s.sb) ∧
        (anyBelow s.sb.lines s.sb.ageCounter = false → s.sb.deferred = true →
          Answers t .mediaDeferred count.toNat [] ∧ t.sb = { s.sb with deferred := false }))

/-- R157: an INFO is answered OK with 0 sectors and the working capacity and T as payload, whatever its count and
sector number, and MP is asked for nothing. In media FAULT and in STARTING R57 answers instead, and in HOLDUP R59. -/
def Obligations.InfoAnswered : Prop :=
  ∀ (count : Byte) (sector : Word) (s : State), takesFrames s = true →
    ∃ t, exec (.info count sector) s = .next t ∧ OnlyRequest s t ∧
      (s.ps.mediaFault = true → Answers t .mediaAbsent 0 [] ∧ t.wc = s.wc) ∧
      (s.ps.mediaFault = false → s.ps.power = .starting → Answers t .busyStarting 0 [] ∧ t.wc = s.wc) ∧
      (s.ps.mediaFault = false → s.ps.power = .holdup →
        Answers t .powerHoldup 0 [] ∧ Recorded t .powerHoldup 4 count sector 0#9 0) ∧
      (s.ps.mediaFault = false → s.ps.power ≠ .starting → s.ps.power ≠ .holdup →
        Answers t .ok 0 (le 4 s.ps.capacity ++ le 4 (s.ps.capacity - 32)) ∧ t.wc = s.wc)

/-- R59, R62, R69: a request with an unknown code is answered RANGE/FORMAT and recorded with flag 1 alone, its code as
received. -/
def Obligations.UnknownCodeRefused : Prop :=
  ∀ (code count : Byte) (sector : Word) (s : State), PassedOn s → knownCode code = false →
    ∃ t, exec (.unknownCodeRequest code count sector) s = .next t ∧ OnlyRequest s t ∧ Answers t .rangeFormat 0 [] ∧
      Recorded t .rangeFormat code count sector 1#9 0 ∧ t.wc.refusal.uptime = s.uptimeSec ∧
      t.wc.refusal.wall = wallSeconds s

/-! ### Data frames and the front link -/

/-- R154, R164: a data frame that FP is not taking, an untagged byte at a frame boundary of the front link, and bytes
of the flash module outside an operation's response are discarded. -/
def Obligations.StrayInputDiscarded : Prop :=
  ∀ (s : State) (data : Sector) (byte : Byte) (bytes : List Byte),
    (takesSector s = false → exec (.dataFrame data) s = .next s) ∧
    exec (.untaggedFrontByte byte) s = .next s ∧ exec (.strayMediaBytes bytes) s = .next s

/-- R8, R73, R75, R156: a data sector below T that is admitted is stored in its slot of a line, beside which every
other staged sector stays as it was. R2, R4, R6: a line allocated for it is the lowest-numbered FREE one, with the age
counter's value as its age and the OPEN zone it lies in as its zone number; a line it merges into keeps both. The
sector is counted, and advances the fill mark and the CRC register of the OPEN zone it lies in; no other zone's record
changes. R83, R175: the check sector of that zone joins the changed set, and no other sector does; one that was
pending may be admitted in the same step, which takes it out. R13: after the last sector of its write the write is
answered OK in WRITE_BACK; in WRITE_THROUGH it waits, its mark taken after the admission, while a line below the mark
is staged. That a port in TAKING or HELD has a WRITE for its request is an invariant that StepKeepsSized states. -/
def Obligations.FrameAdmitted : Prop :=
  ∀ (data : Sector) (s : State) (r : Request) (sb : Staging), TablesSized s → takesSector s = true →
    s.fp.req = some r → r.code = 2 → s.ps.power ≠ .critical → s.ps.power ≠ .holdup →
    r.sector.toNat + r.taken < tailBase s →
    (∀ k, zoneOf s.zu.zones (r.sector.toNat + r.taken) = some k → (zoneAt s k).state = .opened) →
    frontAdmitTest s (r.sector.toNat + r.taken) (toSector data) = .admitted sb →
    ∃ t, exec (.dataFrame data) s = .next t ∧ WriteGoesOn sb r s t ∧
      DataTaken (r.sector.toNat + r.taken) (toSector data) s t ∧
      ChangedBy (fun o => ∃ k, zoneOf s.zu.zones (r.sector.toNat + r.taken) = some k ∧ o = 13 + k / 16)
        (fun _ => False) s t ∧
      OnlyOffers { s with fp := t.fp, zu := { s.zu with runtimes := t.zu.runtimes } } t ∧ t.ru.attn = s.ru.attn

/-- R9, R63, R70: a front sector (an entry sector that passes its validation) in CRITICAL or HOLDUP, in a CLOSED zone,
or in the live window or the image area, ends its request with the status of R9, the check flag of R70 and the count
taken; nothing of it reaches staging (in HOLDUP, where StepKeepsSized has no write in transfer, stated with no hold-up
request waiting at MP). R10, R45: a front sector, of the data area or of the map area, that is not admitted is held
(an entry sector that passes its validation): WAIT is asserted, its data and the start of the episode are kept, and
nothing of it reaches staging: every line is as it was, but that the drain grant of the step may make the line it
chooses DRAINING (R17). -/
def Obligations.FrameHeld : Prop :=
  (∀ (data : Sector) (s : State) (r : Request) (n : Nat), takesSector s = true → s.fp.req = some r →
    n = r.sector.toNat + r.taken →
    (∀ o, 1 ≤ o → o ≤ 4 → n = tailBase s + o → validateSector s (o - 1) (toSector data) = none) →
    (s.ps.power = .holdup → s.mp.waiters.holdup = none) →
    ∃ t, exec (.dataFrame data) s = .next t ∧
      (s.ps.power = .critical →
        Answers t .powerCritical r.taken [] ∧ Recorded t .powerCritical r.code r.count r.sector 4#9 r.taken) ∧
      (s.ps.power = .holdup →
        Answers t .powerHoldup r.taken [] ∧ Recorded t .powerHoldup r.code r.count r.sector 4#9 r.taken) ∧
      (∀ k, s.ps.power ≠ .critical → s.ps.power ≠ .holdup → zoneOf s.zu.zones n = some k →
        (zoneAt s k).state = .closed →
        Answers t .protectedClosed r.taken [] ∧ Recorded t .protectedClosed r.code r.count r.sector 128#9 r.taken) ∧
      (s.ps.power ≠ .critical → s.ps.power ≠ .holdup →
        (∀ k, zoneOf s.zu.zones n = some k → (zoneAt s k).state ≠ .closed) →
        (tailBase s + 5 ≤ n ∧ n ≤ tailBase s + 10) ∨ (tailBase s + 17 ≤ n ∧ n ≤ tailBase s + 31) →
        Answers t .protectedOwned r.taken [] ∧ Recorded t .protectedOwned r.code r.count r.sector 8#9 r.taken) ∧
      (s.ps.power = .critical ∨ s.ps.power = .holdup ∨ StagingRefused s n → ZonesApart s → TablesSized s →
        OnlyDrainStarted s.sb.lines t.sb.lines ∧
        t = { s with fp := t.fp, wc := { s.wc with refusal := t.wc.refusal },
                     mp := { t.mp with resetPulses := s.mp.resetPulses }, sb := { s.sb with lines := t.sb.lines } })) ∧
  ∀ (data : Sector) (s : State) (r : Request) (why : HoldReason), takesSector s = true → s.fp.req = some r →
    s.ps.power ≠ .critical → s.ps.power ≠ .holdup → r.sector.toNat + r.taken ≤ tailBase s + 4 →
    (∀ o, 1 ≤ o → r.sector.toNat + r.taken = tailBase s + o →
      TablesSized s ∧ SectorPasses s (o - 1) (toSector data)) →
    (∀ k, zoneOf s.zu.zones (r.sector.toNat + r.taken) = some k → (zoneAt s k).state = .opened) →
    frontAdmitTest s (r.sector.toNat + r.taken) (toSector data) = .refused why →
    ∃ t, exec (.dataFrame data) s = .next t ∧ waitPin t = .active ∧
      t.fp = { s.fp with port := .held, holdStart := some s.uptimeMs,
                         held := some { data := toSector data, reason := why } } ∧
      OnlyDrainStarted s.sb.lines t.sb.lines ∧
      t = { s with fp := t.fp, mp := { t.mp with resetPulses := s.mp.resetPulses },
                   sb := { s.sb with lines := t.sb.lines } }

/-- R45 to R47: the validation of an entry sector answers the subclass of its lowest-numbered failing entry, which is
the first of the six checks STATE, ALIGN, BOUNDS, OVERLAP, TRANSITION and CHANGED that this entry fails against the
final table; it answers none just where all sixteen entries pass. R47, R64, R70: a sector that fails ends its request
MAP_REJECT with that subclass and the count taken before it, an empty mask, and leaves the zone table and the runtime
records as they were. -/
def Obligations.MapSectorRejected : Prop :=
  (∀ (data : Sector) (s : State) (sec : Nat), TablesSized s → sec < 4 →
    (∀ c, validateSector s sec data = some c ↔ SectorRefused s sec data c) ∧
    (validateSector s sec data = none ↔ SectorPasses s sec data)) ∧
  (∀ (data : Sector) (s : State) (r : Request) (o : Nat) (c : MapCheck), TablesSized s → takesSector s = true →
    s.fp.req = some r → s.ps.power ≠ .holdup → 1 ≤ o → o ≤ 4 → r.sector.toNat + r.taken = tailBase s + o →
    SectorRefused s (o - 1) (toSector data) c →
    ∃ t, exec (.dataFrame data) s = .next t ∧ Answers t (.mapReject c) r.taken [] ∧
      Recorded t (.mapReject c) r.code r.count r.sector 0#9 r.taken ∧
      t = { s with fp := t.fp, wc := { s.wc with refusal := t.wc.refusal },
                   mp := { t.mp with resetPulses := s.mp.resetPulses }, sb := { s.sb with lines := t.sb.lines } })

/-- R49 to R52: an entry without a transition leaves its zone's runtime record and the pending set as they are; an
open starts a fresh record at the zone's base, a close freezes the reported CRC and the close time and keeps the rest,
a move to UNUSED clears the record; each transition marks the zone's check sector and puts it into the changed set
(R83). R8, R39, R41, R109, R141: a data frame whose MAP sector is admitted stores it in a line of its own and takes it
into the map copy; an entry sector that passes every check (R47) moves its sixteen zones and no other, a header
replaces all thirteen settings, relatches the time base and hands a new design capacity to the gauge. R174: at a
transition's mark, and at a header that changes R, the pending checkpoints are offered. -/
def Obligations.EntryApplied : Prop :=
  (∀ (k : Nat) (e : RawEntry) (s : State), TablesSized s → k < 64 → e.st < 3 →
    legalMove (zoneAt s k).state (zoneStateOf e.st) = true →
    (zoneAt (applyEntry k e s) k).state = zoneStateOf e.st ∧
    (zoneStateOf e.st ≠ .unused →
      (zoneAt (applyEntry k e s) k).base = e.base ∧ (zoneAt (applyEntry k e s) k).length = e.length) ∧
    (∀ j, j ≠ k → zoneAt (applyEntry k e s) j = zoneAt s j ∧ runtimeAt (applyEntry k e s) j = runtimeAt s j) ∧
    (zoneStateOf e.st = (zoneAt s k).state →
      runtimeAt (applyEntry k e s) k = runtimeAt s k ∧ (applyEntry k e s).ru = s.ru) ∧
    (zoneStateOf e.st ≠ (zoneAt s k).state → 13 + k / 16 ∈ (applyEntry k e s).ru.pending ∧
      13 + k / 16 ∈ (applyEntry k e s).ru.changed) ∧
    ((zoneAt s k).state = .unused → e.st = 1 →
      runtimeAt (applyEntry k e s) k =
        { fillMark := e.base, crcReg := 0xFFFFFFFF#32, frozenCrc := 0, drops := 0, worstPeak := 0,
          minSoc := s.bg.soc, interrupted := false, damaged := false, uncertain := false,
          openWall := wallSeconds s, closeWall := none }) ∧
    ((zoneAt s k).state = .opened → e.st = 2 →
      runtimeAt (applyEntry k e s) k =
        { runtimeAt s k with
          frozenCrc := (runtimeAt s k).crcReg ^^^ 0xFFFFFFFF#32, crcReg := 0, closeWall := some (wallSeconds s) }) ∧
    ((zoneAt s k).state ≠ .unused → e.st = 0 → runtimeAt (applyEntry k e s) k = .cleared)) ∧
  (∀ (data : Sector) (s : State) (r : Request) (sb : Staging) (o : Nat), TablesSized s → takesSector s = true →
    s.fp.req = some r → r.code = 2 → s.ps.power ≠ .critical → s.ps.power ≠ .holdup → o ≤ 4 →
    r.sector.toNat + r.taken = tailBase s + o →
    (∀ k, zoneOf s.zu.zones (tailBase s + o) = some k → (zoneAt s k).state = .opened) →
    (1 ≤ o → SectorPasses s (o - 1) (toSector data)) →
    frontAdmitTest s (tailBase s + o) (toSector data) = .admitted sb →
    ∃ t, exec (.dataFrame data) s = .next t ∧ WriteGoesOn sb r s t ∧
      MapTaken o (toSector data) s t ∧
      (inService s.ps.power = true → s.ps.mediaFault = false →
        (o = 0 ∧ t.zu.settings.reserve ≠ s.zu.settings.reserve) ∨ (∃ p, ZoneMarks s t p ∧ p ∉ s.ru.pending) →
        OffersMade (fun p => p ∈ s.ru.pending ∨ ZoneMarks s t p) { s with sb := sb } t) ∧
      OnlyOffers { s with fp := t.fp, zu := t.zu, bg := t.bg, ps := { s.ps with mapCopy := t.ps.mapCopy } } t ∧
      t.ru.attn = s.ru.attn)

/-- R7: an admission is allowed exactly when the new cost is at most the larger of 1 and L or does not rise. R3, R6:
an allocation takes a FREE line and raises the dirty cost by one; a DATA sector allocates only while the FREE count is
greater than R. R5, R8: the data are stored in the sector's slot of one line, and every other line is as it was. R2,
R4, R6: an allocated line is the lowest-numbered FREE one and takes the age counter's value, which advances, and the
zone number of the admission; a merge keeps the line's age and zone number. R5, R6: a place is found exactly where a
DIRTY line of the address and class stands, MAP apart, or the class may allocate. R11: a failing test answers NOLINE
exactly where there is no place, and COST exactly where there is one and the cost test fails. R4, R6, R7: a front
sector is tested with the L in force and the R held, as MAP at T to T + 4, elsewhere as DATA with the OPEN zone it
lies in. R7: no command raises the dirty cost above the larger of 1 and the L before or after it, whichever the
admission meets (stated under ZonesStand, an invariant of StepKeepsSized, where the run in flight is one whose end
does not raise the cost, and for a brownout with nothing handed over before it). -/
def Obligations.AdmissionCosts : Prop :=
  (∀ (sb : Staging) (cls : LineClass) (sector : Nat) (zone : Option Nat) (reserve limit : Nat) (data : Sector),
    (admitTest sb cls sector zone reserve limit data = .refused .noLine ↔
      placeSector sb cls sector zone reserve data = none) ∧
    (admitTest sb cls sector zone reserve limit data = .refused .cost ↔
      ∃ t, placeSector sb cls sector zone reserve data = some t ∧ max 1 limit < dirtyCost t.lines ∧
        dirtyCost sb.lines < dirtyCost t.lines)) ∧
  (∀ (s : State) (n : Nat) (data : Sector),
    (tailBase s ≤ n → n ≤ tailBase s + 4 → frontAdmitTest s n data =
      admitTest s.sb .map n none s.zu.settings.reserve s.sm.limit data) ∧
    (n < tailBase s ∨ tailBase s + 4 < n →
      (∀ k, zoneOf s.zu.zones n = some k → (zoneAt s k).state = .opened → frontAdmitTest s n data =
        admitTest s.sb .data n (some k) s.zu.settings.reserve s.sm.limit data) ∧
      ((∀ k, zoneOf s.zu.zones n = some k → (zoneAt s k).state ≠ .opened) → frontAdmitTest s n data =
        admitTest s.sb .data n none s.zu.settings.reserve s.sm.limit data))) ∧
  (∀ (c : Instr) (s t : State), exec c s = .next t → ZonesStand s → (c = .brownout → s.se.handed = []) →
    (∀ op, s.mp.current = some op → op.requester.isDrain = true →
      dirtyCost (linesAfterRun op s.sb.lines) ≤ dirtyCost s.sb.lines) →
    dirtyCost t.sb.lines ≤ max (dirtyCost s.sb.lines) (max 1 (max s.sm.limit t.sm.limit))) ∧
  (∀ (sb : Staging) (cls : LineClass) (sector : Nat) (zone : Option Nat) (reserve : Nat) (data : Sector),
    ((mergeTarget sb.lines cls sector).isSome = true ↔
      cls ≠ .map ∧ ∃ l ∈ sb.lines, l.state = .dirty ∧ l.addr = sector / 8 ∧ l.cls = cls) ∧
    ((∃ t, placeSector sb cls sector zone reserve data = some t) ↔
      (mergeTarget sb.lines cls sector).isSome = true ∨ (cls = .data ∧ reserve < freeCount sb.lines) ∨
      (cls ≠ .data ∧ 1 ≤ freeCount sb.lines))) ∧
  ∀ (sb t : Staging) (cls : LineClass) (sector : Nat) (zone : Option Nat) (reserve limit : Nat) (data : Sector),
    placeSector sb cls sector zone reserve data = some t →
    (admitTest sb cls sector zone reserve limit data = .admitted t ↔
      dirtyCost t.lines ≤ max 1 limit ∨ dirtyCost t.lines ≤ dirtyCost sb.lines) ∧
    (mergeTarget sb.lines cls sector = none →
      dirtyCost t.lines = dirtyCost sb.lines + 1 ∧ freeCount t.lines + 1 = freeCount sb.lines ∧
      t.ageCounter = sb.ageCounter + 1 ∧ (cls = .data → reserve < freeCount sb.lines)) ∧
    ((mergeTarget sb.lines cls sector).isSome = true →
      freeCount t.lines = freeCount sb.lines ∧ t.ageCounter = sb.ageCounter) ∧
    ((∀ l ∈ sb.lines, l.data.length = 8) → ∃ i, StoredAt i cls sb.ageCounter zone sector data sb.lines t.lines ∧
      ∀ j, j ≠ i → t.lines[j]? = sb.lines[j]?)

/-- R155: when the last byte of a response has been sent FP is IDLE. R161: FRST abandons the current request and a
read miss that waits; one in flight goes on with its data to be discarded; every other block is unchanged. In CLOSED
only the pin changes. -/
def Obligations.LinkEndsRequest : Prop :=
  ∀ s : State,
    (s.fp.port = .answering → exec .responseSent s = .next { s with fp := FrontPort.reset }) ∧
    (s.fp.port ≠ .closed → exec .linkReset s = .next
      { s with
        pins := { s.pins with frst := true }
        fp := FrontPort.reset
        mp := { s.mp with
          waiters := { s.mp.waiters with readMiss := none }
          current := s.mp.current.map fun op =>
            if op.requester = .readMiss then { op with abandoned := true } else op } }) ∧
    (s.fp.port = .closed → exec .linkReset s = .next { s with pins := { s.pins with frst := true } }) ∧
    exec .frstRelease s = .next { s with pins := { s.pins with frst := false } }

/-- R11, R70: a hold that reaches 25 ms ends its request BUSY with the subclass of the last test and the count taken,
an empty mask, and the held sector dropped. That the expiry lets time run to its instant, 25 ms after the episode's
start, is the model's choice (log entry 2). -/
def Obligations.HoldLimitEndsBusy : Prop :=
  ∀ (s : State) (r : Request) (h : Held) (start : Word), s.fp.port = .held → s.fp.req = some r →
    s.fp.held = some h → s.fp.holdStart = some start →
    ∃ t, exec .holdLimit s = .next t ∧
      (h.reason = .noLine → Answers t .busyNoline r.taken [] ∧
        Recorded t .busyNoline r.code r.count r.sector 0#9 r.taken) ∧
      (h.reason = .cost → Answers t .busyCost r.taken [] ∧
        Recorded t .busyCost r.code r.count r.sector 0#9 r.taken) ∧
      t.fp.held = none ∧ t.fp.holdStart = none ∧
      ((start + 25 - s.uptimeMs).toNat ≤ 2147483648 → t.uptimeMs = start + 25) ∧
      t = { waitUntil (start + 25) s with fp := t.fp, wc := { s.wc with refusal := t.wc.refusal } }

/-! ### Media port and staging -/

/-- R164, R165: the first failure of an operation that is not abandoned is retried at once as the same operation, and
nothing else changes; a first timeout pulses the module reset as well. R138: in HOLDUP this holds for an image or an
invalidation write, and for a drain run where the energy test passes (what follows a refused retry is
DiscardsEmptyStaging). That the timeout lets time run to 200 ms after the operation's start is the model's choice (log
entry 2), and that a start-up operation is still retried after a brownout is read from R136 by inference (log entry
13). R159, R165: the outcome of an abandoned read miss is discarded, without a retry, and MP grants. R17, R166, R167:
a read miss goes before a drain until four have passed it; a drain grant issues the first run of the DRAINING line, or
else of the oldest DIRTY line, lowest slot first, and sets the starvation count to 0. R17, R102: while the part is
braced no drain request stands, and no command leaves it braced outside HOLDUP with a run in flight that was not in
flight before; a brownout, which first has samples processed that were handed over before it, is left out. -/
def Obligations.FirstFailureRetried : Prop :=
  (∀ (status : Byte) (payload : List Byte) (s : State) (op : MediaOp), s.mp.current = some op → status ≠ 0 →
    op.attempt = 1 → op.abandoned = false → Retried op s →
    exec (.mediaOperationComplete status payload) s = .next
      { s with mp := { s.mp with current := some { op with attempt := 2, start := s.uptimeMs } } } ∧
    ∃ t, exec .mediaTimeout s = .next t ∧
      ((op.start + 200 - s.uptimeMs).toNat ≤ 2147483648 → t.uptimeMs = op.start + 200) ∧
      t = { waitUntil (op.start + 200) s with
        mp := { s.mp with
          resetPulses := s.mp.resetPulses + 1
          current := some { op with attempt := 2, start := t.uptimeMs } } }) ∧
  (∀ (status : Byte) (payload : List Byte) (s : State) (op : MediaOp), s.mp.current = some op →
    op.requester = .readMiss → op.abandoned = true → inService s.ps.power = true → DrainStands s →
    ∃ t, exec (.mediaOperationComplete status payload) s = .next t ∧
      t = { s with mp := { t.mp with resetPulses := s.mp.resetPulses }, sb := { s.sb with lines := t.sb.lines } } ∧
      (∀ c, s.mp.waiters.drain = true → s.mp.waiters.readMiss = none ∨ s.mp.starvation = 4 →
        chooseRun s.sb.lines = some c →
        RunIssued .drain c s.uptimeMs s.sb.lines t ∧ t.mp.starvation = 0 ∧
          t.mp.waiters.readMiss = s.mp.waiters.readMiss) ∧
      (∀ m, s.mp.waiters.readMiss = some m → s.mp.waiters.drain = false ∨ s.mp.starvation ≠ 4 →
        t.mp.current = some { kind := .read, sector := m.first, count := m.len, data := [], requester := .readMiss
                              attempt := 1, start := s.uptimeMs, abandoned := false } ∧
        t.mp.waiters = { s.mp.waiters with readMiss := none } ∧ t.sb = s.sb ∧
        t.mp.starvation = (if s.mp.waiters.drain then min 4 (s.mp.starvation + 1) else s.mp.starvation)) ∧
      (s.mp.waiters.readMiss = none → s.mp.waiters.drain = false → t.mp.current = none ∧ t.sb = s.sb)) ∧
  (∀ lines : List Line, LinesRun lines → (chooseRun lines = none ↔ staged lines = false) ∧
    (AgesClose lines → ∀ c, chooseRun lines = some c → RunChosen lines c)) ∧
  (∀ (c : Instr) (s t : State), c ≠ .brownout → exec c s = .next t → bracedState t.mm.motion = true →
    t.ps.power ≠ .holdup → ∀ op, t.mp.current = some op → op.requester = .drain →
      ∃ p, s.mp.current = some p ∧ op = { p with attempt := op.attempt, start := op.start })

/-- R18: the success of the last run of the DRAINING line, with no other line staged, frees the line; with nothing
waiting MP is idle. R123, R124: in CRITICAL, with no checkpoint pending, the wind-down is then complete and OFFREQ is
asserted. Nothing else changes. R10: a run's completion that makes the dirty cost fall or a line FREE has the held
sector of a WRITE tried again, which is admitted or stays held with the reason of that test; an admitted MAP sector is
applied then (R8, R39, R49). R13, R14: it tests the completion waits: a write or a FLUSH is answered when no line is
left below its mark. R174: at such a completion the pending checkpoint sectors are offered, in ascending order, up to
the first that is not admitted. -/
def Obligations.LastRunFreesLine : Prop :=
  (∀ (payload : List Byte) (s : State) (op : MediaOp), s.mp.current = some op → op.requester = .drain →
    inService s.ps.power = true → s.ps.mediaFault = false → s.fp.port ≠ .held → TablesSized s →
    SpaceEvent s.sb.lines (linesAfterRun op s.sb.lines) →
    ∃ t, exec (.mediaOperationComplete 0 payload) s = .next t ∧
      OffersMade (fun o => o ∈ s.ru.pending) (runFinished op s) t) ∧
  (∀ (payload : List Byte) (s : State) (op : MediaOp), s.mp.current = some op → op.requester = .drain →
    inService s.ps.power = true → s.fp.port = .idle → s.ru.pending = [] → s.mp.waiters = .none →
    (∀ l ∈ s.sb.lines, l.live = true → l.state = .draining ∧
      l.valid &&& ~~~(l.programmed ||| slotMask (op.sector % 8) op.count) = 0) →
    ∃ t, exec (.mediaOperationComplete 0 payload) s = .next t ∧ dirtyCost t.sb.lines = 0 ∧
      (s.ps.power = .critical → t.ps.offreq = true ∧ offreqPin t = .active) ∧
      (s.ps.power ≠ .critical → t.ps.offreq = s.ps.offreq) ∧
      t = { s with
        sb := { s.sb with lines := s.sb.lines.map fun l => if l.live then Line.free else l }
        mp := { s.mp with current := none, handing := false }
        ps := { s.ps with offreq := t.ps.offreq } }) ∧
  (∀ (payload : List Byte) (s : State) (op : MediaOp), s.mp.current = some op → op.requester = .drain →
    inService s.ps.power = true → s.ru.pending = [] → TablesSized s →
    ∃ t, exec (.mediaOperationComplete 0 payload) s = .next t ∧
      (s.fp.port = .held → SpaceEvent s.sb.lines (linesAfterRun op s.sb.lines) →
        HoldRetried (runFinished op s) t ∧ MapRetried (runFinished op s) t) ∧
      (∀ r m, s.fp.port = .completing → s.fp.req = some r → s.fp.mark = some m →
        WaitTested r m s.sb.deferred (linesAfterRun op s.sb.lines) s t))

/-- R19, R20: a discarded run adds its sectors to the lost-sector count, saturating, records its highest sector, sets
the deferred write error flag and has ATTN raised. R79, R80: the report damages the zone it names where that zone
still holds the sectors, and otherwise the zone they lie in, and no other; a new flag marks the zone's check sector
and puts it into the changed set (R83). R19, R165: a drain run that fails or times out at its second attempt is so
discarded (that the timeout lets time run to 200 ms is log entry 2). R10, R13, R14: its space event retries a held
sector (stated where the discard sets no new zone flag, whose checkpoint could change the test again), and the
completion waits are tested after it: a FLUSH that waited for the run alone is answered MEDIA/DEFERRED and clears the
flag, a write is answered OK. R174: at its space event the pending checkpoints are offered, and again at the mark of a
zone flag that the report of the loss, which comes after, sets. -/
def Obligations.LossReported : Prop :=
  (∀ (sector len : Nat) (s : State),
    (discardRun sector len s).sb.lostCount = min 65535 (s.sb.lostCount + len) ∧
    (discardRun sector len s).sb.lastLost = sector + len - 1 ∧
    (discardRun sector len s).sb.deferred = true ∧ (discardRun sector len s).ru.attn = true) ∧
  (∀ (sector : Nat) (s : State) (k j : Nat), TablesSized s → k < 64 → zoneOf s.zu.zones sector = some k →
    (runtimeAt (damageZone sector none s) k).damaged = true ∧
    (j ≠ k → runtimeAt (damageZone sector none s) j = runtimeAt s j)) ∧
  (∀ (sector : Nat) (zone : Option Nat) (s : State),
    (∀ k, TablesSized s → DamagedBy s sector zone k →
      (runtimeAt (damageZone sector zone s) k).damaged = true ∧
      ((runtimeAt s k).damaged = false → 13 + k / 16 ∈ (damageZone sector zone s).ru.pending ∧
        13 + k / 16 ∈ (damageZone sector zone s).ru.changed ∧ (damageZone sector zone s).ru.attn = true) ∧
      ∀ j, j ≠ k → runtimeAt (damageZone sector zone s) j = runtimeAt s j) ∧
    ((∀ k, ¬DamagedBy s sector zone k) → damageZone sector zone s = s)) ∧
  (∀ (status : Byte) (payload : List Byte) (s : State) (op : MediaOp), TablesSized s → s.mp.current = some op →
    op.requester = .drain → inService s.ps.power = true → 2 ≤ op.attempt → s.fp.port ≠ .held → status ≠ 0 →
    (∃ t, exec (.mediaOperationComplete status payload) s = .next t ∧ RunDiscarded op s t) ∧
    ∃ t, exec .mediaTimeout s = .next t ∧
      RunDiscarded op { waitUntil (op.start + 200) s with
        mp := { s.mp with resetPulses := s.mp.resetPulses + 1 } } t) ∧
  (∀ (status : Byte) (payload : List Byte) (s : State) (op : MediaOp), TablesSized s → s.mp.current = some op →
    op.requester = .drain → inService s.ps.power = true → 2 ≤ op.attempt → status ≠ 0 → s.ru.pending = [] →
    ∃ t, exec (.mediaOperationComplete status payload) s = .next t ∧
      (∀ r m, s.fp.port = .completing → s.fp.req = some r → s.fp.mark = some m →
        WaitTested r m true (linesAfterRun op s.sb.lines) s t) ∧
      (s.fp.port = .held → SpaceEvent s.sb.lines (linesAfterRun op s.sb.lines) →
        (∀ k, DamagedBy s op.sector (drainingZone s.sb.lines) k → (runtimeAt s k).damaged = true) →
        HoldRetried (runFinished op s) t))

/-- R139: when the energy test has failed, the discards leave every line FREE. R138, R180: at a brownout with MP idle,
and at the end of each run in phase DRAIN, the energy test decides: with Avail at least Ew the next run is issued;
otherwise every run that remains is discarded, its sectors are counted lost and the deferred write error flag is set,
and the image is saved (R142); with nothing staged the image is saved at once. R138, R165: in phase DRAIN a run that
fails or times out at its second attempt, or at its first where the energy test refuses the retry, is discarded as R19
gives, and the test for what is left follows. R137: a read miss from before the entry is not retried; at its end the
hold-up request that waits is granted. That a timeout lets time run to 200 ms after the operation's start is the
model's choice (log entry 2). That Ew is the one the latest conversion used is read from R30 by inference (log entry
14). LinesRun is an invariant that StepKeepsSized states. -/
def Obligations.DiscardsEmptyStaging : Prop :=
  (∀ s : State, LinesRun s.sb.lines → staged (discardAll (dirtyCost s.sb.lines) s).sb.lines = false) ∧
  (∀ s : State, s.sm.rail = .good → s.ps.mediaFault = false → inService s.ps.power = true → s.se.handed = [] →
    s.mp.current = none → s.mp.handing = false → LinesRun s.sb.lines →
    ∃ t, exec .brownout s = .next t ∧ DrainTested s.sb.lines s t) ∧
  (∀ (payload : List Byte) (s : State) (op : MediaOp), s.mp.current = some op →
    op.requester = .drain ∨ op.requester = .holdup .drainRun → s.ps.power = .holdup → s.ps.phase = some .drain →
    s.fp.port = .idle ∨ s.fp.port = .answering → LinesRun (linesAfterRun op s.sb.lines) →
    ∃ t, exec (.mediaOperationComplete 0 payload) s = .next t ∧ DrainTested (linesAfterRun op s.sb.lines) s t) ∧
  (∀ (status : Byte) (payload : List Byte) (s : State) (op : MediaOp), s.mp.current = some op →
    op.requester = .drain ∨ op.requester = .holdup .drainRun → s.ps.power = .holdup → s.ps.phase = some .drain →
    s.fp.port = .idle ∨ s.fp.port = .answering → LinesRun (linesAfterRun op s.sb.lines) →
    2 ≤ op.attempt ∨ s.sm.avail < s.sm.ewUsed →
    (status ≠ 0 → ∃ t, exec (.mediaOperationComplete status payload) s = .next t ∧ RunLostInHoldup op s t) ∧
    ∃ t, exec .mediaTimeout s = .next t ∧ RunLostInHoldup op (waitUntil (op.start + 200) s) t ∧
      t.mp.resetPulses = s.mp.resetPulses + 1) ∧
  (∀ (status : Byte) (payload : List Byte) (s : State) (op : MediaOp), s.mp.current = some op →
    op.requester = .readMiss → op.abandoned = true → s.ps.power = .holdup →
    ∃ t, exec (.mediaOperationComplete status payload) s = .next t ∧
      (s.ps.phase = some .drain → s.mp.waiters.holdup = some .drainRun → LinesRun s.sb.lines →
        staged s.sb.lines = true → DrainTested s.sb.lines s t) ∧
      (s.zu.readOnly = false → s.mp.waiters.holdup = some .imageFirst →
        t.mp.current = some { kind := .write, sector := tailBase s + 17, count := 7, data := s.ps.image.take 7
                              requester := .holdup .imageFirst, attempt := 1, start := s.uptimeMs
                              abandoned := false }))

/-- R146: a capacity of at least 1,048,576 sectors gives the working capacity and the map-area read; a smaller one is
media FAULT, and so is the failure or timeout of the third attempt; the two before it are retried. R147, R148: the map
area, the gauge record, the drop log, the check table and the two parts of the image are then read in turn, and each
outcome, success or second failure, gives the block its part. R42, R54: the header's settings, the accepted entries,
the count of ignored ones, and a time base that is not latched; R55: a map area that cannot be read makes the part
read-only. R109: a new design capacity gives an unset gauge its FCC_eff. That the second image part is read after a
failed first one is read from R148 by inference (log entry 34); an unlisted kind or outcome code is log entry 16, a
drop recorded before the drop log read log entry 42, that a timeout lets time run to its instant log entry 2. -/
def Obligations.CapacityFormsTail : Prop :=
  (∀ (payload : List Byte) (s : State) (op : MediaOp), s.mp.current = some op →
    op.requester = .startup .capacity → s.ps.power = .starting → s.ps.brownedOut = false →
    ∃ t, exec (.mediaOperationComplete 0 payload) s = .next t ∧
      t = { s with ps := t.ps, mp := t.mp, sb := { s.sb with lines := t.sb.lines } } ∧
      (u32At payload 0 < 1048576 → t.ps = { s.ps with mediaFault := true }) ∧
      (1048576 ≤ u32At payload 0 →
        t.ps = { s.ps with capacity := min (u32At payload 0 / 8 * 8) 4294967288, startPos := .mapArea } ∧
        t.mp.current = some { kind := .read, sector := t.ps.capacity - 32, count := 5, data := [],
                              requester := .startup .mapArea, attempt := 1, start := s.uptimeMs,
                              abandoned := false })) ∧
  (∀ (status : Byte) (payload : List Byte) (s : State) (op : MediaOp), s.mp.current = some op →
    s.ps.power = .starting → s.ps.brownedOut = false → status = 0 ∨ 2 ≤ op.attempt →
    (op.requester = .startup .mapArea → s.bg.isSet = false →
      ∃ t, exec (.mediaOperationComplete status payload) s = .next t ∧ StartupReads .gaugeRecord 11 1 s t ∧
        (status = 0 → t.ps.mapCopy = some (sectorsOf 5 payload) ∧ MapBuilt (sectorsOf 5 payload) s t) ∧
        (status ≠ 0 → t.ps.mapCopy = none ∧ MapUnread s t) ∧
        (status ≠ 0 ∨ t.zu.settings.design = s.zu.settings.design → t.bg = s.bg) ∧
        (status = 0 → t.zu.settings.design ≠ s.zu.settings.design →
          t.bg = { s.bg with fcc := t.zu.settings.design * 3600000 * bandFactor s.bg.band / 256 }) ∧
        t = { s with ps := { s.ps with startPos := .gaugeRecord, mapCopy := t.ps.mapCopy }, zu := t.zu, bg := t.bg
                     mp := { t.mp with resetPulses := s.mp.resetPulses } }) ∧
    (op.requester = .startup .gaugeRecord →
      ∃ t, exec (.mediaOperationComplete status payload) s = .next t ∧ StartupReads .dropLog 12 1 s t ∧
        (status = 0 → field payload 0 8 = markerGauge → t.ps.coldTotal = u32At payload 8) ∧
        (status ≠ 0 ∨ field payload 0 8 ≠ markerGauge → t.ps.coldTotal = 0) ∧
        t = { s with ps := { s.ps with startPos := .dropLog, coldTotal := t.ps.coldTotal }
                     mp := { t.mp with resetPulses := s.mp.resetPulses } }) ∧
    (op.requester = .startup .dropLog →
      ∃ t, exec (.mediaOperationComplete status payload) s = .next t ∧ StartupReads .checkTable 13 4 s t ∧
        (status = 0 → field payload 28 4 = markerDropLog → DropLogRead payload t.mm.log ∧
          t.mm.total = u16At payload 60 ∧ t.mm.lastSeq = u16At payload 62) ∧
        (status ≠ 0 ∨ field payload 28 4 ≠ markerDropLog → t.mm.log = [] ∧ t.mm.total = 0 ∧ t.mm.lastSeq = 0) ∧
        t = { s with ps := { s.ps with startPos := .checkTable }, mp := { t.mp with resetPulses := s.mp.resetPulses }
                     mm := { s.mm with log := t.mm.log, total := t.mm.total, lastSeq := t.mm.lastSeq
                                       pendingRecs := [] } }) ∧
    (op.requester = .startup .checkTable →
      ∃ t, exec (.mediaOperationComplete status payload) s = .next t ∧ StartupReads .imageFirst 17 7 s t ∧
        t = { s with ps := { s.ps with
                       startPos := .imageFirst
                       checkRead := if status = 0 then sectorsOf 4 payload else List.replicate 4 zeroSector }
                     mp := { t.mp with resetPulses := s.mp.resetPulses } }) ∧
    (op.requester = .startup .imageFirst →
      ∃ t, exec (.mediaOperationComplete status payload) s = .next t ∧ StartupReads .imageSecond 24 8 s t ∧
        t = { s with ps := { s.ps with
                       startPos := .imageSecond, imageRead := if status = 0 then some (sectorsOf 7 payload) else none }
                     mp := { t.mp with resetPulses := s.mp.resetPulses } })) ∧
  (∀ (status : Byte) (payload : List Byte) (s : State) (op : MediaOp), s.mp.current = some op →
    op.requester = .startup .capacity → s.ps.power = .starting → s.ps.brownedOut = false → status ≠ 0 →
    (op.attempt < 3 → exec (.mediaOperationComplete status payload) s = .next
      { s with mp := { s.mp with current := some { op with attempt := op.attempt + 1, start := s.uptimeMs } } }) ∧
    (3 ≤ op.attempt →
      (∃ t, exec (.mediaOperationComplete status payload) s = .next t ∧ t.ps = { s.ps with mediaFault := true } ∧
        t = { s with ps := t.ps, mp := { t.mp with resetPulses := s.mp.resetPulses }
                     sb := { s.sb with lines := t.sb.lines } }) ∧
      ∃ t, exec .mediaTimeout s = .next t ∧ t.ps = { s.ps with mediaFault := true } ∧
        t.mp.resetPulses = s.mp.resetPulses + 1))

/-- R142, R143: the completion of the second image write, outside INVALIDATE, takes the part to OFF with every output
released: WAIT, ATTN, OFFREQ, the LEDs, the module reset, the front data lines, the media link, SCL and SDA. The
second failure of the second image write ends the same way. The success of the first image write issues the second,
and its second failure ends in OFF. Elsewhere: R171: ATTN is held inactive before the first service, and so in media
FAULT of start-up, and follows the latch afterwards. R156: WAIT is asserted in HELD, COMPLETING and MISS_WAIT, and
inactive in the other port states (R161: it is so after a link reset). R124: OFFREQ follows PS. R127, R154: the front
data lines are driven for a response, the media link's during an operation, SCL and SDA during an attempt and a
recovery train. That the module reset is inactive in every state outside OFF, its pulse being over within the step
that makes it (log entry 33, DEDUCED), and that the front data lines are driven exactly while a port answers, the
media link exactly while an operation is in progress, and SCL and SDA exactly during an attempt and a recovery train
(log entry 33, and log entry 24, DESIGN CHOICE, which leaves out the time of the bytes on the links), are the model's
choice. R177, R178: LED1 to LED4 show the pattern of the power state, the gauge flags, SOC and the charging
indication, and blink on the uptime counter. -/
def Obligations.SecondImageWriteEndsInOff : Prop :=
  (∀ (status : Byte) (payload : List Byte) (s : State) (op : MediaOp), s.mp.current = some op →
    op.requester = .holdup .imageSecond → s.ps.phase ≠ some .invalidate → status = 0 ∨ 2 ≤ op.attempt →
    ∃ t, exec (.mediaOperationComplete status payload) s = .next t ∧ t.ps.power = .off ∧ t.ps.phase = none ∧
      t.fp.port = .closed ∧ t.mp.current = none ∧ t.mp.waiters = .none ∧ t.se.timersOn = false ∧
      waitPin t = .released ∧ attnPin t = .released ∧ offreqPin t = .released ∧ (∀ n, ledPin t n = .released) ∧
      mrstPin t = .released ∧ frontLines t = .released ∧ mediaLines t = .released ∧ senseLines t = .released ∧
      t = { s with fp := t.fp, mp := t.mp, ps := t.ps, se := t.se, ru := { s.ru with attn := true },
                   sm := { s.sm with mode := t.sm.mode } }) ∧
  (∀ (status : Byte) (payload : List Byte) (s : State) (op : MediaOp), s.mp.current = some op →
    op.requester = .holdup .imageFirst → s.ps.power = .holdup → s.ps.phase ≠ some .invalidate →
    (status = 0 → ∃ t, exec (.mediaOperationComplete status payload) s = .next t ∧
      t = { s with mp := { t.mp with resetPulses := s.mp.resetPulses } } ∧
      t.mp.current = some { kind := .write, sector := tailBase s + 24, count := 8, data := s.ps.image.drop 7
                            requester := .holdup .imageSecond, attempt := 1, start := s.uptimeMs
                            abandoned := false }) ∧
    (status ≠ 0 → 2 ≤ op.attempt →
      ∃ t, exec (.mediaOperationComplete status payload) s = .next t ∧ t.ps.power = .off)) ∧
  (∀ s : State, s.fp.port ≠ .closed → ∃ t, exec .linkReset s = .next t ∧
      waitPin t = .inactive ∧ frontLines t = .released) ∧
  (∀ s : State,
    (s.ps.power ≠ .off → (s.ps.startPos ≠ .served → attnPin s = .inactive) ∧
      (s.ps.startPos = .served → s.ru.attn = true → attnPin s = .active) ∧
      (s.ps.startPos = .served → s.ru.attn = false → attnPin s = .inactive) ∧
      (s.ps.offreq = true → offreqPin s = .active) ∧ (s.ps.offreq = false → offreqPin s = .inactive) ∧
      mrstPin s = .inactive ∧ (mediaLines s = .driven ↔ s.mp.current.isSome = true) ∧
      (senseLines s = .driven ↔ s.se.trans = .transfer ∨ s.se.trans = .recovery)) ∧
    (s.ps.power = .off → attnPin s = .released ∧ offreqPin s = .released ∧ mrstPin s = .released ∧
      mediaLines s = .released ∧ senseLines s = .released ∧ ∀ n, ledPin s n = .released) ∧
    (s.fp.port = .held ∨ s.fp.port = .completing ∨ s.fp.port = .missWait → waitPin s = .active) ∧
    (s.fp.port = .idle ∨ s.fp.port = .taking ∨ s.fp.port = .assembling ∨ s.fp.port = .answering →
      waitPin s = .inactive) ∧
    (s.fp.port = .closed → waitPin s = .released) ∧ (frontLines s = .driven ↔ s.fp.port = .answering) ∧
    (s.ps.power ≠ .off → inService s.ps.power = false ∨ s.ps.mediaFault = true → ∀ n, ledPin s n = .inactive) ∧
    (inService s.ps.power = true → s.ps.mediaFault = false →
      (s.bg.flagUnknown = true →
        ledPin s 1 = ledPinIs (on1Hz s) ∧ ledPin s 2 = .inactive ∧ ledPin s 3 = .inactive ∧
        ledPin s 4 = ledPinIs (!on1Hz s)) ∧
      (s.bg.flagUnknown = false → s.ps.power = .critical →
        ledPin s 1 = ledPinIs (on4Hz s) ∧ ∀ n, 2 ≤ n → n ≤ 4 → ledPin s n = .inactive) ∧
      (s.bg.flagUnknown = false → s.ps.power ≠ .critical → s.bg.soc ≤ 100 →
        ∀ n, 1 ≤ n → n ≤ 4 → ledPin s n = barLed s n)))

/-! ### Supply monitor -/

/-- R23: at the next 10 ms instant a conversion starts, and nothing else changes but the counters of time. That the
command lets time run to that instant is the model's choice (log entry 2), and that the model counts the conversions
in progress is read from R23 by inference (log entry 26). -/
def Obligations.ConversionStarts : Prop :=
  ∀ s : State, ∃ t, exec .conversionCadence s = .next t ∧
    ((s.sm.cadenceDue - s.uptimeMs).toNat ≤ 2147483648 → t.uptimeMs = s.sm.cadenceDue) ∧
    t = { waitUntil s.sm.cadenceDue s with
      sm := { s.sm with converting := s.sm.converting + 1, cadenceDue := s.sm.cadenceDue + 10 } }

/-- R23 to R25, R27, R30: a completed conversion stores both values clamped to 0..6000 mV, and forms E, Avail, H and L
from them and the settings held. Outside HOLDUP, with no front sector held, nothing else changes but a drop's supply
dip flag and what the write mode, the offers and the media port's grant change. The count of conversions in progress
rests on log entry 26, the wait of the first conversion for its instant, 10 ms after power-on, on log entry 2 (the
counters of time move at no other), the Ew kept for the energy test on log entry 14. R10: a change of L has the held
sector of a WRITE tried again, and an admitted MAP sector is applied then (R8, R39). R30, R98: a VSYS below 3300 mV
while braced sets the supply dip flag of the drop; otherwise it stays. R174: at a change of L the pending checkpoint
sectors are offered. R13, R28: a change of the write mode to WRITE_BACK ends a write-through wait, which is answered
OK; a FLUSH waits on. -/
def Obligations.ConversionComputes : Prop :=
  ∀ (vsys vcap : Int) (s : State), 0 < s.sm.converting →
    ∃ t, exec (.conversionComplete vsys vcap) s = .next t ∧
      (t.sm.vsys : Int) = max 0 (min 6000 vsys) ∧ (t.sm.vcap : Int) = max 0 (min 6000 vcap) ∧
      (t.sm.vcap ≤ s.zu.settings.vmin → t.sm.energy = 0) ∧
      (s.zu.settings.vmin < t.sm.vcap →
        t.sm.energy = s.zu.settings.cap * (t.sm.vcap ^ 2 - s.zu.settings.vmin ^ 2) / 2000000) ∧
      t.sm.avail = t.sm.energy - s.zu.settings.ei ∧
      t.sm.budget = min 128 (t.sm.avail / s.zu.settings.ew) ∧ t.sm.ewUsed = s.zu.settings.ew ∧
      (s.mm.motion = .disabled → t.sm.limit = min t.sm.budget 8) ∧
      (s.mm.motion ≠ .disabled → t.sm.limit = t.sm.budget) ∧
      t.sm.converting + 1 = s.sm.converting ∧ t.sm.rail = s.sm.rail ∧ t.sm.cadenceDue = s.sm.cadenceDue ∧
      (s.ps.power ≠ .holdup → s.fp.port ≠ .held →
        OnlyOffers { s with
          uptimeMs := t.uptimeMs, uptimeSec := t.uptimeSec, msOfSec := t.msOfSec, fp := t.fp, sm := t.sm
          mm := { s.mm with drop := { s.mm.drop with supplyDip := t.mm.drop.supplyDip } } } t) ∧
      t.sm.firstPending = false ∧ t.sm.qualStart = s.sm.qualStart ∧
      (s.sm.firstPending = false → t.uptimeMs = s.uptimeMs ∧ t.uptimeSec = s.uptimeSec ∧ t.msOfSec = s.msOfSec) ∧
      (s.sm.firstPending = true → t.uptimeMs = (waitUntil 10 s).uptimeMs ∧
        t.uptimeSec = (waitUntil 10 s).uptimeSec ∧ t.msOfSec = (waitUntil 10 s).msOfSec) ∧
      (t.sm.vsys < 3300 → bracedState s.mm.motion = true → t.mm.drop.supplyDip = true) ∧
      (3300 ≤ t.sm.vsys ∨ bracedState s.mm.motion = false → t.mm.drop.supplyDip = s.mm.drop.supplyDip) ∧
      (t.sm.limit ≠ s.sm.limit → inService s.ps.power = true → s.ps.mediaFault = false → s.fp.port ≠ .held →
        TablesSized s → OffersMade (fun o => o ∈ s.ru.pending) s t) ∧
      (s.ps.power ≠ .holdup → s.fp.port = .held → t.sm.limit = s.sm.limit → t.fp = s.fp) ∧
      (s.fp.port = .held → t.sm.limit ≠ s.sm.limit → s.ru.pending = [] → TablesSized s →
        HoldRetried { s with sm := t.sm } t ∧
        MapRetried { s with sm := t.sm, uptimeMs := t.uptimeMs, uptimeSec := t.uptimeSec, msOfSec := t.msOfSec } t) ∧
      (∀ r, s.ps.power ≠ .holdup → s.fp.port = .completing → s.fp.req = some r →
        (s.sm.mode = .writeThrough → t.sm.mode = .writeBack → r.code = 2 → Answers t .ok r.taken []) ∧
        (r.code ≠ 2 ∨ s.sm.mode = .writeBack ∨ t.sm.mode = .writeThrough → t.fp = s.fp))

/-- R27, R28: at every step's end L is the smaller of H and 128, and of 8 while the motion state is DISABLED, and the
write mode is the one that the four rows of R28's table give: WRITE_THROUGH in LOW and CRITICAL, with the UNKNOWN flag
set, and with L below 2, WRITE_BACK otherwise. That it is so after a BROWNOUT too, where R31 has the write mode keep
its value until the next conversion, is the model's choice between the two rules (log entry 31). -/
def Obligations.StepKeepsModeAndLimit : Prop :=
  ∀ s t : State, ModeAgrees s → LimitAgrees s → step s = .next t → ModeAgrees t ∧ LimitAgrees t

/-- R38: ZU holds one value of each setting, the defaults at power-on, and at every step's end each lies within its
range and critical SOC is less than low SOC. -/
def Obligations.StepKeepsSettingsInRange : Prop :=
  State.reset.zu.settings =
    { reserve := 2, tf := 90, nf := 40, settleMs := 200, ti := 1536, design := 3400, lowSoc := 15, criticalSoc := 5,
      cutoff := 3000, cap := 4700, vmin := 3000, ew := 900, ei := 4000 } ∧
  ∀ s t : State, SettingsInRange s.zu.settings → step s = .next t → SettingsInRange t.zu.settings

/-- R32: the return of the rail starts the qualification, cancelled by a fall. R31: a brownout is reported in
RAIL_GOOD alone. That a rail return, a cancel or an expiry in another rail state changes nothing is the model's choice
(log entry 4). -/
def Obligations.RailQualification : Prop :=
  ∀ s : State,
    (s.sm.rail = .lost → exec .railReturn s = .next
      { s with sm := { s.sm with rail := .returning, qualStart := s.uptimeMs } }) ∧
    (s.sm.rail ≠ .lost → exec .railReturn s = .next s) ∧
    (s.sm.rail = .returning → exec .railReturnCancel s = .next { s with sm := { s.sm with rail := .lost } }) ∧
    (s.sm.rail ≠ .returning → exec .railReturnCancel s = .next s ∧ exec .recoveryQualified s = .next s) ∧
    (s.sm.rail ≠ .good → exec .brownout s = .next s)

/-! ### Power loss and recovery -/

/-- R31, R136, R137: a brownout in service begins the hold-up sequence: the front request in progress is ended
POWER/HOLDUP with its count and sectors, polling stops, OFFREQ is deasserted and ATTN raised. R95, R98, R99: a drop in
progress is recorded POWER_LOST and MM is STILL (a drop in STRUCK takes its kind with the ti in force at the entry:
the model's choice, log entry 48); in DISABLED and STILL it stays as it is; of the runtime records nothing else
changes but DAMAGED flags that the losses of a failing energy test set, and no sector leaves the pending or the
changed set (R176). Only a read-only part with nothing to drain and no media operation in progress can be in OFF at
once (R142); one with a read miss in flight waits for it. R134: what SE has handed over before is processed before the
entry, one event after the other (that it then precedes the commands that wait is the model's choice, log entry 43),
and nothing handed over is left after it. R136, R151: in media FAULT, and before start-up is over, a brownout takes
the part to OFF, once the media operation in progress has completed; after an invalidation write that succeeds the
hold-up sequence follows instead (the attempts of that operation are log entry 13). -/
def Obligations.BrownoutEntersHoldup : Prop :=
  (∀ (s u : State) (h : Handover) (rest : List Handover), s.sm.rail = .good → s.se.handed = h :: rest →
    exec (handoverCommand h) s = .next u → exec .brownout s = exec .brownout u) ∧
  (∀ s : State, s.sm.rail = .good → s.ps.mediaFault = false → inService s.ps.power = true →
    ∃ t, exec .brownout s = .next t ∧
      (s.zu.readOnly = false → t.ps.power = .holdup) ∧ (t.ps.power = .holdup ∨ t.ps.power = .off) ∧
      t.ps.offreq = false ∧ t.ru.attn = true ∧ bracedState t.mm.motion = false ∧ t.se.timersOn = false ∧
      t.se.alertDeferred = false ∧ t.se.handed = [] ∧ t.sm.rail = .lost ∧ t.bg.firstTimer = none ∧
      t.wc = { s.wc with refusal := t.wc.refusal } ∧
      t.ru.timerDue = s.ru.timerDue ∧ t.uptimeMs = s.uptimeMs ∧ t.uptimeSec = s.uptimeSec ∧ t.pins = s.pins ∧
      t.pending = s.pending ∧
      (s.se.handed = [] → t.zu = { s.zu with runtimes := t.zu.runtimes } ∧ (TablesSized s → MotionAtHoldup s t) ∧
        (∀ r, s.fp.req = some r → s.fp.port = .taking ∨ s.fp.port = .held →
          Recorded t .powerHoldup r.code r.count r.sector 4#9 r.taken ∧
          (t.ps.power = .holdup → Answers t .powerHoldup r.taken [])) ∧
        (∀ r, s.fp.req = some r → s.fp.port = .completing →
          Recorded t .powerHoldup r.code r.count r.sector 4#9 (if r.code = 3 then r.count.toNat else r.taken) ∧
          (t.ps.power = .holdup → Answers t .powerHoldup (if r.code = 3 then r.count.toNat else r.taken) [])) ∧
        (∀ r, s.fp.req = some r → s.fp.port = .missWait →
          Recorded t .powerHoldup r.code r.count r.sector 0#9 r.taken ∧
          (t.ps.power = .holdup → Answers t .powerHoldup r.taken s.fp.readBuf.flatten)) ∧
        (s.zu.readOnly = true → staged s.sb.lines = false → s.mp.current = none → t.ps.power = .off) ∧
        (∀ op, s.mp.current = some op → op.requester = .readMiss →
          t.ps.power = .holdup ∧ ∃ p, t.mp.current = some { op with abandoned := p }) ∧
        (s.se.trans = .waitBus →
          t.se.trans = .idle ∧ t.se.reading = none ∧ t.se.motionPending = false ∧ t.se.gaugePending = false) ∧
        (∀ k, s.se.trans = .transfer → s.se.reading = some k → t.ps.power = .holdup →
          t.se.trans = .transfer ∧ t.se.stopping = true ∧ pendingRead t k = pendingRead s k ∧
          pendingRead t k.other = false) ∧
        t.bg = { s.bg with firstTimer := none } ∧ t.sm = { s.sm with rail := .lost, mode := t.sm.mode })) ∧
  (∀ s : State, s.sm.rail = .good → s.ps.power ≠ .off → s.se.handed = [] →
    s.ps.mediaFault = true ∨ (s.ps.power = .starting ∧ s.ps.startPos ≠ .served) →
    ∃ t, exec .brownout s = .next t ∧ t.sm.rail = .lost ∧ (s.mp.current = none → t.ps.power = .off) ∧
      ∀ op, s.mp.current = some op → t.ps = { s.ps with brownedOut := true } ∧ t.mp.current = some op) ∧
  (∀ (status : Byte) (payload : List Byte) (s : State) (op : MediaOp) (step : StartStep), s.mp.current = some op →
    op.requester = .startup step → s.ps.brownedOut = true → s.se.handed = [] →
    status = 0 ∨ (2 ≤ op.attempt ∧ (step = .capacity → 3 ≤ op.attempt)) →
    ∃ t, exec (.mediaOperationComplete status payload) s = .next t ∧
      (step ≠ .invalidate ∨ status ≠ 0 → t.ps.power = .off) ∧
      (step = .invalidate → status = 0 → s.zu.readOnly = false → t.ps.power = .holdup ∧ t.ps.brownedOut = false ∧
        t.se.timersOn = false ∧ (TablesSized s → MotionAtHoldup s t)))

/-- R140 to R142, R180, section 11.6: a brownout with nothing staged, nothing handed over to process first and MP idle
goes straight to SAVE: the context image is formed, each field of its header and body as section 11.6 gives it, and
the first image write, seven sectors at tail offset 17, is issued. R148 to R151: at the end of the second image read
of start-up the restart cause is decided; an image that fits is restored, each block taking its part from the bytes
section 11.6 gives; otherwise the runtime records are rebuilt from the check table and the gauge makes its cold
decision; each zone so rebuilt or restored is a runtime change (R83). R151, R152: the invalidation write follows
unless the header reads EMPTY or the part is read-only, where the first service follows at once. Points the rules
leave open: image fields outside their ranges (log entry 27), an image of an unset gauge (15), UNCERTAIN in a
persisted record (41), a drop recorded during STARTING, which leaves the ring at a restore (42), the total discharged
at a cold decision (44). -/
def Obligations.EmptyStagingSaves : Prop :=
  (∀ s : State, s.sm.rail = .good → s.ps.mediaFault = false → inService s.ps.power = true → s.zu.readOnly = false →
    staged s.sb.lines = false → s.mp.current = none → s.mp.handing = false → s.se.handed = [] →
    ∃ t op, exec .brownout s = .next t ∧ t.ps.power = .holdup ∧ t.ps.phase = some .save ∧ t.mp.current = some op ∧
      op.kind = .write ∧ op.sector = tailBase s + 17 ∧ op.count = 7 ∧ op.requester = .holdup .imageFirst ∧
      t.ps.image.length = 15 ∧ op.data = t.ps.image.take 7 ∧ t.sb = s.sb ∧ t.zu.zones = s.zu.zones ∧
      ImageHeader t t.ps.image.flatten ∧ ImageBody t t.ps.image.flatten) ∧
  (∀ (status : Byte) (payload : List Byte) (s : State) (op : MediaOp) (first : List Byte), s.mp.current = some op →
    op.requester = .startup .imageSecond → s.ps.power = .starting → s.ps.brownedOut = false →
    status = 0 ∨ 2 ≤ op.attempt → s.fp.port ≠ .held → TablesSized s → s.bg.isSet = false →
    s.bg.socReported = false → first = (s.ps.imageRead.getD []).flatten →
    ∃ t im, exec (.mediaOperationComplete status payload) s = .next t ∧
      im = first ++ (sectorsOf 8 payload).flatten ∧
      (status ≠ 0 ∨ s.ps.imageRead = none → t.ps.cause = .imageRejected) ∧
      (status = 0 → s.ps.imageRead ≠ none →
        (field first 0 8 ≠ markerImage → t.ps.cause = .cold) ∧
        (field first 0 8 = markerImage → ¬ImageFits s im → t.ps.cause = .imageRejected) ∧
        (field first 0 8 = markerImage → ImageFits s im → t.ps.cause = .restored)) ∧
      (t.ps.cause = .restored → ImageRestored im s t) ∧ (t.ps.cause ≠ .restored → ColdRebuilt s t) ∧
      (s.zu.readOnly = false → s.ps.imageRead = none ∨ field first 0 8 ≠ markerEmpty →
        InvalidationIssued (.startup .invalidate) s t ∧ t.ps.power = .starting ∧ t.ps.startPos = .invalidate) ∧
      (s.zu.readOnly = true ∨ (s.ps.imageRead ≠ none ∧ field first 0 8 = markerEmpty) → FirstService (RebuildMarks s) s t))

/-- R144: a recovery in phase DRAIN, or in SAVE before the first image write is issued (a read-only part issues none),
resumes service in the SOC-derived state: motion is STILL, polling runs, and the change raises ATTN. R162: FP is IDLE;
that a response not yet sent is dropped with it is read from R162 by inference (log entry 10). That the command lets
time run to the end of the qualification is the model's choice (log entry 2). R151, R152: the success of start-up's
invalidation write is followed by the first service, in the SOC-derived state, with ATTN asserted and the checkpoint
timer started; its second failure is media FAULT, and what start-up has restored or rebuilt is kept. -/
def Obligations.RecoveryResumesService : Prop :=
  (∀ s : State, s.sm.rail = .returning → s.ps.power = .holdup →
    (s.ps.phase = some .drain ∨
      (s.ps.phase = some .save ∧ (s.zu.readOnly = true ∨ s.mp.waiters.holdup = some .imageFirst))) →
    ∃ t, exec .recoveryQualified s = .next t ∧ t.sm.rail = .good ∧ ServiceResumed s t ∧
      ((s.sm.qualStart + 50 - s.uptimeMs).toNat ≤ 2147483648 → t.uptimeMs = s.sm.qualStart + 50)) ∧
  (∀ (status : Byte) (payload : List Byte) (s : State) (op : MediaOp), s.mp.current = some op →
    op.requester = .startup .invalidate → s.ps.power = .starting → s.ps.brownedOut = false →
    s.ps.startPos ≠ .served → s.fp.port ≠ .held →
    (status = 0 → ∃ t, exec (.mediaOperationComplete status payload) s = .next t ∧ FirstService (fun _ => False) s t ∧
      t.bg = s.bg ∧ t.zu = s.zu ∧ t.ps.cause = s.ps.cause ∧ t.ps.mediaFault = s.ps.mediaFault) ∧
    (status ≠ 0 → 2 ≤ op.attempt →
      ∃ t, exec (.mediaOperationComplete status payload) s = .next t ∧ t.ps = { s.ps with mediaFault := true } ∧
        t.bg = s.bg ∧ t.zu = s.zu ∧ t.mm = s.mm ∧ t.ru = s.ru ∧ t.fp = s.fp))

/-- R145: a recovery after the image has been issued sets the phase to INVALIDATE; the power state stays HOLDUP and
the image write in progress goes on. That the command lets time run to the end of the qualification is the model's
choice (log entry 2). The end of the image write then issues the invalidation write, or ends in OFF after a brownout.
The success of the invalidation write resumes service as R144 gives and clears media FAULT; after a brownout the image
is formed afresh and written again. Its second failure is media FAULT in HOLDUP, or OFF after a brownout. R145: a
BROWNOUT in phase INVALIDATE is so noted (in brownedOut) and the operation in progress goes on. That a recovery which
comes before its end takes the brownout back is read from R145 by inference (log entry 11); that a recovery in media
FAULT, and a brownout in the phases DRAIN and SAVE, change the rail state alone is the model's choice (log entries 11
and 46). R136, R143: a brownout in OFF does nothing more. What SE has handed over is discarded at a brownout, as in
HOLDUP and OFF it is anyway (R86, R105). -/
def Obligations.LateRecoveryInvalidates : Prop :=
  (∀ (s : State) (op : MediaOp), s.sm.rail = .returning → s.ps.power = .holdup → s.ps.phase = some .save →
    s.zu.readOnly = false → s.mp.current = some op → s.mp.waiters.holdup ≠ some .imageFirst →
    exec .recoveryQualified s = .next
      { waitUntil (s.sm.qualStart + 50) s with
        sm := { s.sm with rail := .good }
        ps := { s.ps with phase := some .invalidate }
        mp := { s.mp with waiters := { s.mp.waiters with holdup := none } } }) ∧
  (∀ (status : Byte) (payload : List Byte) (s : State) (op : MediaOp), s.mp.current = some op →
    op.requester = .holdup .imageFirst ∨ op.requester = .holdup .imageSecond → s.ps.power = .holdup →
    s.ps.phase = some .invalidate → status = 0 ∨ 2 ≤ op.attempt →
    ∃ t, exec (.mediaOperationComplete status payload) s = .next t ∧
      (s.ps.brownedOut = true → t.ps.power = .off) ∧
      (s.ps.brownedOut = false → InvalidationIssued (.holdup .invalidate) s t ∧
        t = { s with mp := { t.mp with resetPulses := s.mp.resetPulses } })) ∧
  (∀ (status : Byte) (payload : List Byte) (s : State) (op : MediaOp), s.mp.current = some op →
    op.requester = .holdup .invalidate → s.ps.power = .holdup → s.mp.waiters.holdup = none →
    (status = 0 → ∃ t, exec (.mediaOperationComplete status payload) s = .next t ∧
      (s.ps.brownedOut = false → t.ps.mediaFault = false ∧ ServiceResumed s t) ∧
      (s.ps.brownedOut = true → t.ps.brownedOut = false ∧ ImageBegun s t ∧
        (s.zu.readOnly = false → ImageHeader t t.ps.image.flatten ∧ ImageBody t t.ps.image.flatten))) ∧
    (status ≠ 0 → 2 ≤ op.attempt → ∃ t, exec (.mediaOperationComplete status payload) s = .next t ∧
      (s.ps.brownedOut = true → t.ps.power = .off) ∧
      (s.ps.brownedOut = false → t.ps = { s.ps with mediaFault := true } ∧ t.mp.current = none ∧ t.fp = s.fp ∧
        t.se = s.se))) ∧
  (∀ (s : State) (op : MediaOp), s.sm.rail = .good → s.ps.mediaFault = false → s.ps.power = .holdup →
    s.mp.current = some op →
    ∃ t, exec .brownout s = .next t ∧
      (s.ps.phase = some .invalidate → t.ps = { s.ps with brownedOut := true }) ∧
      (s.ps.phase ≠ some .invalidate → t.ps = s.ps) ∧
      t = { s with
        sm := { s.sm with rail := .lost }
        se := { s.se with handed := [] }
        ps := t.ps
        mp := { s.mp with
          waiters := { s.mp.waiters with drain := t.mp.waiters.drain }, starvation := t.mp.starvation } }) ∧
  (∀ s : State, s.sm.rail = .returning → s.ps.power = .holdup → s.ps.phase = some .invalidate →
    (s.ps.mediaFault = false → exec .recoveryQualified s = .next
      { waitUntil (s.sm.qualStart + 50) s with
        sm := { s.sm with rail := .good }, ps := { s.ps with brownedOut := false } }) ∧
    (s.ps.mediaFault = true → exec .recoveryQualified s = .next
      { waitUntil (s.sm.qualStart + 50) s with sm := { s.sm with rail := .good } })) ∧
  (∀ s : State, s.sm.rail = .good → s.ps.power = .off →
    exec .brownout s = .next { s with sm := { s.sm with rail := .lost }, se := { s.se with handed := [] } })

/-- R124: OFFREQ is asserted in CRITICAL alone. R143, R162, R168: the front port is CLOSED exactly in OFF, where no
media operation is in progress. Both hold after every step. -/
def Obligations.StepKeepsPowerOutputs : Prop :=
  ∀ s t : State, OffreqInCritical s → ClosedInOff s → step s = .next t → OffreqInCritical t ∧ ClosedInOff t

/-- R1, R43, R72: the buffer keeps 32 lines of eight data places, the zone unit 64 entries and 64 records. R100, R101:
the ring and the pending records hold at most sixteen records. R167: the starvation count stays from 0 to 4. R1, R17:
every staged line has a run left, and at most one is DRAINING. R156: a port in TAKING or HELD has a WRITE for its
request. R17: the drain request waits exactly while a line has a run to issue and the part is not braced, or is in
HOLDUP. R48: zones that are not UNUSED are aligned to lines, lie wholly below T and share no sector; that takes with
it that a held entry sector has passed validation (R45), that a write is in transfer in NORMAL and LOW alone (R9,
R57), that start-up stands at the step of its operation, that the image and invalidation writes of the hold-up
sequence stand in HOLDUP alone, in phase SAVE or INVALIDATE and on a part not read-only, its requests in HOLDUP alone
and beside no operation of the sequence, and that the front port is CLOSED exactly in OFF, with no operation in
progress (R143). R75: from the image decision on the fill mark of an OPEN zone lies from its base to its end; a
restore, which takes the fill marks of the image as they stand (log entry 27), is left out. All hold after every step.
R9: under the invariant of the zones, a sector that a step takes into a DATA or MAP line lies in no CLOSED zone, nor
in the live window or the image area, and is taken in NORMAL and LOW alone. -/
def Obligations.StepKeepsSized : Prop :=
  ∀ s t : State, step s = .next t →
    (Sized s → Sized t) ∧ (LinesRun s.sb.lines → LinesRun t.sb.lines) ∧ (WriteInTransfer s → WriteInTransfer t) ∧
      (DrainStands s → DrainStands t) ∧ (ZonesStand s → ZonesStand t) ∧
      (ZonesStand s → FillMarksStand s →
        imageDecided s.ps.startPos = true ∨ imageDecided t.ps.startPos = false ∨ t.ps.cause ≠ .restored →
        FillMarksStand t) ∧
      (ZonesStand s → ∀ n, SlotTaken n s t → ¬StagingRefused s n ∧ (s.ps.power = .normal ∨ s.ps.power = .low))

/-- The power-on values meet every invariant that the steps keep. -/
def Obligations.ResetMeetsInvariants : Prop :=
  ModeAgrees State.reset ∧ LimitAgrees State.reset ∧ OffreqInCritical State.reset ∧ ClosedInOff State.reset ∧
    Sized State.reset ∧ SettingsInRange State.reset.zu.settings ∧ LinesRun State.reset.sb.lines ∧
    WriteInTransfer State.reset ∧ DrainStands State.reset ∧ ZonesStand State.reset ∧ FillMarksStand State.reset

/-! ### Write-protect slider (R66, R67) -/

/-- R66: outside OFF a change of WP starts the 20 ms qualification of the new level, or cancels it when the input is
back at the debounced state; nothing but the pin and the timer changes. -/
def Obligations.SliderQualified : Prop :=
  ∀ s : State, s.ps.power ≠ .off →
    (s.pins.wp = s.wc.slider → exec .wpChange s = .next
      { s with
        pins := { s.pins with wp := !s.pins.wp }
        wc := { s.wc with debounce := some { start := s.uptimeMs, level := !s.pins.wp } } }) ∧
    (s.pins.wp ≠ s.wc.slider → exec .wpChange s = .next
      { s with pins := { s.pins with wp := !s.pins.wp }, wc := { s.wc with debounce := none } })

/-- R63, R66, R67, R70: at the expiry the debounced state takes the level; turned on, it ends a WRITE in transfer or
held PROTECTED/SWITCH with the count taken and flag 5, and no other request. That the expiry lets time run to 20 ms
after the timer's start is the model's choice (log entry 2). -/
def Obligations.SliderTakesEffect : Prop :=
  ∀ (s : State) (d : Debounce), s.ps.power ≠ .off → s.wc.debounce = some d →
    ∃ t, exec .wpDebounceExpiry s = .next t ∧ t.wc.slider = d.level ∧ t.wc.debounce = none ∧
      ((d.start + 20 - s.uptimeMs).toNat ≤ 2147483648 → t.uptimeMs = d.start + 20) ∧
      (∀ r, d.level = true → s.fp.req = some r → s.fp.port = .taking ∨ s.fp.port = .held →
        Answers t .protectedSwitch r.taken [] ∧
        Recorded t .protectedSwitch r.code r.count r.sector 16#9 r.taken ∧ t.fp.held = none) ∧
      (d.level = false ∨ (s.fp.port ≠ .taking ∧ s.fp.port ≠ .held) →
        t.fp = s.fp ∧ t.wc.refusal = s.wc.refusal) ∧
      t = { waitUntil (d.start + 20) s with fp := t.fp, wc := t.wc }

/-! ### Sense bus (chapter 8) -/

/-- R130: a tick that finds no read of its kind pending adds one, and one that finds it pending hands over a miss, the
pending read staying; the next tick comes one period later. R131: SE, IDLE, starts the transaction of the read at
once; otherwise the read waits. R106: in HOLDUP and OFF the gauge miss is discarded; that the motion miss is discarded
there too is the model's own, read from R95 by inference (log entry 40). That the command lets time run to its tick is
the model's choice (log entry 2). -/
def Obligations.CadenceTicks : Prop :=
  ∀ s : State, s.se.timersOn = true →
    (∃ t, exec .motionCadence s = .next t ∧ OnlySense (waitUntil s.se.motionDue s) t ∧ 
      t.se.motionPending = true ∧ t.se.motionDue = s.se.motionDue + 2 ∧ t.se.gaugePending = s.se.gaugePending ∧
      (s.se.motionPending = true → HandsOver .motionMiss s t ∧
        t.se = { s.se with motionDue := s.se.motionDue + 2, handed := t.se.handed }) ∧
      (s.se.motionPending = false →
        ReadAdded .motion t.uptimeMs { s.se with motionDue := s.se.motionDue + 2 } t.se)) ∧
    (∃ t, exec .gaugeCadence s = .next t ∧ OnlySense (waitUntil s.se.gaugeDue s) t ∧ t.se.gaugePending = true ∧
      t.se.gaugeDue = s.se.gaugeDue + 250 ∧ t.se.motionPending = s.se.motionPending ∧
      (s.se.gaugePending = true → HandsOver .gaugeMiss s t ∧
        t.se = { s.se with gaugeDue := s.se.gaugeDue + 250, handed := t.se.handed }) ∧
      (s.se.gaugePending = false →
        ReadAdded .gauge t.uptimeMs { s.se with gaugeDue := s.se.gaugeDue + 250 } t.se))

/-- R127: the bytes SE sends in the attempt on the bus, for each device. R129, R131: an attempt that reaches its STOP
without an error hands over its sample and ends its read; its kind leaves the pending set, and SE is IDLE or starts at
once, on the free bus, the read that is pending; none of the five counters changes. The battery monitor's PEC byte
must be the CRC-8 of the transaction's bytes. For byte lists of another length than a read's, the statement is the
model's choice (log entry 22). That a read from before HOLDUP that ends after the recovery leaves its kind pending, as
the recovery has added it afresh, is the model's choice (log entry 45). -/
def Obligations.AttemptSucceeds : Prop :=
  ∀ (k : SenseKind) (bytes : List Byte) (s : State), s.se.trans = .transfer → s.se.reading = some k →
    (k = .gauge → senseByte bytes 6 = crc8 ([0xB4#8, 0x20#8, 0xB5#8] ++ senseData bytes)) →
    (k = .motion → attemptBytes s = [0x4C#8, 0x10#8, 0x4D#8]) ∧
    (k = .gauge → attemptBytes s = [0xB4#8, 0x20#8, 0xB5#8]) ∧
    ∃ t, exec (.attemptComplete (.received bytes)) s = .next t ∧ OnlySense s t ∧ CountersKept s t ∧
      ReadEnds k false s t ∧
      (k = .motion → HandsOver
        (.motionSample (senseValue bytes 0) (senseValue bytes 1) (senseValue bytes 2)) s t) ∧
      (k = .gauge → HandsOver
        (.gaugeSample (senseValue bytes 0) (senseValue bytes 1) (senseValue bytes 2)) s t)

/-- R131, R133 to R135: a failed attempt raises the counter of its kind alone, saturating, and is retried below the
third; the third hands over a miss and ends the read: its kind leaves the pending set, and SE is IDLE or starts the
read that is pending. After a lost arbitration or a stray START the next attempt waits for the bus, otherwise it
begins at once. R134: after polling has stopped the read ends without a miss. That one which ends after the recovery
does so too, without a further attempt, and leaves its kind pending is the model's choice (log entry 45), and so is
what byte lists of another length than a read's give (log entry 22). -/
def Obligations.AttemptFails : Prop :=
  ∀ (how : AttemptEnd) (k : SenseKind) (s : State), s.se.trans = .transfer → s.se.reading = some k →
    (∀ bytes, how = .received bytes →
      k = .gauge ∧ senseByte bytes 6 ≠ crc8 ([0xB4#8, 0x20#8, 0xB5#8] ++ senseData bytes)) →
    ∃ t, exec (.attemptComplete how) s = .next t ∧ OnlySense s t ∧
      t.se.noAck = (if how = .noAck then min 65535 (s.se.noAck + 1) else s.se.noAck) ∧
      t.se.arbLost = (if how = .arbLost then min 65535 (s.se.arbLost + 1) else s.se.arbLost) ∧
      t.se.busError = (if how = .strayStart ∨ how = .strayStop then min 65535 (s.se.busError + 1)
        else s.se.busError) ∧
      (∀ bytes, how = .received bytes → t.se.pecBad = min 65535 (s.se.pecBad + 1)) ∧
      ((∀ bytes, how ≠ .received bytes) → t.se.pecBad = s.se.pecBad) ∧ t.se.timeout = s.se.timeout ∧
      (s.se.stopping = false → s.se.attempt < 3 →
        t.se = { s.se with noAck := t.se.noAck, arbLost := t.se.arbLost, busError := t.se.busError
                           pecBad := t.se.pecBad, attempt := s.se.attempt + 1, trans := t.se.trans
                           since := s.uptimeMs, busBusy := true } ∧
        (how = .arbLost ∨ how = .strayStart → t.se.trans = .waitBus) ∧
        (how ≠ .arbLost → how ≠ .strayStart → t.se.trans = .transfer)) ∧
      (s.se.stopping = false → 3 ≤ s.se.attempt → HandsOver k.miss s t) ∧
      (s.se.stopping = true → t.se.handed = s.se.handed) ∧
      (s.se.stopping = true ∨ 3 ≤ s.se.attempt →
        (how = .arbLost ∨ how = .strayStart → ReadEnds k true s t) ∧
        (how ≠ .arbLost → how ≠ .strayStart → ReadEnds k false s t))

/-- R131, R136 of chapter 8: a wait of 25 ms in WAIT_BUS or TRANSFER fails the attempt TIMEOUT, counts it, adds 1 to
the attempt count below the third, and sends the train; at its end the bus is free and the next attempt begins, or the
read ends with a miss after the third. R134: after polling has stopped it ends without one. R135: the power-on train
is followed by the first polling. That the expiry lets time run to its instant is log entry 2, that the wait in
TRANSFER is counted from the attempt's start log entry 25, that the miss follows the third train log entry 17, that a
read from before HOLDUP whose train ends after the recovery ends quietly and leaves its kind pending log entry 45. -/
def Obligations.TimeoutSendsTrain : Prop :=
  ∀ s : State,
    (s.se.trans = .waitBus ∨ s.se.trans = .transfer →
      ∃ t, exec .senseTimeout s = .next t ∧ OnlySense (waitUntil (s.se.since + 25) s) t ∧
        ((s.se.since + 25 - s.uptimeMs).toNat ≤ 2147483648 → t.uptimeMs = s.se.since + 25) ∧
        t.se = { s.se with trans := .recovery, attempt := t.se.attempt, afterTrain := t.se.afterTrain
                           timeout := min 65535 (s.se.timeout + 1) } ∧
        (s.se.stopping = false → s.se.attempt < 3 →
          t.se.attempt = s.se.attempt + 1 ∧ t.se.afterTrain = .retry) ∧
        (s.se.stopping = false → 3 ≤ s.se.attempt → t.se.attempt = s.se.attempt ∧ t.se.afterTrain = .miss) ∧
        (s.se.stopping = true → t.se.attempt = s.se.attempt ∧ t.se.afterTrain = .quiet)) ∧
    (s.se.trans = .recovery →
      ∃ t, exec .recoveryTrainEnd s = .next t ∧ OnlySense s t ∧ CountersKept s t ∧
        (s.se.afterTrain = .retry →
          t.se = { s.se with trans := .transfer, busBusy := true, since := s.uptimeMs }) ∧
        (∀ k, s.se.afterTrain = .miss → s.se.reading = some k → HandsOver k.miss s t ∧ ReadEnds k false s t) ∧
        (s.se.afterTrain = .powerOn → t.se.trans = .transfer ∧ t.se.reading = some .motion ∧ t.se.attempt = 1 ∧
          t.se.busBusy = true ∧ t.se.since = s.uptimeMs ∧
          t.se.motionPending = true ∧ t.se.gaugePending = true ∧ t.se.timersOn = true ∧
          t.se.motionDue = s.uptimeMs + 2 ∧ t.se.gaugeDue = s.uptimeMs + 250 ∧ t.se.handed = s.se.handed) ∧
        (s.se.afterTrain = .quiet → t.se.handed = s.se.handed ∧
          ∀ k, s.se.reading = some k → ReadEnds k false { s with se := { s.se with stopping := true } } t))

/-- R127, R131: the bus busy indication follows the START and STOP conditions seen; a STOP lets the attempt that waits
for it begin. That one seen while SE is in TRANSFER changes the indication alone is read from R127 by inference (log
entry 38). -/
def Obligations.BusFollowed : Prop :=
  ∀ s : State,
    exec .busStartSeen s = .next { s with se := { s.se with busBusy := true } } ∧
    (s.se.trans ≠ .waitBus → exec .busStopSeen s = .next { s with se := { s.se with busBusy := false } }) ∧
    (s.se.trans = .waitBus → exec .busStopSeen s = .next
      { s with se := { s.se with trans := .transfer, busBusy := true, since := s.uptimeMs } })

/-- R132: at a falling edge of ALERT a gauge read is added when none is pending and 10 ms have passed since the gauge
start time; within them the edge is deferred, and its expiry adds the read; an edge that finds a gauge read pending
does nothing. That the expiry lets time run to its instant is the model's choice (log entry 2). R131: SE, IDLE, starts
the early read at once. -/
def Obligations.AlertAsksEarlyRead : Prop :=
  ∀ s : State, s.se.timersOn = true →
    (s.se.gaugePending = true → exec .alertEdge s = .next s) ∧
    (s.se.gaugePending = false → s.se.gaugeStart = none →
      ∃ t, exec .alertEdge s = .next t ∧ OnlySense s t ∧ t.se.gaugePending = true ∧
        ReadAdded .gauge s.uptimeMs s.se t.se) ∧
    (∀ g, s.se.gaugePending = false → s.se.gaugeStart = some g → 10 ≤ (s.uptimeMs - g).toNat →
      ∃ t, exec .alertEdge s = .next t ∧ OnlySense s t ∧ t.se.gaugePending = true ∧
        ReadAdded .gauge s.uptimeMs s.se t.se) ∧
    (∀ g, s.se.gaugePending = false → s.se.gaugeStart = some g → (s.uptimeMs - g).toNat < 10 →
      exec .alertEdge s = .next { s with se := { s.se with alertDeferred := true } }) ∧
    (∀ g, s.se.alertDeferred = true → s.se.gaugeStart = some g →
      ∃ t, exec .alertDeferExpiry s = .next t ∧ OnlySense (waitUntil (g + 10) s) t ∧ t.se.alertDeferred = false ∧
        t.se.gaugePending = true ∧ t.se.gaugeDue = s.se.gaugeDue ∧
        (s.se.gaugePending = false → ReadAdded .gauge t.uptimeMs { s.se with alertDeferred := false } t.se) ∧
        (s.se.gaugePending = true → t.se = { s.se with alertDeferred := false }))

/-! ### Motion monitor (chapter 6) -/

/-- R96: the fall height of a recorded drop, saturated at 65535, which it reaches from 1829 fall samples on. R97: the
reported peak is the square root of the peak, rounded down, from 0 to 7092 for the magnitudes a sample can have; a
drop recorded before its strike has reported peak 0. -/
def Obligations.DropFigures : Prop :=
  (∀ (o : DropOutcome) (s : State),
    (formDrop o s).height = min 65535 ((s.mm.fallSamples ^ 2 * 1961 + 50000) / 100000) ∧
    (1829 ≤ s.mm.fallSamples → (formDrop o s).height = 65535)) ∧
  (∀ m : Nat, m ≤ 50307075 →
    reportedPeak m ^ 2 ≤ m ∧ m < (reportedPeak m + 1) ^ 2 ∧ reportedPeak m ≤ 7092) ∧
  (∀ (o : DropOutcome) (s : State), s.mm.motion ≠ .falling → (formDrop o s).peak = reportedPeak s.mm.peak) ∧
  (∀ (o : DropOutcome) (s : State), s.mm.motion = .falling → (formDrop o s).peak = 0)

/-- R86, R89 to R94: sixteen consecutive in-band samples leave DISABLED, a complete free-fall run enters FALLING, a
low sample there counts up to a saturation that distrusts the sensor, a sample at or above tf² ends the fall in
STRUCK, and the twentieth sample of the window sets the kind from the peak and enters SETTLING; there a sample is
counted and ends the drop by a bounce, a complete settle run or 2500 samples, tested in this order. In HOLDUP and OFF
a sample is discarded. R10, R27: leaving DISABLED may change L, and the held sector of a WRITE is then tried again; an
admitted MAP sector is applied then (R39, R49). R175: a recorded drop puts the sectors it changes into the changed
set. -/
def Obligations.MotionSampleMoves : Prop :=
  ∀ (x y z : BitVec 16) (s : State),
    (s.ps.power = .holdup ∨ s.ps.power = .off →
      exec (.motionSample x y z) s = .next
        { s with se := { s.se with handed := s.se.handed.erase (.motionSample x y z) } }) ∧
    (s.ps.power ≠ .holdup → s.ps.power ≠ .off →
      ∃ t, exec (.motionSample x y z) s = .next t ∧ t.mm.stale = 0 ∧
        (s.fp.port ≠ .held → OnlyMotion (.motionSample x y z) s t) ∧
        (s.mm.motion = .disabled → 36864 ≤ magnitude x y z → magnitude x y z ≤ 102400 → 15 ≤ s.mm.good →
          t.mm.motion = .still ∧ t.mm.good = 0 ∧ t.sm.limit = min t.sm.budget 128 ∧ t.ru.attn = true ∧
          (s.fp.port = .held → t.sm.limit ≠ s.sm.limit → s.ru.pending = [] → TablesSized s →
            HoldRetried { s with sm := t.sm } t ∧ MapRetried { s with sm := t.sm } t)) ∧
        (s.mm.motion = .disabled → 36864 ≤ magnitude x y z → magnitude x y z ≤ 102400 → s.mm.good < 15 →
          t.mm.motion = .disabled ∧ t.mm.good = s.mm.good + 1) ∧
        (s.mm.motion = .disabled → magnitude x y z < 36864 ∨ 102400 < magnitude x y z →
          t.mm.motion = .disabled ∧ t.mm.good = 0) ∧
        (s.mm.motion = .still → magnitude x y z < s.zu.settings.tf ^ 2 → s.zu.settings.nf ≤ s.mm.ffRun + 1 →
          t.mm.motion = .falling ∧ t.mm.fallSamples = s.mm.ffRun + 1 ∧ t.mm.drop.supplyDip = false) ∧
        (s.mm.motion = .still → magnitude x y z < s.zu.settings.tf ^ 2 → s.mm.ffRun + 1 < s.zu.settings.nf →
          t.mm.motion = .still ∧ t.mm.ffRun = s.mm.ffRun + 1) ∧
        (s.mm.motion = .still → s.zu.settings.tf ^ 2 ≤ magnitude x y z → 0 < s.zu.settings.nf →
          t.mm.motion = .still ∧ t.mm.ffRun = 0) ∧
        (s.mm.motion = .falling → magnitude x y z < s.zu.settings.tf ^ 2 → s.mm.fallSamples + 1 < 4095 →
          t.mm.motion = .falling ∧ t.mm.fallSamples = s.mm.fallSamples + 1 ∧ t.mm.log = s.mm.log) ∧
        (s.mm.motion = .falling → magnitude x y z < s.zu.settings.tf ^ 2 → 4095 ≤ s.mm.fallSamples + 1 →
          t.mm.motion = .disabled ∧ t.mm.good = 0 ∧ t.ru.attn = true ∧ t.sm.limit = min (min t.sm.budget 128) 8 ∧
          (∀ p, DropChanges s p → p ∈ t.ru.changed ∨ RecordStaged t p) ∧
          ∃ r, t.mm.log = appendRing r s.mm.log ∧ r.outcome = .sensorLost ∧ r.kind = .soft ∧ r.peak = 0 ∧
            r.fallSamples = s.mm.fallSamples + 1) ∧
        (s.mm.motion = .falling → s.zu.settings.tf ^ 2 ≤ magnitude x y z →
          t.mm.motion = .struck ∧ t.mm.peak = magnitude x y z ∧ t.mm.window = 1 ∧
          t.mm.fallSamples = s.mm.fallSamples ∧ t.mm.drop.socAtStrike = s.bg.soc ∧
          t.mm.drop.strikeUptime = s.uptimeSec ∧ t.mm.drop.strikeWall = wallSeconds s) ∧
        (s.mm.motion = .struck → t.mm.peak = max s.mm.peak (magnitude x y z) ∧
          t.mm.window = s.mm.window + 1 ∧ t.mm.log = s.mm.log ∧
          (s.mm.window < 19 → t.mm.motion = .struck) ∧
          (19 ≤ s.mm.window → t.mm.motion = .settling ∧ t.mm.ffRun = 0 ∧ t.mm.settleRun = 0 ∧
            t.mm.settleElapsed = 0 ∧ (s.zu.settings.ti ^ 2 < t.mm.peak → t.mm.drop.kind = .impact) ∧
            (t.mm.peak ≤ s.zu.settings.ti ^ 2 → t.mm.drop.kind = .soft))) ∧
        (∀ run rest, s.mm.motion = .settling →
          run = (if magnitude x y z < s.zu.settings.tf ^ 2 then s.mm.ffRun + 1 else 0) →
          rest = (if 36864 ≤ magnitude x y z ∧ magnitude x y z ≤ 102400 then s.mm.settleRun + 1 else 0) →
          (s.zu.settings.nf ≤ run → t.mm.motion = .falling ∧ t.mm.fallSamples = run ∧
            t.mm.drop.supplyDip = false ∧ DropEnds .bounced s t) ∧
          (run < s.zu.settings.nf → s.zu.settings.settleMs / 2 ≤ rest →
            t.mm.motion = .still ∧ t.mm.ffRun = 0 ∧ DropEnds .settled s t) ∧
          (run < s.zu.settings.nf → rest < s.zu.settings.settleMs / 2 → 2500 ≤ s.mm.settleElapsed + 1 →
            t.mm.motion = .still ∧ t.mm.ffRun = 0 ∧ DropEnds .unsettled s t) ∧
          (run < s.zu.settings.nf → rest < s.zu.settings.settleMs / 2 → s.mm.settleElapsed + 1 < 2500 →
            t.mm = { s.mm with stale := 0, ffRun := run, settleRun := rest, settleElapsed := s.mm.settleElapsed + 1
                               pendingRecs := t.mm.pendingRecs })))

/-- R96 to R101: recording a drop appends its record, with the next sequence, its outcome, and the kind, height, peak,
times and SOC of the strike, or of the recording before a strike, as the newest of the log and of the records not yet
persisted, each of which gives up its oldest record where it holds sixteen, and counts it (that a drop recorded while
STRUCK by a miss or a brownout is decided with the ti in force at the recording is the model's choice, log entry 48).
R77: every OPEN zone counts the drop, no other zone's record changes, and the record names their number and the lowest
four of them, with 255 in each unused place. R173, R175: offset 12 and the check sectors of the OPEN zones, and no
other sectors, are marked and join the changed set. -/
def Obligations.DropRecorded : Prop :=
  ∀ (o : DropOutcome) (s : State), TablesSized s →
    (s.mm.log.length < 16 → (recordDrop o s).mm.log = s.mm.log ++ [formDrop o s]) ∧
    (16 ≤ s.mm.log.length → (recordDrop o s).mm.log = s.mm.log.drop 1 ++ [formDrop o s]) ∧
    (s.mm.pendingRecs.length < 16 → (recordDrop o s).mm.pendingRecs = s.mm.pendingRecs ++ [formDrop o s]) ∧
    (16 ≤ s.mm.pendingRecs.length →
      (recordDrop o s).mm.pendingRecs = s.mm.pendingRecs.drop 1 ++ [formDrop o s]) ∧
    (formDrop o s).sequence = (s.mm.lastSeq + 1) % 65536 ∧ (formDrop o s).outcome = o ∧
    (formDrop o s).fallSamples = s.mm.fallSamples ∧ (formDrop o s).supplyDip = s.mm.drop.supplyDip ∧
    (bracedState s.mm.motion = true → RecordOfDrop o s (formDrop o s)) ∧
    (∀ zs : List Nat, zs = (List.range 64).filter (fun k => (zoneAt s k).state == .opened) →
      (formDrop o s).zoneCount = zs.length ∧ (formDrop o s).zones.length = 4 ∧
      ∀ n, n < 4 → (formDrop o s).zones[n]? = some (zs.getD n 255)) ∧
    (recordDrop o s).mm.lastSeq = (s.mm.lastSeq + 1) % 65536 ∧
    (recordDrop o s).mm.total = min 65535 (s.mm.total + 1) ∧ (recordDrop o s).ru.attn = true ∧
    (∀ p, p ∈ (recordDrop o s).ru.pending ↔ p ∈ s.ru.pending ∨ DropChanges s p) ∧
    (∀ p, p ∈ (recordDrop o s).ru.changed ↔ p ∈ s.ru.changed ∨ DropChanges s p) ∧
    (∀ k, k < 64 → (zoneAt s k).state = .opened →
      (runtimeAt (recordDrop o s) k).drops = min 255 ((runtimeAt s k).drops + 1) ∧
      (runtimeAt (recordDrop o s) k).worstPeak = max (runtimeAt s k).worstPeak (formDrop o s).peak) ∧
    (∀ k, k < 64 → (zoneAt s k).state ≠ .opened → runtimeAt (recordDrop o s) k = runtimeAt s k)

/-- R87: a miss raises the stale count and moves no run; the eighth in a row enters DISABLED, caps L at 8, raises ATTN
and records a drop in progress SENSOR_LOST, which puts the sectors it changes into the changed set (R175). -/
def Obligations.MotionMissDisables : Prop :=
  ∀ s : State, s.ps.power ≠ .holdup → s.ps.power ≠ .off →
    ∃ t, exec .motionMiss s = .next t ∧ t.mm.stale = s.mm.stale + 1 ∧
      (s.fp.port ≠ .held → OnlyMotion .motionMiss s t) ∧
      (s.mm.motion = .disabled → t.mm.motion = .disabled ∧ t.mm.good = 0 ∧ t.mm.log = s.mm.log) ∧
      (s.mm.motion ≠ .disabled → s.mm.stale < 7 → t.mm.motion = s.mm.motion ∧ t.mm.ffRun = s.mm.ffRun ∧
        t.mm.settleRun = s.mm.settleRun ∧ t.mm.window = s.mm.window ∧ t.mm.log = s.mm.log) ∧
      (s.mm.motion ≠ .disabled → 7 ≤ s.mm.stale → t.mm.motion = .disabled ∧ t.mm.good = 0 ∧
        t.sm.limit = min (min t.sm.budget 128) 8 ∧ t.ru.attn = true ∧
        (bracedState s.mm.motion = true → (∃ r, t.mm.log = appendRing r s.mm.log ∧ r.outcome = .sensorLost) ∧
          ∀ p, DropChanges s p → p ∈ t.ru.changed ∨ RecordStaged t p) ∧
        (bracedState s.mm.motion = false → t.mm.log = s.mm.log))

/-! ### Battery gauge (chapter 7) -/

/-- R115: the per-mille of a voltage by the table of eleven points, and the anchored RC at its three uses: the rest
anchor, the re-anchor after UNKNOWN and the first sample of a cold start. -/
def Obligations.VoltageTable : Prop :=
  (∀ v : Nat, v < 3300 → perMille v = 0) ∧ (∀ v : Nat, 4150 ≤ v → perMille v = 1000) ∧
  (∀ p ∈ [(0, 3300, 3550), (1, 3550, 3640), (2, 3640, 3690), (3, 3690, 3730), (4, 3730, 3770), (5, 3770, 3820),
      (6, 3820, 3880), (7, 3880, 3950), (8, 3950, 4040), (9, 4040, 4150)],
    ∀ v : Nat, p.2.1 ≤ v → v < p.2.2 →
      perMille v = 100 * p.1 + 100 * (v - p.2.1) / (p.2.2 - p.2.1)) ∧
  (∀ (design : Nat) (x : GaugeSample) (g : Gauge),
    (g.establish design x).rc = (g.establish design x).fcc * perMille x.v.toNat / 1000 ∧
    (g.reAnchor design x).rc = (g.reAnchor design x).fcc * perMille x.v.toNat / 1000 ∧
    (-20 < x.i → x.i < 20 → 0 ≤ x.t → 239 ≤ g.restRun →
      (g.restAnchor x).rc = g.fcc * perMille x.v.toNat / 1000))

/-- R111: the bands and their factors; the band moves to the warmer one at or above the edge plus 10 tenths and to the
colder one below the edge minus 10, through every edge on the way and no farther. -/
def Obligations.BandHysteresis : Prop :=
  (∀ t : Int, (t < -200 → bandByTable t = 1) ∧ (-200 ≤ t → t ≤ -101 → bandByTable t = 2) ∧
    (-100 ≤ t → t ≤ -1 → bandByTable t = 3) ∧ (0 ≤ t → t ≤ 99 → bandByTable t = 4) ∧
    (100 ≤ t → bandByTable t = 5)) ∧
  [1, 2, 3, 4, 5].map bandFactor = [154, 179, 205, 230, 256] ∧
  [1, 2, 3, 4].map bandEdge = [-200, -100, 0, 100] ∧
  (∀ (design : Nat) (x : GaugeSample) (g : Gauge), (g.testBand design x).band = nextBand g.band x.t) ∧
  ∀ (b : Nat) (t : Int), 1 ≤ b → b ≤ 5 →
    1 ≤ nextBand b t ∧ nextBand b t ≤ 5 ∧
    (∀ j, b ≤ j → j < nextBand b t → bandEdge j + 10 ≤ t) ∧
    (∀ j, nextBand b t ≤ j → j < b → t < bandEdge j - 10) ∧
    (b ≤ nextBand b t → nextBand b t < 5 → t < bandEdge (nextBand b t) + 10) ∧
    (nextBand b t ≤ b → 1 < nextBand b t → bandEdge (nextBand b t - 1) - 10 ≤ t)

/-- R112: a rescale keeps SOC: with s from 0 to 100 and an FCC_eff of the part's range, the RC that the rule leaves
gives the same SOC again. -/
def Obligations.RescaleKeepsSoc : Prop :=
  ∀ rc soc old new fcc : Nat, 433125000 ≤ fcc → 0 < old → soc ≤ 100 →
    socOf (rescaleCharge rc soc old new fcc) fcc = soc

/-- R105: in HOLDUP and OFF a sample is discarded. R119: before start-up's decision, UNKNOWN clear, it is clamped,
stored as the last good sample with the stale count 0, and processed no further. R119: the first sample after the cold
decision establishes RC: band by the table, RC from the voltage table, Iavg the sample's I, UNCERTAIN set (reported
with ATTN), the gauge set. R107: the first sample while UNKNOWN is set re-anchors in the same way, with the band by
the hysteresis test from the band held (by the table where none is held: log entry 36), clears UNKNOWN and STALE, and
the write mode is selected anew (R28). R78: at a change of SOC, the first one after power-on among them, every OPEN
zone takes a lower SOC into its minimum, and no other runtime record changes; R110, R175: the gauge record, and the
check sector of each zone so lowered, join the changed set, and no other sector does. R120, R122: the SOC hand-over
then moves the power state. R9, R12, R65: where it becomes CRITICAL, a write in transfer or held ends POWER/CRITICAL;
a held sector otherwise goes on being held (stated where no RECORD line is staged, whose merge could try it again). -/
def Obligations.SampleEstablishes : Prop :=
  (∀ (v i t : BitVec 16) (s : State), s.ps.power = .holdup ∨ s.ps.power = .off →
    exec (.gaugeSample v i t) s =
      .next { s with se := { s.se with handed := s.se.handed.erase (.gaugeSample v i t) } }) ∧
  (∀ (v i t : BitVec 16) (s : State), s.ps.power ≠ .holdup → s.ps.power ≠ .off → s.bg.isSet = false →
    s.bg.flagUnknown = false → imageDecided s.ps.startPos = false →
    ∃ u x, exec (.gaugeSample v i t) s = .next u ∧ x.v = max 0 (min 5000 (v.toNat : Int)) ∧
      x.i = max (-8000) (min 8000 i.toInt) ∧ x.t = max (-400) (min 850 t.toInt) ∧ x.arrived = s.uptimeMs ∧
      OnlyDrainStarted s.sb.lines u.sb.lines ∧
      u = { s with
        bg := { s.bg with stale := 0, last := some x }
        sb := { s.sb with lines := u.sb.lines }, mp := { u.mp with resetPulses := s.mp.resetPulses }
        se := { s.se with handed := s.se.handed.erase (.gaugeSample v i t) } }) ∧
  ∀ (v i t : BitVec 16) (s : State), s.ps.power ≠ .holdup → s.ps.power ≠ .off → HoldUndisturbed s →
    (s.bg.isSet = false → s.bg.flagUnknown = false → imageDecided s.ps.startPos = true →
      ∃ u x, exec (.gaugeSample v i t) s = .next u ∧ OnlyGauge (.gaugeSample v i t) s u ∧ u.bg.last = some x ∧
        x.v = max 0 (min 5000 (v.toNat : Int)) ∧ x.i = max (-8000) (min 8000 i.toInt) ∧
        x.t = max (-400) (min 850 t.toInt) ∧ x.arrived = s.uptimeMs ∧
        u.bg.isSet = true ∧ u.bg.flagUncertain = true ∧ u.bg.band = bandByTable x.t ∧
        u.bg.fcc = s.zu.settings.design * 3600000 * bandFactor (bandByTable x.t) / 256 ∧
        u.bg.rc = u.bg.fcc * perMille x.v.toNat / 1000 ∧ u.bg.iavg = x.i ∧ u.bg.intPoint = s.uptimeMs ∧
        u.bg.soc = u.bg.rc * 100 / u.bg.fcc ∧ u.bg.stale = 0 ∧ u.bg.firstTimer = none ∧ u.bg.total = s.bg.total ∧
        (s.bg.flagUncertain = false → u.ru.attn = true) ∧ PowerFollows false s u ∧ PowerReported s u ∧
        HoldGoesOn s u ∧ (TablesSized s → GaugeSeen s u)) ∧
    (s.bg.flagUnknown = true →
      ∃ u x, exec (.gaugeSample v i t) s = .next u ∧ OnlyGauge (.gaugeSample v i t) s u ∧ u.bg.last = some x ∧
        x.v = max 0 (min 5000 (v.toNat : Int)) ∧ x.i = max (-8000) (min 8000 i.toInt) ∧
        x.t = max (-400) (min 850 t.toInt) ∧ x.arrived = s.uptimeMs ∧
        u.bg.flagUnknown = false ∧ u.bg.flagStale = false ∧ u.bg.flagUncertain = true ∧ u.bg.isSet = true ∧
        (1 ≤ s.bg.band → u.bg.band = nextBand s.bg.band x.t) ∧ (s.bg.band = 0 → u.bg.band = bandByTable x.t) ∧
        u.bg.fcc = s.zu.settings.design * 3600000 * bandFactor u.bg.band / 256 ∧
        u.bg.rc = u.bg.fcc * perMille x.v.toNat / 1000 ∧ u.bg.iavg = x.i ∧ u.bg.restRun = 0 ∧ u.bg.emptyRun = 0 ∧
        u.bg.fullRun = 0 ∧ u.bg.intPoint = s.uptimeMs ∧ u.bg.soc = u.bg.rc * 100 / u.bg.fcc ∧ u.bg.stale = 0 ∧
        u.bg.firstTimer = none ∧ u.bg.total = s.bg.total ∧ u.ru.attn = true ∧
        ModeAgrees u ∧ PowerFollows false s u ∧ PowerReported s u ∧ HoldGoesOn s u ∧
        (TablesSized s → GaugeSeen s u))

/-- R105, R108, R110, R113, R114: a sample of a set gauge, in its band and meeting no anchor's condition (a discharge
of 20 mA or more at or above the cut-off voltage), lowers RC by the integrated charge, never below 0, and moves the
average. R105, R112: every sample of a set gauge integrates its current, charging or discharging, clamped to 0 and
FCC_eff; where it changes the band, FCC_eff is recomputed and RC rescaled. R116, R117: a sample that completes the
empty run leaves RC 0, one that completes the full run FCC_eff, one that completes the rest run the voltage table's
charge, and clears UNCERTAIN; one that completes none counts. R120, R122: the SOC hand-over, with an empty anchor
report, moves the power state and reports it. R78: at a change of SOC every OPEN zone takes a lower SOC into its
minimum, and no other runtime record changes; R110, R175: a gauge change puts the gauge record, and a lowered minimum
the zone's check sector, into the changed set, and nothing else joins it. R9, R12, R65: where it becomes CRITICAL, a
write in transfer or held ends POWER/CRITICAL; a held sector otherwise goes on being held (stated where no RECORD line
is staged, whose merge could try it again). In any state, the sample with which a held write meets CRITICAL ends it
so. -/
def Obligations.SampleIntegrates : Prop :=
  (∀ (v i t : BitVec 16) (s : State) (x : GaugeSample), s.ps.power ≠ .holdup → s.ps.power ≠ .off →
    HoldUndisturbed s → s.bg.isSet = true → s.bg.flagUnknown = false → x = clampSample v i t s.uptimeMs →
    20 ≤ x.i → (s.zu.settings.cutoff : Int) ≤ x.v → nextBand s.bg.band x.t = s.bg.band → s.bg.rc ≤ s.bg.fcc →
    ∃ u dt, exec (.gaugeSample v i t) s = .next u ∧ OnlyGauge (.gaugeSample v i t) s u ∧
      dt = max 1 (min 1000 (s.uptimeMs - s.bg.intPoint).toNat) ∧
      u.bg = { s.bg with
        rc := s.bg.rc - x.i.toNat * dt
        intPoint := s.uptimeMs
        iavg := s.bg.iavg + (x.i - s.bg.iavg).tdiv 16
        total := min 4294967295 (s.bg.total + (s.bg.residue + x.i.toNat * dt) / 3600000)
        residue := (s.bg.residue + x.i.toNat * dt) % 3600000
        last := some x
        stale := 0, restRun := 0, emptyRun := 0, fullRun := 0, flagStale := false
        soc := (s.bg.rc - x.i.toNat * dt) * 100 / s.bg.fcc
        runtime := runtimeOf (s.bg.rc - x.i.toNat * dt) (s.bg.iavg + (x.i - s.bg.iavg).tdiv 16)
        socReported := true }) ∧
  (∀ (v i t : BitVec 16) (s : State) (x : GaugeSample), s.ps.power ≠ .holdup → s.ps.power ≠ .off →
    HoldUndisturbed s → s.bg.isSet = true → s.bg.flagUnknown = false → x = clampSample v i t s.uptimeMs →
    ∃ (u : State) (dt rc : Nat), exec (.gaugeSample v i t) s = .next u ∧
      OnlyGauge (.gaugeSample v i t) s u ∧ PowerReported s u ∧ HoldGoesOn s u ∧ (TablesSized s → GaugeSeen s u) ∧
      dt = max 1 (min 1000 (s.uptimeMs - s.bg.intPoint).toNat) ∧
      (rc : Int) = max 0 (min (s.bg.fcc : Int) ((s.bg.rc : Int) - x.i * (dt : Int))) ∧
      u.bg.intPoint = s.uptimeMs ∧ u.bg.last = some x ∧ u.bg.stale = 0 ∧
      u.bg.iavg = s.bg.iavg + (x.i - s.bg.iavg).tdiv 16 ∧
      u.bg.total = min 4294967295 (s.bg.total + (s.bg.residue + (x.i * (dt : Int)).toNat) / 3600000) ∧
      u.bg.residue = (s.bg.residue + (x.i * (dt : Int)).toNat) % 3600000 ∧
      u.bg.band = nextBand s.bg.band x.t ∧ (u.bg.band = s.bg.band → u.bg.fcc = s.bg.fcc) ∧
      (u.bg.band ≠ s.bg.band → u.bg.fcc = s.zu.settings.design * 3600000 * bandFactor u.bg.band / 256) ∧
      (¬RestCompletes s x → ¬EmptyCompletes s x → ¬FullCompletes s x → u.bg.flagUncertain = s.bg.flagUncertain ∧
        (u.bg.band = s.bg.band → u.bg.rc = rc) ∧
        (u.bg.band ≠ s.bg.band → u.bg.rc =
          rescaleCharge rc (rc * 100 / s.bg.fcc) (bandFactor s.bg.band) (bandFactor u.bg.band) u.bg.fcc)) ∧
      u.bg.runtime = (if u.bg.iavg < 10 then 65535 else min 65534 (u.bg.rc / (u.bg.iavg.toNat * 60000))) ∧
      u.bg.flagStale = false ∧ u.bg.flagUnknown = false ∧ u.bg.soc = u.bg.rc * 100 / u.bg.fcc ∧
      (RestCompletes s x ∨ EmptyCompletes s x ∨ FullCompletes s x →
        u.bg.flagUncertain = false ∧ (s.bg.flagUncertain = true → u.ru.attn = true)) ∧
      (EmptyCompletes s x → u.bg.rc = 0 ∧ u.bg.soc = 0 ∧ u.bg.emptyRun = 0 ∧ PowerFollows true s u) ∧
      (FullCompletes s x → u.bg.rc = u.bg.fcc ∧ u.bg.fullRun = 0) ∧
      (RestCompletes s x → u.bg.restRun = 0 ∧
        (¬EmptyCompletes s x → ¬FullCompletes s x → u.bg.rc = u.bg.fcc * perMille x.v.toNat / 1000)) ∧
      (¬EmptyCompletes s x → PowerFollows false s u ∧
        u.bg.emptyRun = (if x.v < (s.zu.settings.cutoff : Int) ∧ 0 < x.i then s.bg.emptyRun + 1 else 0)) ∧
      (¬FullCompletes s x →
        u.bg.fullRun = (if 4150 ≤ x.v ∧ -50 < x.i ∧ x.i ≤ 0 then s.bg.fullRun + 1 else 0)) ∧
      (¬RestCompletes s x →
        u.bg.restRun = (if -20 < x.i ∧ x.i < 20 ∧ 0 ≤ x.t then s.bg.restRun + 1 else 0))) ∧
  (∀ (v i t : BitVec 16) (s : State) (r : Request), s.ps.power ≠ .holdup → s.ps.power ≠ .off →
    s.fp.port = .taking ∨ s.fp.port = .held → s.fp.req = some r →
    ∃ u, exec (.gaugeSample v i t) s = .next u ∧
      (s.ps.power ≠ .critical → u.ps.power = .critical →
        Answers u .powerCritical r.taken [] ∧ Recorded u .powerCritical r.code r.count r.sector 4#9 r.taken))

/-- R106, R107: a miss breaks the anchor runs and is counted; while the gauge is not set or UNKNOWN nothing more
happens, and in HOLDUP and OFF it is discarded. Of a set gauge the first three do nothing more, the fourth alone sets
STALE, the fourth to thirty-ninth integrate the last good I (the restored Iavg where no sample has come since power-
on), count it into the total discharged (R110) and recompute SOC and runtime (R113, R114); the fortieth sets UNKNOWN
and selects WRITE_THROUGH. R120, R122: the SOC hand-over of an integration at a miss moves the power state and reports
it; the other misses move none. R78, R110, R175: the minima of the OPEN zones follow a change of SOC, and the changed
set a gauge change and a lowered minimum, as at a sample. R9, R12, R65: where it becomes CRITICAL, a write in transfer
or held ends POWER/CRITICAL; a held sector otherwise goes on being held (stated where no RECORD line is staged, whose
merge could try it again). -/
def Obligations.GaugeMissCounts : Prop :=
  (∀ s : State, s.ps.power ≠ .holdup → s.ps.power ≠ .off → HoldUndisturbed s → s.bg.isSet = true →
    s.bg.flagUnknown = false →
    ∃ t, exec .gaugeMiss s = .next t ∧ OnlyGauge .gaugeMiss s t ∧ HoldGoesOn s t ∧ t.bg.stale = s.bg.stale + 1 ∧
      (TablesSized s → ChangedBy (GaugePuts s t) (fun _ => t.ps.power ≠ s.ps.power) s t) ∧
      (TablesSized s → 3 ≤ s.bg.stale → s.bg.stale < 39 → MinSocFollows s t) ∧
      (s.bg.stale < 3 ∨ 39 ≤ s.bg.stale → t.zu = s.zu) ∧
      t.bg.restRun = 0 ∧ t.bg.emptyRun = 0 ∧ t.bg.fullRun = 0 ∧ t.bg.iavg = s.bg.iavg ∧ t.bg.band = s.bg.band ∧
      t.bg.fcc = s.bg.fcc ∧ t.bg.last = s.bg.last ∧ t.bg.flagUncertain = s.bg.flagUncertain ∧
      (s.bg.stale < 3 ∨ 40 ≤ s.bg.stale →
        t.bg = { s.bg with stale := s.bg.stale + 1, restRun := 0, emptyRun := 0, fullRun := 0 }) ∧
      (s.bg.stale < 3 ∨ 39 ≤ s.bg.stale → t.ps.power = s.ps.power) ∧
      (s.bg.stale = 3 → t.bg.flagStale = true ∧ (s.bg.flagStale = false → t.ru.attn = true)) ∧
      (s.bg.stale ≠ 3 → t.bg.flagStale = s.bg.flagStale) ∧
      (3 ≤ s.bg.stale → s.bg.stale < 39 → t.bg.flagUnknown = false ∧
        t.bg.intPoint = s.uptimeMs ∧ PowerFollows false s t ∧ PowerReported s t ∧
        t.bg.soc = t.bg.rc * 100 / t.bg.fcc ∧
        t.bg.runtime = (if t.bg.iavg < 10 then 65535 else min 65534 (t.bg.rc / (t.bg.iavg.toNat * 60000))) ∧
        ∀ (i : Int) (dt : Nat), (∀ x, s.bg.last = some x → i = x.i) → (s.bg.last = none → i = s.bg.iavg) →
          (s.bg.stale = 3 → dt = max 1 (min 1000 (s.uptimeMs - s.bg.intPoint).toNat)) →
          (s.bg.stale ≠ 3 → dt = 250) →
          (t.bg.rc : Int) = max 0 (min (s.bg.fcc : Int) ((s.bg.rc : Int) - i * (dt : Int))) ∧
          t.bg.total = min 4294967295 (s.bg.total + (s.bg.residue + (i * (dt : Int)).toNat) / 3600000) ∧
          t.bg.residue = (s.bg.residue + (i * (dt : Int)).toNat) % 3600000) ∧
      (s.bg.stale = 39 → t.bg.flagUnknown = true ∧ t.bg.rc = s.bg.rc ∧ t.bg.soc = s.bg.soc ∧
        t.sm.mode = .writeThrough ∧ t.ru.attn = true)) ∧
  (∀ s : State, s.ps.power ≠ .holdup → s.ps.power ≠ .off → s.bg.isSet = false ∨ s.bg.flagUnknown = true →
    ∃ t, exec .gaugeMiss s = .next t ∧
      t = { s with
        bg := { s.bg with stale := s.bg.stale + 1, restRun := 0, emptyRun := 0, fullRun := 0 }
        sb := { s.sb with lines := t.sb.lines }
        mp := { t.mp with resetPulses := s.mp.resetPulses }
        se := { s.se with handed := s.se.handed.erase .gaugeMiss } }) ∧
  (∀ s : State, s.ps.power = .holdup ∨ s.ps.power = .off →
    exec .gaugeMiss s = .next { s with se := { s.se with handed := s.se.handed.erase .gaugeMiss } })

/-- R118, R119: the first-sample timer's expiry, outside HOLDUP and OFF, sets UNKNOWN, reports it and selects
WRITE_THROUGH; the flag's change is a gauge change, which puts offset 11 into the changed set (R110, R175); in HOLDUP
and OFF it sets nothing. That the expiry lets time run to 1 s after the timer's start is the model's choice (log entry
2). -/
def Obligations.FirstSampleTimerSetsUnknown : Prop :=
  ∀ (s : State) (start : Word), s.bg.firstTimer = some start →
    ∃ t, exec .firstSampleTimerExpiry s = .next t ∧
      ((start + 1000 - s.uptimeMs).toNat ≤ 2147483648 → t.uptimeMs = start + 1000) ∧
      (s.ps.power ≠ .holdup → s.ps.power ≠ .off → s.bg.flagUnknown = false →
        t.bg = { s.bg with firstTimer := none, flagUnknown := true } ∧ t.sm.mode = .writeThrough ∧
        t.ru.attn = true ∧ (∀ o, o ∈ t.ru.changed ↔ o = 11 ∨ o ∈ s.ru.changed)) ∧
      (s.bg.flagUnknown = true → t.ru = s.ru) ∧
      (s.ps.power = .holdup ∨ s.ps.power = .off →
        t = { waitUntil (start + 1000) s with bg := { s.bg with firstTimer := none } }) ∧
      t = { waitUntil (start + 1000) s with
        bg := t.bg, fp := t.fp, sm := { s.sm with mode := t.sm.mode }
        ru := { s.ru with attn := t.ru.attn, changed := t.ru.changed } }

/-! ### Report unit (chapter 11) -/

/-- R175: an expiry of the checkpoint timer sets the next 30 s later; outside service it marks nothing. In service
every sector of the changed set is pending afterwards, or has been admitted into a RECORD line (R174); where no sector
can be admitted the changed set stays and each is pending. R174: with a new mark the pending sectors are offered in
ascending order, up to the first that is not admitted: those below it are staged, formed as section 11.6 gives, and
out of both sets; with a FREE line and the cost test passing the lowest is. In media FAULT they are marked and wait.
That the expiry lets time run to its instant is the model's choice (log entry 2). -/
def Obligations.CheckpointTimerMarks : Prop :=
  ∀ (s : State) (due : Word), s.ru.timerDue = some due →
    ∃ t, exec .checkpointTimerExpiry s = .next t ∧
      (inService s.ps.power = false →
        t = { waitUntil due s with ru := { s.ru with timerDue := some (due + 30000) } }) ∧
      (inService s.ps.power = true → s.fp.port ≠ .held →
        OnlyOffers { waitUntil due s with ru := { s.ru with timerDue := some (due + 30000) } } t ∧
        (∀ o, o ∈ s.ru.changed ∨ o ∈ s.ru.pending → o ∈ t.ru.pending ∨ RecordStaged t o) ∧
        (freeCount s.sb.lines = 0 → (∀ l ∈ s.sb.lines, l.cls ≠ .record) →
          t.ru.changed = s.ru.changed ∧ ∀ o, o ∈ t.ru.pending ↔ o ∈ s.ru.pending ∨ o ∈ s.ru.changed)) ∧
      (inService s.ps.power = true → s.ps.mediaFault = false → HoldUndisturbed s → TablesSized s →
        (∃ o ∈ s.ru.changed, o ∉ s.ru.pending) →
        OffersMade (fun o => o ∈ s.ru.pending ∨ o ∈ s.ru.changed) s t) ∧
      (inService s.ps.power = true → s.ps.mediaFault = true →
        (∀ o, o ∈ t.ru.pending ↔ o ∈ s.ru.pending ∨ o ∈ s.ru.changed) ∧
        OnlyDrainStarted s.sb.lines t.sb.lines ∧
        t = { waitUntil due s with
          ru := { s.ru with timerDue := some (due + 30000), pending := t.ru.pending }
          sb := { s.sb with lines := t.sb.lines }, mp := { t.mp with resetPulses := s.mp.resetPulses } })

/-- R174: an offered sector is admitted exactly when its admission test passes, as it does with a FREE line and the
cost test passing. R101, R174: at its admission a checkpoint sector leaves the pending set and the changed set, and
one of offset 12 takes the records it carries out of MM's pending records. R174, section 11.6: its content is formed
from the state at the admission: the gauge record, the persisted drop log or sixteen check records, each field as
section 11.6 gives it; it is staged in a RECORD line without a zone number. -/
def Obligations.CheckpointAdmitted : Prop :=
  (∀ (o : Nat) (s : State), ((∃ t, offerCheckpoint o s = some t) ↔ Admissible s o) ∧
    (1 ≤ freeCount s.sb.lines → dirtyCost s.sb.lines + 1 ≤ max 1 s.sm.limit → Admissible s o)) ∧
  ∀ (o : Nat) (s t : State), inService s.ps.power = true → offerCheckpoint o s = some t →
    o ∉ t.ru.pending ∧ o ∉ t.ru.changed ∧ (∀ p, p ≠ o → (p ∈ t.ru.pending ↔ p ∈ s.ru.pending)) ∧
    (o = 12 → ∀ r ∈ t.mm.pendingRecs, ∀ l ∈ s.mm.log, r.sequence ≠ l.sequence) ∧
    (o ≠ 12 → t.mm = s.mm) ∧ OnlyOffers s t ∧
    (TablesSized s → ∃ i data, StoredAt i .record s.sb.ageCounter none (tailBase s + o) data s.sb.lines t.sb.lines ∧
      OtherLinesKept i s.sb.lines t.sb.lines ∧ RecordFormed s o data)
end

