-- ==== Sys2Proof/Laws/Basic.lean ====
section
/-! SUPPORT. A fold of steps leaves alone what each step leaves alone. -/

namespace Sys2Proof.Machine

open Sys2Proof

/-- A part of the state that every step of a fold leaves alone is left alone by the fold. -/
theorem foldl_keep {α β : Type} (part : State → β) (f : State → α → State) (h : ∀ s x, part (f s x) = part s)
    (l : List α) (s : State) : part (l.foldl f s) = part s := by
  induction l generalizing s with
  | nil => rfl
  | cons x xs ih => simp [List.foldl_cons, ih, h]

/-- As `foldl_keep`, for the steps made for each zone number. -/
theorem forZones_keep {β : Type} (part : State → β) (f : Nat → State → State) (h : ∀ k s, part (f k s) = part s)
    (n : Nat) (s : State) : part (forZones n f s) = part s :=
  foldl_keep part _ (fun s k => h k s) _ s

end Sys2Proof.Machine
end

