-- ==== Sys2Proof/Laws/FrameOps.lean ====
section
/-! SUPPORT. For each operation of Machine/Ops.lean, the parts of the state it leaves alone, said once. -/

namespace Sys2Proof.Machine

open Sys2Proof

/-- What `passTime` leaves alone. -/
@[simp] theorem passTime_frame (n : Nat) (s : State) :
    (passTime n s).fresh = s.fresh ∧ (passTime n s).pins = s.pins ∧ (passTime n s).fp = s.fp ∧ (passTime n s).wc =
    s.wc ∧ (passTime n s).sb = s.sb ∧ (passTime n s).mp = s.mp ∧ (passTime n s).zu = s.zu ∧ (passTime n s).sm = s.sm
    ∧ (passTime n s).mm = s.mm ∧ (passTime n s).bg = s.bg ∧ (passTime n s).ps = s.ps ∧ (passTime n s).se = s.se ∧
    (passTime n s).ru = s.ru ∧ (passTime n s).pending = s.pending := by
  exact ⟨rfl, rfl, rfl, rfl, rfl, rfl, rfl, rfl, rfl, rfl, rfl, rfl, rfl, rfl⟩

/-- What `waitUntil` leaves alone. -/
@[simp] theorem waitUntil_frame (instant : Word) (s : State) :
    (waitUntil instant s).fresh = s.fresh ∧ (waitUntil instant s).pins = s.pins ∧ (waitUntil instant s).fp = s.fp ∧
    (waitUntil instant s).wc = s.wc ∧ (waitUntil instant s).sb = s.sb ∧ (waitUntil instant s).mp = s.mp ∧ (waitUntil
    instant s).zu = s.zu ∧ (waitUntil instant s).sm = s.sm ∧ (waitUntil instant s).mm = s.mm ∧ (waitUntil instant
    s).bg = s.bg ∧ (waitUntil instant s).ps = s.ps ∧ (waitUntil instant s).se = s.se ∧ (waitUntil instant s).ru =
    s.ru ∧ (waitUntil instant s).pending = s.pending := by
  unfold waitUntil; (repeat' split) <;> simp

/-- What `raiseAttn` leaves alone. -/
@[simp] theorem raiseAttn_frame (s : State) :
    (raiseAttn s).uptimeMs = s.uptimeMs ∧ (raiseAttn s).uptimeSec = s.uptimeSec ∧ (raiseAttn s).msOfSec = s.msOfSec
    ∧ (raiseAttn s).fresh = s.fresh ∧ (raiseAttn s).pins = s.pins ∧ (raiseAttn s).fp = s.fp ∧ (raiseAttn s).wc =
    s.wc ∧ (raiseAttn s).sb = s.sb ∧ (raiseAttn s).mp = s.mp ∧ (raiseAttn s).zu = s.zu ∧ (raiseAttn s).sm = s.sm ∧
    (raiseAttn s).mm = s.mm ∧ (raiseAttn s).bg = s.bg ∧ (raiseAttn s).ps = s.ps ∧ (raiseAttn s).se = s.se ∧
    (raiseAttn s).ru.pending = s.ru.pending ∧ (raiseAttn s).pending = s.pending := by
  exact ⟨rfl, rfl, rfl, rfl, rfl, rfl, rfl, rfl, rfl, rfl, rfl, rfl, rfl, rfl, rfl, rfl, rfl⟩

/-- What `markSector` leaves alone. -/
@[simp] theorem markSector_frame (o : Nat) (s : State) :
    (markSector o s).uptimeMs = s.uptimeMs ∧ (markSector o s).uptimeSec = s.uptimeSec ∧ (markSector o s).msOfSec =
    s.msOfSec ∧ (markSector o s).fresh = s.fresh ∧ (markSector o s).pins = s.pins ∧ (markSector o s).fp = s.fp ∧
    (markSector o s).wc = s.wc ∧ (markSector o s).sb = s.sb ∧ (markSector o s).mp = s.mp ∧ (markSector o s).zu =
    s.zu ∧ (markSector o s).sm = s.sm ∧ (markSector o s).mm = s.mm ∧ (markSector o s).bg = s.bg ∧ (markSector o
    s).ps = s.ps ∧ (markSector o s).se = s.se ∧ (markSector o s).ru.attn = s.ru.attn ∧ (markSector o s).pending =
    s.pending := by
  exact ⟨rfl, rfl, rfl, rfl, rfl, rfl, rfl, rfl, rfl, rfl, rfl, rfl, rfl, rfl, rfl, rfl, rfl⟩

/-- What `markAll` leaves alone. -/
@[simp] theorem markAll_frame (s : State) :
    (markAll s).uptimeMs = s.uptimeMs ∧ (markAll s).uptimeSec = s.uptimeSec ∧ (markAll s).msOfSec = s.msOfSec ∧
    (markAll s).fresh = s.fresh ∧ (markAll s).pins = s.pins ∧ (markAll s).fp = s.fp ∧ (markAll s).wc = s.wc ∧
    (markAll s).sb = s.sb ∧ (markAll s).mp = s.mp ∧ (markAll s).zu = s.zu ∧ (markAll s).sm = s.sm ∧ (markAll s).mm =
    s.mm ∧ (markAll s).bg = s.bg ∧ (markAll s).ps = s.ps ∧ (markAll s).se = s.se ∧ (markAll s).ru.attn = s.ru.attn ∧
    (markAll s).pending = s.pending := by
  exact ⟨rfl, rfl, rfl, rfl, rfl, rfl, rfl, rfl, rfl, rfl, rfl, rfl, rfl, rfl, rfl, rfl, rfl⟩

/-- What `noteChanged` leaves alone. -/
@[simp] theorem noteChanged_frame (o : Nat) (s : State) :
    (noteChanged o s).uptimeMs = s.uptimeMs ∧ (noteChanged o s).uptimeSec = s.uptimeSec ∧ (noteChanged o s).msOfSec
    = s.msOfSec ∧ (noteChanged o s).fresh = s.fresh ∧ (noteChanged o s).pins = s.pins ∧ (noteChanged o s).fp = s.fp
    ∧ (noteChanged o s).wc = s.wc ∧ (noteChanged o s).sb = s.sb ∧ (noteChanged o s).mp = s.mp ∧ (noteChanged o s).zu
    = s.zu ∧ (noteChanged o s).sm = s.sm ∧ (noteChanged o s).mm = s.mm ∧ (noteChanged o s).bg = s.bg ∧ (noteChanged
    o s).ps = s.ps ∧ (noteChanged o s).se = s.se ∧ (noteChanged o s).ru.pending = s.ru.pending ∧ (noteChanged o
    s).ru.attn = s.ru.attn ∧ (noteChanged o s).pending = s.pending := by
  exact ⟨rfl, rfl, rfl, rfl, rfl, rfl, rfl, rfl, rfl, rfl, rfl, rfl, rfl, rfl, rfl, rfl, rfl, rfl⟩

/-- What `runtimeChange` leaves alone. -/
@[simp] theorem runtimeChange_frame (k : Nat) (s : State) :
    (runtimeChange k s).uptimeMs = s.uptimeMs ∧ (runtimeChange k s).uptimeSec = s.uptimeSec ∧ (runtimeChange k
    s).msOfSec = s.msOfSec ∧ (runtimeChange k s).fresh = s.fresh ∧ (runtimeChange k s).pins = s.pins ∧
    (runtimeChange k s).fp = s.fp ∧ (runtimeChange k s).wc = s.wc ∧ (runtimeChange k s).sb = s.sb ∧ (runtimeChange k
    s).mp = s.mp ∧ (runtimeChange k s).zu = s.zu ∧ (runtimeChange k s).sm = s.sm ∧ (runtimeChange k s).mm = s.mm ∧
    (runtimeChange k s).bg = s.bg ∧ (runtimeChange k s).ps = s.ps ∧ (runtimeChange k s).se = s.se ∧ (runtimeChange k
    s).ru.pending = s.ru.pending ∧ (runtimeChange k s).ru.attn = s.ru.attn ∧ (runtimeChange k s).pending = s.pending := by
  exact ⟨rfl, rfl, rfl, rfl, rfl, rfl, rfl, rfl, rfl, rfl, rfl, rfl, rfl, rfl, rfl, rfl, rfl, rfl⟩

/-- What `setRuntime` leaves alone. -/
@[simp] theorem setRuntime_frame (k : Nat) (r : Runtime) (s : State) :
    (setRuntime k r s).uptimeMs = s.uptimeMs ∧ (setRuntime k r s).uptimeSec = s.uptimeSec ∧ (setRuntime k r
    s).msOfSec = s.msOfSec ∧ (setRuntime k r s).fresh = s.fresh ∧ (setRuntime k r s).pins = s.pins ∧ (setRuntime k r
    s).fp = s.fp ∧ (setRuntime k r s).wc = s.wc ∧ (setRuntime k r s).sb = s.sb ∧ (setRuntime k r s).mp = s.mp ∧
    (setRuntime k r s).zu.settings = s.zu.settings ∧ (setRuntime k r s).zu.zones = s.zu.zones ∧ (setRuntime k r
    s).sm = s.sm ∧ (setRuntime k r s).mm = s.mm ∧ (setRuntime k r s).bg = s.bg ∧ (setRuntime k r s).ps = s.ps ∧
    (setRuntime k r s).se = s.se ∧ (setRuntime k r s).ru = s.ru ∧ (setRuntime k r s).pending = s.pending := by
  exact ⟨rfl, rfl, rfl, rfl, rfl, rfl, rfl, rfl, rfl, rfl, rfl, rfl, rfl, rfl, rfl, rfl, rfl, rfl⟩

/-- What `setZone` leaves alone. -/
@[simp] theorem setZone_frame (k : Nat) (z : ZoneEntry) (s : State) :
    (setZone k z s).uptimeMs = s.uptimeMs ∧ (setZone k z s).uptimeSec = s.uptimeSec ∧ (setZone k z s).msOfSec =
    s.msOfSec ∧ (setZone k z s).fresh = s.fresh ∧ (setZone k z s).pins = s.pins ∧ (setZone k z s).fp = s.fp ∧
    (setZone k z s).wc = s.wc ∧ (setZone k z s).sb = s.sb ∧ (setZone k z s).mp = s.mp ∧ (setZone k z s).zu.settings
    = s.zu.settings ∧ (setZone k z s).sm = s.sm ∧ (setZone k z s).mm = s.mm ∧ (setZone k z s).bg = s.bg ∧ (setZone k
    z s).ps = s.ps ∧ (setZone k z s).se = s.se ∧ (setZone k z s).ru = s.ru ∧ (setZone k z s).pending = s.pending := by
  exact ⟨rfl, rfl, rfl, rfl, rfl, rfl, rfl, rfl, rfl, rfl, rfl, rfl, rfl, rfl, rfl, rfl, rfl⟩

/-- What `setZoneFlag` leaves alone. -/
@[simp] theorem setZoneFlag_frame (f : ZoneFlag) (k : Nat) (s : State) :
    (setZoneFlag f k s).uptimeMs = s.uptimeMs ∧ (setZoneFlag f k s).uptimeSec = s.uptimeSec ∧ (setZoneFlag f k
    s).msOfSec = s.msOfSec ∧ (setZoneFlag f k s).fresh = s.fresh ∧ (setZoneFlag f k s).pins = s.pins ∧ (setZoneFlag
    f k s).fp = s.fp ∧ (setZoneFlag f k s).wc = s.wc ∧ (setZoneFlag f k s).sb = s.sb ∧ (setZoneFlag f k s).mp = s.mp
    ∧ (setZoneFlag f k s).zu.settings = s.zu.settings ∧ (setZoneFlag f k s).zu.zones = s.zu.zones ∧ (setZoneFlag f k
    s).sm = s.sm ∧ (setZoneFlag f k s).mm = s.mm ∧ (setZoneFlag f k s).bg = s.bg ∧ (setZoneFlag f k s).ps = s.ps ∧
    (setZoneFlag f k s).se = s.se ∧ (setZoneFlag f k s).pending = s.pending := by
  unfold setZoneFlag; (repeat' split) <;> simp

/-- What `handOver` leaves alone. -/
@[simp] theorem handOver_frame (h : Handover) (s : State) :
    (handOver h s).uptimeMs = s.uptimeMs ∧ (handOver h s).uptimeSec = s.uptimeSec ∧ (handOver h s).msOfSec =
    s.msOfSec ∧ (handOver h s).fresh = s.fresh ∧ (handOver h s).pins = s.pins ∧ (handOver h s).fp = s.fp ∧ (handOver
    h s).wc = s.wc ∧ (handOver h s).sb = s.sb ∧ (handOver h s).mp = s.mp ∧ (handOver h s).zu = s.zu ∧ (handOver h
    s).sm = s.sm ∧ (handOver h s).mm = s.mm ∧ (handOver h s).bg = s.bg ∧ (handOver h s).ps = s.ps ∧ (handOver h
    s).ru = s.ru ∧ (handOver h s).pending = s.pending := by
  unfold handOver; split <;> simp

/-- What `takeHandover` leaves alone. -/
@[simp] theorem takeHandover_frame (h : Handover) (s : State) :
    (takeHandover h s).uptimeMs = s.uptimeMs ∧ (takeHandover h s).uptimeSec = s.uptimeSec ∧ (takeHandover h
    s).msOfSec = s.msOfSec ∧ (takeHandover h s).fresh = s.fresh ∧ (takeHandover h s).pins = s.pins ∧ (takeHandover h
    s).fp = s.fp ∧ (takeHandover h s).wc = s.wc ∧ (takeHandover h s).sb = s.sb ∧ (takeHandover h s).mp = s.mp ∧
    (takeHandover h s).zu = s.zu ∧ (takeHandover h s).sm = s.sm ∧ (takeHandover h s).mm = s.mm ∧ (takeHandover h
    s).bg = s.bg ∧ (takeHandover h s).ps = s.ps ∧ (takeHandover h s).ru = s.ru ∧ (takeHandover h s).pending =
    s.pending := by
  exact ⟨rfl, rfl, rfl, rfl, rfl, rfl, rfl, rfl, rfl, rfl, rfl, rfl, rfl, rfl, rfl, rfl⟩

end Sys2Proof.Machine
end

