-- ==== Sys2Proof/Laws/FrameStaging.lean ====
section
/-! SUPPORT. For each operation of Machine/Staging.lean, the parts of the state it leaves alone, said once. -/

namespace Sys2Proof.Machine

open Sys2Proof

/-- What `startDraining` leaves alone. -/
@[simp] theorem startDraining_frame (c : RunChoice) (s : State) :
    (startDraining c s).uptimeMs = s.uptimeMs ∧ (startDraining c s).uptimeSec = s.uptimeSec ∧ (startDraining c
    s).msOfSec = s.msOfSec ∧ (startDraining c s).fresh = s.fresh ∧ (startDraining c s).pins = s.pins ∧
    (startDraining c s).fp = s.fp ∧ (startDraining c s).wc = s.wc ∧ (startDraining c s).sb.deferred = s.sb.deferred
    ∧ (startDraining c s).mp = s.mp ∧ (startDraining c s).zu = s.zu ∧ (startDraining c s).sm = s.sm ∧ (startDraining
    c s).mm = s.mm ∧ (startDraining c s).bg = s.bg ∧ (startDraining c s).ps = s.ps ∧ (startDraining c s).se = s.se ∧
    (startDraining c s).ru = s.ru ∧ (startDraining c s).pending = s.pending := by
  exact ⟨rfl, rfl, rfl, rfl, rfl, rfl, rfl, rfl, rfl, rfl, rfl, rfl, rfl, rfl, rfl, rfl, rfl⟩

/-- What `finishRunAt` leaves alone. -/
@[simp] theorem finishRunAt_frame (sector len : Nat) (s : State) :
    (finishRunAt sector len s).uptimeMs = s.uptimeMs ∧ (finishRunAt sector len s).uptimeSec = s.uptimeSec ∧
    (finishRunAt sector len s).msOfSec = s.msOfSec ∧ (finishRunAt sector len s).fresh = s.fresh ∧ (finishRunAt
    sector len s).pins = s.pins ∧ (finishRunAt sector len s).fp = s.fp ∧ (finishRunAt sector len s).wc = s.wc ∧
    (finishRunAt sector len s).sb.deferred = s.sb.deferred ∧ (finishRunAt sector len s).mp = s.mp ∧ (finishRunAt
    sector len s).zu = s.zu ∧ (finishRunAt sector len s).sm = s.sm ∧ (finishRunAt sector len s).mm = s.mm ∧
    (finishRunAt sector len s).bg = s.bg ∧ (finishRunAt sector len s).ps = s.ps ∧ (finishRunAt sector len s).se =
    s.se ∧ (finishRunAt sector len s).ru = s.ru ∧ (finishRunAt sector len s).pending = s.pending := by
  exact ⟨rfl, rfl, rfl, rfl, rfl, rfl, rfl, rfl, rfl, rfl, rfl, rfl, rfl, rfl, rfl, rfl, rfl⟩

/-- What `damageZone` leaves alone. -/
@[simp] theorem damageZone_frame (sector : Nat) (zone : Option Nat) (s : State) :
    (damageZone sector zone s).uptimeMs = s.uptimeMs ∧ (damageZone sector zone s).uptimeSec = s.uptimeSec ∧
    (damageZone sector zone s).msOfSec = s.msOfSec ∧ (damageZone sector zone s).fresh = s.fresh ∧ (damageZone sector
    zone s).pins = s.pins ∧ (damageZone sector zone s).fp = s.fp ∧ (damageZone sector zone s).wc = s.wc ∧
    (damageZone sector zone s).sb = s.sb ∧ (damageZone sector zone s).mp = s.mp ∧ (damageZone sector zone
    s).zu.settings = s.zu.settings ∧ (damageZone sector zone s).zu.zones = s.zu.zones ∧ (damageZone sector zone
    s).sm = s.sm ∧ (damageZone sector zone s).mm = s.mm ∧ (damageZone sector zone s).bg = s.bg ∧ (damageZone sector
    zone s).ps = s.ps ∧ (damageZone sector zone s).se = s.se ∧ (damageZone sector zone s).pending = s.pending := by
  unfold damageZone; (repeat' split) <;> simp

/-- What `countLost` leaves alone. -/
@[simp] theorem countLost_frame (sector len : Nat) (s : State) :
    (countLost sector len s).uptimeMs = s.uptimeMs ∧ (countLost sector len s).uptimeSec = s.uptimeSec ∧ (countLost
    sector len s).msOfSec = s.msOfSec ∧ (countLost sector len s).fresh = s.fresh ∧ (countLost sector len s).pins =
    s.pins ∧ (countLost sector len s).fp = s.fp ∧ (countLost sector len s).wc = s.wc ∧ (countLost sector len
    s).sb.lines = s.sb.lines ∧ (countLost sector len s).mp = s.mp ∧ (countLost sector len s).zu = s.zu ∧ (countLost
    sector len s).sm = s.sm ∧ (countLost sector len s).mm = s.mm ∧ (countLost sector len s).bg = s.bg ∧ (countLost
    sector len s).ps = s.ps ∧ (countLost sector len s).se = s.se ∧ (countLost sector len s).ru = s.ru ∧ (countLost
    sector len s).pending = s.pending := by
  exact ⟨rfl, rfl, rfl, rfl, rfl, rfl, rfl, rfl, rfl, rfl, rfl, rfl, rfl, rfl, rfl, rfl, rfl⟩

/-- What `dropRun` leaves alone. -/
@[simp] theorem dropRun_frame (sector len : Nat) (s : State) :
    (dropRun sector len s).uptimeMs = s.uptimeMs ∧ (dropRun sector len s).uptimeSec = s.uptimeSec ∧ (dropRun sector
    len s).msOfSec = s.msOfSec ∧ (dropRun sector len s).fresh = s.fresh ∧ (dropRun sector len s).pins = s.pins ∧
    (dropRun sector len s).fp = s.fp ∧ (dropRun sector len s).wc = s.wc ∧ (dropRun sector len s).mp = s.mp ∧
    (dropRun sector len s).zu = s.zu ∧ (dropRun sector len s).sm = s.sm ∧ (dropRun sector len s).mm = s.mm ∧
    (dropRun sector len s).bg = s.bg ∧ (dropRun sector len s).ps = s.ps ∧ (dropRun sector len s).se = s.se ∧
    (dropRun sector len s).ru = s.ru ∧ (dropRun sector len s).pending = s.pending := by
  exact ⟨rfl, rfl, rfl, rfl, rfl, rfl, rfl, rfl, rfl, rfl, rfl, rfl, rfl, rfl, rfl, rfl⟩

/-- What `reportLoss` leaves alone. -/
@[simp] theorem reportLoss_frame (sector : Nat) (zone : Option Nat) (s : State) :
    (reportLoss sector zone s).uptimeMs = s.uptimeMs ∧ (reportLoss sector zone s).uptimeSec = s.uptimeSec ∧
    (reportLoss sector zone s).msOfSec = s.msOfSec ∧ (reportLoss sector zone s).fresh = s.fresh ∧ (reportLoss sector
    zone s).pins = s.pins ∧ (reportLoss sector zone s).fp = s.fp ∧ (reportLoss sector zone s).wc = s.wc ∧
    (reportLoss sector zone s).sb = s.sb ∧ (reportLoss sector zone s).mp = s.mp ∧ (reportLoss sector zone
    s).zu.settings = s.zu.settings ∧ (reportLoss sector zone s).zu.zones = s.zu.zones ∧ (reportLoss sector zone
    s).sm = s.sm ∧ (reportLoss sector zone s).mm = s.mm ∧ (reportLoss sector zone s).bg = s.bg ∧ (reportLoss sector
    zone s).ps = s.ps ∧ (reportLoss sector zone s).se = s.se ∧ (reportLoss sector zone s).pending = s.pending := by
  simp [reportLoss]

/-- What `discardRun` leaves alone. -/
@[simp] theorem discardRun_frame (sector len : Nat) (s : State) :
    (discardRun sector len s).uptimeMs = s.uptimeMs ∧ (discardRun sector len s).uptimeSec = s.uptimeSec ∧
    (discardRun sector len s).msOfSec = s.msOfSec ∧ (discardRun sector len s).fresh = s.fresh ∧ (discardRun sector
    len s).pins = s.pins ∧ (discardRun sector len s).fp = s.fp ∧ (discardRun sector len s).wc = s.wc ∧ (discardRun
    sector len s).mp = s.mp ∧ (discardRun sector len s).zu.settings = s.zu.settings ∧ (discardRun sector len
    s).zu.zones = s.zu.zones ∧ (discardRun sector len s).sm = s.sm ∧ (discardRun sector len s).mm = s.mm ∧
    (discardRun sector len s).bg = s.bg ∧ (discardRun sector len s).ps = s.ps ∧ (discardRun sector len s).se = s.se
    ∧ (discardRun sector len s).pending = s.pending := by
  simp [discardRun]

/-- What `discardAll` leaves alone. -/
@[simp] theorem discardAll_frame (fuel : Nat) (s : State) :
    (discardAll fuel s).uptimeMs = s.uptimeMs ∧ (discardAll fuel s).uptimeSec = s.uptimeSec ∧ (discardAll fuel
    s).msOfSec = s.msOfSec ∧ (discardAll fuel s).fresh = s.fresh ∧ (discardAll fuel s).pins = s.pins ∧ (discardAll
    fuel s).fp = s.fp ∧ (discardAll fuel s).wc = s.wc ∧ (discardAll fuel s).mp = s.mp ∧ (discardAll fuel
    s).zu.settings = s.zu.settings ∧ (discardAll fuel s).zu.zones = s.zu.zones ∧ (discardAll fuel s).sm = s.sm ∧
    (discardAll fuel s).mm = s.mm ∧ (discardAll fuel s).bg = s.bg ∧ (discardAll fuel s).ps = s.ps ∧ (discardAll fuel
    s).se = s.se ∧ (discardAll fuel s).pending = s.pending := by
  induction fuel generalizing s with
  | zero => simp [discardAll]
  | succ n ih =>
    unfold discardAll
    (repeat' split) <;> simp_all

end Sys2Proof.Machine
end

