-- ==== Sys2Proof/Laws/FrameSupply.lean ====
section
/-! SUPPORT. For each operation of Machine/Supply.lean, the parts of the state it leaves alone, said once. -/

namespace Sys2Proof.Machine

open Sys2Proof

/-- What `recomputeLimit` leaves alone. -/
@[simp] theorem recomputeLimit_frame (s : State) :
    (recomputeLimit s).uptimeMs = s.uptimeMs ∧ (recomputeLimit s).uptimeSec = s.uptimeSec ∧ (recomputeLimit
    s).msOfSec = s.msOfSec ∧ (recomputeLimit s).fresh = s.fresh ∧ (recomputeLimit s).pins = s.pins ∧ (recomputeLimit
    s).fp = s.fp ∧ (recomputeLimit s).wc = s.wc ∧ (recomputeLimit s).sb = s.sb ∧ (recomputeLimit s).mp = s.mp ∧
    (recomputeLimit s).zu = s.zu ∧ (recomputeLimit s).sm.mode = s.sm.mode ∧ (recomputeLimit s).sm.budget =
    s.sm.budget ∧ (recomputeLimit s).sm.rail = s.sm.rail ∧ (recomputeLimit s).sm.vcap = s.sm.vcap ∧ (recomputeLimit
    s).sm.energy = s.sm.energy ∧ (recomputeLimit s).sm.avail = s.sm.avail ∧ (recomputeLimit s).mm = s.mm ∧
    (recomputeLimit s).bg = s.bg ∧ (recomputeLimit s).ps = s.ps ∧ (recomputeLimit s).se = s.se ∧ (recomputeLimit
    s).ru = s.ru ∧ (recomputeLimit s).pending = s.pending := by
  exact ⟨rfl, rfl, rfl, rfl, rfl, rfl, rfl, rfl, rfl, rfl, rfl, rfl, rfl, rfl, rfl, rfl, rfl, rfl, rfl, rfl, rfl, rfl⟩

/-- What `storeConversion` leaves alone. -/
@[simp] theorem storeConversion_frame (vsys vcap : Int) (s : State) :
    (storeConversion vsys vcap s).uptimeMs = s.uptimeMs ∧ (storeConversion vsys vcap s).uptimeSec = s.uptimeSec ∧
    (storeConversion vsys vcap s).msOfSec = s.msOfSec ∧ (storeConversion vsys vcap s).fresh = s.fresh ∧
    (storeConversion vsys vcap s).pins = s.pins ∧ (storeConversion vsys vcap s).fp = s.fp ∧ (storeConversion vsys
    vcap s).wc = s.wc ∧ (storeConversion vsys vcap s).sb = s.sb ∧ (storeConversion vsys vcap s).mp = s.mp ∧
    (storeConversion vsys vcap s).zu = s.zu ∧ (storeConversion vsys vcap s).sm.mode = s.sm.mode ∧ (storeConversion
    vsys vcap s).sm.limit = s.sm.limit ∧ (storeConversion vsys vcap s).sm.rail = s.sm.rail ∧ (storeConversion vsys
    vcap s).mm = s.mm ∧ (storeConversion vsys vcap s).bg = s.bg ∧ (storeConversion vsys vcap s).ps = s.ps ∧
    (storeConversion vsys vcap s).se = s.se ∧ (storeConversion vsys vcap s).ru = s.ru ∧ (storeConversion vsys vcap
    s).pending = s.pending := by
  exact ⟨rfl, rfl, rfl, rfl, rfl, rfl, rfl, rfl, rfl, rfl, rfl, rfl, rfl, rfl, rfl, rfl, rfl, rfl, rfl⟩

/-- What `railDip` leaves alone. -/
@[simp] theorem railDip_frame (s : State) :
    (railDip s).uptimeMs = s.uptimeMs ∧ (railDip s).uptimeSec = s.uptimeSec ∧ (railDip s).msOfSec = s.msOfSec ∧
    (railDip s).fresh = s.fresh ∧ (railDip s).pins = s.pins ∧ (railDip s).fp = s.fp ∧ (railDip s).wc = s.wc ∧
    (railDip s).sb = s.sb ∧ (railDip s).mp = s.mp ∧ (railDip s).zu = s.zu ∧ (railDip s).sm = s.sm ∧ (railDip
    s).mm.motion = s.mm.motion ∧ (railDip s).mm.log = s.mm.log ∧ (railDip s).bg = s.bg ∧ (railDip s).ps = s.ps ∧
    (railDip s).se = s.se ∧ (railDip s).ru = s.ru ∧ (railDip s).pending = s.pending := by
  unfold railDip; (repeat' split) <;> simp

end Sys2Proof.Machine
end

