-- ==== Sys2Proof/Laws/FrameZones.lean ====
section
/-! SUPPORT. For each operation of Machine/Zones.lean, the parts of the state it leaves alone, said once. -/

namespace Sys2Proof.Machine

open Sys2Proof

/-- What `latchTimeBase` leaves alone. -/
@[simp] theorem latchTimeBase_frame (tb : Word) (s : State) :
    (latchTimeBase tb s).uptimeMs = s.uptimeMs ∧ (latchTimeBase tb s).uptimeSec = s.uptimeSec ∧ (latchTimeBase tb
    s).msOfSec = s.msOfSec ∧ (latchTimeBase tb s).fresh = s.fresh ∧ (latchTimeBase tb s).pins = s.pins ∧
    (latchTimeBase tb s).fp = s.fp ∧ (latchTimeBase tb s).wc = s.wc ∧ (latchTimeBase tb s).sb = s.sb ∧
    (latchTimeBase tb s).mp = s.mp ∧ (latchTimeBase tb s).zu.settings = s.zu.settings ∧ (latchTimeBase tb
    s).zu.zones = s.zu.zones ∧ (latchTimeBase tb s).sm = s.sm ∧ (latchTimeBase tb s).mm = s.mm ∧ (latchTimeBase tb
    s).bg = s.bg ∧ (latchTimeBase tb s).ps = s.ps ∧ (latchTimeBase tb s).se = s.se ∧ (latchTimeBase tb s).ru = s.ru
    ∧ (latchTimeBase tb s).pending = s.pending := by
  exact ⟨rfl, rfl, rfl, rfl, rfl, rfl, rfl, rfl, rfl, rfl, rfl, rfl, rfl, rfl, rfl, rfl, rfl, rfl⟩

/-- What `setSettings` leaves alone. -/
@[simp] theorem setSettings_frame (x : Settings) (s : State) :
    (setSettings x s).uptimeMs = s.uptimeMs ∧ (setSettings x s).uptimeSec = s.uptimeSec ∧ (setSettings x s).msOfSec
    = s.msOfSec ∧ (setSettings x s).fresh = s.fresh ∧ (setSettings x s).pins = s.pins ∧ (setSettings x s).fp = s.fp
    ∧ (setSettings x s).wc = s.wc ∧ (setSettings x s).sb = s.sb ∧ (setSettings x s).mp = s.mp ∧ (setSettings x
    s).zu.zones = s.zu.zones ∧ (setSettings x s).sm = s.sm ∧ (setSettings x s).mm = s.mm ∧ (setSettings x s).bg =
    s.bg ∧ (setSettings x s).ps = s.ps ∧ (setSettings x s).se = s.se ∧ (setSettings x s).ru = s.ru ∧ (setSettings x
    s).pending = s.pending := by
  exact ⟨rfl, rfl, rfl, rfl, rfl, rfl, rfl, rfl, rfl, rfl, rfl, rfl, rfl, rfl, rfl, rfl, rfl⟩

/-- What `applyEntry` leaves alone. -/
@[simp] theorem applyEntry_frame (k : Nat) (e : RawEntry) (s : State) :
    (applyEntry k e s).uptimeMs = s.uptimeMs ∧ (applyEntry k e s).uptimeSec = s.uptimeSec ∧ (applyEntry k e
    s).msOfSec = s.msOfSec ∧ (applyEntry k e s).fresh = s.fresh ∧ (applyEntry k e s).pins = s.pins ∧ (applyEntry k e
    s).fp = s.fp ∧ (applyEntry k e s).wc = s.wc ∧ (applyEntry k e s).sb = s.sb ∧ (applyEntry k e s).mp = s.mp ∧
    (applyEntry k e s).zu.settings = s.zu.settings ∧ (applyEntry k e s).sm = s.sm ∧ (applyEntry k e s).mm = s.mm ∧
    (applyEntry k e s).bg = s.bg ∧ (applyEntry k e s).ps = s.ps ∧ (applyEntry k e s).se = s.se ∧ (applyEntry k e
    s).ru.attn = s.ru.attn ∧ (applyEntry k e s).pending = s.pending := by
  unfold applyEntry; (repeat' split) <;> simp

/-- What `applyEntrySector` leaves alone. -/
@[simp] theorem applyEntrySector_frame (sec : Nat) (data : Sector) (s : State) :
    (applyEntrySector sec data s).uptimeMs = s.uptimeMs ∧ (applyEntrySector sec data s).uptimeSec = s.uptimeSec ∧
    (applyEntrySector sec data s).msOfSec = s.msOfSec ∧ (applyEntrySector sec data s).fresh = s.fresh ∧
    (applyEntrySector sec data s).pins = s.pins ∧ (applyEntrySector sec data s).fp = s.fp ∧ (applyEntrySector sec
    data s).wc = s.wc ∧ (applyEntrySector sec data s).sb = s.sb ∧ (applyEntrySector sec data s).mp = s.mp ∧
    (applyEntrySector sec data s).zu.settings = s.zu.settings ∧ (applyEntrySector sec data s).sm = s.sm ∧
    (applyEntrySector sec data s).mm = s.mm ∧ (applyEntrySector sec data s).bg = s.bg ∧ (applyEntrySector sec data
    s).ps = s.ps ∧ (applyEntrySector sec data s).se = s.se ∧ (applyEntrySector sec data s).ru.attn = s.ru.attn ∧
    (applyEntrySector sec data s).pending = s.pending := by
  unfold applyEntrySector
  exact ⟨foldl_keep (·.uptimeMs) _ (by simp) _ _, foldl_keep (·.uptimeSec) _ (by simp) _ _, foldl_keep
    (·.msOfSec) _ (by simp) _ _, foldl_keep (·.fresh) _ (by simp) _ _, foldl_keep (·.pins) _ (by simp) _ _,
    foldl_keep (·.fp) _ (by simp) _ _, foldl_keep (·.wc) _ (by simp) _ _, foldl_keep (·.sb) _ (by simp) _ _,
    foldl_keep (·.mp) _ (by simp) _ _, foldl_keep (·.zu.settings) _ (by simp) _ _, foldl_keep (·.sm) _ (by simp)
    _ _, foldl_keep (·.mm) _ (by simp) _ _, foldl_keep (·.bg) _ (by simp) _ _, foldl_keep (·.ps) _ (by simp) _
    _, foldl_keep (·.se) _ (by simp) _ _, foldl_keep (·.ru.attn) _ (by simp) _ _, foldl_keep (·.pending) _ (by
    simp) _ _⟩

/-- What `buildFromMap` leaves alone. -/
@[simp] theorem buildFromMap_frame (sectors : List Sector) (s : State) :
    (buildFromMap sectors s).uptimeMs = s.uptimeMs ∧ (buildFromMap sectors s).uptimeSec = s.uptimeSec ∧
    (buildFromMap sectors s).msOfSec = s.msOfSec ∧ (buildFromMap sectors s).fresh = s.fresh ∧ (buildFromMap sectors
    s).pins = s.pins ∧ (buildFromMap sectors s).fp = s.fp ∧ (buildFromMap sectors s).wc = s.wc ∧ (buildFromMap
    sectors s).sb = s.sb ∧ (buildFromMap sectors s).mp = s.mp ∧ (buildFromMap sectors s).sm = s.sm ∧ (buildFromMap
    sectors s).mm = s.mm ∧ (buildFromMap sectors s).bg = s.bg ∧ (buildFromMap sectors s).ps = s.ps ∧ (buildFromMap
    sectors s).se = s.se ∧ (buildFromMap sectors s).ru = s.ru ∧ (buildFromMap sectors s).pending = s.pending := by
  exact ⟨rfl, rfl, rfl, rfl, rfl, rfl, rfl, rfl, rfl, rfl, rfl, rfl, rfl, rfl, rfl, rfl⟩

/-- What `setReadOnly` leaves alone. -/
@[simp] theorem setReadOnly_frame (s : State) :
    (setReadOnly s).uptimeMs = s.uptimeMs ∧ (setReadOnly s).uptimeSec = s.uptimeSec ∧ (setReadOnly s).msOfSec =
    s.msOfSec ∧ (setReadOnly s).fresh = s.fresh ∧ (setReadOnly s).pins = s.pins ∧ (setReadOnly s).fp = s.fp ∧
    (setReadOnly s).wc = s.wc ∧ (setReadOnly s).sb = s.sb ∧ (setReadOnly s).mp = s.mp ∧ (setReadOnly s).sm = s.sm ∧
    (setReadOnly s).mm = s.mm ∧ (setReadOnly s).bg = s.bg ∧ (setReadOnly s).ps = s.ps ∧ (setReadOnly s).se = s.se ∧
    (setReadOnly s).ru = s.ru ∧ (setReadOnly s).pending = s.pending := by
  exact ⟨rfl, rfl, rfl, rfl, rfl, rfl, rfl, rfl, rfl, rfl, rfl, rfl, rfl, rfl, rfl, rfl⟩

/-- What `appendToZone` leaves alone. -/
@[simp] theorem appendToZone_frame (sector : Nat) (data : Sector) (s : State) :
    (appendToZone sector data s).uptimeMs = s.uptimeMs ∧ (appendToZone sector data s).uptimeSec = s.uptimeSec ∧
    (appendToZone sector data s).msOfSec = s.msOfSec ∧ (appendToZone sector data s).fresh = s.fresh ∧ (appendToZone
    sector data s).pins = s.pins ∧ (appendToZone sector data s).fp = s.fp ∧ (appendToZone sector data s).wc = s.wc ∧
    (appendToZone sector data s).sb = s.sb ∧ (appendToZone sector data s).mp = s.mp ∧ (appendToZone sector data
    s).zu.settings = s.zu.settings ∧ (appendToZone sector data s).zu.zones = s.zu.zones ∧ (appendToZone sector data
    s).sm = s.sm ∧ (appendToZone sector data s).mm = s.mm ∧ (appendToZone sector data s).bg = s.bg ∧ (appendToZone
    sector data s).ps = s.ps ∧ (appendToZone sector data s).se = s.se ∧ (appendToZone sector data s).ru.pending =
    s.ru.pending ∧ (appendToZone sector data s).ru.attn = s.ru.attn ∧ (appendToZone sector data s).pending =
    s.pending := by
  unfold appendToZone; (repeat' split) <;> simp

/-- What `attributeDrop` leaves alone. -/
@[simp] theorem attributeDrop_frame (peak k : Nat) (s : State) :
    (attributeDrop peak k s).uptimeMs = s.uptimeMs ∧ (attributeDrop peak k s).uptimeSec = s.uptimeSec ∧
    (attributeDrop peak k s).msOfSec = s.msOfSec ∧ (attributeDrop peak k s).fresh = s.fresh ∧ (attributeDrop peak k
    s).pins = s.pins ∧ (attributeDrop peak k s).fp = s.fp ∧ (attributeDrop peak k s).wc = s.wc ∧ (attributeDrop peak
    k s).sb = s.sb ∧ (attributeDrop peak k s).mp = s.mp ∧ (attributeDrop peak k s).zu.settings = s.zu.settings ∧
    (attributeDrop peak k s).zu.zones = s.zu.zones ∧ (attributeDrop peak k s).sm = s.sm ∧ (attributeDrop peak k
    s).mm = s.mm ∧ (attributeDrop peak k s).bg = s.bg ∧ (attributeDrop peak k s).ps = s.ps ∧ (attributeDrop peak k
    s).se = s.se ∧ (attributeDrop peak k s).ru.attn = s.ru.attn ∧ (attributeDrop peak k s).pending = s.pending := by
  exact ⟨rfl, rfl, rfl, rfl, rfl, rfl, rfl, rfl, rfl, rfl, rfl, rfl, rfl, rfl, rfl, rfl, rfl, rfl⟩

/-- What `attributeAll` leaves alone. -/
@[simp] theorem attributeAll_frame (peak : Nat) (s : State) :
    (attributeAll peak s).uptimeMs = s.uptimeMs ∧ (attributeAll peak s).uptimeSec = s.uptimeSec ∧ (attributeAll peak
    s).msOfSec = s.msOfSec ∧ (attributeAll peak s).fresh = s.fresh ∧ (attributeAll peak s).pins = s.pins ∧
    (attributeAll peak s).fp = s.fp ∧ (attributeAll peak s).wc = s.wc ∧ (attributeAll peak s).sb = s.sb ∧
    (attributeAll peak s).mp = s.mp ∧ (attributeAll peak s).zu.settings = s.zu.settings ∧ (attributeAll peak
    s).zu.zones = s.zu.zones ∧ (attributeAll peak s).sm = s.sm ∧ (attributeAll peak s).mm = s.mm ∧ (attributeAll
    peak s).bg = s.bg ∧ (attributeAll peak s).ps = s.ps ∧ (attributeAll peak s).se = s.se ∧ (attributeAll peak
    s).ru.attn = s.ru.attn ∧ (attributeAll peak s).pending = s.pending := by
  unfold attributeAll
  exact ⟨foldl_keep (·.uptimeMs) _ (by simp) _ _, foldl_keep (·.uptimeSec) _ (by simp) _ _, foldl_keep
    (·.msOfSec) _ (by simp) _ _, foldl_keep (·.fresh) _ (by simp) _ _, foldl_keep (·.pins) _ (by simp) _ _,
    foldl_keep (·.fp) _ (by simp) _ _, foldl_keep (·.wc) _ (by simp) _ _, foldl_keep (·.sb) _ (by simp) _ _,
    foldl_keep (·.mp) _ (by simp) _ _, foldl_keep (·.zu.settings) _ (by simp) _ _, foldl_keep (·.zu.zones) _ (by
    simp) _ _, foldl_keep (·.sm) _ (by simp) _ _, foldl_keep (·.mm) _ (by simp) _ _, foldl_keep (·.bg) _ (by
    simp) _ _, foldl_keep (·.ps) _ (by simp) _ _, foldl_keep (·.se) _ (by simp) _ _, foldl_keep (·.ru.attn) _
    (by simp) _ _, foldl_keep (·.pending) _ (by simp) _ _⟩

/-- What `lowerMinSoc` leaves alone. -/
@[simp] theorem lowerMinSoc_frame (soc k : Nat) (s : State) :
    (lowerMinSoc soc k s).uptimeMs = s.uptimeMs ∧ (lowerMinSoc soc k s).uptimeSec = s.uptimeSec ∧ (lowerMinSoc soc k
    s).msOfSec = s.msOfSec ∧ (lowerMinSoc soc k s).fresh = s.fresh ∧ (lowerMinSoc soc k s).pins = s.pins ∧
    (lowerMinSoc soc k s).fp = s.fp ∧ (lowerMinSoc soc k s).wc = s.wc ∧ (lowerMinSoc soc k s).sb = s.sb ∧
    (lowerMinSoc soc k s).mp = s.mp ∧ (lowerMinSoc soc k s).zu.settings = s.zu.settings ∧ (lowerMinSoc soc k
    s).zu.zones = s.zu.zones ∧ (lowerMinSoc soc k s).sm = s.sm ∧ (lowerMinSoc soc k s).mm = s.mm ∧ (lowerMinSoc soc
    k s).bg = s.bg ∧ (lowerMinSoc soc k s).ps = s.ps ∧ (lowerMinSoc soc k s).se = s.se ∧ (lowerMinSoc soc k
    s).ru.pending = s.ru.pending ∧ (lowerMinSoc soc k s).ru.attn = s.ru.attn ∧ (lowerMinSoc soc k s).pending =
    s.pending := by
  unfold lowerMinSoc; (repeat' split) <;> simp

/-- What `attributeSoc` leaves alone. -/
@[simp] theorem attributeSoc_frame (soc : Nat) (s : State) :
    (attributeSoc soc s).uptimeMs = s.uptimeMs ∧ (attributeSoc soc s).uptimeSec = s.uptimeSec ∧ (attributeSoc soc
    s).msOfSec = s.msOfSec ∧ (attributeSoc soc s).fresh = s.fresh ∧ (attributeSoc soc s).pins = s.pins ∧
    (attributeSoc soc s).fp = s.fp ∧ (attributeSoc soc s).wc = s.wc ∧ (attributeSoc soc s).sb = s.sb ∧ (attributeSoc
    soc s).mp = s.mp ∧ (attributeSoc soc s).zu.settings = s.zu.settings ∧ (attributeSoc soc s).zu.zones = s.zu.zones
    ∧ (attributeSoc soc s).sm = s.sm ∧ (attributeSoc soc s).mm = s.mm ∧ (attributeSoc soc s).bg = s.bg ∧
    (attributeSoc soc s).ps = s.ps ∧ (attributeSoc soc s).se = s.se ∧ (attributeSoc soc s).ru.pending = s.ru.pending
    ∧ (attributeSoc soc s).ru.attn = s.ru.attn ∧ (attributeSoc soc s).pending = s.pending := by
  unfold attributeSoc
  exact ⟨forZones_keep (·.uptimeMs) _ (by simp) _ _, forZones_keep (·.uptimeSec) _ (by simp) _ _,
    forZones_keep (·.msOfSec) _ (by simp) _ _, forZones_keep (·.fresh) _ (by simp) _ _, forZones_keep (·.pins) _
    (by simp) _ _, forZones_keep (·.fp) _ (by simp) _ _, forZones_keep (·.wc) _ (by simp) _ _, forZones_keep
    (·.sb) _ (by simp) _ _, forZones_keep (·.mp) _ (by simp) _ _, forZones_keep (·.zu.settings) _ (by simp) _ _,
    forZones_keep (·.zu.zones) _ (by simp) _ _, forZones_keep (·.sm) _ (by simp) _ _, forZones_keep (·.mm) _ (by
    simp) _ _, forZones_keep (·.bg) _ (by simp) _ _, forZones_keep (·.ps) _ (by simp) _ _, forZones_keep (·.se)
    _ (by simp) _ _, forZones_keep (·.ru.pending) _ (by simp) _ _, forZones_keep (·.ru.attn) _ (by simp) _ _,
    forZones_keep (·.pending) _ (by simp) _ _⟩

/-- What `restoreZone` leaves alone. -/
@[simp] theorem restoreZone_frame (body : List Byte) (k : Nat) (s : State) :
    (restoreZone body k s).uptimeMs = s.uptimeMs ∧ (restoreZone body k s).uptimeSec = s.uptimeSec ∧ (restoreZone
    body k s).msOfSec = s.msOfSec ∧ (restoreZone body k s).fresh = s.fresh ∧ (restoreZone body k s).pins = s.pins ∧
    (restoreZone body k s).fp = s.fp ∧ (restoreZone body k s).wc = s.wc ∧ (restoreZone body k s).sb = s.sb ∧
    (restoreZone body k s).mp = s.mp ∧ (restoreZone body k s).zu.settings = s.zu.settings ∧ (restoreZone body k
    s).zu.zones = s.zu.zones ∧ (restoreZone body k s).sm = s.sm ∧ (restoreZone body k s).mm = s.mm ∧ (restoreZone
    body k s).bg = s.bg ∧ (restoreZone body k s).ps = s.ps ∧ (restoreZone body k s).se = s.se ∧ (restoreZone body k
    s).pending = s.pending := by
  unfold restoreZone; (try dsimp only); (repeat' split) <;> simp

/-- What `addUncertain` leaves alone. -/
@[simp] theorem addUncertain_frame (k : Nat) (r : Runtime) (s : State) :
    (addUncertain k r s).uptimeMs = s.uptimeMs ∧ (addUncertain k r s).uptimeSec = s.uptimeSec ∧ (addUncertain k r
    s).msOfSec = s.msOfSec ∧ (addUncertain k r s).fresh = s.fresh ∧ (addUncertain k r s).pins = s.pins ∧
    (addUncertain k r s).fp = s.fp ∧ (addUncertain k r s).wc = s.wc ∧ (addUncertain k r s).sb = s.sb ∧ (addUncertain
    k r s).mp = s.mp ∧ (addUncertain k r s).zu.settings = s.zu.settings ∧ (addUncertain k r s).zu.zones = s.zu.zones
    ∧ (addUncertain k r s).sm = s.sm ∧ (addUncertain k r s).mm = s.mm ∧ (addUncertain k r s).bg = s.bg ∧
    (addUncertain k r s).ps = s.ps ∧ (addUncertain k r s).se = s.se ∧ (addUncertain k r s).pending = s.pending := by
  simp [addUncertain]

/-- What `rebuildZone` leaves alone. -/
@[simp] theorem rebuildZone_frame (check : List Sector) (k : Nat) (s : State) :
    (rebuildZone check k s).uptimeMs = s.uptimeMs ∧ (rebuildZone check k s).uptimeSec = s.uptimeSec ∧ (rebuildZone
    check k s).msOfSec = s.msOfSec ∧ (rebuildZone check k s).fresh = s.fresh ∧ (rebuildZone check k s).pins = s.pins
    ∧ (rebuildZone check k s).fp = s.fp ∧ (rebuildZone check k s).wc = s.wc ∧ (rebuildZone check k s).sb = s.sb ∧
    (rebuildZone check k s).mp = s.mp ∧ (rebuildZone check k s).zu.settings = s.zu.settings ∧ (rebuildZone check k
    s).zu.zones = s.zu.zones ∧ (rebuildZone check k s).sm = s.sm ∧ (rebuildZone check k s).mm = s.mm ∧ (rebuildZone
    check k s).bg = s.bg ∧ (rebuildZone check k s).ps = s.ps ∧ (rebuildZone check k s).se = s.se ∧ (rebuildZone
    check k s).pending = s.pending := by
  unfold rebuildZone; (try dsimp only); (repeat' split) <;> simp

end Sys2Proof.Machine
end

