-- ==== Sys2Proof/Laws/FrameFront.lean ====
section
/-! SUPPORT. For each operation of Machine/Front.lean, the parts of the state it leaves alone, said once. -/

namespace Sys2Proof.Machine

open Sys2Proof

/-- What `respond` leaves alone. -/
@[simp] theorem respond_frame (a : Answer) (sectors : Nat) (payload : List Byte) (s : State) :
    (respond a sectors payload s).uptimeMs = s.uptimeMs ∧ (respond a sectors payload s).uptimeSec = s.uptimeSec ∧
    (respond a sectors payload s).msOfSec = s.msOfSec ∧ (respond a sectors payload s).fresh = s.fresh ∧ (respond a
    sectors payload s).pins = s.pins ∧ (respond a sectors payload s).fp.req = s.fp.req ∧ (respond a sectors payload
    s).wc = s.wc ∧ (respond a sectors payload s).sb = s.sb ∧ (respond a sectors payload s).mp = s.mp ∧ (respond a
    sectors payload s).zu = s.zu ∧ (respond a sectors payload s).sm = s.sm ∧ (respond a sectors payload s).mm = s.mm
    ∧ (respond a sectors payload s).bg = s.bg ∧ (respond a sectors payload s).ps = s.ps ∧ (respond a sectors payload
    s).se = s.se ∧ (respond a sectors payload s).ru = s.ru ∧ (respond a sectors payload s).pending = s.pending := by
  exact ⟨rfl, rfl, rfl, rfl, rfl, rfl, rfl, rfl, rfl, rfl, rfl, rfl, rfl, rfl, rfl, rfl, rfl⟩

/-- What `writeRefusal` leaves alone. -/
@[simp] theorem writeRefusal_frame (a : Answer) (mask : BitVec 9) (taken : Nat) (s : State) :
    (writeRefusal a mask taken s).uptimeMs = s.uptimeMs ∧ (writeRefusal a mask taken s).uptimeSec = s.uptimeSec ∧
    (writeRefusal a mask taken s).msOfSec = s.msOfSec ∧ (writeRefusal a mask taken s).fresh = s.fresh ∧
    (writeRefusal a mask taken s).pins = s.pins ∧ (writeRefusal a mask taken s).fp = s.fp ∧ (writeRefusal a mask
    taken s).sb = s.sb ∧ (writeRefusal a mask taken s).mp = s.mp ∧ (writeRefusal a mask taken s).zu = s.zu ∧
    (writeRefusal a mask taken s).sm = s.sm ∧ (writeRefusal a mask taken s).mm = s.mm ∧ (writeRefusal a mask taken
    s).bg = s.bg ∧ (writeRefusal a mask taken s).ps = s.ps ∧ (writeRefusal a mask taken s).se = s.se ∧ (writeRefusal
    a mask taken s).ru = s.ru ∧ (writeRefusal a mask taken s).pending = s.pending := by
  unfold writeRefusal; (repeat' split) <;> simp

/-- What `refuse` leaves alone. -/
@[simp] theorem refuse_frame (a : Answer) (mask : BitVec 9) (sectors : Nat) (payload : List Byte) (s : State) :
    (refuse a mask sectors payload s).uptimeMs = s.uptimeMs ∧ (refuse a mask sectors payload s).uptimeSec =
    s.uptimeSec ∧ (refuse a mask sectors payload s).msOfSec = s.msOfSec ∧ (refuse a mask sectors payload s).fresh =
    s.fresh ∧ (refuse a mask sectors payload s).pins = s.pins ∧ (refuse a mask sectors payload s).fp.req = s.fp.req
    ∧ (refuse a mask sectors payload s).sb = s.sb ∧ (refuse a mask sectors payload s).mp = s.mp ∧ (refuse a mask
    sectors payload s).zu = s.zu ∧ (refuse a mask sectors payload s).sm = s.sm ∧ (refuse a mask sectors payload
    s).mm = s.mm ∧ (refuse a mask sectors payload s).bg = s.bg ∧ (refuse a mask sectors payload s).ps = s.ps ∧
    (refuse a mask sectors payload s).se = s.se ∧ (refuse a mask sectors payload s).ru = s.ru ∧ (refuse a mask
    sectors payload s).pending = s.pending := by
  simp [refuse]

/-- What `endTransfer` leaves alone. -/
@[simp] theorem endTransfer_frame (a : Answer) (mask : BitVec 9) (s : State) :
    (endTransfer a mask s).uptimeMs = s.uptimeMs ∧ (endTransfer a mask s).uptimeSec = s.uptimeSec ∧ (endTransfer a
    mask s).msOfSec = s.msOfSec ∧ (endTransfer a mask s).fresh = s.fresh ∧ (endTransfer a mask s).pins = s.pins ∧
    (endTransfer a mask s).fp.req = s.fp.req ∧ (endTransfer a mask s).sb = s.sb ∧ (endTransfer a mask s).mp = s.mp ∧
    (endTransfer a mask s).zu = s.zu ∧ (endTransfer a mask s).sm = s.sm ∧ (endTransfer a mask s).mm = s.mm ∧
    (endTransfer a mask s).bg = s.bg ∧ (endTransfer a mask s).ps = s.ps ∧ (endTransfer a mask s).se = s.se ∧
    (endTransfer a mask s).ru = s.ru ∧ (endTransfer a mask s).pending = s.pending := by
  unfold endTransfer; (repeat' split) <;> simp

/-- What `abandonRead` leaves alone. -/
@[simp] theorem abandonRead_frame (s : State) :
    (abandonRead s).uptimeMs = s.uptimeMs ∧ (abandonRead s).uptimeSec = s.uptimeSec ∧ (abandonRead s).msOfSec =
    s.msOfSec ∧ (abandonRead s).fresh = s.fresh ∧ (abandonRead s).pins = s.pins ∧ (abandonRead s).fp = s.fp ∧
    (abandonRead s).wc = s.wc ∧ (abandonRead s).sb = s.sb ∧ (abandonRead s).mp.starvation = s.mp.starvation ∧
    (abandonRead s).mp.handing = s.mp.handing ∧ (abandonRead s).zu = s.zu ∧ (abandonRead s).sm = s.sm ∧ (abandonRead
    s).mm = s.mm ∧ (abandonRead s).bg = s.bg ∧ (abandonRead s).ps = s.ps ∧ (abandonRead s).se = s.se ∧ (abandonRead
    s).ru = s.ru ∧ (abandonRead s).pending = s.pending := by
  exact ⟨rfl, rfl, rfl, rfl, rfl, rfl, rfl, rfl, rfl, rfl, rfl, rfl, rfl, rfl, rfl, rfl, rfl, rfl⟩

/-- What `abandonRequest` leaves alone. -/
@[simp] theorem abandonRequest_frame (s : State) :
    (abandonRequest s).uptimeMs = s.uptimeMs ∧ (abandonRequest s).uptimeSec = s.uptimeSec ∧ (abandonRequest
    s).msOfSec = s.msOfSec ∧ (abandonRequest s).fresh = s.fresh ∧ (abandonRequest s).pins = s.pins ∧ (abandonRequest
    s).wc = s.wc ∧ (abandonRequest s).sb = s.sb ∧ (abandonRequest s).mp.starvation = s.mp.starvation ∧
    (abandonRequest s).mp.handing = s.mp.handing ∧ (abandonRequest s).zu = s.zu ∧ (abandonRequest s).sm = s.sm ∧
    (abandonRequest s).mm = s.mm ∧ (abandonRequest s).bg = s.bg ∧ (abandonRequest s).ps = s.ps ∧ (abandonRequest
    s).se = s.se ∧ (abandonRequest s).ru = s.ru ∧ (abandonRequest s).pending = s.pending := by
  exact ⟨rfl, rfl, rfl, rfl, rfl, rfl, rfl, rfl, rfl, rfl, rfl, rfl, rfl, rfl, rfl, rfl, rfl⟩

/-- What `answerFlush` leaves alone. -/
@[simp] theorem answerFlush_frame (r : Request) (s : State) :
    (answerFlush r s).uptimeMs = s.uptimeMs ∧ (answerFlush r s).uptimeSec = s.uptimeSec ∧ (answerFlush r s).msOfSec
    = s.msOfSec ∧ (answerFlush r s).fresh = s.fresh ∧ (answerFlush r s).pins = s.pins ∧ (answerFlush r s).fp.req =
    s.fp.req ∧ (answerFlush r s).wc = s.wc ∧ (answerFlush r s).sb.lines = s.sb.lines ∧ (answerFlush r s).mp = s.mp ∧
    (answerFlush r s).zu = s.zu ∧ (answerFlush r s).sm = s.sm ∧ (answerFlush r s).mm = s.mm ∧ (answerFlush r s).bg =
    s.bg ∧ (answerFlush r s).ps = s.ps ∧ (answerFlush r s).se = s.se ∧ (answerFlush r s).ru = s.ru ∧ (answerFlush r
    s).pending = s.pending := by
  unfold answerFlush; (repeat' split) <;> simp

/-- What `testWait` leaves alone. -/
@[simp] theorem testWait_frame (s : State) :
    (testWait s).uptimeMs = s.uptimeMs ∧ (testWait s).uptimeSec = s.uptimeSec ∧ (testWait s).msOfSec = s.msOfSec ∧
    (testWait s).fresh = s.fresh ∧ (testWait s).pins = s.pins ∧ (testWait s).fp.req = s.fp.req ∧ (testWait s).wc =
    s.wc ∧ (testWait s).sb.lines = s.sb.lines ∧ (testWait s).mp = s.mp ∧ (testWait s).zu = s.zu ∧ (testWait s).sm =
    s.sm ∧ (testWait s).mm = s.mm ∧ (testWait s).bg = s.bg ∧ (testWait s).ps = s.ps ∧ (testWait s).se = s.se ∧
    (testWait s).ru = s.ru ∧ (testWait s).pending = s.pending := by
  unfold testWait; (repeat' split) <;> simp

/-- What `endThroughWait` leaves alone. -/
@[simp] theorem endThroughWait_frame (s : State) :
    (endThroughWait s).uptimeMs = s.uptimeMs ∧ (endThroughWait s).uptimeSec = s.uptimeSec ∧ (endThroughWait
    s).msOfSec = s.msOfSec ∧ (endThroughWait s).fresh = s.fresh ∧ (endThroughWait s).pins = s.pins ∧ (endThroughWait
    s).fp.req = s.fp.req ∧ (endThroughWait s).wc = s.wc ∧ (endThroughWait s).sb = s.sb ∧ (endThroughWait s).mp =
    s.mp ∧ (endThroughWait s).zu = s.zu ∧ (endThroughWait s).sm = s.sm ∧ (endThroughWait s).mm = s.mm ∧
    (endThroughWait s).bg = s.bg ∧ (endThroughWait s).ps = s.ps ∧ (endThroughWait s).se = s.se ∧ (endThroughWait
    s).ru = s.ru ∧ (endThroughWait s).pending = s.pending := by
  unfold endThroughWait; (repeat' split) <;> simp

/-- What `recomputeMode` leaves alone. -/
@[simp] theorem recomputeMode_frame (s : State) :
    (recomputeMode s).uptimeMs = s.uptimeMs ∧ (recomputeMode s).uptimeSec = s.uptimeSec ∧ (recomputeMode s).msOfSec
    = s.msOfSec ∧ (recomputeMode s).fresh = s.fresh ∧ (recomputeMode s).pins = s.pins ∧ (recomputeMode s).fp.req =
    s.fp.req ∧ (recomputeMode s).wc = s.wc ∧ (recomputeMode s).sb = s.sb ∧ (recomputeMode s).mp = s.mp ∧
    (recomputeMode s).zu = s.zu ∧ (recomputeMode s).sm.limit = s.sm.limit ∧ (recomputeMode s).sm.budget =
    s.sm.budget ∧ (recomputeMode s).sm.rail = s.sm.rail ∧ (recomputeMode s).sm.vcap = s.sm.vcap ∧ (recomputeMode
    s).sm.energy = s.sm.energy ∧ (recomputeMode s).sm.avail = s.sm.avail ∧ (recomputeMode s).mm = s.mm ∧
    (recomputeMode s).bg = s.bg ∧ (recomputeMode s).ps = s.ps ∧ (recomputeMode s).se = s.se ∧ (recomputeMode s).ru =
    s.ru ∧ (recomputeMode s).pending = s.pending := by
  unfold recomputeMode; (repeat' split) <;> simp

/-- What `answerWrite` leaves alone. -/
@[simp] theorem answerWrite_frame (s : State) :
    (answerWrite s).uptimeMs = s.uptimeMs ∧ (answerWrite s).uptimeSec = s.uptimeSec ∧ (answerWrite s).msOfSec =
    s.msOfSec ∧ (answerWrite s).fresh = s.fresh ∧ (answerWrite s).pins = s.pins ∧ (answerWrite s).fp.req = s.fp.req
    ∧ (answerWrite s).wc = s.wc ∧ (answerWrite s).sb.lines = s.sb.lines ∧ (answerWrite s).mp = s.mp ∧ (answerWrite
    s).zu = s.zu ∧ (answerWrite s).sm = s.sm ∧ (answerWrite s).mm = s.mm ∧ (answerWrite s).bg = s.bg ∧ (answerWrite
    s).ps = s.ps ∧ (answerWrite s).se = s.se ∧ (answerWrite s).ru = s.ru ∧ (answerWrite s).pending = s.pending := by
  unfold answerWrite; (repeat' split) <;> simp

/-- What `newRequest` leaves alone. -/
@[simp] theorem newRequest_frame (code count : Byte) (sector : Word) (s : State) :
    (newRequest code count sector s).uptimeMs = s.uptimeMs ∧ (newRequest code count sector s).uptimeSec =
    s.uptimeSec ∧ (newRequest code count sector s).msOfSec = s.msOfSec ∧ (newRequest code count sector s).fresh =
    s.fresh ∧ (newRequest code count sector s).pins = s.pins ∧ (newRequest code count sector s).wc = s.wc ∧
    (newRequest code count sector s).sb = s.sb ∧ (newRequest code count sector s).mp.starvation = s.mp.starvation ∧
    (newRequest code count sector s).mp.handing = s.mp.handing ∧ (newRequest code count sector s).zu = s.zu ∧
    (newRequest code count sector s).sm = s.sm ∧ (newRequest code count sector s).mm = s.mm ∧ (newRequest code count
    sector s).bg = s.bg ∧ (newRequest code count sector s).ps = s.ps ∧ (newRequest code count sector s).se = s.se ∧
    (newRequest code count sector s).ru = s.ru ∧ (newRequest code count sector s).pending = s.pending := by
  exact ⟨rfl, rfl, rfl, rfl, rfl, rfl, rfl, rfl, rfl, rfl, rfl, rfl, rfl, rfl, rfl, rfl, rfl⟩

end Sys2Proof.Machine
end

