-- ==== Sys2Proof/Laws/FramePower.lean ====
section
/-! SUPPORT. For each operation of Machine/Power.lean, the parts of the state it leaves alone, said once. -/

namespace Sys2Proof.Machine

open Sys2Proof

/-- What `testWindDown` leaves alone. -/
@[simp] theorem testWindDown_frame (s : State) :
    (testWindDown s).uptimeMs = s.uptimeMs ∧ (testWindDown s).uptimeSec = s.uptimeSec ∧ (testWindDown s).msOfSec =
    s.msOfSec ∧ (testWindDown s).fresh = s.fresh ∧ (testWindDown s).pins = s.pins ∧ (testWindDown s).fp = s.fp ∧
    (testWindDown s).wc = s.wc ∧ (testWindDown s).sb = s.sb ∧ (testWindDown s).mp = s.mp ∧ (testWindDown s).zu =
    s.zu ∧ (testWindDown s).sm = s.sm ∧ (testWindDown s).mm = s.mm ∧ (testWindDown s).bg = s.bg ∧ (testWindDown
    s).ps.power = s.ps.power ∧ (testWindDown s).ps.phase = s.ps.phase ∧ (testWindDown s).ps.capacity = s.ps.capacity
    ∧ (testWindDown s).ps.startPos = s.ps.startPos ∧ (testWindDown s).ps.mediaFault = s.ps.mediaFault ∧
    (testWindDown s).se = s.se ∧ (testWindDown s).ru = s.ru ∧ (testWindDown s).pending = s.pending := by
  unfold testWindDown; (repeat' split) <;> simp

/-- What `frontAtPower` leaves alone. -/
@[simp] theorem frontAtPower_frame (p : PowerState) (s : State) :
    (frontAtPower p s).uptimeMs = s.uptimeMs ∧ (frontAtPower p s).uptimeSec = s.uptimeSec ∧ (frontAtPower p
    s).msOfSec = s.msOfSec ∧ (frontAtPower p s).fresh = s.fresh ∧ (frontAtPower p s).pins = s.pins ∧ (frontAtPower p
    s).fp.req = s.fp.req ∧ (frontAtPower p s).sb = s.sb ∧ (frontAtPower p s).mp = s.mp ∧ (frontAtPower p s).zu =
    s.zu ∧ (frontAtPower p s).sm = s.sm ∧ (frontAtPower p s).mm = s.mm ∧ (frontAtPower p s).bg = s.bg ∧
    (frontAtPower p s).ps = s.ps ∧ (frontAtPower p s).se = s.se ∧ (frontAtPower p s).ru = s.ru ∧ (frontAtPower p
    s).pending = s.pending := by
  unfold frontAtPower; (repeat' split) <;> simp

/-- What `marksAtPower` leaves alone. -/
@[simp] theorem marksAtPower_frame (p : PowerState) (s : State) :
    (marksAtPower p s).uptimeMs = s.uptimeMs ∧ (marksAtPower p s).uptimeSec = s.uptimeSec ∧ (marksAtPower p
    s).msOfSec = s.msOfSec ∧ (marksAtPower p s).fresh = s.fresh ∧ (marksAtPower p s).pins = s.pins ∧ (marksAtPower p
    s).fp = s.fp ∧ (marksAtPower p s).wc = s.wc ∧ (marksAtPower p s).sb = s.sb ∧ (marksAtPower p s).mp = s.mp ∧
    (marksAtPower p s).zu = s.zu ∧ (marksAtPower p s).sm = s.sm ∧ (marksAtPower p s).mm = s.mm ∧ (marksAtPower p
    s).bg = s.bg ∧ (marksAtPower p s).ps.power = s.ps.power ∧ (marksAtPower p s).ps.phase = s.ps.phase ∧
    (marksAtPower p s).ps.capacity = s.ps.capacity ∧ (marksAtPower p s).ps.startPos = s.ps.startPos ∧ (marksAtPower
    p s).ps.mediaFault = s.ps.mediaFault ∧ (marksAtPower p s).se = s.se ∧ (marksAtPower p s).ru.attn = s.ru.attn ∧
    (marksAtPower p s).pending = s.pending := by
  unfold marksAtPower; (repeat' split) <;> simp

/-- What `changePower` leaves alone. -/
@[simp] theorem changePower_frame (p : PowerState) (s : State) :
    (changePower p s).uptimeMs = s.uptimeMs ∧ (changePower p s).uptimeSec = s.uptimeSec ∧ (changePower p s).msOfSec
    = s.msOfSec ∧ (changePower p s).fresh = s.fresh ∧ (changePower p s).pins = s.pins ∧ (changePower p s).fp.req =
    s.fp.req ∧ (changePower p s).sb = s.sb ∧ (changePower p s).mp = s.mp ∧ (changePower p s).zu = s.zu ∧
    (changePower p s).sm.limit = s.sm.limit ∧ (changePower p s).sm.budget = s.sm.budget ∧ (changePower p s).sm.rail
    = s.sm.rail ∧ (changePower p s).sm.vcap = s.sm.vcap ∧ (changePower p s).sm.energy = s.sm.energy ∧ (changePower p
    s).sm.avail = s.sm.avail ∧ (changePower p s).mm = s.mm ∧ (changePower p s).bg = s.bg ∧ (changePower p
    s).ps.phase = s.ps.phase ∧ (changePower p s).ps.capacity = s.ps.capacity ∧ (changePower p s).ps.startPos =
    s.ps.startPos ∧ (changePower p s).ps.mediaFault = s.ps.mediaFault ∧ (changePower p s).se = s.se ∧ (changePower p
    s).pending = s.pending := by
  simp [changePower]

/-- What `evaluatePower` leaves alone. -/
@[simp] theorem evaluatePower_frame (emptyAnchor : Bool) (s : State) :
    (evaluatePower emptyAnchor s).uptimeMs = s.uptimeMs ∧ (evaluatePower emptyAnchor s).uptimeSec = s.uptimeSec ∧
    (evaluatePower emptyAnchor s).msOfSec = s.msOfSec ∧ (evaluatePower emptyAnchor s).fresh = s.fresh ∧
    (evaluatePower emptyAnchor s).pins = s.pins ∧ (evaluatePower emptyAnchor s).fp.req = s.fp.req ∧ (evaluatePower
    emptyAnchor s).sb = s.sb ∧ (evaluatePower emptyAnchor s).mp = s.mp ∧ (evaluatePower emptyAnchor s).zu = s.zu ∧
    (evaluatePower emptyAnchor s).sm.limit = s.sm.limit ∧ (evaluatePower emptyAnchor s).sm.budget = s.sm.budget ∧
    (evaluatePower emptyAnchor s).sm.rail = s.sm.rail ∧ (evaluatePower emptyAnchor s).sm.vcap = s.sm.vcap ∧
    (evaluatePower emptyAnchor s).sm.energy = s.sm.energy ∧ (evaluatePower emptyAnchor s).sm.avail = s.sm.avail ∧
    (evaluatePower emptyAnchor s).mm = s.mm ∧ (evaluatePower emptyAnchor s).bg = s.bg ∧ (evaluatePower emptyAnchor
    s).ps.phase = s.ps.phase ∧ (evaluatePower emptyAnchor s).ps.capacity = s.ps.capacity ∧ (evaluatePower
    emptyAnchor s).ps.startPos = s.ps.startPos ∧ (evaluatePower emptyAnchor s).ps.mediaFault = s.ps.mediaFault ∧
    (evaluatePower emptyAnchor s).se = s.se ∧ (evaluatePower emptyAnchor s).pending = s.pending := by
  unfold evaluatePower; (try dsimp only); (repeat' split) <;> simp

/-- What `enterOff` leaves alone. -/
@[simp] theorem enterOff_frame (s : State) :
    (enterOff s).uptimeMs = s.uptimeMs ∧ (enterOff s).uptimeSec = s.uptimeSec ∧ (enterOff s).msOfSec = s.msOfSec ∧
    (enterOff s).fresh = s.fresh ∧ (enterOff s).pins = s.pins ∧ (enterOff s).sb = s.sb ∧ (enterOff s).mp.handing =
    s.mp.handing ∧ (enterOff s).zu = s.zu ∧ (enterOff s).sm.limit = s.sm.limit ∧ (enterOff s).sm.budget =
    s.sm.budget ∧ (enterOff s).sm.rail = s.sm.rail ∧ (enterOff s).sm.vcap = s.sm.vcap ∧ (enterOff s).sm.energy =
    s.sm.energy ∧ (enterOff s).sm.avail = s.sm.avail ∧ (enterOff s).mm = s.mm ∧ (enterOff s).bg = s.bg ∧ (enterOff
    s).ps.capacity = s.ps.capacity ∧ (enterOff s).ps.startPos = s.ps.startPos ∧ (enterOff s).ps.mediaFault =
    s.ps.mediaFault ∧ (enterOff s).pending = s.pending := by
  simp [enterOff]

end Sys2Proof.Machine
end

