-- ==== Sys2Proof/Laws/FrameMedia.lean ====
section
/-! SUPPORT. For each operation of Machine/Media.lean, the parts of the state it leaves alone, said once. -/

namespace Sys2Proof.Machine

open Sys2Proof

/-- What `issueOp` leaves alone. -/
@[simp] theorem issueOp_frame (kind : MediaKind) (sector count : Nat) (data : List Sector) (who : Requester) (s : State) :
    (issueOp kind sector count data who s).uptimeMs = s.uptimeMs ∧ (issueOp kind sector count data who s).uptimeSec
    = s.uptimeSec ∧ (issueOp kind sector count data who s).msOfSec = s.msOfSec ∧ (issueOp kind sector count data who
    s).fresh = s.fresh ∧ (issueOp kind sector count data who s).pins = s.pins ∧ (issueOp kind sector count data who
    s).fp = s.fp ∧ (issueOp kind sector count data who s).wc = s.wc ∧ (issueOp kind sector count data who s).sb =
    s.sb ∧ (issueOp kind sector count data who s).mp.starvation = s.mp.starvation ∧ (issueOp kind sector count data
    who s).mp.handing = s.mp.handing ∧ (issueOp kind sector count data who s).zu = s.zu ∧ (issueOp kind sector count
    data who s).sm = s.sm ∧ (issueOp kind sector count data who s).mm = s.mm ∧ (issueOp kind sector count data who
    s).bg = s.bg ∧ (issueOp kind sector count data who s).ps = s.ps ∧ (issueOp kind sector count data who s).se =
    s.se ∧ (issueOp kind sector count data who s).ru = s.ru ∧ (issueOp kind sector count data who s).pending =
    s.pending := by
  exact ⟨rfl, rfl, rfl, rfl, rfl, rfl, rfl, rfl, rfl, rfl, rfl, rfl, rfl, rfl, rfl, rfl, rfl, rfl⟩

/-- What `issueRun` leaves alone. -/
@[simp] theorem issueRun_frame (who : Requester) (c : RunChoice) (s : State) :
    (issueRun who c s).uptimeMs = s.uptimeMs ∧ (issueRun who c s).uptimeSec = s.uptimeSec ∧ (issueRun who c
    s).msOfSec = s.msOfSec ∧ (issueRun who c s).fresh = s.fresh ∧ (issueRun who c s).pins = s.pins ∧ (issueRun who c
    s).fp = s.fp ∧ (issueRun who c s).wc = s.wc ∧ (issueRun who c s).sb.deferred = s.sb.deferred ∧ (issueRun who c
    s).mp.starvation = s.mp.starvation ∧ (issueRun who c s).mp.handing = s.mp.handing ∧ (issueRun who c s).zu = s.zu
    ∧ (issueRun who c s).sm = s.sm ∧ (issueRun who c s).mm = s.mm ∧ (issueRun who c s).bg = s.bg ∧ (issueRun who c
    s).ps = s.ps ∧ (issueRun who c s).se = s.se ∧ (issueRun who c s).ru = s.ru ∧ (issueRun who c s).pending =
    s.pending := by
  exact ⟨rfl, rfl, rfl, rfl, rfl, rfl, rfl, rfl, rfl, rfl, rfl, rfl, rfl, rfl, rfl, rfl, rfl, rfl⟩

/-- What `issueStartup` leaves alone. -/
@[simp] theorem issueStartup_frame (step : StartStep) (s : State) :
    (issueStartup step s).uptimeMs = s.uptimeMs ∧ (issueStartup step s).uptimeSec = s.uptimeSec ∧ (issueStartup step
    s).msOfSec = s.msOfSec ∧ (issueStartup step s).fresh = s.fresh ∧ (issueStartup step s).pins = s.pins ∧
    (issueStartup step s).fp = s.fp ∧ (issueStartup step s).wc = s.wc ∧ (issueStartup step s).sb = s.sb ∧
    (issueStartup step s).mp.starvation = s.mp.starvation ∧ (issueStartup step s).mp.handing = s.mp.handing ∧
    (issueStartup step s).zu = s.zu ∧ (issueStartup step s).sm = s.sm ∧ (issueStartup step s).mm = s.mm ∧
    (issueStartup step s).bg = s.bg ∧ (issueStartup step s).ps = s.ps ∧ (issueStartup step s).se = s.se ∧
    (issueStartup step s).ru = s.ru ∧ (issueStartup step s).pending = s.pending := by
  unfold issueStartup; (repeat' split) <;> simp

/-- What `issueImage` leaves alone. -/
@[simp] theorem issueImage_frame (what : HoldupRequest) (s : State) :
    (issueImage what s).uptimeMs = s.uptimeMs ∧ (issueImage what s).uptimeSec = s.uptimeSec ∧ (issueImage what
    s).msOfSec = s.msOfSec ∧ (issueImage what s).fresh = s.fresh ∧ (issueImage what s).pins = s.pins ∧ (issueImage
    what s).fp = s.fp ∧ (issueImage what s).wc = s.wc ∧ (issueImage what s).sb = s.sb ∧ (issueImage what
    s).mp.starvation = s.mp.starvation ∧ (issueImage what s).mp.handing = s.mp.handing ∧ (issueImage what s).zu =
    s.zu ∧ (issueImage what s).sm = s.sm ∧ (issueImage what s).mm = s.mm ∧ (issueImage what s).bg = s.bg ∧
    (issueImage what s).ps = s.ps ∧ (issueImage what s).se = s.se ∧ (issueImage what s).ru = s.ru ∧ (issueImage what
    s).pending = s.pending := by
  unfold issueImage; (repeat' split) <;> simp

/-- What `syncDrain` leaves alone. -/
@[simp] theorem syncDrain_frame (s : State) :
    (syncDrain s).uptimeMs = s.uptimeMs ∧ (syncDrain s).uptimeSec = s.uptimeSec ∧ (syncDrain s).msOfSec = s.msOfSec
    ∧ (syncDrain s).fresh = s.fresh ∧ (syncDrain s).pins = s.pins ∧ (syncDrain s).fp = s.fp ∧ (syncDrain s).wc =
    s.wc ∧ (syncDrain s).sb = s.sb ∧ (syncDrain s).mp.current = s.mp.current ∧ (syncDrain s).mp.handing =
    s.mp.handing ∧ (syncDrain s).zu = s.zu ∧ (syncDrain s).sm = s.sm ∧ (syncDrain s).mm = s.mm ∧ (syncDrain s).bg =
    s.bg ∧ (syncDrain s).ps = s.ps ∧ (syncDrain s).se = s.se ∧ (syncDrain s).ru = s.ru ∧ (syncDrain s).pending =
    s.pending := by
  unfold syncDrain; (repeat' split) <;> simp

/-- What `requestHoldup` leaves alone. -/
@[simp] theorem requestHoldup_frame (what : HoldupRequest) (s : State) :
    (requestHoldup what s).uptimeMs = s.uptimeMs ∧ (requestHoldup what s).uptimeSec = s.uptimeSec ∧ (requestHoldup
    what s).msOfSec = s.msOfSec ∧ (requestHoldup what s).fresh = s.fresh ∧ (requestHoldup what s).pins = s.pins ∧
    (requestHoldup what s).fp = s.fp ∧ (requestHoldup what s).wc = s.wc ∧ (requestHoldup what s).sb = s.sb ∧
    (requestHoldup what s).mp.current = s.mp.current ∧ (requestHoldup what s).mp.starvation = s.mp.starvation ∧
    (requestHoldup what s).mp.handing = s.mp.handing ∧ (requestHoldup what s).zu = s.zu ∧ (requestHoldup what s).sm
    = s.sm ∧ (requestHoldup what s).mm = s.mm ∧ (requestHoldup what s).bg = s.bg ∧ (requestHoldup what s).ps = s.ps
    ∧ (requestHoldup what s).se = s.se ∧ (requestHoldup what s).ru = s.ru ∧ (requestHoldup what s).pending =
    s.pending := by
  exact ⟨rfl, rfl, rfl, rfl, rfl, rfl, rfl, rfl, rfl, rfl, rfl, rfl, rfl, rfl, rfl, rfl, rfl, rfl, rfl⟩

/-- What `requestStartup` leaves alone. -/
@[simp] theorem requestStartup_frame (step : StartStep) (s : State) :
    (requestStartup step s).uptimeMs = s.uptimeMs ∧ (requestStartup step s).uptimeSec = s.uptimeSec ∧
    (requestStartup step s).msOfSec = s.msOfSec ∧ (requestStartup step s).fresh = s.fresh ∧ (requestStartup step
    s).pins = s.pins ∧ (requestStartup step s).fp = s.fp ∧ (requestStartup step s).wc = s.wc ∧ (requestStartup step
    s).sb = s.sb ∧ (requestStartup step s).mp.current = s.mp.current ∧ (requestStartup step s).mp.starvation =
    s.mp.starvation ∧ (requestStartup step s).mp.handing = s.mp.handing ∧ (requestStartup step s).zu = s.zu ∧
    (requestStartup step s).sm = s.sm ∧ (requestStartup step s).mm = s.mm ∧ (requestStartup step s).bg = s.bg ∧
    (requestStartup step s).ps.power = s.ps.power ∧ (requestStartup step s).ps.offreq = s.ps.offreq ∧
    (requestStartup step s).ps.phase = s.ps.phase ∧ (requestStartup step s).ps.capacity = s.ps.capacity ∧
    (requestStartup step s).ps.mediaFault = s.ps.mediaFault ∧ (requestStartup step s).se = s.se ∧ (requestStartup
    step s).ru = s.ru ∧ (requestStartup step s).pending = s.pending := by
  exact ⟨rfl, rfl, rfl, rfl, rfl, rfl, rfl, rfl, rfl, rfl, rfl, rfl, rfl, rfl, rfl, rfl, rfl, rfl, rfl, rfl, rfl, rfl, rfl⟩

/-- What `requestMiss` leaves alone. -/
@[simp] theorem requestMiss_frame (r : MissRun) (s : State) :
    (requestMiss r s).uptimeMs = s.uptimeMs ∧ (requestMiss r s).uptimeSec = s.uptimeSec ∧ (requestMiss r s).msOfSec
    = s.msOfSec ∧ (requestMiss r s).fresh = s.fresh ∧ (requestMiss r s).pins = s.pins ∧ (requestMiss r s).fp = s.fp
    ∧ (requestMiss r s).wc = s.wc ∧ (requestMiss r s).sb = s.sb ∧ (requestMiss r s).mp.current = s.mp.current ∧
    (requestMiss r s).mp.starvation = s.mp.starvation ∧ (requestMiss r s).mp.handing = s.mp.handing ∧ (requestMiss r
    s).zu = s.zu ∧ (requestMiss r s).sm = s.sm ∧ (requestMiss r s).mm = s.mm ∧ (requestMiss r s).bg = s.bg ∧
    (requestMiss r s).ps = s.ps ∧ (requestMiss r s).se = s.se ∧ (requestMiss r s).ru = s.ru ∧ (requestMiss r
    s).pending = s.pending := by
  exact ⟨rfl, rfl, rfl, rfl, rfl, rfl, rfl, rfl, rfl, rfl, rfl, rfl, rfl, rfl, rfl, rfl, rfl, rfl, rfl⟩

/-- What `offWithoutImage` leaves alone. -/
@[simp] theorem offWithoutImage_frame (s : State) :
    (offWithoutImage s).uptimeMs = s.uptimeMs ∧ (offWithoutImage s).uptimeSec = s.uptimeSec ∧ (offWithoutImage s).msOfSec = s.msOfSec
    ∧ (offWithoutImage s).fresh = s.fresh ∧ (offWithoutImage s).pins = s.pins ∧ (offWithoutImage s).sb = s.sb ∧ (offWithoutImage
    s).mp.handing = s.mp.handing ∧ (offWithoutImage s).zu = s.zu ∧ (offWithoutImage s).sm.limit = s.sm.limit ∧ (offWithoutImage
    s).sm.budget = s.sm.budget ∧ (offWithoutImage s).sm.rail = s.sm.rail ∧ (offWithoutImage s).sm.vcap = s.sm.vcap ∧ (offWithoutImage
    s).sm.energy = s.sm.energy ∧ (offWithoutImage s).sm.avail = s.sm.avail ∧ (offWithoutImage s).mm = s.mm ∧ (offWithoutImage s).bg =
    s.bg ∧ (offWithoutImage s).ps.capacity = s.ps.capacity ∧ (offWithoutImage s).ps.startPos = s.ps.startPos ∧ (offWithoutImage
    s).ps.mediaFault = s.ps.mediaFault ∧ (offWithoutImage s).pending = s.pending := by
  unfold offWithoutImage; split <;> simp

/-- What `enterSave` leaves alone. -/
@[simp] theorem enterSave_frame (s : State) :
    (enterSave s).uptimeMs = s.uptimeMs ∧ (enterSave s).uptimeSec = s.uptimeSec ∧ (enterSave s).msOfSec = s.msOfSec
    ∧ (enterSave s).fresh = s.fresh ∧ (enterSave s).pins = s.pins ∧ (enterSave s).sb = s.sb ∧ (enterSave
    s).mp.handing = s.mp.handing ∧ (enterSave s).zu = s.zu ∧ (enterSave s).sm.limit = s.sm.limit ∧ (enterSave
    s).sm.budget = s.sm.budget ∧ (enterSave s).sm.rail = s.sm.rail ∧ (enterSave s).sm.vcap = s.sm.vcap ∧ (enterSave
    s).sm.energy = s.sm.energy ∧ (enterSave s).sm.avail = s.sm.avail ∧ (enterSave s).mm = s.mm ∧ (enterSave s).bg =
    s.bg ∧ (enterSave s).ps.capacity = s.ps.capacity ∧ (enterSave s).ps.startPos = s.ps.startPos ∧ (enterSave
    s).ps.mediaFault = s.ps.mediaFault ∧ (enterSave s).pending = s.pending := by
  unfold enterSave; (try dsimp only); (repeat' split) <;> simp

/-- What `testDrained` leaves alone. -/
@[simp] theorem testDrained_frame (s : State) :
    (testDrained s).uptimeMs = s.uptimeMs ∧ (testDrained s).uptimeSec = s.uptimeSec ∧ (testDrained s).msOfSec =
    s.msOfSec ∧ (testDrained s).fresh = s.fresh ∧ (testDrained s).pins = s.pins ∧ (testDrained s).sb = s.sb ∧
    (testDrained s).mp.handing = s.mp.handing ∧ (testDrained s).zu = s.zu ∧ (testDrained s).sm.limit = s.sm.limit ∧
    (testDrained s).sm.budget = s.sm.budget ∧ (testDrained s).sm.rail = s.sm.rail ∧ (testDrained s).sm.vcap =
    s.sm.vcap ∧ (testDrained s).sm.energy = s.sm.energy ∧ (testDrained s).sm.avail = s.sm.avail ∧ (testDrained s).mm
    = s.mm ∧ (testDrained s).bg = s.bg ∧ (testDrained s).ps.capacity = s.ps.capacity ∧ (testDrained s).ps.startPos =
    s.ps.startPos ∧ (testDrained s).ps.mediaFault = s.ps.mediaFault ∧ (testDrained s).pending = s.pending := by
  unfold testDrained; (repeat' split) <;> simp

/-- What `grantDrain` leaves alone. -/
@[simp] theorem grantDrain_frame (s : State) :
    (grantDrain s).uptimeMs = s.uptimeMs ∧ (grantDrain s).uptimeSec = s.uptimeSec ∧ (grantDrain s).msOfSec =
    s.msOfSec ∧ (grantDrain s).fresh = s.fresh ∧ (grantDrain s).pins = s.pins ∧ (grantDrain s).fp = s.fp ∧
    (grantDrain s).wc = s.wc ∧ (grantDrain s).sb.deferred = s.sb.deferred ∧ (grantDrain s).mp.handing = s.mp.handing
    ∧ (grantDrain s).zu = s.zu ∧ (grantDrain s).sm = s.sm ∧ (grantDrain s).mm = s.mm ∧ (grantDrain s).bg = s.bg ∧
    (grantDrain s).ps = s.ps ∧ (grantDrain s).se = s.se ∧ (grantDrain s).ru = s.ru ∧ (grantDrain s).pending =
    s.pending := by
  unfold grantDrain; (try dsimp only); (repeat' split) <;> simp

/-- What `grantMiss` leaves alone. -/
@[simp] theorem grantMiss_frame (r : MissRun) (s : State) :
    (grantMiss r s).uptimeMs = s.uptimeMs ∧ (grantMiss r s).uptimeSec = s.uptimeSec ∧ (grantMiss r s).msOfSec =
    s.msOfSec ∧ (grantMiss r s).fresh = s.fresh ∧ (grantMiss r s).pins = s.pins ∧ (grantMiss r s).fp = s.fp ∧
    (grantMiss r s).wc = s.wc ∧ (grantMiss r s).sb = s.sb ∧ (grantMiss r s).mp.handing = s.mp.handing ∧ (grantMiss r
    s).zu = s.zu ∧ (grantMiss r s).sm = s.sm ∧ (grantMiss r s).mm = s.mm ∧ (grantMiss r s).bg = s.bg ∧ (grantMiss r
    s).ps = s.ps ∧ (grantMiss r s).se = s.se ∧ (grantMiss r s).ru = s.ru ∧ (grantMiss r s).pending = s.pending := by
  exact ⟨rfl, rfl, rfl, rfl, rfl, rfl, rfl, rfl, rfl, rfl, rfl, rfl, rfl, rfl, rfl, rfl, rfl⟩

/-- What `grantWaitingMiss` leaves alone. -/
@[simp] theorem grantWaitingMiss_frame (s : State) :
    (grantWaitingMiss s).uptimeMs = s.uptimeMs ∧ (grantWaitingMiss s).uptimeSec = s.uptimeSec ∧ (grantWaitingMiss
    s).msOfSec = s.msOfSec ∧ (grantWaitingMiss s).fresh = s.fresh ∧ (grantWaitingMiss s).pins = s.pins ∧
    (grantWaitingMiss s).fp = s.fp ∧ (grantWaitingMiss s).wc = s.wc ∧ (grantWaitingMiss s).sb = s.sb ∧
    (grantWaitingMiss s).mp.handing = s.mp.handing ∧ (grantWaitingMiss s).zu = s.zu ∧ (grantWaitingMiss s).sm = s.sm
    ∧ (grantWaitingMiss s).mm = s.mm ∧ (grantWaitingMiss s).bg = s.bg ∧ (grantWaitingMiss s).ps = s.ps ∧
    (grantWaitingMiss s).se = s.se ∧ (grantWaitingMiss s).ru = s.ru ∧ (grantWaitingMiss s).pending = s.pending := by
  unfold grantWaitingMiss; (repeat' split) <;> simp

/-- What `grantService` leaves alone. -/
@[simp] theorem grantService_frame (s : State) :
    (grantService s).uptimeMs = s.uptimeMs ∧ (grantService s).uptimeSec = s.uptimeSec ∧ (grantService s).msOfSec =
    s.msOfSec ∧ (grantService s).fresh = s.fresh ∧ (grantService s).pins = s.pins ∧ (grantService s).fp = s.fp ∧
    (grantService s).wc = s.wc ∧ (grantService s).sb.deferred = s.sb.deferred ∧ (grantService s).mp.handing =
    s.mp.handing ∧ (grantService s).zu = s.zu ∧ (grantService s).sm = s.sm ∧ (grantService s).mm = s.mm ∧
    (grantService s).bg = s.bg ∧ (grantService s).ps = s.ps ∧ (grantService s).se = s.se ∧ (grantService s).ru =
    s.ru ∧ (grantService s).pending = s.pending := by
  unfold grantService; (repeat' split) <;> simp

/-- What `stopDraining` leaves alone. -/
@[simp] theorem stopDraining_frame (s : State) :
    (stopDraining s).uptimeMs = s.uptimeMs ∧ (stopDraining s).uptimeSec = s.uptimeSec ∧ (stopDraining s).msOfSec =
    s.msOfSec ∧ (stopDraining s).fresh = s.fresh ∧ (stopDraining s).pins = s.pins ∧ (stopDraining s).mp.handing =
    s.mp.handing ∧ (stopDraining s).zu.settings = s.zu.settings ∧ (stopDraining s).zu.zones = s.zu.zones ∧
    (stopDraining s).sm.limit = s.sm.limit ∧ (stopDraining s).sm.budget = s.sm.budget ∧ (stopDraining s).sm.rail =
    s.sm.rail ∧ (stopDraining s).sm.vcap = s.sm.vcap ∧ (stopDraining s).sm.energy = s.sm.energy ∧ (stopDraining
    s).sm.avail = s.sm.avail ∧ (stopDraining s).mm = s.mm ∧ (stopDraining s).bg = s.bg ∧ (stopDraining
    s).ps.capacity = s.ps.capacity ∧ (stopDraining s).ps.startPos = s.ps.startPos ∧ (stopDraining s).ps.mediaFault =
    s.ps.mediaFault ∧ (stopDraining s).pending = s.pending := by
  unfold stopDraining; (try dsimp only); (repeat' split) <;> simp

/-- What `grantHoldup` leaves alone. -/
@[simp] theorem grantHoldup_frame (what : HoldupRequest) (s : State) :
    (grantHoldup what s).uptimeMs = s.uptimeMs ∧ (grantHoldup what s).uptimeSec = s.uptimeSec ∧ (grantHoldup what
    s).msOfSec = s.msOfSec ∧ (grantHoldup what s).fresh = s.fresh ∧ (grantHoldup what s).pins = s.pins ∧
    (grantHoldup what s).mp.handing = s.mp.handing ∧ (grantHoldup what s).zu.settings = s.zu.settings ∧ (grantHoldup
    what s).zu.zones = s.zu.zones ∧ (grantHoldup what s).sm.limit = s.sm.limit ∧ (grantHoldup what s).sm.budget =
    s.sm.budget ∧ (grantHoldup what s).sm.rail = s.sm.rail ∧ (grantHoldup what s).sm.vcap = s.sm.vcap ∧ (grantHoldup
    what s).sm.energy = s.sm.energy ∧ (grantHoldup what s).sm.avail = s.sm.avail ∧ (grantHoldup what s).mm = s.mm ∧
    (grantHoldup what s).bg = s.bg ∧ (grantHoldup what s).ps.capacity = s.ps.capacity ∧ (grantHoldup what
    s).ps.startPos = s.ps.startPos ∧ (grantHoldup what s).ps.mediaFault = s.ps.mediaFault ∧ (grantHoldup what
    s).pending = s.pending := by
  unfold grantHoldup; (try dsimp only); (repeat' split) <;> simp

/-- What `grantStarting` leaves alone. -/
@[simp] theorem grantStarting_frame (s : State) :
    (grantStarting s).uptimeMs = s.uptimeMs ∧ (grantStarting s).uptimeSec = s.uptimeSec ∧ (grantStarting s).msOfSec
    = s.msOfSec ∧ (grantStarting s).fresh = s.fresh ∧ (grantStarting s).pins = s.pins ∧ (grantStarting s).fp = s.fp
    ∧ (grantStarting s).wc = s.wc ∧ (grantStarting s).sb.deferred = s.sb.deferred ∧ (grantStarting s).mp.handing =
    s.mp.handing ∧ (grantStarting s).zu = s.zu ∧ (grantStarting s).sm = s.sm ∧ (grantStarting s).mm = s.mm ∧
    (grantStarting s).bg = s.bg ∧ (grantStarting s).ps = s.ps ∧ (grantStarting s).se = s.se ∧ (grantStarting s).ru =
    s.ru ∧ (grantStarting s).pending = s.pending := by
  unfold grantStarting; (repeat' split) <;> simp

/-- What `grantNext` leaves alone. -/
@[simp] theorem grantNext_frame (s : State) :
    (grantNext s).uptimeMs = s.uptimeMs ∧ (grantNext s).uptimeSec = s.uptimeSec ∧ (grantNext s).msOfSec = s.msOfSec
    ∧ (grantNext s).fresh = s.fresh ∧ (grantNext s).pins = s.pins ∧ (grantNext s).mp.handing = s.mp.handing ∧
    (grantNext s).zu.settings = s.zu.settings ∧ (grantNext s).zu.zones = s.zu.zones ∧ (grantNext s).sm.limit =
    s.sm.limit ∧ (grantNext s).sm.budget = s.sm.budget ∧ (grantNext s).sm.rail = s.sm.rail ∧ (grantNext s).sm.vcap =
    s.sm.vcap ∧ (grantNext s).sm.energy = s.sm.energy ∧ (grantNext s).sm.avail = s.sm.avail ∧ (grantNext s).mm =
    s.mm ∧ (grantNext s).bg = s.bg ∧ (grantNext s).ps.capacity = s.ps.capacity ∧ (grantNext s).ps.startPos =
    s.ps.startPos ∧ (grantNext s).ps.mediaFault = s.ps.mediaFault ∧ (grantNext s).pending = s.pending := by
  unfold grantNext; (repeat' split) <;> simp

/-- What `pump` leaves alone. -/
@[simp] theorem pump_frame (s : State) :
    (pump s).uptimeMs = s.uptimeMs ∧ (pump s).uptimeSec = s.uptimeSec ∧ (pump s).msOfSec = s.msOfSec ∧ (pump
    s).fresh = s.fresh ∧ (pump s).pins = s.pins ∧ (pump s).mp.handing = s.mp.handing ∧ (pump s).zu.settings =
    s.zu.settings ∧ (pump s).zu.zones = s.zu.zones ∧ (pump s).sm.limit = s.sm.limit ∧ (pump s).sm.budget =
    s.sm.budget ∧ (pump s).sm.rail = s.sm.rail ∧ (pump s).sm.vcap = s.sm.vcap ∧ (pump s).sm.energy = s.sm.energy ∧
    (pump s).sm.avail = s.sm.avail ∧ (pump s).mm = s.mm ∧ (pump s).bg = s.bg ∧ (pump s).ps.capacity = s.ps.capacity
    ∧ (pump s).ps.startPos = s.ps.startPos ∧ (pump s).ps.mediaFault = s.ps.mediaFault ∧ (pump s).pending = s.pending := by
  simp [pump]

/-- What `grantAmong` leaves alone. -/
@[simp] theorem grantAmong_frame (old : Waiters) (s : State) :
    (grantAmong old s).uptimeMs = s.uptimeMs ∧ (grantAmong old s).uptimeSec = s.uptimeSec ∧ (grantAmong old
    s).msOfSec = s.msOfSec ∧ (grantAmong old s).fresh = s.fresh ∧ (grantAmong old s).pins = s.pins ∧ (grantAmong old
    s).mp.handing = s.mp.handing ∧ (grantAmong old s).zu.settings = s.zu.settings ∧ (grantAmong old s).zu.zones =
    s.zu.zones ∧ (grantAmong old s).sm.limit = s.sm.limit ∧ (grantAmong old s).sm.budget = s.sm.budget ∧ (grantAmong
    old s).sm.rail = s.sm.rail ∧ (grantAmong old s).sm.vcap = s.sm.vcap ∧ (grantAmong old s).sm.energy = s.sm.energy
    ∧ (grantAmong old s).sm.avail = s.sm.avail ∧ (grantAmong old s).mm = s.mm ∧ (grantAmong old s).bg = s.bg ∧
    (grantAmong old s).ps.capacity = s.ps.capacity ∧ (grantAmong old s).ps.startPos = s.ps.startPos ∧ (grantAmong
    old s).ps.mediaFault = s.ps.mediaFault ∧ (grantAmong old s).pending = s.pending := by
  simp [grantAmong]

/-- What `goIdle` leaves alone. -/
@[simp] theorem goIdle_frame (before : Waiters) (s : State) :
    (goIdle before s).uptimeMs = s.uptimeMs ∧ (goIdle before s).uptimeSec = s.uptimeSec ∧ (goIdle before s).msOfSec
    = s.msOfSec ∧ (goIdle before s).pins = s.pins ∧ (goIdle before s).zu.settings = s.zu.settings ∧ (goIdle before
    s).zu.zones = s.zu.zones ∧ (goIdle before s).sm.limit = s.sm.limit ∧ (goIdle before s).sm.budget = s.sm.budget ∧
    (goIdle before s).sm.rail = s.sm.rail ∧ (goIdle before s).sm.vcap = s.sm.vcap ∧ (goIdle before s).sm.energy =
    s.sm.energy ∧ (goIdle before s).sm.avail = s.sm.avail ∧ (goIdle before s).mm = s.mm ∧ (goIdle before s).bg =
    s.bg ∧ (goIdle before s).ps.capacity = s.ps.capacity ∧ (goIdle before s).ps.startPos = s.ps.startPos ∧ (goIdle
    before s).ps.mediaFault = s.ps.mediaFault ∧ (goIdle before s).pending = s.pending := by
  unfold goIdle; (try dsimp only); (repeat' split) <;> simp

end Sys2Proof.Machine
end

