-- ==== Sys2Proof/Laws/FrameGaugeOps.lean ====
section
/-! SUPPORT. For each operation of Machine/GaugeOps.lean, the parts of the state it leaves alone, said once. -/

namespace Sys2Proof.Machine

open Sys2Proof

/-- What `reportFlags` leaves alone. -/
@[simp] theorem reportFlags_frame (old : Gauge) (s : State) :
    (reportFlags old s).uptimeMs = s.uptimeMs ∧ (reportFlags old s).uptimeSec = s.uptimeSec ∧ (reportFlags old
    s).msOfSec = s.msOfSec ∧ (reportFlags old s).fresh = s.fresh ∧ (reportFlags old s).pins = s.pins ∧ (reportFlags
    old s).fp.req = s.fp.req ∧ (reportFlags old s).wc = s.wc ∧ (reportFlags old s).sb = s.sb ∧ (reportFlags old
    s).mp = s.mp ∧ (reportFlags old s).zu = s.zu ∧ (reportFlags old s).sm.limit = s.sm.limit ∧ (reportFlags old
    s).sm.budget = s.sm.budget ∧ (reportFlags old s).sm.rail = s.sm.rail ∧ (reportFlags old s).sm.vcap = s.sm.vcap ∧
    (reportFlags old s).sm.energy = s.sm.energy ∧ (reportFlags old s).sm.avail = s.sm.avail ∧ (reportFlags old s).mm
    = s.mm ∧ (reportFlags old s).bg = s.bg ∧ (reportFlags old s).ps = s.ps ∧ (reportFlags old s).se = s.se ∧
    (reportFlags old s).ru.pending = s.ru.pending ∧ (reportFlags old s).pending = s.pending := by
  unfold reportFlags; (repeat' split) <;> simp

/-- What `reportGaugeChange` leaves alone. -/
@[simp] theorem reportGaugeChange_frame (old : Gauge) (s : State) :
    (reportGaugeChange old s).uptimeMs = s.uptimeMs ∧ (reportGaugeChange old s).uptimeSec = s.uptimeSec ∧
    (reportGaugeChange old s).msOfSec = s.msOfSec ∧ (reportGaugeChange old s).fresh = s.fresh ∧ (reportGaugeChange
    old s).pins = s.pins ∧ (reportGaugeChange old s).fp = s.fp ∧ (reportGaugeChange old s).wc = s.wc ∧
    (reportGaugeChange old s).sb = s.sb ∧ (reportGaugeChange old s).mp = s.mp ∧ (reportGaugeChange old s).zu = s.zu
    ∧ (reportGaugeChange old s).sm = s.sm ∧ (reportGaugeChange old s).mm = s.mm ∧ (reportGaugeChange old s).bg =
    s.bg ∧ (reportGaugeChange old s).ps = s.ps ∧ (reportGaugeChange old s).se = s.se ∧ (reportGaugeChange old
    s).ru.pending = s.ru.pending ∧ (reportGaugeChange old s).ru.attn = s.ru.attn ∧ (reportGaugeChange old s).pending
    = s.pending := by
  unfold reportGaugeChange; (repeat' split) <;> simp

/-- What `reportSoc` leaves alone. -/
@[simp] theorem reportSoc_frame (old : Gauge) (s : State) :
    (reportSoc old s).uptimeMs = s.uptimeMs ∧ (reportSoc old s).uptimeSec = s.uptimeSec ∧ (reportSoc old s).msOfSec
    = s.msOfSec ∧ (reportSoc old s).fresh = s.fresh ∧ (reportSoc old s).pins = s.pins ∧ (reportSoc old s).fp = s.fp
    ∧ (reportSoc old s).wc = s.wc ∧ (reportSoc old s).sb = s.sb ∧ (reportSoc old s).mp = s.mp ∧ (reportSoc old
    s).zu.settings = s.zu.settings ∧ (reportSoc old s).zu.zones = s.zu.zones ∧ (reportSoc old s).sm = s.sm ∧
    (reportSoc old s).mm = s.mm ∧ (reportSoc old s).bg.flagUnknown = s.bg.flagUnknown ∧ (reportSoc old s).bg.isSet =
    s.bg.isSet ∧ (reportSoc old s).bg.soc = s.bg.soc ∧ (reportSoc old s).ps = s.ps ∧ (reportSoc old s).se = s.se ∧
    (reportSoc old s).ru.pending = s.ru.pending ∧ (reportSoc old s).ru.attn = s.ru.attn ∧ (reportSoc old s).pending
    = s.pending := by
  unfold reportSoc; (repeat' split) <;> simp

/-- What `publishGauge` leaves alone. -/
@[simp] theorem publishGauge_frame (g : Gauge) (s : State) :
    (publishGauge g s).uptimeMs = s.uptimeMs ∧ (publishGauge g s).uptimeSec = s.uptimeSec ∧ (publishGauge g
    s).msOfSec = s.msOfSec ∧ (publishGauge g s).fresh = s.fresh ∧ (publishGauge g s).pins = s.pins ∧ (publishGauge g
    s).fp.req = s.fp.req ∧ (publishGauge g s).wc = s.wc ∧ (publishGauge g s).sb = s.sb ∧ (publishGauge g s).mp =
    s.mp ∧ (publishGauge g s).zu.settings = s.zu.settings ∧ (publishGauge g s).zu.zones = s.zu.zones ∧ (publishGauge
    g s).sm.limit = s.sm.limit ∧ (publishGauge g s).sm.budget = s.sm.budget ∧ (publishGauge g s).sm.rail = s.sm.rail
    ∧ (publishGauge g s).sm.vcap = s.sm.vcap ∧ (publishGauge g s).sm.energy = s.sm.energy ∧ (publishGauge g
    s).sm.avail = s.sm.avail ∧ (publishGauge g s).mm = s.mm ∧ (publishGauge g s).ps = s.ps ∧ (publishGauge g s).se =
    s.se ∧ (publishGauge g s).ru.pending = s.ru.pending ∧ (publishGauge g s).pending = s.pending := by
  simp [publishGauge]

/-- What `publishFlags` leaves alone. -/
@[simp] theorem publishFlags_frame (g : Gauge) (s : State) :
    (publishFlags g s).uptimeMs = s.uptimeMs ∧ (publishFlags g s).uptimeSec = s.uptimeSec ∧ (publishFlags g
    s).msOfSec = s.msOfSec ∧ (publishFlags g s).fresh = s.fresh ∧ (publishFlags g s).pins = s.pins ∧ (publishFlags g
    s).fp.req = s.fp.req ∧ (publishFlags g s).wc = s.wc ∧ (publishFlags g s).sb = s.sb ∧ (publishFlags g s).mp =
    s.mp ∧ (publishFlags g s).zu = s.zu ∧ (publishFlags g s).sm.limit = s.sm.limit ∧ (publishFlags g s).sm.budget =
    s.sm.budget ∧ (publishFlags g s).sm.rail = s.sm.rail ∧ (publishFlags g s).sm.vcap = s.sm.vcap ∧ (publishFlags g
    s).sm.energy = s.sm.energy ∧ (publishFlags g s).sm.avail = s.sm.avail ∧ (publishFlags g s).mm = s.mm ∧
    (publishFlags g s).ps = s.ps ∧ (publishFlags g s).se = s.se ∧ (publishFlags g s).ru.pending = s.ru.pending ∧
    (publishFlags g s).pending = s.pending := by
  simp [publishFlags]

/-- What `takeDesign` leaves alone. -/
@[simp] theorem takeDesign_frame (old : Nat) (s : State) :
    (takeDesign old s).uptimeMs = s.uptimeMs ∧ (takeDesign old s).uptimeSec = s.uptimeSec ∧ (takeDesign old
    s).msOfSec = s.msOfSec ∧ (takeDesign old s).fresh = s.fresh ∧ (takeDesign old s).pins = s.pins ∧ (takeDesign old
    s).fp.req = s.fp.req ∧ (takeDesign old s).wc = s.wc ∧ (takeDesign old s).sb = s.sb ∧ (takeDesign old s).mp =
    s.mp ∧ (takeDesign old s).zu.settings = s.zu.settings ∧ (takeDesign old s).zu.zones = s.zu.zones ∧ (takeDesign
    old s).sm.limit = s.sm.limit ∧ (takeDesign old s).sm.budget = s.sm.budget ∧ (takeDesign old s).sm.rail =
    s.sm.rail ∧ (takeDesign old s).sm.vcap = s.sm.vcap ∧ (takeDesign old s).sm.energy = s.sm.energy ∧ (takeDesign
    old s).sm.avail = s.sm.avail ∧ (takeDesign old s).mm = s.mm ∧ (takeDesign old s).ps = s.ps ∧ (takeDesign old
    s).se = s.se ∧ (takeDesign old s).ru.pending = s.ru.pending ∧ (takeDesign old s).pending = s.pending := by
  unfold takeDesign; (try dsimp only); (repeat' split) <;> simp

/-- What `coldDecision` leaves alone. -/
@[simp] theorem coldDecision_frame (s : State) :
    (coldDecision s).uptimeMs = s.uptimeMs ∧ (coldDecision s).uptimeSec = s.uptimeSec ∧ (coldDecision s).msOfSec =
    s.msOfSec ∧ (coldDecision s).fresh = s.fresh ∧ (coldDecision s).pins = s.pins ∧ (coldDecision s).fp.req =
    s.fp.req ∧ (coldDecision s).wc = s.wc ∧ (coldDecision s).sb = s.sb ∧ (coldDecision s).mp = s.mp ∧ (coldDecision
    s).zu.settings = s.zu.settings ∧ (coldDecision s).zu.zones = s.zu.zones ∧ (coldDecision s).sm.limit = s.sm.limit
    ∧ (coldDecision s).sm.budget = s.sm.budget ∧ (coldDecision s).sm.rail = s.sm.rail ∧ (coldDecision s).sm.vcap =
    s.sm.vcap ∧ (coldDecision s).sm.energy = s.sm.energy ∧ (coldDecision s).sm.avail = s.sm.avail ∧ (coldDecision
    s).mm = s.mm ∧ (coldDecision s).ps = s.ps ∧ (coldDecision s).se = s.se ∧ (coldDecision s).ru.pending =
    s.ru.pending ∧ (coldDecision s).pending = s.pending := by
  unfold coldDecision; (repeat' split) <;> simp

/-- What `takeGaugeSample` leaves alone. -/
@[simp] theorem takeGaugeSample_frame (x : GaugeSample) (s : State) :
    (takeGaugeSample x s).uptimeMs = s.uptimeMs ∧ (takeGaugeSample x s).uptimeSec = s.uptimeSec ∧ (takeGaugeSample x
    s).msOfSec = s.msOfSec ∧ (takeGaugeSample x s).fresh = s.fresh ∧ (takeGaugeSample x s).pins = s.pins ∧
    (takeGaugeSample x s).fp.req = s.fp.req ∧ (takeGaugeSample x s).sb = s.sb ∧ (takeGaugeSample x s).mp = s.mp ∧
    (takeGaugeSample x s).zu.settings = s.zu.settings ∧ (takeGaugeSample x s).zu.zones = s.zu.zones ∧
    (takeGaugeSample x s).sm.limit = s.sm.limit ∧ (takeGaugeSample x s).sm.budget = s.sm.budget ∧ (takeGaugeSample x
    s).sm.rail = s.sm.rail ∧ (takeGaugeSample x s).sm.vcap = s.sm.vcap ∧ (takeGaugeSample x s).sm.energy =
    s.sm.energy ∧ (takeGaugeSample x s).sm.avail = s.sm.avail ∧ (takeGaugeSample x s).mm = s.mm ∧ (takeGaugeSample x
    s).ps.phase = s.ps.phase ∧ (takeGaugeSample x s).ps.capacity = s.ps.capacity ∧ (takeGaugeSample x s).ps.startPos
    = s.ps.startPos ∧ (takeGaugeSample x s).ps.mediaFault = s.ps.mediaFault ∧ (takeGaugeSample x s).se = s.se ∧
    (takeGaugeSample x s).pending = s.pending := by
  unfold takeGaugeSample; (try dsimp only); (repeat' split) <;> simp

/-- What `takeGaugeMiss` leaves alone. -/
@[simp] theorem takeGaugeMiss_frame (s : State) :
    (takeGaugeMiss s).uptimeMs = s.uptimeMs ∧ (takeGaugeMiss s).uptimeSec = s.uptimeSec ∧ (takeGaugeMiss s).msOfSec
    = s.msOfSec ∧ (takeGaugeMiss s).fresh = s.fresh ∧ (takeGaugeMiss s).pins = s.pins ∧ (takeGaugeMiss s).fp.req =
    s.fp.req ∧ (takeGaugeMiss s).sb = s.sb ∧ (takeGaugeMiss s).mp = s.mp ∧ (takeGaugeMiss s).zu.settings =
    s.zu.settings ∧ (takeGaugeMiss s).zu.zones = s.zu.zones ∧ (takeGaugeMiss s).sm.limit = s.sm.limit ∧
    (takeGaugeMiss s).sm.budget = s.sm.budget ∧ (takeGaugeMiss s).sm.rail = s.sm.rail ∧ (takeGaugeMiss s).sm.vcap =
    s.sm.vcap ∧ (takeGaugeMiss s).sm.energy = s.sm.energy ∧ (takeGaugeMiss s).sm.avail = s.sm.avail ∧ (takeGaugeMiss
    s).mm = s.mm ∧ (takeGaugeMiss s).ps.phase = s.ps.phase ∧ (takeGaugeMiss s).ps.capacity = s.ps.capacity ∧
    (takeGaugeMiss s).ps.startPos = s.ps.startPos ∧ (takeGaugeMiss s).ps.mediaFault = s.ps.mediaFault ∧
    (takeGaugeMiss s).se = s.se ∧ (takeGaugeMiss s).pending = s.pending := by
  unfold takeGaugeMiss; (try dsimp only); (repeat' split) <;> simp

end Sys2Proof.Machine
end

