-- ==== Sys2Proof/Laws/FrameMotionOps.lean ====
section
/-! SUPPORT. For each operation of Machine/MotionOps.lean, the parts of the state it leaves alone, said once. -/

namespace Sys2Proof.Machine

open Sys2Proof

/-- What `recordDrop` leaves alone. -/
@[simp] theorem recordDrop_frame (o : DropOutcome) (s : State) :
    (recordDrop o s).uptimeMs = s.uptimeMs ∧ (recordDrop o s).uptimeSec = s.uptimeSec ∧ (recordDrop o s).msOfSec =
    s.msOfSec ∧ (recordDrop o s).fresh = s.fresh ∧ (recordDrop o s).pins = s.pins ∧ (recordDrop o s).fp = s.fp ∧
    (recordDrop o s).wc = s.wc ∧ (recordDrop o s).sb = s.sb ∧ (recordDrop o s).mp = s.mp ∧ (recordDrop o
    s).zu.settings = s.zu.settings ∧ (recordDrop o s).zu.zones = s.zu.zones ∧ (recordDrop o s).sm = s.sm ∧
    (recordDrop o s).bg = s.bg ∧ (recordDrop o s).ps = s.ps ∧ (recordDrop o s).se = s.se ∧ (recordDrop o s).pending
    = s.pending := by
  simp [recordDrop]

/-- What `limitAtMotion` leaves alone. -/
@[simp] theorem limitAtMotion_frame (s : State) :
    (limitAtMotion s).uptimeMs = s.uptimeMs ∧ (limitAtMotion s).uptimeSec = s.uptimeSec ∧ (limitAtMotion s).msOfSec
    = s.msOfSec ∧ (limitAtMotion s).fresh = s.fresh ∧ (limitAtMotion s).pins = s.pins ∧ (limitAtMotion s).fp.req =
    s.fp.req ∧ (limitAtMotion s).wc = s.wc ∧ (limitAtMotion s).sb = s.sb ∧ (limitAtMotion s).mp = s.mp ∧
    (limitAtMotion s).zu = s.zu ∧ (limitAtMotion s).sm.budget = s.sm.budget ∧ (limitAtMotion s).sm.rail = s.sm.rail
    ∧ (limitAtMotion s).sm.vcap = s.sm.vcap ∧ (limitAtMotion s).sm.energy = s.sm.energy ∧ (limitAtMotion s).sm.avail
    = s.sm.avail ∧ (limitAtMotion s).mm = s.mm ∧ (limitAtMotion s).bg = s.bg ∧ (limitAtMotion s).ps = s.ps ∧
    (limitAtMotion s).se = s.se ∧ (limitAtMotion s).ru = s.ru ∧ (limitAtMotion s).pending = s.pending := by
  simp [limitAtMotion]

/-- What `enterDisabled` leaves alone. -/
@[simp] theorem enterDisabled_frame (s : State) :
    (enterDisabled s).uptimeMs = s.uptimeMs ∧ (enterDisabled s).uptimeSec = s.uptimeSec ∧ (enterDisabled s).msOfSec
    = s.msOfSec ∧ (enterDisabled s).fresh = s.fresh ∧ (enterDisabled s).pins = s.pins ∧ (enterDisabled s).fp.req =
    s.fp.req ∧ (enterDisabled s).wc = s.wc ∧ (enterDisabled s).sb = s.sb ∧ (enterDisabled s).mp = s.mp ∧
    (enterDisabled s).zu.settings = s.zu.settings ∧ (enterDisabled s).zu.zones = s.zu.zones ∧ (enterDisabled
    s).sm.budget = s.sm.budget ∧ (enterDisabled s).sm.rail = s.sm.rail ∧ (enterDisabled s).sm.vcap = s.sm.vcap ∧
    (enterDisabled s).sm.energy = s.sm.energy ∧ (enterDisabled s).sm.avail = s.sm.avail ∧ (enterDisabled s).bg =
    s.bg ∧ (enterDisabled s).ps = s.ps ∧ (enterDisabled s).se = s.se ∧ (enterDisabled s).pending = s.pending := by
  unfold enterDisabled; (repeat' split) <;> simp

/-- What `leaveDisabled` leaves alone. -/
@[simp] theorem leaveDisabled_frame (s : State) :
    (leaveDisabled s).uptimeMs = s.uptimeMs ∧ (leaveDisabled s).uptimeSec = s.uptimeSec ∧ (leaveDisabled s).msOfSec
    = s.msOfSec ∧ (leaveDisabled s).fresh = s.fresh ∧ (leaveDisabled s).pins = s.pins ∧ (leaveDisabled s).fp.req =
    s.fp.req ∧ (leaveDisabled s).wc = s.wc ∧ (leaveDisabled s).sb = s.sb ∧ (leaveDisabled s).mp = s.mp ∧
    (leaveDisabled s).zu = s.zu ∧ (leaveDisabled s).sm.budget = s.sm.budget ∧ (leaveDisabled s).sm.rail = s.sm.rail
    ∧ (leaveDisabled s).sm.vcap = s.sm.vcap ∧ (leaveDisabled s).sm.energy = s.sm.energy ∧ (leaveDisabled s).sm.avail
    = s.sm.avail ∧ (leaveDisabled s).mm.log = s.mm.log ∧ (leaveDisabled s).bg = s.bg ∧ (leaveDisabled s).ps = s.ps ∧
    (leaveDisabled s).se = s.se ∧ (leaveDisabled s).ru.pending = s.ru.pending ∧ (leaveDisabled s).pending =
    s.pending := by
  simp [leaveDisabled]

/-- What `beginFall` leaves alone. -/
@[simp] theorem beginFall_frame (run : Nat) (s : State) :
    (beginFall run s).uptimeMs = s.uptimeMs ∧ (beginFall run s).uptimeSec = s.uptimeSec ∧ (beginFall run s).msOfSec
    = s.msOfSec ∧ (beginFall run s).fresh = s.fresh ∧ (beginFall run s).pins = s.pins ∧ (beginFall run s).fp = s.fp
    ∧ (beginFall run s).wc = s.wc ∧ (beginFall run s).sb = s.sb ∧ (beginFall run s).mp = s.mp ∧ (beginFall run s).zu
    = s.zu ∧ (beginFall run s).sm = s.sm ∧ (beginFall run s).mm.log = s.mm.log ∧ (beginFall run s).bg = s.bg ∧
    (beginFall run s).ps = s.ps ∧ (beginFall run s).se = s.se ∧ (beginFall run s).ru = s.ru ∧ (beginFall run
    s).pending = s.pending := by
  exact ⟨rfl, rfl, rfl, rfl, rfl, rfl, rfl, rfl, rfl, rfl, rfl, rfl, rfl, rfl, rfl, rfl, rfl⟩

/-- What `strike` leaves alone. -/
@[simp] theorem strike_frame (m : Nat) (s : State) :
    (strike m s).uptimeMs = s.uptimeMs ∧ (strike m s).uptimeSec = s.uptimeSec ∧ (strike m s).msOfSec = s.msOfSec ∧
    (strike m s).fresh = s.fresh ∧ (strike m s).pins = s.pins ∧ (strike m s).fp = s.fp ∧ (strike m s).wc = s.wc ∧
    (strike m s).sb = s.sb ∧ (strike m s).mp = s.mp ∧ (strike m s).zu = s.zu ∧ (strike m s).sm = s.sm ∧ (strike m
    s).mm.log = s.mm.log ∧ (strike m s).bg = s.bg ∧ (strike m s).ps = s.ps ∧ (strike m s).se = s.se ∧ (strike m
    s).ru = s.ru ∧ (strike m s).pending = s.pending := by
  exact ⟨rfl, rfl, rfl, rfl, rfl, rfl, rfl, rfl, rfl, rfl, rfl, rfl, rfl, rfl, rfl, rfl, rfl⟩

/-- What `comeToRest` leaves alone. -/
@[simp] theorem comeToRest_frame (o : DropOutcome) (s : State) :
    (comeToRest o s).uptimeMs = s.uptimeMs ∧ (comeToRest o s).uptimeSec = s.uptimeSec ∧ (comeToRest o s).msOfSec =
    s.msOfSec ∧ (comeToRest o s).fresh = s.fresh ∧ (comeToRest o s).pins = s.pins ∧ (comeToRest o s).fp = s.fp ∧
    (comeToRest o s).wc = s.wc ∧ (comeToRest o s).sb = s.sb ∧ (comeToRest o s).mp = s.mp ∧ (comeToRest o
    s).zu.settings = s.zu.settings ∧ (comeToRest o s).zu.zones = s.zu.zones ∧ (comeToRest o s).sm = s.sm ∧
    (comeToRest o s).bg = s.bg ∧ (comeToRest o s).ps = s.ps ∧ (comeToRest o s).se = s.se ∧ (comeToRest o s).pending
    = s.pending := by
  simp [comeToRest]

/-- What `sampleDisabled` leaves alone. -/
@[simp] theorem sampleDisabled_frame (m : Nat) (s : State) :
    (sampleDisabled m s).uptimeMs = s.uptimeMs ∧ (sampleDisabled m s).uptimeSec = s.uptimeSec ∧ (sampleDisabled m
    s).msOfSec = s.msOfSec ∧ (sampleDisabled m s).fresh = s.fresh ∧ (sampleDisabled m s).pins = s.pins ∧
    (sampleDisabled m s).fp.req = s.fp.req ∧ (sampleDisabled m s).wc = s.wc ∧ (sampleDisabled m s).sb = s.sb ∧
    (sampleDisabled m s).mp = s.mp ∧ (sampleDisabled m s).zu = s.zu ∧ (sampleDisabled m s).sm.budget = s.sm.budget ∧
    (sampleDisabled m s).sm.rail = s.sm.rail ∧ (sampleDisabled m s).sm.vcap = s.sm.vcap ∧ (sampleDisabled m
    s).sm.energy = s.sm.energy ∧ (sampleDisabled m s).sm.avail = s.sm.avail ∧ (sampleDisabled m s).mm.log = s.mm.log
    ∧ (sampleDisabled m s).bg = s.bg ∧ (sampleDisabled m s).ps = s.ps ∧ (sampleDisabled m s).se = s.se ∧
    (sampleDisabled m s).ru.pending = s.ru.pending ∧ (sampleDisabled m s).pending = s.pending := by
  unfold sampleDisabled; (repeat' split) <;> simp

/-- What `sampleStill` leaves alone. -/
@[simp] theorem sampleStill_frame (m : Nat) (s : State) :
    (sampleStill m s).uptimeMs = s.uptimeMs ∧ (sampleStill m s).uptimeSec = s.uptimeSec ∧ (sampleStill m s).msOfSec
    = s.msOfSec ∧ (sampleStill m s).fresh = s.fresh ∧ (sampleStill m s).pins = s.pins ∧ (sampleStill m s).fp = s.fp
    ∧ (sampleStill m s).wc = s.wc ∧ (sampleStill m s).sb = s.sb ∧ (sampleStill m s).mp = s.mp ∧ (sampleStill m s).zu
    = s.zu ∧ (sampleStill m s).sm = s.sm ∧ (sampleStill m s).mm.log = s.mm.log ∧ (sampleStill m s).bg = s.bg ∧
    (sampleStill m s).ps = s.ps ∧ (sampleStill m s).se = s.se ∧ (sampleStill m s).ru = s.ru ∧ (sampleStill m
    s).pending = s.pending := by
  unfold sampleStill; (try dsimp only); (repeat' split) <;> simp

/-- What `sampleFalling` leaves alone. -/
@[simp] theorem sampleFalling_frame (m : Nat) (s : State) :
    (sampleFalling m s).uptimeMs = s.uptimeMs ∧ (sampleFalling m s).uptimeSec = s.uptimeSec ∧ (sampleFalling m
    s).msOfSec = s.msOfSec ∧ (sampleFalling m s).fresh = s.fresh ∧ (sampleFalling m s).pins = s.pins ∧
    (sampleFalling m s).fp.req = s.fp.req ∧ (sampleFalling m s).wc = s.wc ∧ (sampleFalling m s).sb = s.sb ∧
    (sampleFalling m s).mp = s.mp ∧ (sampleFalling m s).zu.settings = s.zu.settings ∧ (sampleFalling m s).zu.zones =
    s.zu.zones ∧ (sampleFalling m s).sm.budget = s.sm.budget ∧ (sampleFalling m s).sm.rail = s.sm.rail ∧
    (sampleFalling m s).sm.vcap = s.sm.vcap ∧ (sampleFalling m s).sm.energy = s.sm.energy ∧ (sampleFalling m
    s).sm.avail = s.sm.avail ∧ (sampleFalling m s).bg = s.bg ∧ (sampleFalling m s).ps = s.ps ∧ (sampleFalling m
    s).se = s.se ∧ (sampleFalling m s).pending = s.pending := by
  unfold sampleFalling; (try dsimp only); (repeat' split) <;> simp

/-- What `sampleStruck` leaves alone. -/
@[simp] theorem sampleStruck_frame (m : Nat) (s : State) :
    (sampleStruck m s).uptimeMs = s.uptimeMs ∧ (sampleStruck m s).uptimeSec = s.uptimeSec ∧ (sampleStruck m
    s).msOfSec = s.msOfSec ∧ (sampleStruck m s).fresh = s.fresh ∧ (sampleStruck m s).pins = s.pins ∧ (sampleStruck m
    s).fp = s.fp ∧ (sampleStruck m s).wc = s.wc ∧ (sampleStruck m s).sb = s.sb ∧ (sampleStruck m s).mp = s.mp ∧
    (sampleStruck m s).zu = s.zu ∧ (sampleStruck m s).sm = s.sm ∧ (sampleStruck m s).mm.log = s.mm.log ∧
    (sampleStruck m s).bg = s.bg ∧ (sampleStruck m s).ps = s.ps ∧ (sampleStruck m s).se = s.se ∧ (sampleStruck m
    s).ru = s.ru ∧ (sampleStruck m s).pending = s.pending := by
  unfold sampleStruck; (repeat' split) <;> simp

/-- What `sampleSettling` leaves alone. -/
@[simp] theorem sampleSettling_frame (m : Nat) (s : State) :
    (sampleSettling m s).uptimeMs = s.uptimeMs ∧ (sampleSettling m s).uptimeSec = s.uptimeSec ∧ (sampleSettling m
    s).msOfSec = s.msOfSec ∧ (sampleSettling m s).fresh = s.fresh ∧ (sampleSettling m s).pins = s.pins ∧
    (sampleSettling m s).fp = s.fp ∧ (sampleSettling m s).wc = s.wc ∧ (sampleSettling m s).sb = s.sb ∧
    (sampleSettling m s).mp = s.mp ∧ (sampleSettling m s).zu.settings = s.zu.settings ∧ (sampleSettling m
    s).zu.zones = s.zu.zones ∧ (sampleSettling m s).sm = s.sm ∧ (sampleSettling m s).bg = s.bg ∧ (sampleSettling m
    s).ps = s.ps ∧ (sampleSettling m s).se = s.se ∧ (sampleSettling m s).pending = s.pending := by
  unfold sampleSettling; (try dsimp only); (repeat' split) <;> simp

/-- What `takeMotionSample` leaves alone. -/
@[simp] theorem takeMotionSample_frame (x y z : BitVec 16) (s : State) :
    (takeMotionSample x y z s).uptimeMs = s.uptimeMs ∧ (takeMotionSample x y z s).uptimeSec = s.uptimeSec ∧
    (takeMotionSample x y z s).msOfSec = s.msOfSec ∧ (takeMotionSample x y z s).fresh = s.fresh ∧ (takeMotionSample
    x y z s).pins = s.pins ∧ (takeMotionSample x y z s).fp.req = s.fp.req ∧ (takeMotionSample x y z s).wc = s.wc ∧
    (takeMotionSample x y z s).sb = s.sb ∧ (takeMotionSample x y z s).mp = s.mp ∧ (takeMotionSample x y z
    s).zu.settings = s.zu.settings ∧ (takeMotionSample x y z s).zu.zones = s.zu.zones ∧ (takeMotionSample x y z
    s).sm.budget = s.sm.budget ∧ (takeMotionSample x y z s).sm.rail = s.sm.rail ∧ (takeMotionSample x y z s).sm.vcap
    = s.sm.vcap ∧ (takeMotionSample x y z s).sm.energy = s.sm.energy ∧ (takeMotionSample x y z s).sm.avail =
    s.sm.avail ∧ (takeMotionSample x y z s).bg = s.bg ∧ (takeMotionSample x y z s).ps = s.ps ∧ (takeMotionSample x y
    z s).se = s.se ∧ (takeMotionSample x y z s).pending = s.pending := by
  unfold takeMotionSample; (repeat' split) <;> simp

/-- What `takeMotionMiss` leaves alone. -/
@[simp] theorem takeMotionMiss_frame (s : State) :
    (takeMotionMiss s).uptimeMs = s.uptimeMs ∧ (takeMotionMiss s).uptimeSec = s.uptimeSec ∧ (takeMotionMiss
    s).msOfSec = s.msOfSec ∧ (takeMotionMiss s).fresh = s.fresh ∧ (takeMotionMiss s).pins = s.pins ∧ (takeMotionMiss
    s).fp.req = s.fp.req ∧ (takeMotionMiss s).wc = s.wc ∧ (takeMotionMiss s).sb = s.sb ∧ (takeMotionMiss s).mp =
    s.mp ∧ (takeMotionMiss s).zu.settings = s.zu.settings ∧ (takeMotionMiss s).zu.zones = s.zu.zones ∧
    (takeMotionMiss s).sm.budget = s.sm.budget ∧ (takeMotionMiss s).sm.rail = s.sm.rail ∧ (takeMotionMiss s).sm.vcap
    = s.sm.vcap ∧ (takeMotionMiss s).sm.energy = s.sm.energy ∧ (takeMotionMiss s).sm.avail = s.sm.avail ∧
    (takeMotionMiss s).bg = s.bg ∧ (takeMotionMiss s).ps = s.ps ∧ (takeMotionMiss s).se = s.se ∧ (takeMotionMiss
    s).pending = s.pending := by
  unfold takeMotionMiss; (try dsimp only); (repeat' split) <;> simp

/-- What `motionAtHoldup` leaves alone. -/
@[simp] theorem motionAtHoldup_frame (s : State) :
    (motionAtHoldup s).uptimeMs = s.uptimeMs ∧ (motionAtHoldup s).uptimeSec = s.uptimeSec ∧ (motionAtHoldup
    s).msOfSec = s.msOfSec ∧ (motionAtHoldup s).fresh = s.fresh ∧ (motionAtHoldup s).pins = s.pins ∧ (motionAtHoldup
    s).fp = s.fp ∧ (motionAtHoldup s).wc = s.wc ∧ (motionAtHoldup s).sb = s.sb ∧ (motionAtHoldup s).mp = s.mp ∧
    (motionAtHoldup s).zu.settings = s.zu.settings ∧ (motionAtHoldup s).zu.zones = s.zu.zones ∧ (motionAtHoldup
    s).sm = s.sm ∧ (motionAtHoldup s).bg = s.bg ∧ (motionAtHoldup s).ps = s.ps ∧ (motionAtHoldup s).se = s.se ∧
    (motionAtHoldup s).pending = s.pending := by
  unfold motionAtHoldup; (repeat' split) <;> simp

/-- What `motionAtRecovery` leaves alone. -/
@[simp] theorem motionAtRecovery_frame (s : State) :
    (motionAtRecovery s).uptimeMs = s.uptimeMs ∧ (motionAtRecovery s).uptimeSec = s.uptimeSec ∧ (motionAtRecovery
    s).msOfSec = s.msOfSec ∧ (motionAtRecovery s).fresh = s.fresh ∧ (motionAtRecovery s).pins = s.pins ∧
    (motionAtRecovery s).fp.req = s.fp.req ∧ (motionAtRecovery s).wc = s.wc ∧ (motionAtRecovery s).sb = s.sb ∧
    (motionAtRecovery s).mp = s.mp ∧ (motionAtRecovery s).zu = s.zu ∧ (motionAtRecovery s).sm.budget = s.sm.budget ∧
    (motionAtRecovery s).sm.rail = s.sm.rail ∧ (motionAtRecovery s).sm.vcap = s.sm.vcap ∧ (motionAtRecovery
    s).sm.energy = s.sm.energy ∧ (motionAtRecovery s).sm.avail = s.sm.avail ∧ (motionAtRecovery s).bg = s.bg ∧
    (motionAtRecovery s).ps = s.ps ∧ (motionAtRecovery s).se = s.se ∧ (motionAtRecovery s).ru.pending = s.ru.pending
    ∧ (motionAtRecovery s).pending = s.pending := by
  unfold motionAtRecovery; (repeat' split) <;> simp

end Sys2Proof.Machine
end

