-- ==== Sys2Proof/Laws/FrameSenseOps.lean ====
section
/-! SUPPORT. For each operation of Machine/SenseOps.lean, the parts of the state it leaves alone, said once. -/

namespace Sys2Proof.Machine

open Sys2Proof

/-- What `setSense` leaves alone. -/
@[simp] theorem setSense_frame (e : SenseEngine) (s : State) :
    (setSense e s).uptimeMs = s.uptimeMs ∧ (setSense e s).uptimeSec = s.uptimeSec ∧ (setSense e s).msOfSec =
    s.msOfSec ∧ (setSense e s).fresh = s.fresh ∧ (setSense e s).pins = s.pins ∧ (setSense e s).fp = s.fp ∧ (setSense
    e s).wc = s.wc ∧ (setSense e s).sb = s.sb ∧ (setSense e s).mp = s.mp ∧ (setSense e s).zu = s.zu ∧ (setSense e
    s).sm = s.sm ∧ (setSense e s).mm = s.mm ∧ (setSense e s).bg = s.bg ∧ (setSense e s).ps = s.ps ∧ (setSense e
    s).ru = s.ru ∧ (setSense e s).pending = s.pending := by
  exact ⟨rfl, rfl, rfl, rfl, rfl, rfl, rfl, rfl, rfl, rfl, rfl, rfl, rfl, rfl, rfl, rfl⟩

/-- What `endRead` leaves alone. -/
@[simp] theorem endRead_frame (s : State) :
    (endRead s).uptimeMs = s.uptimeMs ∧ (endRead s).uptimeSec = s.uptimeSec ∧ (endRead s).msOfSec = s.msOfSec ∧
    (endRead s).fresh = s.fresh ∧ (endRead s).pins = s.pins ∧ (endRead s).fp = s.fp ∧ (endRead s).wc = s.wc ∧
    (endRead s).sb = s.sb ∧ (endRead s).mp = s.mp ∧ (endRead s).zu = s.zu ∧ (endRead s).sm = s.sm ∧ (endRead s).mm =
    s.mm ∧ (endRead s).bg = s.bg ∧ (endRead s).ps = s.ps ∧ (endRead s).ru = s.ru ∧ (endRead s).pending = s.pending := by
  exact ⟨rfl, rfl, rfl, rfl, rfl, rfl, rfl, rfl, rfl, rfl, rfl, rfl, rfl, rfl, rfl, rfl⟩

/-- What `attemptFailed` leaves alone. -/
@[simp] theorem attemptFailed_frame (s : State) :
    (attemptFailed s).uptimeMs = s.uptimeMs ∧ (attemptFailed s).uptimeSec = s.uptimeSec ∧ (attemptFailed s).msOfSec
    = s.msOfSec ∧ (attemptFailed s).fresh = s.fresh ∧ (attemptFailed s).pins = s.pins ∧ (attemptFailed s).fp = s.fp
    ∧ (attemptFailed s).wc = s.wc ∧ (attemptFailed s).sb = s.sb ∧ (attemptFailed s).mp = s.mp ∧ (attemptFailed s).zu
    = s.zu ∧ (attemptFailed s).sm = s.sm ∧ (attemptFailed s).mm = s.mm ∧ (attemptFailed s).bg = s.bg ∧
    (attemptFailed s).ps = s.ps ∧ (attemptFailed s).ru = s.ru ∧ (attemptFailed s).pending = s.pending := by
  unfold attemptFailed; (repeat' split) <;> simp

/-- What `endAttempt` leaves alone. -/
@[simp] theorem endAttempt_frame (k : SenseKind) (how : AttemptEnd) (s : State) :
    (endAttempt k how s).uptimeMs = s.uptimeMs ∧ (endAttempt k how s).uptimeSec = s.uptimeSec ∧ (endAttempt k how
    s).msOfSec = s.msOfSec ∧ (endAttempt k how s).fresh = s.fresh ∧ (endAttempt k how s).pins = s.pins ∧ (endAttempt
    k how s).fp = s.fp ∧ (endAttempt k how s).wc = s.wc ∧ (endAttempt k how s).sb = s.sb ∧ (endAttempt k how s).mp =
    s.mp ∧ (endAttempt k how s).zu = s.zu ∧ (endAttempt k how s).sm = s.sm ∧ (endAttempt k how s).mm = s.mm ∧
    (endAttempt k how s).bg = s.bg ∧ (endAttempt k how s).ps = s.ps ∧ (endAttempt k how s).ru = s.ru ∧ (endAttempt k
    how s).pending = s.pending := by
  unfold endAttempt; (repeat' split) <;> simp

/-- What `failTimeout` leaves alone. -/
@[simp] theorem failTimeout_frame (s : State) :
    (failTimeout s).uptimeMs = s.uptimeMs ∧ (failTimeout s).uptimeSec = s.uptimeSec ∧ (failTimeout s).msOfSec =
    s.msOfSec ∧ (failTimeout s).fresh = s.fresh ∧ (failTimeout s).pins = s.pins ∧ (failTimeout s).fp = s.fp ∧
    (failTimeout s).wc = s.wc ∧ (failTimeout s).sb = s.sb ∧ (failTimeout s).mp = s.mp ∧ (failTimeout s).zu = s.zu ∧
    (failTimeout s).sm = s.sm ∧ (failTimeout s).mm = s.mm ∧ (failTimeout s).bg = s.bg ∧ (failTimeout s).ps = s.ps ∧
    (failTimeout s).ru = s.ru ∧ (failTimeout s).pending = s.pending := by
  exact ⟨rfl, rfl, rfl, rfl, rfl, rfl, rfl, rfl, rfl, rfl, rfl, rfl, rfl, rfl, rfl, rfl⟩

/-- What `endTrain` leaves alone. -/
@[simp] theorem endTrain_frame (s : State) :
    (endTrain s).uptimeMs = s.uptimeMs ∧ (endTrain s).uptimeSec = s.uptimeSec ∧ (endTrain s).msOfSec = s.msOfSec ∧
    (endTrain s).fresh = s.fresh ∧ (endTrain s).pins = s.pins ∧ (endTrain s).fp = s.fp ∧ (endTrain s).wc = s.wc ∧
    (endTrain s).sb = s.sb ∧ (endTrain s).mp = s.mp ∧ (endTrain s).zu = s.zu ∧ (endTrain s).sm = s.sm ∧ (endTrain
    s).mm = s.mm ∧ (endTrain s).bg = s.bg ∧ (endTrain s).ps = s.ps ∧ (endTrain s).ru = s.ru ∧ (endTrain s).pending =
    s.pending := by
  unfold endTrain; (try dsimp only); (repeat' split) <;> simp

/-- What `stopPolling` leaves alone. -/
@[simp] theorem stopPolling_frame (s : State) :
    (stopPolling s).uptimeMs = s.uptimeMs ∧ (stopPolling s).uptimeSec = s.uptimeSec ∧ (stopPolling s).msOfSec =
    s.msOfSec ∧ (stopPolling s).fresh = s.fresh ∧ (stopPolling s).pins = s.pins ∧ (stopPolling s).fp = s.fp ∧
    (stopPolling s).wc = s.wc ∧ (stopPolling s).sb = s.sb ∧ (stopPolling s).mp = s.mp ∧ (stopPolling s).zu = s.zu ∧
    (stopPolling s).sm = s.sm ∧ (stopPolling s).mm = s.mm ∧ (stopPolling s).bg = s.bg ∧ (stopPolling s).ps = s.ps ∧
    (stopPolling s).ru = s.ru ∧ (stopPolling s).pending = s.pending := by
  unfold stopPolling; (try dsimp only); (repeat' split) <;> simp

/-- What `resumePolling` leaves alone. -/
@[simp] theorem resumePolling_frame (s : State) :
    (resumePolling s).uptimeMs = s.uptimeMs ∧ (resumePolling s).uptimeSec = s.uptimeSec ∧ (resumePolling s).msOfSec
    = s.msOfSec ∧ (resumePolling s).fresh = s.fresh ∧ (resumePolling s).pins = s.pins ∧ (resumePolling s).fp = s.fp
    ∧ (resumePolling s).wc = s.wc ∧ (resumePolling s).sb = s.sb ∧ (resumePolling s).mp = s.mp ∧ (resumePolling s).zu
    = s.zu ∧ (resumePolling s).sm = s.sm ∧ (resumePolling s).mm = s.mm ∧ (resumePolling s).bg = s.bg ∧
    (resumePolling s).ps = s.ps ∧ (resumePolling s).ru = s.ru ∧ (resumePolling s).pending = s.pending := by
  exact ⟨rfl, rfl, rfl, rfl, rfl, rfl, rfl, rfl, rfl, rfl, rfl, rfl, rfl, rfl, rfl, rfl⟩

/-- What `motionTick` leaves alone. -/
@[simp] theorem motionTick_frame (s : State) :
    (motionTick s).uptimeMs = s.uptimeMs ∧ (motionTick s).uptimeSec = s.uptimeSec ∧ (motionTick s).msOfSec =
    s.msOfSec ∧ (motionTick s).fresh = s.fresh ∧ (motionTick s).pins = s.pins ∧ (motionTick s).fp = s.fp ∧
    (motionTick s).wc = s.wc ∧ (motionTick s).sb = s.sb ∧ (motionTick s).mp = s.mp ∧ (motionTick s).zu = s.zu ∧
    (motionTick s).sm = s.sm ∧ (motionTick s).mm = s.mm ∧ (motionTick s).bg = s.bg ∧ (motionTick s).ps = s.ps ∧
    (motionTick s).ru = s.ru ∧ (motionTick s).pending = s.pending := by
  unfold motionTick; (repeat' split) <;> simp

/-- What `addGaugeRead` leaves alone. -/
@[simp] theorem addGaugeRead_frame (s : State) :
    (addGaugeRead s).uptimeMs = s.uptimeMs ∧ (addGaugeRead s).uptimeSec = s.uptimeSec ∧ (addGaugeRead s).msOfSec =
    s.msOfSec ∧ (addGaugeRead s).fresh = s.fresh ∧ (addGaugeRead s).pins = s.pins ∧ (addGaugeRead s).fp = s.fp ∧
    (addGaugeRead s).wc = s.wc ∧ (addGaugeRead s).sb = s.sb ∧ (addGaugeRead s).mp = s.mp ∧ (addGaugeRead s).zu =
    s.zu ∧ (addGaugeRead s).sm = s.sm ∧ (addGaugeRead s).mm = s.mm ∧ (addGaugeRead s).bg = s.bg ∧ (addGaugeRead
    s).ps = s.ps ∧ (addGaugeRead s).ru = s.ru ∧ (addGaugeRead s).pending = s.pending := by
  exact ⟨rfl, rfl, rfl, rfl, rfl, rfl, rfl, rfl, rfl, rfl, rfl, rfl, rfl, rfl, rfl, rfl⟩

/-- What `gaugeTick` leaves alone. -/
@[simp] theorem gaugeTick_frame (s : State) :
    (gaugeTick s).uptimeMs = s.uptimeMs ∧ (gaugeTick s).uptimeSec = s.uptimeSec ∧ (gaugeTick s).msOfSec = s.msOfSec
    ∧ (gaugeTick s).fresh = s.fresh ∧ (gaugeTick s).pins = s.pins ∧ (gaugeTick s).fp = s.fp ∧ (gaugeTick s).wc =
    s.wc ∧ (gaugeTick s).sb = s.sb ∧ (gaugeTick s).mp = s.mp ∧ (gaugeTick s).zu = s.zu ∧ (gaugeTick s).sm = s.sm ∧
    (gaugeTick s).mm = s.mm ∧ (gaugeTick s).bg = s.bg ∧ (gaugeTick s).ps = s.ps ∧ (gaugeTick s).ru = s.ru ∧
    (gaugeTick s).pending = s.pending := by
  unfold gaugeTick; (repeat' split) <;> simp

end Sys2Proof.Machine
end

