-- ==== Sys2Proof/Laws/Layout.lean ====
section
/-! SUPPORT. What `le`, `putAt` and `layout` make of bytes: lengths, one byte, one field (chapter 11, section 11.6); and
what `deliverHanded` does event by event. -/

namespace Sys2Proof.Machine

open Sys2Proof

@[simp] theorem le_length (k n : Nat) : (le k n).length = k := by
  induction k generalizing n with
  | zero => rfl
  | succ k ih => simp [le, ih]

@[simp] theorem le16s_length (x : Int) : (le16s x).length = 2 := by simp [le16s]

/-- Bytes put inside a list leave its length as it is. -/
theorem putAt_length {off : Nat} {bs l : List Byte} (h : off + bs.length ≤ l.length) :
    (putAt off bs l).length = l.length := by
  simp [putAt]; omega

/-- One byte of a list that bytes were put into. -/
theorem byteAt_putAt {off : Nat} {bs l : List Byte} (h : off + bs.length ≤ l.length) (i : Nat) :
    byteAt (putAt off bs l) i = if off ≤ i ∧ i < off + bs.length then byteAt bs (i - off) else byteAt l i := by
  have ho : min off l.length = off := by omega
  simp only [byteAt, putAt, List.getD_eq_getElem?_getD, List.getElem?_append, List.length_append, List.length_take, ho]
  by_cases h1 : i < off
  · rw [if_pos (by omega), if_pos h1, if_neg (by omega), List.getElem?_take_of_lt h1]
  · by_cases h2 : i < off + bs.length
    · rw [if_pos h2, if_neg h1, if_pos (by omega)]
    · rw [if_neg h2, if_neg (by omega), List.getElem?_drop]
      congr 2; omega

/-- Byte by byte, a field. -/
theorem field_eq {a b : List Byte} {off len : Nat} (h : a.length = b.length)
    (hb : ∀ i, off ≤ i → i < off + len → byteAt a i = byteAt b i) : field a off len = field b off len := by
  apply List.ext_getElem?
  intro i
  simp only [field, List.getElem?_take, List.getElem?_drop]
  split
  · have := hb (off + i) (by omega) (by omega)
    by_cases hl : off + i < a.length
    · have hl' : off + i < b.length := by omega
      simpa [byteAt, List.getD_eq_getElem?_getD, hl, hl'] using this
    · rw [List.getElem?_eq_none (by omega), List.getElem?_eq_none (by omega)]
  · rfl

/-- The bytes put at an offset are the field there. -/
theorem field_putAt_same {off : Nat} {bs l : List Byte} (h : off + bs.length ≤ l.length) :
    field (putAt off bs l) off bs.length = bs := by
  have ho : (l.take off).length = off := by simp; omega
  rw [field, putAt, List.append_assoc, List.drop_append_of_le_length (by omega), List.drop_of_length_le (by omega)]
  simp

/-- Bytes put elsewhere leave a field as it is. -/
theorem field_putAt_other {off o len : Nat} {bs l : List Byte} (h : off + bs.length ≤ l.length)
    (hd : o + len ≤ off ∨ off + bs.length ≤ o) : field (putAt off bs l) o len = field l o len :=
  field_eq (putAt_length h) fun i h1 h2 => by rw [byteAt_putAt h, if_neg (by omega)]

/-- A layout whose fields fit has the stated length. -/
theorem layout_length {n : Nat} {fs : List (Nat × List Byte)} (h : ∀ f ∈ fs, f.1 + f.2.length ≤ n) :
    (layout n fs).length = n := by
  suffices ∀ (fs : List (Nat × List Byte)) (l : List Byte), l.length = n → (∀ f ∈ fs, f.1 + f.2.length ≤ n) →
      (fs.foldl (fun l f => putAt f.1 f.2 l) l).length = n from this fs _ (by simp) h
  intro fs
  induction fs with
  | nil => intro l hl _; exact hl
  | cons f fs ih =>
    intro l hl h
    refine ih _ ?_ fun g hg => h g (List.mem_cons_of_mem _ hg)
    rw [putAt_length (by rw [hl]; exact h f List.mem_cons_self), hl]

/-- R134: with nothing handed over nothing is delivered. -/
theorem deliverHanded_nil {s : State} (h : s.se.handed = []) : deliverHanded s = s := by
  simp [deliverHanded, h]

end Sys2Proof.Machine
end

