-- ==== Sys2Proof/Laws/State.lean ====
section
/-! SUPPORT. What each named update of the state writes, one lemma per field; what it leaves alone stands in the Frame
files. -/

namespace Sys2Proof.Machine

open Sys2Proof

/-! ### Time -/

@[simp] theorem passTime_uptimeMs (n : Nat) (s : State) :
    (passTime n s).uptimeMs = s.uptimeMs + BitVec.ofNat 32 n := rfl

@[simp] theorem passTime_msOfSec (n : Nat) (s : State) : (passTime n s).msOfSec = (s.msOfSec + n) % 1000 := rfl

/-- Waiting for an instant that is not past ends at it. -/
theorem waitUntil_uptimeMs (i : Word) (s : State) (h : (i - s.uptimeMs).toNat ≤ 2147483648) :
    (waitUntil i s).uptimeMs = i := by
  unfold waitUntil
  rw [if_pos h, passTime_uptimeMs, BitVec.ofNat_toNat, BitVec.setWidth_eq]
  bv_omega

/-! ### Report unit -/

@[simp] theorem raiseAttn_attn (s : State) : (raiseAttn s).ru.attn = true := rfl

@[simp] theorem raiseAttn_pending (s : State) : (raiseAttn s).ru.pending = s.ru.pending := rfl

@[simp] theorem raiseAttn_changed (s : State) : (raiseAttn s).ru.changed = s.ru.changed := rfl

@[simp] theorem raiseAttn_timerDue (s : State) : (raiseAttn s).ru.timerDue = s.ru.timerDue := rfl

@[simp] theorem markSector_attn (o : Nat) (s : State) : (markSector o s).ru.attn = s.ru.attn := rfl

@[simp] theorem markSector_changed (o : Nat) (s : State) : (markSector o s).ru.changed = s.ru.changed := rfl

@[simp] theorem noteChanged_attn (o : Nat) (s : State) : (noteChanged o s).ru.attn = s.ru.attn := rfl

@[simp] theorem noteChanged_pending (o : Nat) (s : State) : (noteChanged o s).ru.pending = s.ru.pending := rfl

/-- The members of an offset set after an insertion. -/
@[simp] theorem mem_insertOffset (p o : Nat) (l : List Nat) : p ∈ insertOffset o l ↔ p = o ∨ p ∈ l := by
  induction l with
  | nil => simp [insertOffset]
  | cons x xs ih =>
    simp only [insertOffset]
    split
    · simp
    · split
      · next h => subst h; simp
      · simp only [List.mem_cons, ih]; tauto

@[simp] theorem mem_markSector (p o : Nat) (s : State) :
    p ∈ (markSector o s).ru.pending ↔ p = o ∨ p ∈ s.ru.pending :=
  mem_insertOffset p o _

@[simp] theorem mem_noteChanged (p o : Nat) (s : State) :
    p ∈ (noteChanged o s).ru.changed ↔ p = o ∨ p ∈ s.ru.changed :=
  mem_insertOffset p o _

/-! ### Zone records -/

theorem runtimeAt_setRuntime_self (k : Nat) (r : Runtime) (s : State) (h : k < s.zu.runtimes.length) :
    runtimeAt (setRuntime k r s) k = r := by
  simp [runtimeAt, setRuntime, List.getD_eq_getElem?_getD, h]

theorem runtimeAt_setRuntime_ne (k j : Nat) (r : Runtime) (s : State) (h : j ≠ k) :
    runtimeAt (setRuntime k r s) j = runtimeAt s j := by
  simp [runtimeAt, setRuntime, List.getD_eq_getElem?_getD, List.getElem?_set_ne h.symm]

theorem zoneAt_setZone_self (k : Nat) (z : ZoneEntry) (s : State) (h : k < s.zu.zones.length) :
    zoneAt (setZone k z s) k = z := by
  simp [zoneAt, setZone, List.getD_eq_getElem?_getD, h]

theorem zoneAt_setZone_ne (k j : Nat) (z : ZoneEntry) (s : State) (h : j ≠ k) :
    zoneAt (setZone k z s) j = zoneAt s j := by
  simp [zoneAt, setZone, List.getD_eq_getElem?_getD, List.getElem?_set_ne h.symm]

@[simp] theorem zoneAt_setRuntime (k j : Nat) (r : Runtime) (s : State) : zoneAt (setRuntime k r s) j = zoneAt s j :=
  rfl

@[simp] theorem runtimeAt_setZone (k j : Nat) (z : ZoneEntry) (s : State) :
    runtimeAt (setZone k z s) j = runtimeAt s j :=
  rfl

@[simp] theorem runtimes_length_setRuntime (k : Nat) (r : Runtime) (s : State) :
    (setRuntime k r s).zu.runtimes.length = s.zu.runtimes.length := by
  simp [setRuntime]

@[simp] theorem zones_length_setZone (k : Nat) (z : ZoneEntry) (s : State) :
    (setZone k z s).zu.zones.length = s.zu.zones.length := by
  simp [setZone]

/-! ### Front port -/

@[simp] theorem respond_port (a : Answer) (n : Nat) (p : List Byte) (s : State) :
    (respond a n p s).fp.port = .answering := rfl

@[simp] theorem respond_response (a : Answer) (n : Nat) (p : List Byte) (s : State) :
    (respond a n p s).fp.response = some { answer := a, sectors := n, payload := p } := rfl

@[simp] theorem respond_held (a : Answer) (n : Nat) (p : List Byte) (s : State) :
    (respond a n p s).fp.held = none := rfl

@[simp] theorem respond_holdStart (a : Answer) (n : Nat) (p : List Byte) (s : State) :
    (respond a n p s).fp.holdStart = none := rfl

@[simp] theorem refuse_port (a : Answer) (m : BitVec 9) (n : Nat) (p : List Byte) (s : State) :
    (refuse a m n p s).fp.port = .answering := rfl

@[simp] theorem refuse_response (a : Answer) (m : BitVec 9) (n : Nat) (p : List Byte) (s : State) :
    (refuse a m n p s).fp.response = some { answer := a, sectors := n, payload := p } := rfl

/-- R70: the refusal record after a refusal of the current request. -/
theorem refuse_refusal (a : Answer) (m : BitVec 9) (n : Nat) (p : List Byte) (s : State) (r : Request)
    (h : s.fp.req = some r) :
    (refuse a m n p s).wc.refusal =
      { answer := a, code := r.code, mask := m, sector := r.sector, count := r.count, taken := n,
        uptime := s.uptimeSec, wall := wallSeconds s } := by
  simp [refuse, respond, writeRefusal, h]

@[simp] theorem abandonRequest_fp (s : State) : (abandonRequest s).fp = .reset := rfl

@[simp] theorem abandonRequest_readMiss (s : State) : (abandonRequest s).mp.waiters.readMiss = none := rfl

@[simp] theorem newRequest_req (code count : Byte) (sector : Word) (s : State) :
    (newRequest code count sector s).fp.req =
      some { code := code, count := count, sector := sector, taken := 0 } := rfl

/-! ### Supply monitor -/

@[simp] theorem recomputeLimit_limit (s : State) :
    (recomputeLimit s).sm.limit = costLimit s.sm.budget s.mm.motion := rfl

/-- R28: after a recomputation the mode is the one the table selects. -/
@[simp] theorem recomputeMode_mode (s : State) :
    (recomputeMode s).sm.mode = selectMode s.ps.power s.bg.flagUnknown s.sm.limit := by
  unfold recomputeMode
  split
  · next h => rw [h.1]; unfold endThroughWait; (repeat' split) <;> rfl
  · rfl

@[simp] theorem setRail_rail (r : RailState) (s : State) : (setRail r s).sm.rail = r := rfl

/-! ### Power supervisor -/

@[simp] theorem testWindDown_power (s : State) : (testWindDown s).ps.power = s.ps.power := by
  unfold testWindDown; split <;> rfl

@[simp] theorem enterOff_port (s : State) : (enterOff s).fp.port = .closed := rfl

@[simp] theorem enterOff_current (s : State) : (enterOff s).mp.current = none := rfl

@[simp] theorem enterOff_waiters (s : State) : (enterOff s).mp.waiters = .none := rfl

@[simp] theorem enterOff_phase (s : State) : (enterOff s).ps.phase = none := rfl

@[simp] theorem enterOff_timersOn (s : State) : (enterOff s).se.timersOn = false := rfl

/-! ### Media port -/

@[simp] theorem issueOp_current (k : MediaKind) (a n : Nat) (d : List Sector) (w : Requester) (s : State) :
    (issueOp k a n d w s).mp.current =
      some { kind := k, sector := a, count := n, data := d, requester := w, attempt := 1, start := s.uptimeMs,
             abandoned := false } := rfl

@[simp] theorem issueOp_waiters (k : MediaKind) (a n : Nat) (d : List Sector) (w : Requester) (s : State) :
    (issueOp k a n d w s).mp.waiters = s.mp.waiters := rfl

@[simp] theorem issueOp_starvation (k : MediaKind) (a n : Nat) (d : List Sector) (w : Requester) (s : State) :
    (issueOp k a n d w s).mp.starvation = s.mp.starvation := rfl

@[simp] theorem requestHoldup_holdup (w : HoldupRequest) (s : State) :
    (requestHoldup w s).mp.waiters.holdup = some w := rfl

@[simp] theorem requestStartup_startup (p : StartStep) (s : State) :
    (requestStartup p s).mp.waiters.startup = some p := rfl

@[simp] theorem requestStartup_startPos (p : StartStep) (s : State) : (requestStartup p s).ps.startPos = p := rfl

@[simp] theorem requestMiss_readMiss (r : MissRun) (s : State) :
    (requestMiss r s).mp.waiters.readMiss = some r := rfl

/-! ### Sense engine -/

@[simp] theorem setSense_se (e : SenseEngine) (s : State) : (setSense e s).se = e := rfl

/-- R86, R105, R134: the consumer of a sample or a miss takes it, but in HOLDUP and OFF. -/
theorem handOver_handed (h : Handover) (s : State) :
    (handOver h s).se.handed = if consumersStopped s then s.se.handed else s.se.handed ++ [h] := by
  unfold handOver; split <;> rfl

@[simp] theorem handOver_stopped {h : Handover} {s : State} (hs : consumersStopped s = true) : handOver h s = s := by
  simp [handOver, hs]

@[simp] theorem handOver_running {h : Handover} {s : State} (hs : consumersStopped s = false) :
    handOver h s = { s with se := { s.se with handed := s.se.handed ++ [h] } } := by
  simp [handOver, hs]

@[simp] theorem takeHandover_handed (h : Handover) (s : State) :
    (takeHandover h s).se.handed = s.se.handed.erase h := rfl

/-! ### Motion monitor -/


/-- R100: the ring holds at most sixteen records. -/
theorem length_appendRing (r : DropRecord) (log : List DropRecord) (h : log.length ≤ 16) :
    (appendRing r log).length ≤ 16 := by
  unfold appendRing
  split <;> simp <;> omega

end Sys2Proof.Machine
end

