-- ==== Sys2Proof/Laws/Ops.lean ====
section
/-! SUPPORT. One lemma for what each shared operation can do: choosing a line, placing and admitting a sector, finishing a
run, settling, granting, arriving headers. -/

namespace Sys2Proof.Machine

open Sys2Proof

/-! ### Choosing a line -/

/-- A picked line stands in the list at the place it was picked from, and meets the condition. -/
theorem pickLine_some {better : Line → Line → Bool} {p : Line → Bool} {ls : List Line} {i j : Nat} {l : Line}
    (h : pickLine better p ls i = some (j, l)) : i ≤ j ∧ ls[j - i]? = some l ∧ p l = true := by
  induction ls generalizing i j l with
  | nil => simp [pickLine] at h
  | cons x xs ih =>
    simp only [pickLine] at h
    split at h
    · split at h
      · simp only [Option.some.injEq, Prod.mk.injEq] at h
        obtain ⟨rfl, rfl⟩ := h
        simp [*]
      · cases h
    · next k m hm =>
      obtain ⟨hk, hl, hp⟩ := ih hm
      split at h
      · next hx =>
        simp only [Option.some.injEq, Prod.mk.injEq] at h
        obtain ⟨rfl, rfl⟩ := h
        simp only [Bool.and_eq_true] at hx
        simp [hx.1]
      · simp only [Option.some.injEq, Prod.mk.injEq] at h
        obtain ⟨rfl, rfl⟩ := h
        refine ⟨by omega, ?_, hp⟩
        rw [show k - i = (k - (i + 1)) + 1 by omega, List.getElem?_cons_succ, hl]

/-- No line is picked exactly when none meets the condition. -/
theorem pickLine_none {better : Line → Line → Bool} {p : Line → Bool} {ls : List Line} {i : Nat} :
    pickLine better p ls i = none ↔ ∀ l ∈ ls, p l = false := by
  induction ls generalizing i with
  | nil => simp [pickLine]
  | cons x xs ih =>
    simp only [pickLine, List.mem_cons, forall_eq_or_imp]
    split
    · next h =>
      have hx := ih.mp h
      by_cases hp : p x = true <;> simp_all
    · next h =>
      have : ¬ ∀ l ∈ xs, p l = false := fun hx => by simp [ih.mpr hx] at h
      split <;> simp [this]

/-- R5: a merge target is a DIRTY line of the sector's line and class, at its place. -/
theorem mergeTarget_some {lines : List Line} {cls : LineClass} {sector i : Nat} {l : Line}
    (h : mergeTarget lines cls sector = some (i, l)) :
    cls ≠ .map ∧ lines[i]? = some l ∧ l.state = .dirty ∧ l.addr = sector / 8 ∧ l.cls = cls := by
  unfold mergeTarget at h
  split at h
  · cases h
  · obtain ⟨-, hl, hp⟩ := pickLine_some h
    simp only [Bool.and_eq_true, beq_iff_eq] at hp
    exact ⟨by assumption, by simpa using hl, hp.1.1, hp.1.2, hp.2⟩

/-- R17, R18: a chosen run begins at a slot not yet programmed of the DRAINING line, or of a DIRTY line while none is
DRAINING. -/
theorem chooseRun_some {lines : List Line} {c : RunChoice} (h : chooseRun lines = some c) :
    lines[c.idx]? = some c.line ∧ firstRun c.line.undone = some (c.first, c.len) ∧
      (c.line.state = .draining ∨ (c.line.state = .dirty ∧ ∀ l ∈ lines, l.state ≠ .draining)) := by
  unfold chooseRun at h
  split at h
  · cases h
  · next i l hl =>
    split at h
    · cases h
    · next first len hf =>
      cases h
      unfold nextDrainLine at hl
      split at hl
      · next p hp =>
        cases hl
        obtain ⟨-, h1, h2⟩ := pickLine_some hp
        exact ⟨by simpa using h1, hf, .inl (by simpa using h2)⟩
      · next hn =>
        obtain ⟨-, h1, h2⟩ := pickLine_some hl
        refine ⟨by simpa using h1, hf, .inr ⟨by simpa using h2, fun l hl => ?_⟩⟩
        simpa using pickLine_none.mp hn l hl

/-! ### Placing and admitting a sector -/

/-- R5, R6, R8: a placed sector is merged into its target, or takes a FREE record and an age. -/
theorem placeSector_some {sb t : Staging} {cls : LineClass} {sector : Nat} {zone : Option Nat} {reserve : Nat}
    {data : Sector} (h : placeSector sb cls sector zone reserve data = some t) :
    (∃ i l, mergeTarget sb.lines cls sector = some (i, l) ∧
      t = { sb with lines := sb.lines.set i (l.store (sector % 8) data) }) ∨
    (∃ i l, mergeTarget sb.lines cls sector = none ∧ mayAllocate sb.lines cls reserve = true ∧
      sb.lines[i]? = some l ∧ l.live = false ∧
      t = { sb with lines := sb.lines.set i (newLine cls sector zone sb.ageCounter data)
                    ageCounter := sb.ageCounter + 1 }) := by
  unfold placeSector at h
  split at h
  · next i l hm => cases h; exact .inl ⟨i, l, hm, rfl⟩
  · next hm =>
    split at h
    · next ha =>
      split at h
      · next i hi =>
        cases h
        obtain ⟨hlt, hp, -⟩ := List.findIdx?_eq_some_iff_getElem.mp hi
        exact .inr ⟨i, sb.lines[i], hm, ha, List.getElem?_eq_getElem hlt, by simpa using hp, rfl⟩
      · cases h
    · cases h

/-- R7: an admitted sector has been placed, and its cost is allowed. -/
theorem admitTest_admitted {sb t : Staging} {cls : LineClass} {sector : Nat} {zone : Option Nat}
    {reserve limit : Nat} {data : Sector} (h : admitTest sb cls sector zone reserve limit data = .admitted t) :
    placeSector sb cls sector zone reserve data = some t ∧
      costAllows (dirtyCost sb.lines) (dirtyCost t.lines) limit = true := by
  unfold admitTest at h
  split at h
  · cases h
  · split at h
    · cases h; exact ⟨by assumption, by assumption⟩
    · cases h

/-- R1: a placed sector leaves the number of line records as it is. -/
theorem placeSector_length {sb t : Staging} {cls : LineClass} {sector : Nat} {zone : Option Nat} {reserve : Nat}
    {data : Sector} (h : placeSector sb cls sector zone reserve data = some t) :
    t.lines.length = sb.lines.length := by
  obtain ⟨i, l, -, rfl⟩ | ⟨i, l, -, -, -, -, rfl⟩ := placeSector_some h <;> simp

@[simp] theorem finishRunAt_length (sector len : Nat) (s : State) :
    (finishRunAt sector len s).sb.lines.length = s.sb.lines.length := by
  simp [finishRunAt]

/-! ### Settling and granting -/

/-- R10, R174: with no event that retries or offers, nothing is retried and nothing offered. -/
theorem react_of_not_due {a b : State} (h : retryDue a b = false) (hm : markedSince a b = false) : react a b = b := by
  simp [react, h, hm]

/-- R10: a mark alone retries no front sector. -/
theorem retryRound_of_not_due {a b : State} (h : retryDue a b = false) : retryRound a b = offerAll b := by
  simp [retryRound, h]

/-- R166: MP that is not idle grants nothing. -/
theorem grantNext_busy {s : State} (h : mpIdle s = false) : grantNext s = s := by
  simp [grantNext, h]

/-- R168: in OFF nothing is added and nothing granted. -/
theorem pump_off {s : State} (h : s.ps.power = .off) : pump s = s := by
  have hs : syncDrain s = s := by simp [syncDrain, h]
  have hg : grantNext s = s := by simp [grantNext, h]
  simp [pump, hs, hg]

/-! ### Arrival of a header -/

/-- R57: what a header's arrival can do. -/
theorem arrive_cases (code count : Byte) (sector : Word) (go : State → State) (s : State) :
    (takesFrames s = false ∧ arrive code count sector go s = s) ∨
    (takesFrames s = true ∧ s.ps.mediaFault = true ∧
      arrive code count sector go s = respond .mediaAbsent 0 [] (newRequest code count sector s)) ∨
    (takesFrames s = true ∧ s.ps.mediaFault = false ∧ s.ps.power = .starting ∧
      arrive code count sector go s = respond .busyStarting 0 [] (newRequest code count sector s)) ∨
    (takesFrames s = true ∧ s.ps.mediaFault = false ∧ s.ps.power ≠ .starting ∧
      arrive code count sector go s = go (newRequest code count sector s)) := by
  unfold arrive answerBeforeChecks
  cases takesFrames s <;> cases s.ps.mediaFault <;> by_cases h : s.ps.power = .starting <;> simp [h]

end Sys2Proof.Machine
end

