-- ==== Sys2Proof/Laws/PerInstr.lean ====
section
/-! SUPPORT. The family Shape: no table word spells a command, since the opcode table gives no row any bits. -/

namespace Sys2Proof.Laws

open Sys2Proof

/-- No word of any width is decoded to the command. -/
def Shape.Statement (i : Instr) : Prop :=
  ∀ nbits w, decodeTableWord nbits w ≠ some i

theorem Shape.powerOn (wp : Bool) : Shape.Statement (.powerOn wp) := by
  intro nbits w h; cases h

theorem Shape.read (count : Byte) (sector : Word) : Shape.Statement (.read count sector) := by
  intro nbits w h; cases h

theorem Shape.write (count : Byte) (sector : Word) : Shape.Statement (.write count sector) := by
  intro nbits w h; cases h

theorem Shape.flush (count : Byte) (sector : Word) : Shape.Statement (.flush count sector) := by
  intro nbits w h; cases h

theorem Shape.info (count : Byte) (sector : Word) : Shape.Statement (.info count sector) := by
  intro nbits w h; cases h

theorem Shape.unknownCodeRequest (code : Byte) (count : Byte) (sector : Word) : Shape.Statement (.unknownCodeRequest code count sector) := by
  intro nbits w h; cases h

theorem Shape.dataFrame (data : Sector) : Shape.Statement (.dataFrame data) := by
  intro nbits w h; cases h

theorem Shape.responseSent : Shape.Statement .responseSent := by
  intro nbits w h; cases h

theorem Shape.linkReset : Shape.Statement .linkReset := by
  intro nbits w h; cases h

theorem Shape.frstRelease : Shape.Statement .frstRelease := by
  intro nbits w h; cases h

theorem Shape.holdLimit : Shape.Statement .holdLimit := by
  intro nbits w h; cases h

theorem Shape.mediaOperationComplete (status : Byte) (payload : List Byte) : Shape.Statement (.mediaOperationComplete status payload) := by
  intro nbits w h; cases h

theorem Shape.mediaTimeout : Shape.Statement .mediaTimeout := by
  intro nbits w h; cases h

theorem Shape.conversionCadence : Shape.Statement .conversionCadence := by
  intro nbits w h; cases h

theorem Shape.conversionComplete (vsys : Int) (vcap : Int) : Shape.Statement (.conversionComplete vsys vcap) := by
  intro nbits w h; cases h

theorem Shape.brownout : Shape.Statement .brownout := by
  intro nbits w h; cases h

theorem Shape.railReturn : Shape.Statement .railReturn := by
  intro nbits w h; cases h

theorem Shape.railReturnCancel : Shape.Statement .railReturnCancel := by
  intro nbits w h; cases h

theorem Shape.recoveryQualified : Shape.Statement .recoveryQualified := by
  intro nbits w h; cases h

theorem Shape.wpChange : Shape.Statement .wpChange := by
  intro nbits w h; cases h

theorem Shape.wpDebounceExpiry : Shape.Statement .wpDebounceExpiry := by
  intro nbits w h; cases h

theorem Shape.motionCadence : Shape.Statement .motionCadence := by
  intro nbits w h; cases h

theorem Shape.gaugeCadence : Shape.Statement .gaugeCadence := by
  intro nbits w h; cases h

theorem Shape.attemptComplete (how : AttemptEnd) : Shape.Statement (.attemptComplete how) := by
  intro nbits w h; cases h

theorem Shape.senseTimeout : Shape.Statement .senseTimeout := by
  intro nbits w h; cases h

theorem Shape.recoveryTrainEnd : Shape.Statement .recoveryTrainEnd := by
  intro nbits w h; cases h

theorem Shape.busStartSeen : Shape.Statement .busStartSeen := by
  intro nbits w h; cases h

theorem Shape.busStopSeen : Shape.Statement .busStopSeen := by
  intro nbits w h; cases h

theorem Shape.alertEdge : Shape.Statement .alertEdge := by
  intro nbits w h; cases h

theorem Shape.alertDeferExpiry : Shape.Statement .alertDeferExpiry := by
  intro nbits w h; cases h

theorem Shape.motionSample (x y z : BitVec 16) : Shape.Statement (.motionSample x y z) := by
  intro nbits w h; cases h

theorem Shape.motionMiss : Shape.Statement .motionMiss := by
  intro nbits w h; cases h

theorem Shape.gaugeSample (v i t : BitVec 16) : Shape.Statement (.gaugeSample v i t) := by
  intro nbits w h; cases h

theorem Shape.gaugeMiss : Shape.Statement .gaugeMiss := by
  intro nbits w h; cases h

theorem Shape.firstSampleTimerExpiry : Shape.Statement .firstSampleTimerExpiry := by
  intro nbits w h; cases h

theorem Shape.checkpointTimerExpiry : Shape.Statement .checkpointTimerExpiry := by
  intro nbits w h; cases h

theorem Shape.untaggedFrontByte (byte : Byte) : Shape.Statement (.untaggedFrontByte byte) := by
  intro nbits w h; cases h

theorem Shape.strayMediaBytes (bytes : List Byte) : Shape.Statement (.strayMediaBytes bytes) := by
  intro nbits w h; cases h

end Sys2Proof.Laws
end

