-- ==== Sys2Proof/Laws/Service.lean ====
section
/-! SUPPORT. What a grant outside HOLDUP and a checkpoint offer leave alone, said once for the media port and once for the
retries that follow an event (R10, R17, R166, R174); and the drop log at a restore (R149). -/

namespace Sys2Proof.Machine

open Sys2Proof

/-! ### Grants outside HOLDUP -/

/-- Only the media port and the lines of the staging buffer differ. -/
structure GrantOnly (s t : State) : Prop where
  uptimeMs : t.uptimeMs = s.uptimeMs
  uptimeSec : t.uptimeSec = s.uptimeSec
  msOfSec : t.msOfSec = s.msOfSec
  fresh : t.fresh = s.fresh
  pins : t.pins = s.pins
  fp : t.fp = s.fp
  wc : t.wc = s.wc
  zu : t.zu = s.zu
  sm : t.sm = s.sm
  mm : t.mm = s.mm
  bg : t.bg = s.bg
  ps : t.ps = s.ps
  se : t.se = s.se
  ru : t.ru = s.ru
  pending : t.pending = s.pending
  sbAgeCounter : t.sb.ageCounter = s.sb.ageCounter
  sbLostCount : t.sb.lostCount = s.sb.lostCount
  sbLastLost : t.sb.lastLost = s.sb.lastLost
  sbDeferred : t.sb.deferred = s.sb.deferred
  mpHanding : t.mp.handing = s.mp.handing
  mpResetPulses : t.mp.resetPulses = s.mp.resetPulses

theorem GrantOnly.refl (s : State) : GrantOnly s s := by
  constructor <;> rfl

theorem GrantOnly.trans {s t u : State} (h : GrantOnly s t) (g : GrantOnly t u) : GrantOnly s u :=
    ⟨g.uptimeMs.trans h.uptimeMs, g.uptimeSec.trans h.uptimeSec, g.msOfSec.trans h.msOfSec, g.fresh.trans h.fresh,
    g.pins.trans h.pins, g.fp.trans h.fp, g.wc.trans h.wc, g.zu.trans h.zu, g.sm.trans h.sm, g.mm.trans h.mm,
    g.bg.trans h.bg, g.ps.trans h.ps, g.se.trans h.se, g.ru.trans h.ru, g.pending.trans h.pending,
    g.sbAgeCounter.trans h.sbAgeCounter, g.sbLostCount.trans h.sbLostCount, g.sbLastLost.trans h.sbLastLost,
    g.sbDeferred.trans h.sbDeferred, g.mpHanding.trans h.mpHanding, g.mpResetPulses.trans h.mpResetPulses⟩

theorem syncDrain_grantOnly (s : State) : GrantOnly s (syncDrain s) := by
  unfold syncDrain
  (repeat' split) <;> constructor <;> rfl

theorem grantDrain_grantOnly (s : State) : GrantOnly s (grantDrain s) := by
  unfold grantDrain
  dsimp only
  (repeat' split) <;> constructor <;> rfl

theorem grantWaitingMiss_grantOnly (s : State) : GrantOnly s (grantWaitingMiss s) := by
  unfold grantWaitingMiss
  (repeat' split) <;> constructor <;> rfl

theorem grantService_grantOnly (s : State) : GrantOnly s (grantService s) := by
  unfold grantService
  split
  · exact (grantDrain_grantOnly s).trans (grantWaitingMiss_grantOnly _)
  · exact grantWaitingMiss_grantOnly s

theorem grantStarting_grantOnly (s : State) : GrantOnly s (grantStarting s) := by
  unfold grantStarting
  split
  · next step _ => cases step <;> constructor <;> rfl
  · split
    · exact grantDrain_grantOnly s
    · exact .refl s

/-- R166: outside HOLDUP a grant changes the media port and the state of a line alone. -/
theorem grantNext_grantOnly {s : State} (h : s.ps.power ≠ .holdup) : GrantOnly s (grantNext s) := by
  unfold grantNext
  split
  · split
    · contradiction
    · exact grantStarting_grantOnly s
    · exact grantService_grantOnly s
    · exact grantService_grantOnly s
    · exact grantService_grantOnly s
    · exact .refl s
  · exact .refl s

/-- R17, R166: outside HOLDUP bringing the drain request up to date and granting changes the media port and the state of
a line alone. -/
theorem pump_grantOnly {s : State} (h : s.ps.power ≠ .holdup) : GrantOnly s (pump s) := by
  have h1 := syncDrain_grantOnly s
  have h2 := grantNext_grantOnly (s := syncDrain s) (by rw [h1.ps]; exact h)
  exact (h1.trans h2).trans (syncDrain_grantOnly _)

/-! ### Checkpoint offers -/

/-- Only the media port, lines and age counter, the records not yet persisted, OFFREQ, and RU's pending and changed sets
differ. -/
structure OfferOnly (s t : State) : Prop where
  uptimeMs : t.uptimeMs = s.uptimeMs
  uptimeSec : t.uptimeSec = s.uptimeSec
  msOfSec : t.msOfSec = s.msOfSec
  fresh : t.fresh = s.fresh
  pins : t.pins = s.pins
  fp : t.fp = s.fp
  wc : t.wc = s.wc
  zu : t.zu = s.zu
  sm : t.sm = s.sm
  bg : t.bg = s.bg
  se : t.se = s.se
  pending : t.pending = s.pending
  sbLostCount : t.sb.lostCount = s.sb.lostCount
  sbLastLost : t.sb.lastLost = s.sb.lastLost
  sbDeferred : t.sb.deferred = s.sb.deferred
  mpHanding : t.mp.handing = s.mp.handing
  mpResetPulses : t.mp.resetPulses = s.mp.resetPulses
  mmMotion : t.mm.motion = s.mm.motion
  mmFfRun : t.mm.ffRun = s.mm.ffRun
  mmFallSamples : t.mm.fallSamples = s.mm.fallSamples
  mmWindow : t.mm.window = s.mm.window
  mmPeak : t.mm.peak = s.mm.peak
  mmSettleRun : t.mm.settleRun = s.mm.settleRun
  mmSettleElapsed : t.mm.settleElapsed = s.mm.settleElapsed
  mmStale : t.mm.stale = s.mm.stale
  mmGood : t.mm.good = s.mm.good
  mmDrop : t.mm.drop = s.mm.drop
  mmLog : t.mm.log = s.mm.log
  mmTotal : t.mm.total = s.mm.total
  mmLastSeq : t.mm.lastSeq = s.mm.lastSeq
  psPower : t.ps.power = s.ps.power
  psPhase : t.ps.phase = s.ps.phase
  psCause : t.ps.cause = s.ps.cause
  psStartPos : t.ps.startPos = s.ps.startPos
  psMediaFault : t.ps.mediaFault = s.ps.mediaFault
  psCapacity : t.ps.capacity = s.ps.capacity
  psMapCopy : t.ps.mapCopy = s.ps.mapCopy
  psColdTotal : t.ps.coldTotal = s.ps.coldTotal
  psCheckRead : t.ps.checkRead = s.ps.checkRead
  psImageRead : t.ps.imageRead = s.ps.imageRead
  psImage : t.ps.image = s.ps.image
  psBrownedOut : t.ps.brownedOut = s.ps.brownedOut
  ruAttn : t.ru.attn = s.ru.attn
  ruTimerDue : t.ru.timerDue = s.ru.timerDue

theorem OfferOnly.refl (s : State) : OfferOnly s s := by
  constructor <;> rfl

theorem OfferOnly.trans {s t u : State} (h : OfferOnly s t) (g : OfferOnly t u) : OfferOnly s u :=
    ⟨g.uptimeMs.trans h.uptimeMs, g.uptimeSec.trans h.uptimeSec, g.msOfSec.trans h.msOfSec, g.fresh.trans h.fresh,
    g.pins.trans h.pins, g.fp.trans h.fp, g.wc.trans h.wc, g.zu.trans h.zu, g.sm.trans h.sm, g.bg.trans h.bg,
    g.se.trans h.se, g.pending.trans h.pending, g.sbLostCount.trans h.sbLostCount, g.sbLastLost.trans h.sbLastLost,
    g.sbDeferred.trans h.sbDeferred, g.mpHanding.trans h.mpHanding, g.mpResetPulses.trans h.mpResetPulses,
    g.mmMotion.trans h.mmMotion, g.mmFfRun.trans h.mmFfRun, g.mmFallSamples.trans h.mmFallSamples, g.mmWindow.trans
    h.mmWindow, g.mmPeak.trans h.mmPeak, g.mmSettleRun.trans h.mmSettleRun, g.mmSettleElapsed.trans
    h.mmSettleElapsed, g.mmStale.trans h.mmStale, g.mmGood.trans h.mmGood, g.mmDrop.trans h.mmDrop, g.mmLog.trans
    h.mmLog, g.mmTotal.trans h.mmTotal, g.mmLastSeq.trans h.mmLastSeq, g.psPower.trans h.psPower, g.psPhase.trans
    h.psPhase, g.psCause.trans h.psCause, g.psStartPos.trans h.psStartPos, g.psMediaFault.trans h.psMediaFault,
    g.psCapacity.trans h.psCapacity, g.psMapCopy.trans h.psMapCopy, g.psColdTotal.trans h.psColdTotal,
    g.psCheckRead.trans h.psCheckRead, g.psImageRead.trans h.psImageRead, g.psImage.trans h.psImage,
    g.psBrownedOut.trans h.psBrownedOut, g.ruAttn.trans h.ruAttn, g.ruTimerDue.trans h.ruTimerDue⟩

theorem GrantOnly.offerOnly {s t : State} (h : GrantOnly s t) : OfferOnly s t :=
  ⟨h.uptimeMs, h.uptimeSec, h.msOfSec, h.fresh, h.pins, h.fp, h.wc, h.zu, h.sm, h.bg, h.se, h.pending,
    h.sbLostCount, h.sbLastLost, h.sbDeferred, h.mpHanding, h.mpResetPulses, h.mm ▸ rfl, h.mm ▸ rfl, h.mm ▸ rfl,
    h.mm ▸ rfl, h.mm ▸ rfl, h.mm ▸ rfl, h.mm ▸ rfl, h.mm ▸ rfl, h.mm ▸ rfl, h.mm ▸ rfl, h.mm ▸ rfl, h.mm ▸ rfl,
    h.mm ▸ rfl, h.ps ▸ rfl, h.ps ▸ rfl, h.ps ▸ rfl, h.ps ▸ rfl, h.ps ▸ rfl, h.ps ▸ rfl, h.ps ▸ rfl, h.ps ▸ rfl,
    h.ps ▸ rfl, h.ps ▸ rfl, h.ps ▸ rfl, h.ps ▸ rfl, h.ru ▸ rfl, h.ru ▸ rfl⟩

theorem testWindDown_offerOnly (s : State) : OfferOnly s (testWindDown s) := by
  unfold testWindDown
  split <;> constructor <;> rfl

theorem checkpointTaken_offerOnly (o : Nat) (s : State) : OfferOnly s (checkpointTaken o s) := by
  unfold checkpointTaken
  refine .trans ?_ (testWindDown_offerOnly _)
  dsimp only
  split <;> constructor <;> rfl

/-- R174: an offer that is admitted changes what `OfferOnly` names. -/
theorem offerCheckpoint_offerOnly {o : Nat} {s t : State} (hp : s.ps.power ≠ .holdup)
    (h : offerCheckpoint o s = some t) : OfferOnly s t := by
  unfold offerCheckpoint at h
  split at h
  · next sb ha =>
    simp only [Option.some.injEq] at h
    subst h
    obtain ⟨hb, -⟩ := admitTest_admitted ha
    have h1 : OfferOnly s { s with sb := sb } := by
      obtain ⟨i, l, -, rfl⟩ | ⟨i, l, -, -, -, -, rfl⟩ := placeSector_some hb <;> constructor <;> rfl
    have h2 := h1.trans (checkpointTaken_offerOnly o _)
    exact h2.trans (pump_grantOnly (by rw [h2.psPower]; exact hp)).offerOnly
  · cases h

/-- R10: with no front sector held nothing is retried. -/
theorem retryHeld_of_not_held {s : State} (h : s.fp.port ≠ .held) : retryHeld s = s := by
  unfold retryHeld
  split
  · contradiction
  · rfl

/-- R174: the offers of the pending set, with no front sector held. -/
theorem offerFrom_offerOnly (os : List Nat) (s : State) (hp : s.ps.power ≠ .holdup) (hh : s.fp.port ≠ .held) :
    OfferOnly s (offerFrom os s) := by
  induction os generalizing s with
  | nil => exact .refl s
  | cons o os ih =>
    unfold offerFrom
    split
    · split
      · exact .refl s
      · next t ht =>
        have h1 := offerCheckpoint_offerOnly hp ht
        have h2 : t.fp.port ≠ .held := by rw [h1.fp]; exact hh
        rw [retryHeld_of_not_held h2, ite_self]
        exact h1.trans (ih t (by rw [h1.psPower]; exact hp) h2)
    · exact ih s hp hh

theorem offerAll_offerOnly {s : State} (hp : s.ps.power ≠ .holdup) (hh : s.fp.port ≠ .held) :
    OfferOnly s (offerAll s) := by
  unfold offerAll
  split
  · exact offerFrom_offerOnly _ s hp hh
  · exact .refl s

theorem retryRound_offerOnly (before : State) {s : State} (hp : s.ps.power ≠ .holdup) (hh : s.fp.port ≠ .held) :
    OfferOnly s (retryRound before s) := by
  unfold retryRound
  rw [retryHeld_of_not_held hh, ite_self]
  exact offerAll_offerOnly hp hh

/-- R10, R174: the retries after an event, with no front sector held. -/
theorem react_offerOnly (before : State) {s : State} (hp : s.ps.power ≠ .holdup) (hh : s.fp.port ≠ .held) :
    OfferOnly s (react before s) := by
  unfold react
  split
  · have h1 := retryRound_offerOnly before hp hh
    exact h1.trans (offerAll_offerOnly (by rw [h1.psPower]; exact hp) (by rw [h1.fp]; exact hh))
  · exact .refl s

/-- A settled step outside HOLDUP, with no front sector held. -/
theorem settle_offerOnly (before : State) {s : State} (hp : s.ps.power ≠ .holdup) (hh : s.fp.port ≠ .held) :
    OfferOnly s (settle before s) := by
  have h1 := react_offerOnly before hp hh
  exact h1.trans (pump_grantOnly (by rw [h1.psPower]; exact hp)).offerOnly

/-! ### The drop log at a restore (R149) -/

/-- The ring from which a restore goes on holds no more records than the ring before. -/
theorem Motion.persistedLog_length (m : Motion) : m.persistedLog.length ≤ m.log.length :=
  List.length_filter_le ..

/-- No record of it has the sequence of a record that is pending. -/
theorem Motion.persistedLog_fresh {m : Motion} {l p : DropRecord} (hl : l ∈ m.persistedLog) (hp : p ∈ m.pendingRecs) :
    p.sequence ≠ l.sequence := by
  simp only [persistedLog, List.mem_filter, Bool.not_eq_true', List.any_eq_false, beq_iff_eq] at hl
  exact hl.2 p hp

/-- A restore of the motion monitor changes its log, pending records, total and last sequence alone. -/
theorem restoreMotion_frame (body : List Byte) (s : State) :
    restoreMotion body s = { s with mm := { s.mm with
      log := (restoreMotion body s).mm.log, pendingRecs := readPending body, total := u16At body 16
      lastSeq := u16At body 18 } } :=
  rfl

end Sys2Proof.Machine
end

