-- ==== Sys2Proof/Tests/Slice0.lean ====
section
/-! SUPPORT. Tests. Values come from the spec's tables and worked examples, or are counted by hand from its rules; each
witness shows concrete states that meet the hypotheses of one statement, with a case for each of its clauses. -/

namespace Sys2Proof.Tests

open Sys2Proof Sys2Proof.Machine

/-! ### Small states -/

/-- The state after a command. -/
def after (c : Instr) (s : State) : State :=
  match exec c s with
  | .next t => t
  | .fault _ => s
  | .refused _ => s

/-- A part in NORMAL: T is 1,999,968, zone 0 is OPEN at 800 / 800 with fill mark 804, zone 1 CLOSED at 1,600 / 800. -/
def base : State :=
  { State.reset with
    ps := { PowerSup.reset with power := .normal, startPos := .served, capacity := 2000000 }
    zu := { ZoneUnit.reset with
      zones := { state := .opened, base := 800, length := 800 } :: { state := .closed, base := 1600, length := 800 } ::
        List.replicate 62 .unused
      runtimes := { Runtime.cleared with fillMark := 804, crcReg := crc32Init } :: List.replicate 63 .cleared }
    sm := { Supply.reset with avail := 30000, budget := 20, limit := 20, mode := .writeBack }
    mm := { Motion.reset with motion := .still }
    bg := { Gauge.reset with rc := 6120000000, soc := 50, band := 5, isSet := true, socReported := true }
    se := { SenseEngine.reset with trans := .idle, timersOn := true }
    ru := { ReportUnit.reset with timerDue := some 30000 } }

/-- `base` in another power state. -/
def inPower (p : PowerState) : State :=
  { base with ps := { base.ps with power := p } }

/-- A DIRTY line of sectors 96 and 97. -/
def line : Line :=
  { Line.free with state := .dirty, addr := 12, valid := 3#8, data := [zeroSector, zeroSector, [], [], [], [], [], []] }

/-- `base` with lines staged. -/
def holding (ls : List Line) (s : State) : State :=
  { s with sb := { s.sb with lines := ls ++ List.replicate (32 - ls.length) .free, ageCounter := 1 } }

/-- A WRITE in a port state. -/
def writing (p : PortState) (count : Byte) (sector : Word) (s : State) : State :=
  { s with fp := { s.fp with port := p, req := some { code := 2, count := count, sector := sector, taken := 0 } } }

/-- A part in WRITE_THROUGH. -/
def through (s : State) : State :=
  { s with sm := { s.sm with mode := .writeThrough } }

/-- A media operation in progress. -/
def operating (who : Requester) (s : State) : State :=
  { s with mp := { s.mp with
    current := some { kind := .write, sector := 96, count := 2, data := [], requester := who, attempt := 1, start := 0,
                      abandoned := false } } }

/-- `base` in HOLDUP in a phase, with the rail returning. -/
def returning (p : HoldupPhase) : State :=
  { base with
    ps := { base.ps with power := .holdup, phase := some p }
    sm := { base.sm with rail := .returning } }

/-- `base` with a transaction state, a read in progress and an attempt number. -/
def sensing (t : TransState) (k : SenseKind) (n : Nat) : State :=
  { base with se := { base.se with trans := t, reading := some k, attempt := n } }

/-- `base` in a motion state. -/
def moving (m : MotionState) : State :=
  { base with mm := { base.mm with motion := m } }

/-! ### Values of the spec -/

/-- R74: the check value of the CRC-32 of the nine ASCII digits. -/
theorem test_crc32 : crc32 (ascii ['1', '2', '3', '4', '5', '6', '7', '8', '9']) = 0xCBF43926#32 := by decide +kernel

/-- R129: the CRC-8 of the same bytes, and the register after the write address byte. -/
theorem test_crc8 :
    crc8 (ascii ['1', '2', '3', '4', '5', '6', '7', '8', '9']) = 0xF4#8 ∧ crc8 [0xB4#8] = 0x05#8 := by decide +kernel

/-- R96, the table of fall heights. -/
theorem test_fallHeight : [0, 40, 52, 225, 1828, 1829].map fallHeight = [0, 31, 53, 993, 65528, 65535] := by decide

/-- R97: M 5,310,000 gives 2304, 2,359,297 gives 1536, and the largest M gives 7092. -/
theorem test_reportedPeak : [5310000, 2359297, 50307075].map reportedPeak = [2304, 1536, 7092] := by decide

/-- Chapter 2: VCAP 5000 stores 37,600 µJ at the defaults, and H is 37; no energy at Vmin. -/
theorem test_energy :
    storedEnergy 5000 4700 3000 = 37600 ∧ holdupBudget (availEnergy 37600 4000) 900 = 37 ∧
      storedEnergy 3000 4700 3000 = 0 := by decide

/-- R115: 3700 mV lies a quarter of the way from 300 to 400 per mille. -/
theorem test_perMille : [3299, 3300, 3700, 4149, 4150].map perMille = [0, 0, 325, 999, 1000] := by decide

/-- R111: a cell at band 2 that reports 15 tenths moves to band 4. -/
theorem test_nextBand : nextBand 2 15 = 4 ∧ nextBand 4 (-11) = 3 ∧ nextBand 4 (-10) = 4 := by decide

/-- Section 4.7: a WRITE of count 70 at T + 20 is RANGE/FORMAT with mask 1, 2, 4. -/
theorem test_write_mask :
    (after (.write 70 1999988) base).wc.refusal.mask = 0b1011#9 ∧
      (after (.write 70 1999988) base).wc.refusal.answer = .rangeFormat := by decide

/-- Section 4.7: a WRITE from a CLOSED zone into the next range is RANGE/SPAN with mask 7, 8. -/
theorem test_write_span :
    (after (.write 8 2396) base).wc.refusal.mask = 0b011000000#9 ∧
      (after (.write 8 2396) base).wc.refusal.answer = .rangeSpan := by decide

/-- R60: 4,294,967,290 plus 8 does not wrap. -/
theorem test_read_end : (after (.read 8 4294967290) base).wc.refusal.answer = .rangeEnd := by decide

/-- R14: an empty staging buffer answers a FLUSH at once with its count field. -/
theorem test_flush : ((after (.flush 200 7) base).fp.response.map (·.sectors)) = some 200 := by decide

/-- R157, chapter 10: capacity and T, least significant byte first. -/
theorem test_info :
    (after (.info 0 0) base).fp.response.map (·.payload) =
      some [0x80#8, 0x84#8, 0x1E#8, 0x00#8, 0x60#8, 0x84#8, 0x1E#8, 0x00#8] := by decide

/-- R132: an edge within 10 ms of the gauge start time is deferred. -/
theorem test_alert :
    (after .alertEdge { base with se := { base.se with gaugeStart := some 0 } }).se.alertDeferred = true := by decide

/-- R108: 20 mA over 250 ms take 5,000 mA·ms. -/
theorem test_gauge_integrates :
    (after (.gaugeSample 3700 20 200) { base with uptimeMs := 250 }).bg.rc = 6120000000 - 5000 := by decide +kernel

/-- R86, R90: axis values of −4096 clamp to 4095 and end the fall. -/
theorem test_motion_clamps :
    (after (.motionSample 0xF000 0xF000 0xF000) (moving .falling)).mm.peak = 50307075 := by decide

/-- R106: the fourth miss in a row sets STALE. -/
theorem test_gauge_stale :
    (after .gaugeMiss { base with bg := { base.bg with stale := 3 } }).bg.flagStale = true ∧
      (after .gaugeMiss { base with bg := { base.bg with stale := 2 } }).bg.flagStale = false := by decide

/-- R127: the bytes SE sends to each device, R127's table. -/
theorem test_attemptBytes :
    attemptBytes (sensing .transfer .motion 1) = [0x4C#8, 0x10#8, 0x4D#8] ∧
      attemptBytes (sensing .transfer .gauge 1) = [0xB4#8, 0x20#8, 0xB5#8] := by decide

/-- R131: after a TIMEOUT below the third attempt the count is one more during the train. -/
theorem test_timeout_counts : (after .senseTimeout (sensing .transfer .motion 1)).se.attempt = 2 := by decide

/-- R90: a drop that ends at entry to HOLDUP clears the free-fall run. -/
theorem test_holdup_clears_run :
    (after .brownout { moving .falling with mm := { (moving .falling).mm with ffRun := 40 } }).mm.ffRun = 0 := by
  decide +kernel

/-- R134: a miss handed over before the brownout is processed. -/
theorem test_handed_before_brownout :
    (after .brownout { base with se := { base.se with handed := [.gaugeMiss] } }).bg.stale = 1 := by decide +kernel

/-- R143: after the second image write every output is released. -/
theorem test_off :
    waitPin (after (.mediaOperationComplete 0 []) (operating (.holdup .imageSecond) (returning .save))) =
      .released := by decide

/-- R106: the fifth miss in a row leaves STALE as it is. -/
theorem test_gauge_stale_fifth :
    (after .gaugeMiss { base with bg := { base.bg with stale := 4 } }).bg.flagStale = false := by decide

/-- R177: at SOC 50 two LEDs are lit, and while charging the third blinks. -/
theorem test_bar :
    [1, 2, 3, 4].map (ledPin { base with bg := { base.bg with iavg := -11 } }) =
      [.active, .active, .active, .inactive] ∧
    [1, 2, 3, 4].map (ledPin { base with uptimeMs := 500, bg := { base.bg with iavg := -11 } }) =
      [.active, .active, .inactive, .inactive] := by decide

/-- A drop record with a sequence. -/
def dropOf (n : Nat) : DropRecord :=
  { sequence := n, kind := .soft, outcome := .settled, fallSamples := 40, height := 31, peak := 0, uptime := 0, wall := 0
    soc := 50, supplyDip := false, zoneCount := 0, zones := [255, 255, 255, 255] }

/-- R100, R149: a drop of STARTING leaves the ring at a restore, and the image's pending record joins it. -/
theorem test_restore_ring :
    (restoreMotion (layout 600 [(18, le 2 6), (20, le 1 1), (64, dropBytes (dropOf 6) [])])
      { base with mm := { base.mm with log := [dropOf 5, dropOf 6], pendingRecs := [dropOf 6] } }).mm.log.map
        (fun r => (r.sequence, r.soc)) = [(5, 50), (6, 50)] ∧
    (restoreMotion (layout 600 [(18, le 2 5)])
      { base with mm := { base.mm with log := [dropOf 5, dropOf 6], pendingRecs := [dropOf 6] } }).mm.log.map
        (fun r => r.sequence) = [5] := by decide +kernel

/-! ### WellFormed refuses -/

theorem test_wf_unknownCode : (Instr.unknownCodeRequest 4 1 0).wellFormed = false := by decide

theorem test_wf_dataFrame : (Instr.dataFrame [0]).wellFormed = false := by decide

theorem test_wf_payload : (Instr.mediaOperationComplete 0 (List.replicate 32769 0)).wellFormed = false := by
  simp only [Instr.wellFormed, List.length_replicate]; decide

theorem test_wf_attempt : (Instr.attemptComplete (.received [1, 2, 3, 4, 5])).wellFormed = false := by decide

theorem test_wf_tag : (Instr.untaggedFrontByte 0xC1).wellFormed = false ∧
    (Instr.untaggedFrontByte 0xD2).wellFormed = false := by decide

theorem test_wf_stray : (Instr.strayMediaBytes []).wellFormed = false := by decide

/-! ### Witnesses: requests -/

theorem witness_StepRunsFrontCommand : ∃ c rest, ({ base with pending := [.brownout] }).pending = c :: rest :=
  ⟨_, _, rfl⟩

/-- The idle step: a sense event handed over, a millisecond within a second and its last one; an instant to come, the
farthest one and one that is past; with and without a time base. -/
theorem witness_StepRunsFrontCommand_idle :
    (∃ h rest, ({ base with se := { base.se with handed := [.gaugeMiss] } }).se.handed = h :: rest) ∧
    base.pending = [] ∧ base.se.handed = [] ∧ base.msOfSec < 999 ∧ ({ base with msOfSec := 999 }).msOfSec = 999 ∧
    ((2147483648 : Word) - base.uptimeMs).toNat ≤ 2147483648 ∧
    2147483648 < ((2147483649 : Word) - base.uptimeMs).toNat ∧ base.zu.timeBase = 0 ∧
    ({ base with zu := { base.zu with timeBase := 7 } }).zu.timeBase ≠ 0 :=
  ⟨⟨_, _, rfl⟩, rfl, rfl, by decide, rfl, by decide, by decide, rfl, by decide⟩

/-- R41: 30 s after a header with time base 1,000. -/
theorem test_wallSeconds :
    wallSeconds { base with uptimeSec := 50, zu := { base.zu with timeBase := 1000, latchedUptime := 20 } } = 1030 := by
  decide

/-- A recovery in OFF. -/
theorem witness_PowerOnIssuesInfo :
    ({ returning .drain with ps := (inPower .off).ps }).sm.rail = .returning ∧
    ({ returning .drain with ps := (inPower .off).ps }).ps.power = .off := by decide

theorem witness_AnswersBeforeService :
    requestHeader (.unknownCodeRequest 9 0 7) = some (9, 0, 7) ∧ requestHeader (.read 1 0) = some (1, 1, 0) ∧
    takesFrames (inPower .starting) = true ∧ (inPower .starting).ps.mediaFault = false ∧
    (inPower .starting).ps.power = .starting ∧
    ({ base with ps := { base.ps with mediaFault := true } }).ps.mediaFault = true := by decide

/-- For the statements about requests that pass R57: WriteFirstFailingCheck, RefusedWriteRecorded, ReadRefused,
ReadServedFromStaging, ReadMissIssued, LiveStatusClearsAttn, FlushAnswered, UnknownCodeRefused. -/
theorem witness_PassedOn (p : PowerState) (h : p ≠ .starting) : PassedOn (inPower p) :=
  ⟨rfl, rfl, h⟩

theorem witness_InfoAnswered :
    takesFrames base = true ∧ base.ps.mediaFault = false ∧ base.ps.power ≠ .starting ∧ base.ps.power ≠ .holdup ∧
    takesFrames (inPower .holdup) = true ∧ takesFrames (inPower .starting) = true := by decide

/-- For WriteFirstFailingCheck, with the next three. -/
theorem witness_write_checks_1_to_6 :
    FormatFails 0 ∧ FormatFails 65 ∧ ¬FormatFails 1 ∧ ¬FormatFails 64 ∧
    EndFails base 1 2000000 ∧ ¬EndFails base 1 1999999 ∧
    OwnedFails base 1 1999973 ∧ OwnedFails base 1 1999999 ∧ ¬OwnedFails base 1 1999972 ∧
    ({ base with wc := { base.wc with slider := true } }).wc.slider = true ∧ base.wc.slider = false ∧
    ({ base with zu := { base.zu with readOnly := true } }).zu.readOnly = true ∧ base.zu.readOnly = false := by
  simp only [FormatFails, EndFails, OwnedFails]; decide

theorem witness_write_span : SpanFails base 2 799 :=
  ⟨0, 1, .general, .zone 0, by decide, by decide, by decide, by decide, by decide, by decide, by decide⟩

theorem witness_write_one_category : ¬SpanFails base 1 804 ∧ ¬SpanFails base 1 1999972 := by
  constructor <;>
  · rintro ⟨i, j, c, d, hi, hj, -, -, hc, hd, hne⟩
    obtain rfl : i = 0 := by simpa using hi
    obtain rfl : j = 0 := by simpa using hj
    exact hne (Option.some.inj (hc.symm.trans hd))

theorem witness_write_zone : ClosedFails base 1 2399 ∧ OpenAt base 1 803 804 ∧ OpenAt base 1 805 804 ∧
    OpenAt base 1 804 804 :=
  ⟨⟨by decide, 1, by decide, by decide⟩, ⟨by decide, 0, by decide, by decide, by decide⟩,
    ⟨by decide, 0, by decide, by decide, by decide⟩, ⟨by decide, 0, by decide, by decide, by decide⟩⟩

theorem witness_ReadRefused :
    FormatFails 65 ∧ EndFails base 65 1999990 ∧ ¬EndFails base 65 0 ∧ ¬FormatFails 64 ∧
    ¬EndFails (inPower .holdup) 64 1999936 ∧ EndFails base 64 1999937 := by
  simp only [FormatFails, EndFails]; decide

theorem witness_RefusedWriteRecorded :
    writeRefusalOf base 0 804 = some .rangeFormat ∧ writeRefusalOf base 1 805 = some .sequenceAhead := by decide

/-- A DIRTY line of the sectors at tail offsets 3 and 4. -/
def tailLine : Line :=
  { line with addr := 249996, valid := 0x18#8 }

/-- A READ of staged sectors, and one of a staged sector beside two live ones. -/
theorem witness_ReadServedFromStaging :
    inService (holding [line] base).ps.power = true ∧ ¬FormatFails 2 ∧ ¬EndFails (holding [line] base) 2 96 ∧
    (∀ i, i < (2#8).toNat → isMiss (holding [line] base) ((96#32).toNat + i) = false) ∧
    ¬CoversStatus (holding [line] base) (96#32).toNat (2#8).toNat ∧
    ¬FormatFails 3 ∧ ¬EndFails (holding [tailLine] base) 3 1999972 ∧
    (∀ i, i < (3#8).toNat → isMiss (holding [tailLine] base) ((1999972#32).toNat + i) = false) ∧
    CoversStatus (holding [tailLine] base) (1999972#32).toNat (3#8).toNat := by
  simp only [FormatFails, EndFails, CoversStatus]; decide +kernel

/-- Two lines that hold a sector, whose ages wrap: the newer one serves it. -/
theorem witness_ReadServedFromStaging_newest :
    (∀ l ∈ [{ line with age := 0xFFFFFFFF }, line], l.live = true → (l.age - 0xFFFFFFFF).toNat < 2147483648) ∧
    (holderOf [{ line with age := 0xFFFFFFFF }, line] 96).map (·.1) = some 1 ∧ (holderOf [line] 98).isNone = true := by
  decide

/-- A READ whose first sector is a miss, and one whose eighth is, behind a staged sector and the live window; MP idle, and
busy. -/
theorem witness_ReadMissIssued :
    isMiss base 5000 = true ∧ base.mp.current = none ∧ base.mp.handing = false ∧ base.mp.waiters = .none ∧
    drainWanted base = false ∧ ¬EndFails base 2 5000 ∧ (operating .drain base).mp.current.isSome = true ∧
    (7 : Nat) < (8#8).toNat ∧ ¬EndFails base 8 1999972 ∧
    (∀ i, i < 7 → isMiss (holding [tailLine] base) ((1999972#32).toNat + i) = false) ∧
    isMiss (holding [tailLine] base) ((1999972#32).toNat + 7) = true ∧
    CoversStatus (holding [tailLine] base) (1999972#32).toNat 7 := by
  simp only [EndFails, CoversStatus]; decide +kernel

/-- A READ that waits for a read miss of two sectors at its `n`-th attempt. -/
def missing (n : Nat) (count : Byte) (sector : Word) (s : State) : State :=
  { s with
    fp := { s.fp with port := .missWait, req := some { code := 1, count := count, sector := sector, taken := 0 } }
    mp := { s.mp with
      current := some { kind := .read, sector := sector.toNat, count := 2, data := [], requester := .readMiss, attempt := n
                        start := 0, abandoned := false } } }

/-- The read miss completes: with the next sector missing again, with one missing behind the live window, with the rest
staged or live, and with none left. -/
theorem witness_ReadMissIssued_completes :
    (∃ op r, (missing 1 3 5000 base).mp.current = some op ∧ (missing 1 3 5000 base).fp.req = some r ∧
      op.requester = .readMiss ∧ op.abandoned = false ∧ r.taken + op.count < r.count.toNat) ∧
    isMiss (missing 1 3 5000 base) 5002 = true ∧ (missing 1 3 5000 base).mp.waiters = .none ∧
    drainWanted (missing 1 3 5000 base) = false ∧ inService (missing 1 3 5000 base).ps.power = true ∧
    (∀ i, i < 6 → isMiss (missing 1 10 1999971 base) (1999971 + 2 + i) = false) ∧
    isMiss (missing 1 10 1999971 base) (1999971 + 2 + 6) = true ∧
    (∀ i, i < 3 → 2 ≤ i → isMiss (missing 1 3 94 (holding [line] base)) (94 + i) = false) ∧
    (∀ i, i < 4 → 2 ≤ i → isMiss (missing 1 4 1999971 base) (1999971 + i) = false) ∧
    (∀ i, i < 2 → 2 ≤ i → isMiss (missing 1 2 5000 base) (5000 + i) = false) ∧
    ∃ op, (missing 2 3 5000 base).mp.current = some op ∧ 2 ≤ op.attempt :=
  ⟨⟨_, _, rfl, rfl, rfl, rfl, by decide⟩, by decide, by decide, by decide, by decide, by decide +kernel,
    by decide +kernel, by decide +kernel, by decide +kernel, by decide, _, rfl, by decide⟩

theorem witness_LiveStatusClearsAttn : 32 ≤ base.ps.capacity ∧ (1999973#32).toNat = tailBase base + 5 := by decide

theorem witness_FlushAnswered :
    anyBelow (holding [line] base).sb.lines (holding [line] base).sb.ageCounter = true ∧
    anyBelow base.sb.lines base.sb.ageCounter = false ∧ base.sb.deferred = false ∧
    ({ base with sb := { base.sb with deferred := true } }).sb.deferred = true := by decide

theorem witness_UnknownCodeRefused : knownCode 0 = false ∧ knownCode 5 = false ∧ knownCode 255 = false := by decide

/-! ### Witnesses: data frames and the front link -/

theorem witness_StrayInputDiscarded : takesSector base = false ∧ takesSector (inPower .off) = false := by decide

theorem witness_FrameAdmitted :
    TablesSized base ∧ takesSector (writing .taking 2 804 base) = true ∧
    (804#32).toNat + 0 < tailBase base ∧ (∀ k, zoneOf base.zu.zones 804 = some k → (zoneAt base k).state = .opened) ∧
    ∃ sb, frontAdmitTest (writing .taking 2 804 base) 804 (toSector zeroSector) = .admitted sb := by
  refine ⟨by simp only [TablesSized]; decide, by decide, by decide, ?_, _, rfl⟩
  intro k h
  obtain rfl : k = 0 := by simpa using ((show zoneOf base.zu.zones 804 = some 0 by decide).symm.trans h).symm
  decide

/-- For FrameAdmitted and EntryApplied: the request is a WRITE. -/
theorem witness_FrameAdmitted_write :
    ∃ r, (writing .taking 2 804 base).fp.req = some r ∧ r.code = 2 ∧ r.sector.toNat + r.taken < tailBase base :=
  ⟨_, rfl, rfl, by decide⟩

/-- The last sector of a WRITE, in WRITE_BACK and in WRITE_THROUGH, where its own line is below the mark. -/
theorem witness_FrameAdmitted_last :
    takesSector (writing .taking 1 804 base) = true ∧ (1#8).toNat ≤ 0 + 1 ∧ base.sm.mode = .writeBack ∧
    ∃ sb, frontAdmitTest (writing .taking 1 804 (through base)) 804 (toSector zeroSector) = .admitted sb ∧
      (through base).sm.mode = .writeThrough ∧ anyBelow sb.lines sb.ageCounter = true :=
  ⟨by decide, by decide, by decide, _, rfl, rfl, by decide⟩

/-- A WRITE in transfer at sector 5,000 with no line left for DATA, and with a cost limit of 1. -/
def fullState : State :=
  writing .taking 2 5000 (holding (List.replicate 30 line) base)

/-- As `fullState`, for the cost test. -/
def costlyState : State :=
  writing .taking 2 5000 { holding [line] base with sm := { base.sm with limit := 1 } }

theorem witness_FrameHeld :
    takesSector fullState = true ∧ takesSector costlyState = true ∧ fullState.fp.req.isSome = true ∧
    fullState.ps.power ≠ .critical ∧ fullState.ps.power ≠ .holdup ∧ (5000#32).toNat + 0 < tailBase fullState ∧
    zoneOf fullState.zu.zones 5000 = none ∧ zoneOf costlyState.zu.zones 5000 = none ∧
    frontAdmitTest fullState 5000 (toSector zeroSector) = .refused .noLine ∧
    frontAdmitTest costlyState 5000 (toSector zeroSector) = .refused .cost :=
  ⟨by decide, by decide, by decide, by decide, by decide, by decide, by decide, by decide, rfl, rfl⟩

/-- Entry `k` of the final table shares no sector with another one. -/
def apart (s : State) (sec : Nat) (data : Sector) (k : Nat) : Bool :=
  (List.range 64).all fun j => j == k || !(finalEntry s sec data j).used ||
    (finalEntry s sec data j).base + (finalEntry s sec data j).length ≤ (finalEntry s sec data k).base ||
    (finalEntry s sec data k).base + (finalEntry s sec data k).length ≤ (finalEntry s sec data j).base

theorem apart_sound {s : State} {sec : Nat} {data : Sector} {k : Nat} (h : apart s sec data k = true) :
    ¬EntryFails s sec data k .overlap := by
  rintro ⟨j, n, hj, hne, ⟨-, h1, h2⟩, hu, h3, h4⟩
  have := List.all_eq_true.mp h j (List.mem_range.mpr hj)
  simp only [RawEntry.used, Bool.or_eq_true, beq_iff_eq, Bool.not_eq_true', decide_eq_true_eq,
    Bool.or_eq_false_iff, beq_eq_false_iff_ne] at this
  omega

/-- An entry sector whose first entry has a state, base and length. -/
def firstEntry (st b len : Nat) : Sector :=
  toSector (layout 12 [(0, le 1 st), (4, le 4 b), (8, le 4 len)])

/-- The first entry fails a check and none above it: SectorRefused. -/
theorem refused_first {s : State} {sec : Nat} {data : Sector} {c : MapCheck} (h : EntryFails s sec data (16 * sec) c)
    (hd : (c.code ≤ 1 ∨ ¬EntryFails s sec data (16 * sec) .state) ∧
      (c.code ≤ 2 ∨ ¬EntryFails s sec data (16 * sec) .align) ∧
      (c.code ≤ 3 ∨ ¬EntryFails s sec data (16 * sec) .bounds) ∧ (c.code ≤ 4 ∨ apart s sec data (16 * sec) = true) ∧
      (c.code ≤ 5 ∨ ¬EntryFails s sec data (16 * sec) .transition)) : SectorRefused s sec data c := by
  obtain ⟨h1, h2, h3, h4, h5⟩ := hd
  refine ⟨0, by decide, h, fun d hlt => ?_, fun _ hp => absurd hp (Nat.not_lt_zero _)⟩
  cases d with
  | state => exact h1.resolve_left (Nat.not_le.mpr hlt)
  | align => exact h2.resolve_left (Nat.not_le.mpr hlt)
  | bounds => exact h3.resolve_left (Nat.not_le.mpr hlt)
  | overlap => exact apart_sound (h4.resolve_left (Nat.not_le.mpr hlt))
  | transition => exact h5.resolve_left (Nat.not_le.mpr hlt)
  | changed => exact absurd hlt (by cases c <;> decide)

/-- Each check of R46, at a boundary where it has one. -/
theorem witness_MapSectorRejected_checks :
    SectorRefused base 3 (firstEntry 3 0 0) .state ∧ SectorRefused base 3 (firstEntry 1 2404 8) .align ∧
    SectorRefused base 3 (firstEntry 1 1999960 16) .bounds ∧ SectorRefused base 3 (firstEntry 1 1592 8) .overlap ∧
    SectorRefused base 3 (firstEntry 2 2400 8) .transition ∧ SectorRefused base 0 (firstEntry 1 808 792) .changed := by
  refine ⟨refused_first ?_ ?_, refused_first ?_ ?_, refused_first ?_ ?_, refused_first ⟨0, 1592, ?_⟩ ?_,
    refused_first ?_ ?_, refused_first ?_ ?_⟩ <;> simp only [EntryFails, EntryHolds] <;> decide +kernel

theorem witness_MapSectorRejected :
    takesSector (writing .taking 1 1999969 base) = true ∧ (writing .taking 1 1999969 base).fp.req.isSome = true ∧
    (writing .taking 1 1999969 base).ps.power ≠ .holdup ∧ (1999969#32).toNat + 0 = tailBase base + 1 ∧
    (1999972#32).toNat + 0 = tailBase base + 4 ∧
    validateSector (writing .taking 1 1999969 base) 0 (toSector [3]) = some .state ∧
    validateSector (writing .taking 1 1999972 base) 3 (toSector [3]) = some .state := by decide +kernel

theorem witness_EntryApplied :
    zoneStateOf 0 = .unused ∧ zoneStateOf 1 = .opened ∧ zoneStateOf 2 = .closed ∧
    (zoneAt base 0).state = .opened ∧ (zoneAt base 1).state = .closed ∧ (zoneAt base 63).state = .unused ∧
    legalMove (zoneAt base 0).state (zoneStateOf 1) = true ∧ legalMove (zoneAt base 0).state (zoneStateOf 2) = true ∧
    legalMove (zoneAt base 1).state (zoneStateOf 0) = true ∧ legalMove (zoneAt base 63).state (zoneStateOf 1) = true ∧
    legalMove (zoneAt base 63).state (zoneStateOf 0) = true := by decide

/-- An entry sector that leaves zone 0 OPEN and zone 1 CLOSED. -/
def entrySector : Sector :=
  toSector (layout 64 [(0, le 1 1), (4, le 4 800), (8, le 4 800), (32, le 1 2), (36, le 4 1600), (40, le 4 800)])

/-- An entry sector that closes zone 0 and leaves zone 1 CLOSED. -/
def closingSector : Sector :=
  toSector (layout 64 [(0, le 1 2), (4, le 4 800), (8, le 4 800), (32, le 1 2), (36, le 4 1600), (40, le 4 800)])

/-- A header write in transfer with a reserve in force and the gauge record pending. -/
def reserving (r : Nat) : State :=
  { writing .taking 1 1999968 base with
    zu := { base.zu with settings := { base.zu.settings with reserve := r } }, ru := { base.ru with pending := [11] } }

/-- Map frames: a header at offset 0, and entry sectors at offsets 1 and 4. -/
theorem witness_EntryApplied_frames :
    takesSector (writing .taking 1 1999968 base) = true ∧ (1999968#32).toNat + 0 = tailBase base + 0 ∧
    (1999969#32).toNat + 0 = tailBase base + 1 ∧ (1999972#32).toNat + 0 = tailBase base + 4 ∧
    zoneOf base.zu.zones (tailBase base + 0) = none ∧ zoneOf base.zu.zones (tailBase base + 4) = none ∧
    validateSector (writing .taking 1 1999969 base) 0 entrySector = none ∧
    validateSector (writing .taking 1 1999972 base) 3 zeroSector = none ∧
    (∃ sb, frontAdmitTest (writing .taking 1 1999968 base) (tailBase base + 0) zeroSector = .admitted sb) ∧
    ∃ sb, frontAdmitTest (writing .taking 1 1999969 base) (tailBase base + 1) entrySector = .admitted sb :=
  ⟨by decide, by decide, by decide, by decide, by decide, by decide, by decide +kernel, by decide +kernel,
    ⟨_, rfl⟩, ⟨_, rfl⟩⟩

/-- Entry sectors whose entries pass every check. -/
theorem witness_EntryApplied_passes : SectorPasses base 0 entrySector ∧ SectorPasses base 3 zeroSector := by
  refine ⟨?_, ?_⟩ <;> intro pos hp d <;> cases d <;>
    first
    | exact apart_sound ((by decide +kernel : ∀ p, p < 16 → apart base 0 entrySector (16 * 0 + p) = true) pos hp)
    | exact apart_sound ((by decide +kernel : ∀ p, p < 16 → apart base 3 zeroSector (16 * 3 + p) = true) pos hp)
    | (revert pos; simp only [EntryFails]; decide +kernel)

/-- R49, R174: an entry sector that closes zone 0 marks its check sector, which is admitted; a header that changes R has the
gauge record admitted. -/
theorem witness_EntryApplied_offers :
    inService base.ps.power = true ∧ base.ps.mediaFault = false ∧
    (zoneAt (after (.dataFrame closingSector) (writing .taking 1 1999969 base)) 0).state ≠ (zoneAt base 0).state ∧
    (after (.dataFrame closingSector) (writing .taking 1 1999969 base)).ru.pending = [] ∧
    (after (.dataFrame zeroSector) (reserving 3)).zu.settings.reserve ≠ (reserving 3).zu.settings.reserve ∧
    (after (.dataFrame zeroSector) (reserving 3)).ru.pending = [] ∧
    (after (.dataFrame zeroSector) (reserving 2)).ru.pending = [11] := by decide +kernel

/-- R9, R63: the answer of a frame that staging refuses: in a CLOSED zone, at the ends of the live window and of the image
area, and in CRITICAL. -/
theorem witness_FrameHeld_refused :
    [1600, 2399, 1999973, 1999978, 1999985, 1999999].map (fun n =>
      (after (.dataFrame zeroSector) (writing .taking 2 n base)).fp.response.map (·.answer)) =
      [some .protectedClosed, some .protectedClosed, some .protectedOwned, some .protectedOwned, some .protectedOwned,
        some .protectedOwned] ∧
    (after (.dataFrame zeroSector) (writing .taking 2 804 (inPower .critical))).fp.response.map (·.answer) =
      some .powerCritical ∧
    takesSector (writing .taking 2 804 (inPower .critical)) = true ∧
    takesSector (writing .taking 2 804 (inPower .holdup)) = true ∧ (inPower .holdup).mp.waiters.holdup = none ∧
    validateSector base 0 entrySector = none ∧ TablesSized base := by
  simp only [TablesSized]; decide +kernel

/-- For FrameHeld: no line is left for a header or an entry sector. -/
theorem witness_FrameHeld_map :
    takesSector (writing .taking 1 1999968 (holding (List.replicate 32 line) base)) = true ∧
    (1999968#32).toNat + 0 ≤ tailBase base + 4 ∧ (1999969#32).toNat + 0 = tailBase base + 1 ∧
    TablesSized (writing .taking 1 1999969 (holding (List.replicate 32 line) base)) ∧
    SectorPasses (writing .taking 1 1999969 (holding (List.replicate 32 line) base)) 0 entrySector ∧
    frontAdmitTest (writing .taking 1 1999968 (holding (List.replicate 32 line) base)) 1999968 zeroSector =
      .refused .noLine ∧
    frontAdmitTest (writing .taking 1 1999969 (holding (List.replicate 32 line) base)) 1999969 entrySector =
      .refused .noLine :=
  ⟨by decide, by decide, by decide, by simp only [TablesSized]; decide, witness_EntryApplied_passes.1, rfl, rfl⟩

/-- A header with its marker, and one without. -/
theorem witness_EntryApplied_headers :
    field (layout 512 [(0, markerZoneMap)]) 0 8 = markerZoneMap ∧ field zeroSector 0 8 ≠ markerZoneMap := by
  decide +kernel

theorem witness_AdmissionCosts :
    (∃ t, placeSector base.sb .data 5000 none 2 zeroSector = some t) ∧
    mergeTarget base.sb.lines .data 5000 = none ∧
    (∃ t, placeSector (holding [line] base).sb .data 98 none 2 zeroSector = some t) ∧
    (mergeTarget (holding [line] base).sb.lines .data 98).isSome = true ∧
    ∀ l ∈ (holding [line] base).sb.lines, l.data.length = 8 :=
  ⟨⟨_, rfl⟩, by decide, ⟨_, rfl⟩, by decide, by decide⟩

/-- R5, R6: MAP never merges, a class merges with its own alone, and DATA finds no line within the reserve. -/
theorem test_places :
    mergeTarget (holding [line] base).sb.lines .map 98 = none ∧
    mergeTarget (holding [line] base).sb.lines .record 98 = none ∧
    placeSector (holding (List.replicate 30 line) base).sb .data 5000 none 2 zeroSector = none ∧
    (placeSector (holding (List.replicate 30 line) base).sb .data 98 none 2 zeroSector).isSome = true ∧
    (placeSector (holding (List.replicate 30 line) base).sb .record 5000 none 2 zeroSector).isSome = true := by
  decide +kernel

/-- R11: with no place the test answers NOLINE, with a place and too high a cost COST. R7: an L of 1 lets one run in. -/
theorem test_refusal_reasons :
    admitTest (holding (List.replicate 30 line) base).sb .data 5000 none 2 20 zeroSector = .refused .noLine ∧
    admitTest (holding [line] base).sb .data 5000 none 2 1 zeroSector = .refused .cost ∧
    (∃ sb, admitTest base.sb .data 5000 none 2 0 zeroSector = .admitted sb) ∧
    ∃ sb, admitTest (holding [line] base).sb .data 5000 none 2 2 zeroSector = .admitted sb :=
  ⟨rfl, rfl, ⟨_, rfl⟩, _, rfl⟩

/-- For AdmissionCosts: front sectors at both ends of the map area and beside it, in an OPEN zone, in none and in a CLOSED
one. -/
theorem witness_AdmissionCosts_front :
    tailBase base = 1999968 ∧ zoneOf base.zu.zones 804 = some 0 ∧ (zoneAt base 0).state = .opened ∧
    zoneOf base.zu.zones 5000 = none ∧ zoneOf base.zu.zones 1700 = some 1 ∧ (zoneAt base 1).state ≠ .opened ∧
    zoneOf base.zu.zones 1999967 = none ∧ zoneOf base.zu.zones 1999973 = none := by decide

/-- R2, R4, R6: an allocation takes the lowest-numbered FREE line, the age before the advance and the zone number; a merge
keeps the line's age. -/
theorem test_allocation :
    (placeSector (holding [line] base).sb .data 800 (some 0) 2 zeroSector).map
      (fun t => (t.lines[1]?.map fun l => (l.age, l.zone), t.ageCounter)) = some (some (1, some 0), 2) ∧
    (placeSector (holding [line] base).sb .data 98 (some 0) 2 zeroSector).map
      (fun t => (t.lines[0]?.map fun l => (l.age, l.zone), t.ageCounter)) = some (some (0, none), 1) := by decide

theorem witness_LinkEndsRequest :
    (writing .answering 1 0 base).fp.port = .answering ∧ base.fp.port ≠ .closed ∧
    (writing .closed 1 0 base).fp.port = .closed := by decide

/-- A held sector with each reason. -/
def heldState (why : HoldReason) : State :=
  { writing .held 2 804 base with
    fp := { (writing .held 2 804 base).fp with
      held := some { data := zeroSector, reason := why }, holdStart := some 0 } }

theorem witness_HoldLimitEndsBusy (why : HoldReason) :
    (heldState why).fp.port = .held ∧ (heldState why).fp.req.isSome = true ∧
    (heldState why).fp.held = some { data := zeroSector, reason := why } ∧ (heldState why).fp.holdStart = some 0 ∧
    ((0 : Word) + 25 - (heldState why).uptimeMs).toNat ≤ 2147483648 :=
  ⟨rfl, rfl, rfl, rfl, (by decide : ((0 : Word) + 25 - base.uptimeMs).toNat ≤ 2147483648)⟩

/-! ### Witnesses: media port and staging -/

theorem witness_FirstFailureRetried :
    ∃ op, (operating .drain base).mp.current = some op ∧ op.attempt = 1 ∧ op.abandoned = false ∧
      (operating .drain base).ps.power ≠ .holdup ∧
      (op.start + 200 - (operating .drain base).uptimeMs).toNat ≤ 2147483648 :=
  ⟨_, rfl, rfl, rfl, by decide, by decide⟩

/-- In HOLDUP: an image write and an invalidation write, and a drain run with the energy for its retry and without it. -/
theorem witness_FirstFailureRetried_holdup :
    (∃ op, (operating (.holdup .imageFirst) (returning .save)).mp.current = some op ∧ Retried op (returning .save)) ∧
    (∃ op, (operating (.holdup .invalidate) (returning .invalidate)).mp.current = some op ∧
      Retried op (returning .invalidate)) ∧
    (∃ op, (operating .drain (returning .drain)).mp.current = some op ∧ Retried op (returning .drain) ∧
      ¬Retried op { returning .drain with sm := { base.sm with avail := 899 } }) := by
  simp only [Retried]
  exact ⟨⟨_, rfl, by decide⟩, ⟨_, rfl, by decide⟩, ⟨_, rfl, by decide, by decide⟩⟩

/-- An abandoned read miss in progress, with what waits behind it. -/
def granting (m : Option MissRun) (d : Bool) (n : Nat) : State :=
  let s := if d then holding [line] base else base
  { s with mp := { s.mp with
    current := some { kind := .read, sector := 5000, count := 2, data := [], requester := .readMiss, attempt := 1
                      start := 0, abandoned := true }
    waiters := { Waiters.none with readMiss := m, drain := d }
    starvation := n } }

/-- A read miss and a drain at starvation counts 3 and 4, each of them alone, and neither. -/
theorem witness_FirstFailureRetried_grants :
    DrainStands (granting (some ⟨5000, 1⟩) true 3) ∧ DrainStands (granting (some ⟨5000, 1⟩) true 4) ∧
    DrainStands (granting none true 0) ∧ DrainStands (granting (some ⟨5000, 1⟩) false 0) ∧
    DrainStands (granting none false 0) ∧ inService (granting none true 0).ps.power = true ∧
    (∃ op, (granting none true 0).mp.current = some op ∧ op.requester = .readMiss ∧ op.abandoned = true) ∧
    ∃ c, chooseRun (granting none true 0).sb.lines = some c := by
  refine ⟨?_, ?_, ?_, ?_, ?_, by decide, ⟨_, rfl, rfl, rfl⟩, _, rfl⟩ <;>
  · simp only [DrainStands]; decide

/-- Lines to choose from, with and without a DRAINING one; the ages wrap. -/
theorem witness_FirstFailureRetried_choice :
    LinesRun [line, { line with state := .draining }] ∧ AgesClose [line, { line with age := 0xFFFFFFFF }] ∧
    LinesRun [line, { line with age := 0xFFFFFFFF }] ∧
    (∃ c, chooseRun [line, { line with state := .draining }] = some c ∧ c.idx = 1) ∧
    (∃ c, chooseRun [line, { line with age := 0xFFFFFFFF }] = some c ∧ c.idx = 1) ∧ chooseRun [Line.free] = none := by
  refine ⟨by simp only [LinesRun]; decide, ⟨0xFFFFFFFF, by decide⟩, by simp only [LinesRun]; decide, ⟨_, rfl, rfl⟩,
    ⟨_, rfl, rfl⟩, by rfl⟩

/-- A run in flight at the onset of the brace goes on. -/
theorem witness_FirstFailureRetried_brace :
    ∃ t op, exec .linkReset (operating .drain (moving .falling)) = .next t ∧ bracedState t.mm.motion = true ∧
      t.ps.power ≠ .holdup ∧ t.mp.current = some op ∧ op.requester = .drain :=
  ⟨_, _, rfl, by decide, by decide, rfl, rfl⟩

/-- A media operation at its second attempt. -/
def operatingAgain (who : Requester) (s : State) : State :=
  { s with mp := { s.mp with current := (operating who base).mp.current.map fun op => { op with attempt := 2 } } }

/-- A sector held at 5,000 behind a run in flight and `n` other lines. -/
def heldBehind (n : Nat) : State :=
  let s := writing .held 2 5000
    (operatingAgain .drain (holding ({ line with state := .draining } :: List.replicate n line) base))
  { s with
    fp := { s.fp with held := some { data := zeroSector, reason := .noLine }, holdStart := some 0 }
    sm := { s.sm with limit := 128 } }

/-- The operation of `heldBehind`. -/
def heldRun : MediaOp :=
  { kind := .write, sector := 96, count := 2, data := [], requester := .drain, attempt := 2, start := 0,
    abandoned := false }

/-- For LastRunFreesLine and LossReported: the run frees a line, which the held sector may take, or may not. -/
theorem witness_HoldRetried :
    (heldBehind 29).mp.current = some heldRun ∧ (heldBehind 29).ru.pending = [] ∧ (heldBehind 29).fp.port = .held ∧
    SpaceEvent (heldBehind 29).sb.lines (linesAfterRun heldRun (heldBehind 29).sb.lines) ∧
    SpaceEvent (heldBehind 30).sb.lines (linesAfterRun heldRun (heldBehind 30).sb.lines) ∧
    (∃ r, (heldBehind 29).fp.req = some r ∧ r.code = 2 ∧ r.sector.toNat + r.taken ≤ tailBase base + 4) ∧
    zoneOf base.zu.zones 5000 = none ∧
    (∃ sb, frontAdmitTest (runFinished heldRun (heldBehind 29)) 5000 zeroSector = .admitted sb) ∧
    frontAdmitTest (runFinished heldRun (heldBehind 30)) 5000 zeroSector = .refused .noLine ∧
    (∀ k, ¬DamagedBy (heldBehind 29) 96 (drainingZone (heldBehind 29).sb.lines) k) := by
  refine ⟨rfl, rfl, rfl, by simp only [SpaceEvent]; decide +kernel, by simp only [SpaceEvent]; decide +kernel,
    ⟨_, rfl, rfl, by decide⟩, by decide, ⟨_, rfl⟩, rfl, ?_⟩
  rintro k (⟨h, -⟩ | ⟨-, h⟩)
  · exact absurd ((show drainingZone (heldBehind 29).sb.lines = none by rfl).symm.trans h) (by simp)
  · exact absurd ((show zoneOf base.zu.zones 96 = none by decide).symm.trans h) (by simp)

/-- For AdmissionCosts: a command that completes, with the run of a DRAINING line in flight. -/
theorem witness_AdmissionCosts_step :
    (∃ t, exec (.mediaOperationComplete 0 []) (heldBehind 1) = .next t) ∧ (heldBehind 1).mp.current = some heldRun ∧
    heldRun.requester.isDrain = true ∧
    dirtyCost (linesAfterRun heldRun (heldBehind 1).sb.lines) ≤ dirtyCost (heldBehind 1).sb.lines :=
  ⟨⟨_, rfl⟩, rfl, rfl, by decide +kernel⟩

/-- A MAP sector held at `sector` behind a run in flight and `n` other lines. -/
def heldMap (n : Nat) (sector : Word) (data : Sector) : State :=
  { heldBehind n with fp := { (writing .held 1 sector base).fp with
      held := some { data := data, reason := .noLine }, holdStart := some 0 } }

/-- For LastRunFreesLine, ConversionComputes and MotionSampleMoves: the run frees the line that a held header, or a held
entry sector, takes; with a line free, L decides. -/
theorem witness_MapRetried :
    (heldMap 31 1999968 zeroSector).fp.req.isSome = true ∧ (1999969#32).toNat + 0 = tailBase base + 1 ∧
    SpaceEvent (heldMap 31 1999968 zeroSector).sb.lines
      (linesAfterRun heldRun (heldMap 31 1999968 zeroSector).sb.lines) ∧
    SectorPasses (runFinished heldRun (heldMap 31 1999969 entrySector)) 0 entrySector ∧
    (∃ sb, frontAdmitTest (runFinished heldRun (heldMap 31 1999968 zeroSector)) (tailBase base + 0) zeroSector =
      .admitted sb) ∧
    (∃ sb, frontAdmitTest (runFinished heldRun (heldMap 31 1999969 entrySector)) (tailBase base + 1) entrySector =
      .admitted sb) ∧
    ∃ sb, frontAdmitTest (heldMap 1 1999969 entrySector) (tailBase base + 1) entrySector = .admitted sb :=
  ⟨rfl, by decide, by simp only [SpaceEvent]; decide +kernel, witness_EntryApplied_passes.1, ⟨_, rfl⟩, ⟨_, rfl⟩, _, rfl⟩

/-- A completion wait that the run ends, and one that goes on behind another line. -/
theorem witness_WaitTested :
    anyBelow (linesAfterRun heldRun (heldBehind 0).sb.lines) 1 = false ∧
    anyBelow (linesAfterRun heldRun (heldBehind 1).sb.lines) 1 = true ∧
    ({ heldBehind 0 with fp := { (heldBehind 0).fp with port := .completing, mark := some 1 } }).fp.port = .completing :=
  ⟨by decide, by decide, rfl⟩

theorem witness_LastRunFreesLine :
    (operating .drain (holding [{ line with state := .draining }] base)).fp.port = .idle ∧
    (operating .drain (holding [{ line with state := .draining }] base)).ru.pending = [] ∧
    (operating .drain (holding [{ line with state := .draining }] base)).mp.waiters = .none ∧
    ∀ l ∈ (operating .drain (holding [{ line with state := .draining }] base)).sb.lines, l.live = true →
      l.state = .draining ∧ l.valid &&& ~~~(l.programmed ||| slotMask (96 % 8) 2) = 0 := by decide

/-- R174: the run's end is a space event, at which the pending sectors are offered. -/
theorem witness_LastRunFreesLine_offers :
    let s := { operating .drain (holding [{ line with state := .draining }] base) with
      ru := { base.ru with pending := [12, 15] } }
    s.ps.mediaFault = false ∧ s.fp.port ≠ .held ∧ TablesSized s ∧
    SpaceEvent s.sb.lines (linesAfterRun { heldRun with attempt := 1 } s.sb.lines) ∧
    s.mp.current = some { heldRun with attempt := 1 } ∧ (after (.mediaOperationComplete 0 []) s).ru.pending = [] := by
  simp only [TablesSized, SpaceEvent]; decide +kernel

/-- In CRITICAL, where OFFREQ is asserted. -/
theorem witness_LastRunFreesLine_critical :
    inService (operating .drain (inPower .critical)).ps.power = true ∧
    (operating .drain (inPower .critical)).ps.power = .critical ∧ base.ps.power ≠ .critical ∧
    (operating .drain (inPower .critical)).fp.port = .idle ∧ (operating .drain (inPower .critical)).ru.pending = [] := by
  decide

theorem witness_LossReported : TablesSized base ∧ zoneOf base.zu.zones 800 = some 0 ∧
    zoneOf base.zu.zones 2399 = some 1 := by
  simp only [TablesSized]; decide

/-- `base` with a drain run at its second attempt. -/
def retrying : State :=
  { base with mp := { base.mp with current := (operating .drain base).mp.current.map fun op => { op with attempt := 2 } } }

/-- A drain run at its second attempt, with a zone number that still holds, one that no longer does, and no zone. -/
theorem witness_LossReported_commands :
    TablesSized retrying ∧ (∃ op, retrying.mp.current = some op ∧ op.requester = .drain ∧ 2 ≤ op.attempt) ∧
    inService retrying.ps.power = true ∧ retrying.fp.port ≠ .held ∧ (1#8 : Byte) ≠ 0 ∧
    DamagedBy base 800 (some 0) 0 ∧ DamagedBy base 1600 (some 0) 1 ∧ DamagedBy base 2399 none 1 ∧
    (∀ k, ¬DamagedBy base 2400 none k) ∧ (runtimeAt base 1).damaged = false := by
  refine ⟨by simp only [TablesSized]; decide, ⟨_, rfl, rfl, by decide⟩, by decide, by decide, by decide,
    .inl ⟨rfl, by decide⟩, .inr ⟨?_, by decide⟩, .inr ⟨?_, by decide⟩, ?_, by decide⟩
  · intro z h; cases h; decide
  · intro z h; cases h
  · rintro k (⟨h, -⟩ | ⟨-, h⟩)
    · cases h
    · exact absurd ((show zoneOf base.zu.zones 2400 = none by decide).symm.trans h) (by simp)

/-- R79, R174: a loss in zone 0 marks its check sector, which is admitted. -/
theorem witness_LossReported_offers :
    let op := { heldRun with sector := 800 }
    let s := { base with mp := { base.mp with current := some op } }
    DamageMarks op s 13 ∧ 13 ∉ s.ru.pending ∧ s.ps.mediaFault = false ∧
    (after (.mediaOperationComplete 1 []) s).ru.pending = [] ∧
    (runtimeAt (after (.mediaOperationComplete 1 []) s) 0).damaged = true := by
  refine ⟨⟨0, .inr ⟨?_, by decide⟩, by decide, rfl⟩, by decide, by decide, by decide +kernel, by decide +kernel⟩
  intro z h; cases h

/-- R19, R174: with L 1 the sector pending at the space event takes the one run, and the mark of the loss, which comes
after it, waits; without a zone nothing is marked. -/
theorem witness_LossReported_order :
    let l : Line := { line with addr := 100, state := .draining }
    let op := { heldRun with sector := 800 }
    let s := holding [l] { base with ru := { base.ru with pending := [16] }, sm := { base.sm with limit := 1 } }
    let s1 := { s with mp := { s.mp with current := some op } }
    SpaceEvent s1.sb.lines (linesAfterRun op s1.sb.lines) ∧ TablesSized s1 ∧ inService s1.ps.power = true ∧
    (after (.mediaOperationComplete 1 []) s1).ru.pending = [13] ∧
    zoneOf base.zu.zones 96 = none ∧
    SpaceEvent (heldBehind 0).sb.lines (linesAfterRun heldRun (heldBehind 0).sb.lines) := by
  simp only [SpaceEvent, TablesSized]; decide +kernel

theorem witness_DiscardsEmptyStaging : LinesRun (holding [line, { line with state := .draining }] base).sb.lines := by
  simp only [LinesRun]; decide

/-- The energy test at a brownout and after a run: with energy, without it, and with nothing staged. -/
theorem witness_DiscardsEmptyStaging_test :
    (holding [line] base).sm.rail = .good ∧ (holding [line] base).mp.current = none ∧
    staged (holding [line] base).sb.lines = true ∧ (holding [line] base).sm.ewUsed ≤ (holding [line] base).sm.avail ∧
    ({ base with sm := { base.sm with avail := 899 } }).sm.avail < base.sm.ewUsed ∧ staged base.sb.lines = false ∧
    (operating (.holdup .drainRun) (returning .drain)).fp.port = .idle ∧
    (operating (.holdup .drainRun) (returning .drain)).ps.phase = some .drain ∧
    LinesRun (linesAfterRun heldRun (heldBehind 1).sb.lines) ∧
    staged (linesAfterRun heldRun (heldBehind 1).sb.lines) = true ∧
    staged (linesAfterRun heldRun (heldBehind 0).sb.lines) = false := by
  simp only [LinesRun]; decide

/-- A run that fails in phase DRAIN at its second attempt, or at its first without the energy for a retry; and a read miss
from before the entry, with each request that may wait behind it. -/
theorem witness_DiscardsEmptyStaging_failures :
    (∃ op, (operatingAgain (.holdup .drainRun) (returning .drain)).mp.current = some op ∧ 2 ≤ op.attempt ∧
      op.requester = .holdup .drainRun) ∧
    (∃ op, (operating .drain (returning .drain)).mp.current = some op ∧ op.attempt = 1 ∧ op.requester = .drain) ∧
    ({ returning .drain with sm := { base.sm with avail := 899 } }).sm.avail < (returning .drain).sm.ewUsed ∧
    (∃ op, (granting none true 0).mp.current = some op ∧ op.requester = .readMiss ∧ op.abandoned = true) ∧
    (requestHoldup .drainRun (granting none true 0)).mp.waiters.holdup = some .drainRun ∧
    LinesRun (granting none true 0).sb.lines ∧ staged (granting none true 0).sb.lines = true ∧
    (requestHoldup .imageFirst (granting none false 0)).mp.waiters.holdup = some .imageFirst ∧
    base.zu.readOnly = false := by
  refine ⟨⟨_, rfl, by decide, rfl⟩, ⟨_, rfl, rfl, rfl⟩, by decide, ⟨_, rfl, rfl, rfl⟩, rfl,
    by simp only [LinesRun]; decide, by decide, rfl, rfl⟩

/-- Start-up with a media operation of a step in progress. -/
def starting (p : StartStep) : State :=
  operating (.startup p) { State.reset with ps := { PowerSup.reset with startPos := p } }

theorem witness_CapacityFormsTail :
    (starting .capacity).ps.power = .starting ∧ (starting .capacity).ps.brownedOut = false ∧
    u32At (le 4 1048575) 0 < 1048576 ∧ 1048576 ≤ u32At (le 4 1048576) 0 := by decide

/-- The capacity INFO at its second and its third attempt. -/
theorem witness_CapacityFormsTail_attempts :
    (∃ op, (operatingAgain (.startup .capacity) (starting .capacity)).mp.current = some op ∧ op.attempt < 3) ∧
    ∃ op, (retryOp { (heldRun) with requester := .startup .capacity } (starting .capacity)).mp.current = some op ∧
      3 ≤ op.attempt ∧ op.requester = .startup .capacity :=
  ⟨⟨_, rfl, by decide⟩, ⟨_, rfl, by decide, rfl⟩⟩

/-- Each later read of start-up, a success or a second failure, with and without the record's marker. -/
theorem witness_CapacityFormsTail_reads (p : StartStep) :
    (∃ op, (starting p).mp.current = some op ∧ op.requester = .startup p) ∧
    (∃ op, (operatingAgain (.startup p) (starting p)).mp.current = some op ∧ 2 ≤ op.attempt) ∧
    (starting p).bg.isSet = false ∧
    (field (layout 512 [(0, markerGauge)]) 0 8 = markerGauge ∧ field zeroSector 0 8 ≠ markerGauge) ∧
    field (layout 512 [(28, markerDropLog)]) 28 4 = markerDropLog ∧ field zeroSector 28 4 ≠ markerDropLog :=
  ⟨⟨_, rfl, rfl⟩, ⟨_, rfl, (by decide : 2 ≤ 2)⟩, rfl, by decide +kernel, by decide +kernel, by decide +kernel⟩

/-- Entries below T, of an invalid state, not aligned, too short, out of bounds, meeting zone 0, and UNUSED. -/
theorem witness_MapBuilt :
    entryIgnored base 2 { st := 1, base := 2400, length := 8 } = false ∧
    entryIgnored base 2 { st := 3, base := 2400, length := 8 } = true ∧
    entryIgnored base 2 { st := 1, base := 2404, length := 8 } = true ∧
    entryIgnored base 2 { st := 2, base := 2400, length := 0 } = true ∧
    entryIgnored base 2 { st := 1, base := 1999960, length := 16 } = true ∧
    entryIgnored base 2 { st := 1, base := 1592, length := 8 } = true ∧
    entryIgnored base 2 { st := 0, base := 3, length := 1 } = false ∧
    (headerSettings (layout 512 [(0, markerZoneMap), (22, le 2 5000)])).design ≠ base.zu.settings.design := by
  decide +kernel

theorem witness_SecondImageWriteEndsInOff :
    ∃ op, (operating (.holdup .imageSecond) (returning .save)).mp.current = some op ∧
      op.requester = .holdup .imageSecond ∧
      (operating (.holdup .imageSecond) (returning .save)).ps.phase ≠ some .invalidate :=
  ⟨_, rfl, rfl, by decide⟩

/-- The second failure, by a status that is not 0. -/
theorem witness_SecondImageWriteEndsInOff_fails :
    (∃ op, (operatingAgain (.holdup .imageSecond) (returning .save)).mp.current = some op ∧
      op.requester = .holdup .imageSecond ∧ 2 ≤ op.attempt) ∧
    (after (.mediaOperationComplete 1 []) (operatingAgain (.holdup .imageSecond) (returning .save))).ps.power = .off :=
  ⟨⟨_, rfl, rfl, by decide⟩, by decide +kernel⟩

theorem witness_SecondImageWriteEndsInOff_first :
    (∃ op, (operating (.holdup .imageFirst) (returning .save)).mp.current = some op ∧
      op.requester = .holdup .imageFirst) ∧
    (∃ op, (operatingAgain (.holdup .imageFirst) (returning .save)).mp.current = some op ∧ 2 ≤ op.attempt) ∧
    (returning .save).ps.power = .holdup ∧ (returning .save).ps.phase ≠ some .invalidate :=
  ⟨⟨_, rfl, rfl⟩, ⟨_, rfl, by decide⟩, by decide, by decide⟩

/-- The rows of the indicator table. -/
theorem witness_SecondImageWriteEndsInOff_leds :
    inService (inPower .starting).ps.power = false ∧ (inPower .starting).ps.power ≠ .off ∧
    inService base.ps.power = true ∧ base.ps.mediaFault = false ∧ base.bg.flagUnknown = false ∧
    base.ps.power ≠ .critical ∧ base.bg.soc ≤ 100 ∧ (inPower .critical).ps.power = .critical ∧
    ({ base with bg := { base.bg with flagUnknown := true } }).bg.flagUnknown = true := by decide

/-- R171, R156: ATTN with its latch set and clear, before the first service and after it; WAIT in each port state; the
other lines in use and not. -/
theorem witness_SecondImageWriteEndsInOff_outputs :
    (starting .mapArea).ps.startPos ≠ .served ∧ base.ps.startPos = .served ∧ base.ps.power ≠ .off ∧
    attnPin { starting .mapArea with ru := { base.ru with attn := true } } = .inactive ∧
    attnPin { base with ru := { base.ru with attn := true } } = .active ∧
    attnPin { base with ru := { base.ru with attn := false } } = .inactive ∧
    [PortState.idle, .taking, .held, .completing, .assembling, .missWait, .answering, .closed].map
      (fun p => waitPin (writing p 1 804 base)) =
      [.inactive, .inactive, .active, .active, .inactive, .active, .inactive, .released] ∧
    (operating .drain base).mp.current.isSome = true ∧ (sensing .recovery .motion 1).se.trans = .recovery ∧
    (writing .held 1 804 base).fp.port ≠ .closed ∧ (inPower .off).ps.power = .off := by decide

/-! ### Witnesses: supply, power loss and recovery -/

theorem witness_ConversionComputes :
    0 < base.sm.converting ∧ base.mm.motion ≠ .disabled ∧ (moving .disabled).mm.motion = .disabled ∧
    base.ps.power ≠ .holdup ∧ base.fp.port ≠ .held ∧ base.zu.settings.vmin = 3000 := by decide

/-- A conversion that changes L while a sector is held, and one that ends a write-through wait. -/
theorem witness_ConversionComputes_front :
    (heldBehind 1).fp.port = .held ∧ 0 < (heldBehind 1).sm.converting ∧ (heldBehind 1).ru.pending = [] ∧
    TablesSized (heldBehind 1) ∧
    (after (.conversionComplete 3700 5000) (heldBehind 1)).sm.limit ≠ (heldBehind 1).sm.limit ∧
    (after (.conversionComplete 3700 5000) { heldBehind 1 with sm := { (heldBehind 1).sm with limit := 37 } }).sm.limit =
      37 ∧
    (after (.conversionComplete 3700 5000) (writing .completing 2 804 (through base))).sm.mode = .writeBack := by
  refine ⟨rfl, by decide, rfl, by simp only [TablesSized]; decide, by decide +kernel, by decide +kernel,
    by decide +kernel⟩

/-- R23: the first conversion after power-on, and a later one. -/
theorem witness_ConversionComputes_first :
    base.sm.firstPending = true ∧ 0 < base.sm.converting ∧
    (after (.conversionComplete 3700 5000) base).uptimeMs = 10 ∧
    (after (.conversionComplete 3700 5000) { base with sm := { base.sm with firstPending := false } }).uptimeMs = 0 := by
  decide +kernel

/-- R30, R98: a rail dip while braced, one outside a brace, and a VSYS of 3300 mV. R174: a change of L with sectors
pending, which are admitted. -/
theorem witness_ConversionComputes_dip :
    (after (.conversionComplete 3299 5000) (moving .falling)).mm.drop.supplyDip = true ∧
    (after (.conversionComplete 3299 5000) (moving .still)).mm.drop.supplyDip = false ∧
    (after (.conversionComplete 3300 5000) (moving .falling)).mm.drop.supplyDip = false ∧
    bracedState (moving .falling).mm.motion = true ∧ TablesSized base ∧
    (after (.conversionComplete 3700 5000) base).sm.limit ≠ base.sm.limit ∧
    (after (.conversionComplete 3700 5000) { base with ru := { base.ru with pending := [11, 14] } }).ru.pending = [] := by
  simp only [TablesSized]; decide +kernel

/-- For StepKeepsModeAndLimit, StepKeepsSettingsInRange, StepKeepsPowerOutputs and StepKeepsSized. -/
theorem witness_StepKeeps :
    ModeAgrees base ∧ LimitAgrees base ∧ SettingsInRange base.zu.settings ∧ OffreqInCritical base ∧
    ClosedInOff base ∧ Sized base ∧ ∃ t, step { base with pending := [.brownout] } = .next t := by
  refine ⟨by simp only [ModeAgrees]; decide, by simp only [LimitAgrees]; decide,
    by simp only [SettingsInRange]; decide, by simp only [OffreqInCritical]; decide,
    by simp only [ClosedInOff]; decide, ?_, _, rfl⟩
  simp only [Sized, TablesSized, LogBounded, StarvationBounded]; decide

/-- The rows of R28's table, and DISABLED. -/
theorem witness_StepKeepsModeAndLimit :
    ModeAgrees (through (inPower .low)) ∧ ModeAgrees (through (inPower .critical)) ∧
    ModeAgrees (through { base with bg := { base.bg with flagUnknown := true } }) ∧
    ModeAgrees (through { base with sm := { base.sm with limit := 1 } }) ∧
    ModeAgrees { base with sm := { base.sm with limit := 2 } } ∧ ¬ModeAgrees (through base) ∧
    LimitAgrees { moving .disabled with sm := { base.sm with limit := 8 } } := by
  refine ⟨?_, ?_, ?_, ?_, ?_, ?_, ?_⟩ <;> simp only [ModeAgrees, LimitAgrees] <;> decide

/-- For StepKeepsSized. -/
theorem witness_StepKeeps_lines :
    LinesRun (heldBehind 1).sb.lines ∧ WriteInTransfer (heldBehind 1) ∧ DrainStands base ∧
    DrainStands (granting none true 0) := by
  refine ⟨by simp only [LinesRun]; decide, ?_, by simp only [DrainStands]; decide, by simp only [DrainStands]; decide⟩
  intro r _ h
  obtain rfl := Option.some.inj h
  rfl

theorem zoneAt_base (k : Nat) :
    zoneAt base k = if k = 0 then { state := .opened, base := 800, length := 800 }
      else if k = 1 then { state := .closed, base := 1600, length := 800 } else .unused := by
  match k with
  | 0 => rfl
  | 1 => rfl
  | k + 2 =>
    show (List.replicate 62 ZoneEntry.unused).getD k .unused = _
    rw [List.getD_eq_getElem?_getD, List.getElem?_replicate]
    split <;> rfl

/-- For StepKeepsSized: zones in use that stand apart, a fill mark within its zone. -/
theorem witness_StepKeeps_zones : ZonesStand base ∧ FillMarksStand base := by
  refine ⟨⟨by simp only [TablesSized]; decide, ⟨fun k => ?_, fun j k n => ?_⟩, fun r h o hp => absurd hp (by decide),
    fun h => absurd h (by decide), ⟨fun op _ h => absurd h (by simp [base, State.reset, MediaPort.reset]),
      fun _ h => absurd h (by simp [base, State.reset, MediaPort.reset, Waiters.none]), fun h => absurd h (by decide),
      fun _ _ => by decide, fun h => absurd h (by decide)⟩,
    ⟨fun op _ h => absurd h (by simp [base, State.reset, MediaPort.reset]),
      fun _ h => absurd h (by simp [base, State.reset, MediaPort.reset, Waiters.none])⟩,
    by simp only [ClosedInOff]; decide⟩, by simp only [FillMarksStand]; decide +kernel⟩
  · rw [zoneAt_base, show tailBase base = 1999968 from rfl]
    split
    · decide
    · split
      · decide
      · simp [ZoneEntry.unused]
  · rw [zoneAt_base, zoneAt_base]
    split <;> split <;> (try split) <;> (try split) <;>
      simp_all [ZoneEntry.holds, ZoneEntry.unused]

/-- For AdmissionCosts: the zones stand beside a held sector and a run in flight. -/
theorem witness_AdmissionCosts_zones : ZonesStand (heldBehind 1) := by
  obtain ⟨⟨-, apart, -⟩, -⟩ := witness_StepKeeps_zones
  refine ⟨by simp only [TablesSized]; decide, apart, fun r h n _ hr _ h1 h4 h => ?_, fun _ => .inl rfl,
    ⟨fun op k h hk => ?_, fun k h => ?_, fun h => absurd h (by decide), fun _ _ => by decide,
      fun h => absurd h (by decide)⟩,
    ⟨fun op k h hk => ?_, fun k h => ?_⟩, by simp only [ClosedInOff]; decide⟩
  · obtain rfl := Option.some.inj hr
    have : 5000 + 0 = 1999968 + n := h
    omega
  · obtain rfl := Option.some.inj h; nomatch hk
  · nomatch h
  · obtain rfl := Option.some.inj h; nomatch hk
  · nomatch h

/-- For StepKeepsSized: the first image write in progress in SAVE, and a run of the sequence in DRAIN. -/
theorem witness_StepKeeps_holdup : HoldupStands (operating (.holdup .imageFirst) (returning .save)) ∧
    HoldupStands (operating (.holdup .drainRun) (returning .drain)) := by
  refine ⟨⟨fun op k h hk => ⟨rfl, fun _ => ⟨rfl, .inl rfl, rfl⟩⟩, fun _ h => nomatch h⟩,
    ⟨fun op k h hk => ⟨rfl, fun n => ?_⟩, fun _ h => nomatch h⟩⟩
  obtain rfl := Option.some.inj h
  exact absurd (Requester.holdup.inj hk).symm n

/-- R9: what staging refuses, at the ends of each range, and sectors beside them. For StepKeepsSized: a frame that takes a
slot. -/
theorem witness_StepKeeps_taken :
    StagingRefused base 1600 ∧ StagingRefused base 2399 ∧ StagingRefused base 1999973 ∧ StagingRefused base 1999978 ∧
    StagingRefused base 1999985 ∧ StagingRefused base 1999999 ∧ ¬StagingRefused base 1999972 ∧
    ¬StagingRefused base 1999979 ∧ ¬StagingRefused base 1999984 ∧
    ∃ t, exec (.dataFrame zeroSector) (writing .taking 2 804 base) = .next t ∧
      SlotTaken 804 (writing .taking 2 804 base) t := by
  have no : ∀ n, tailBase base ≤ n → ¬∃ k, (zoneAt base k).state = .closed ∧ (zoneAt base k).holds n = true := by
    rintro n h ⟨k, -, hk⟩
    have ht : tailBase base = 1999968 := rfl
    rw [zoneAt_base] at hk
    split at hk
    · simp [ZoneEntry.holds] at hk; omega
    · split at hk
      · simp [ZoneEntry.holds] at hk; omega
      · simp [ZoneEntry.holds, ZoneEntry.unused] at hk
  have out : ∀ n, tailBase base ≤ n → ¬(tailBase base + 5 ≤ n ∧ n ≤ tailBase base + 10) →
      ¬(tailBase base + 17 ≤ n ∧ n ≤ tailBase base + 31) → ¬StagingRefused base n := by
    rintro n h h1 h2 (h3 | h3 | h3)
    exacts [no n h h3, h1 h3, h2 h3]
  refine ⟨.inl ⟨1, by decide, by decide⟩, .inl ⟨1, by decide, by decide⟩, .inr (.inl (by decide)),
    .inr (.inl (by decide)), .inr (.inr (by decide)), .inr (.inr (by decide)), out _ (by decide) (by decide) (by decide),
    out _ (by decide) (by decide) (by decide), out _ (by decide) (by decide) (by decide), _, rfl, 0, _, rfl,
    by decide +kernel, by decide +kernel, by decide +kernel, by decide +kernel, ?_⟩
  intro a h l
  obtain rfl : Line.free = a := Option.some.inj h
  exact absurd l (by decide)

theorem witness_RailQualification :
    ({ base with sm := { base.sm with rail := .lost } }).sm.rail = .lost ∧ base.sm.rail = .good ∧
    (returning .drain).sm.rail = .returning := by decide

theorem witness_BrownoutEntersHoldup :
    (writing .taking 2 804 base).sm.rail = .good ∧ (writing .taking 2 804 base).ps.mediaFault = false ∧
    inService (writing .held 2 804 (inPower .critical)).ps.power = true ∧
    (writing .taking 2 804 base).zu.readOnly = false ∧ (writing .taking 2 804 base).fp.req.isSome = true ∧
    (writing .taking 2 804 base).se.handed = [] ∧ (writing .completing 2 804 base).fp.port = .completing ∧
    (writing .missWait 2 804 base).fp.port = .missWait ∧ staged base.sb.lines = false ∧ base.mp.current = none ∧
    (sensing .waitBus .motion 1).se.trans = .waitBus ∧ (sensing .transfer .gauge 1).se.reading = some .gauge := by
  decide

/-- A sample handed over, a read-only part, and a read miss in flight. -/
theorem witness_BrownoutEntersHoldup_rest :
    (∃ u, exec (handoverCommand .gaugeMiss) { base with se := { base.se with handed := [.gaugeMiss] } } = .next u) ∧
    ({ base with zu := { base.zu with readOnly := true } }).zu.readOnly = true ∧
    ∃ op, (operating .readMiss base).mp.current = some op ∧ op.requester = .readMiss :=
  ⟨⟨_, rfl⟩, rfl, _, rfl, rfl⟩

/-- R95, R98, R99: a brownout in STRUCK records the drop POWER_LOST, with enough energy and with none; in STILL and DISABLED
it records none. -/
theorem witness_BrownoutEntersHoldup_drop :
    (after .brownout (moving .struck)).mm.log.map (fun r => (r.outcome, r.sequence, r.zoneCount)) =
      [(.powerLost, 1, 1)] ∧
    (after .brownout (moving .struck)).mm.motion = .still ∧ (after .brownout (moving .struck)).ru.pending = [12, 13] ∧
    (runtimeAt (after .brownout (moving .struck)) 0).drops = 1 ∧
    (runtimeAt (after .brownout (moving .struck)) 1).drops = 0 ∧
    bracedState (moving .settling).mm.motion = true ∧ bracedState (moving .disabled).mm.motion = false ∧
    (after .brownout (moving .still)).mm.log = [] ∧ TablesSized (moving .struck) ∧
    base.sm.ewUsed ≤ base.sm.avail ∧ staged base.sb.lines = false := by
  simp only [TablesSized]; decide +kernel

/-- A brownout during start-up and in media FAULT, and a start-up operation that ends after it. -/
theorem witness_BrownoutEntersHoldup_starting :
    (starting .mapArea).sm.rail = .good ∧ (starting .mapArea).ps.power = .starting ∧
    (starting .mapArea).ps.startPos ≠ .served ∧ (starting .mapArea).mp.current.isSome = true ∧
    (inPower .starting).mp.current = none ∧
    ({ inPower .starting with ps := { base.ps with mediaFault := true } }).ps.mediaFault = true ∧
    (∃ op, (operatingAgain (.startup .invalidate)
        { starting .invalidate with ps := { (starting .invalidate).ps with brownedOut := true } }).mp.current = some op ∧
      2 ≤ op.attempt ∧ (StartStep.invalidate = .capacity → 3 ≤ op.attempt)) :=
  ⟨by decide, by decide, by decide, by decide, by decide, rfl, _, rfl, by decide, by decide⟩

theorem witness_EmptyStagingSaves :
    base.sm.rail = .good ∧ base.ps.mediaFault = false ∧ inService base.ps.power = true ∧ base.zu.readOnly = false ∧
    staged base.sb.lines = false ∧ base.mp.current = none ∧ base.mp.handing = false ∧ base.se.handed = [] := by decide

/-- Start-up at the end of its second image read, with the first as read. -/
def deciding (first : Option (List Sector)) : State :=
  { starting .imageSecond with ps := { (starting .imageSecond).ps with imageRead := first } }

/-- An image with a marker, a body length of 0 and the reason HOLDUP. -/
def shortImage (reason : Byte) : List Sector :=
  [layout 512 [(0, markerImage), (20, [reason])]]

/-- The image decision: an image that fits, one that does not, an EMPTY marker, a foreign one, and a failed read. -/
theorem witness_EmptyStagingSaves_decision :
    (deciding none).ps.power = .starting ∧ (deciding none).ps.brownedOut = false ∧ (deciding none).fp.port ≠ .held ∧
    (deciding none).bg.isSet = false ∧ (deciding none).bg.socReported = false ∧
    ImageFits (deciding (some (shortImage 1))) ((shortImage 1).flatten ++ (sectorsOf 8 []).flatten) ∧
    ¬ImageFits (deciding (some (shortImage 2))) ((shortImage 2).flatten ++ (sectorsOf 8 []).flatten) ∧
    field (shortImage 1).flatten 0 8 = markerImage ∧ field emptyHeader 0 8 = markerEmpty ∧
    field zeroSector 0 8 ≠ markerImage ∧ field zeroSector 0 8 ≠ markerEmpty := by
  simp only [ImageFits]; decide +kernel

theorem witness_EmptyStagingSaves_sized (first : Option (List Sector)) : TablesSized (deciding first) :=
  (by simp only [TablesSized]; decide : TablesSized State.reset)

/-- Persisted records that match zone 0 at both ends of its range, and one beyond it. -/
theorem witness_RecordRebuilt :
    Matching (zoneAt base 0) (layout 32 [(0, [1]), (6, le 4 800)]) ∧
    Matching (zoneAt base 0) (layout 32 [(0, [1]), (6, le 4 1600)]) ∧
    ¬Matching (zoneAt base 0) (layout 32 [(0, [1]), (6, le 4 1601)]) ∧
    Matching (zoneAt base 1) (layout 32 [(0, [2]), (6, le 4 2400)]) ∧ (zoneAt base 1).state = .closed ∧
    (zoneAt base 2).state = .unused := by
  simp only [Matching]; decide +kernel

/-- A recovery in DRAIN with a state of charge. -/
def recovering (soc : Nat) : State :=
  { returning .drain with bg := { base.bg with soc := soc } }

theorem witness_RecoveryResumesService :
    (recovering 5).sm.rail = .returning ∧ (recovering 5).ps.power = .holdup ∧
    (recovering 5).ps.phase = some .drain ∧
    (recovering 5).bg.soc ≤ (recovering 5).zu.settings.criticalSoc ∧
    (recovering 6).zu.settings.criticalSoc < (recovering 6).bg.soc ∧
    (recovering 15).bg.soc ≤ (recovering 15).zu.settings.lowSoc ∧
    (recovering 16).zu.settings.lowSoc < (recovering 16).bg.soc ∧ (recovering 16).bg.isSet = true ∧
    (recovering 16).bg.flagUnknown = false ∧
    ({ returning .drain with bg := .reset }).bg.isSet = false ∧ (returning .save).ps.phase = some .save ∧
    ({ returning .save with zu := { base.zu with readOnly := true } }).zu.readOnly = true ∧
    (requestHoldup .imageFirst (returning .save)).mp.waiters.holdup = some .imageFirst := by decide

/-- R174: the marks of an entry to CRITICAL at a recovery and at the first service are offered. -/
theorem witness_RecoveryResumesService_offers :
    TablesSized (recovering 5) ∧ (recovering 5).ps.mediaFault = false ∧
    (after .recoveryQualified (recovering 5)).ps.power = .critical ∧
    (after .recoveryQualified (recovering 5)).ru.pending = [] ∧ TablesSized (starting .invalidate) ∧
    (after (.mediaOperationComplete 0 []) (operating (.startup .invalidate) (starting .invalidate))).ps.mediaFault =
      false := by
  simp only [TablesSized]; decide +kernel

/-- R82: a zone whose check record does not match is marked at a rebuild, and a CLOSED one with its own record is not. -/
theorem witness_RebuildMarks :
    RebuildMarks base 13 ∧
    ¬RebuildMarks
      { base with
        zu := { base.zu with zones := { state := .closed, base := 800, length := 800 } :: List.replicate 63 .unused }
        ps := { base.ps with checkRead := [layout 512 [(0, [2]), (6, le 4 804)]] } } 13 := by
  refine ⟨⟨0, by decide, by decide, rfl, fun b h => ?_⟩, ?_⟩
  · rintro ⟨h1, -⟩
    exact absurd h1 (by decide)
  · rintro ⟨k, hk, hu, -, h⟩
    match k with
    | 0 =>
      refine h _ rfl ⟨by decide, by decide +kernel, ?_⟩
      simp only [Matching]; decide +kernel
    | k + 1 =>
      refine hu ?_
      show ((List.replicate 63 ZoneEntry.unused).getD k .unused).state = .unused
      rw [List.getD_eq_getElem?_getD, List.getElem?_replicate]
      split <;> rfl

/-- The end of start-up's invalidation write. -/
theorem witness_RecoveryResumesService_start :
    (starting .invalidate).ps.power = .starting ∧ (starting .invalidate).ps.brownedOut = false ∧
    (starting .invalidate).ps.startPos ≠ .served ∧ (starting .invalidate).fp.port ≠ .held ∧
    ∃ op, (operatingAgain (.startup .invalidate) (starting .invalidate)).mp.current = some op ∧
      op.requester = .startup .invalidate ∧ 2 ≤ op.attempt :=
  ⟨by decide, by decide, by decide, by decide, _, rfl, rfl, by decide⟩

/-- The end of an image write and of the invalidation write in INVALIDATE, with and without a brownout. -/
theorem witness_LateRecoveryInvalidates_ends (b : Bool) :
    (∃ op, (operatingAgain (.holdup .imageFirst) (returning .invalidate)).mp.current = some op ∧
      op.requester = .holdup .imageFirst ∧ 2 ≤ op.attempt) ∧
    (∃ op, (operatingAgain (.holdup .invalidate) (returning .invalidate)).mp.current = some op ∧
      op.requester = .holdup .invalidate) ∧
    (returning .invalidate).ps.power = .holdup ∧ (returning .invalidate).ps.phase = some .invalidate ∧
    (returning .invalidate).mp.waiters.holdup = none ∧
    ({ returning .invalidate with ps := { (returning .invalidate).ps with brownedOut := b } }).ps.brownedOut = b :=
  ⟨⟨_, rfl, rfl, by decide⟩, ⟨_, rfl, rfl⟩, rfl, rfl, rfl, rfl⟩

/-- A brownout in INVALIDATE and in SAVE, the recovery that takes it back, with and without media FAULT, and a brownout in
OFF. -/
theorem witness_LateRecoveryInvalidates_brownout (p : HoldupPhase) :
    (∃ op, ({ operating (.holdup .invalidate) (returning p) with sm := base.sm }).mp.current = some op) ∧
    ({ returning p with sm := base.sm }).sm.rail = .good ∧ (returning p).ps.mediaFault = false ∧
    (returning p).ps.power = .holdup ∧ (returning p).ps.phase = some p ∧ (returning p).sm.rail = .returning ∧
    ({ returning p with ps := { (returning p).ps with mediaFault := true } }).ps.mediaFault = true ∧
    (inPower .off).sm.rail = .good ∧ (inPower .off).ps.power = .off :=
  ⟨⟨_, rfl⟩, rfl, rfl, rfl, rfl, rfl, rfl, rfl, rfl⟩

theorem witness_LateRecoveryInvalidates :
    ∃ op, (operating (.holdup .imageSecond) (returning .save)).mp.current = some op ∧
      (operating (.holdup .imageSecond) (returning .save)).sm.rail = .returning ∧
      (operating (.holdup .imageSecond) (returning .save)).ps.power = .holdup ∧
      (operating (.holdup .imageSecond) (returning .save)).ps.phase = some .save ∧
      (operating (.holdup .imageSecond) (returning .save)).zu.readOnly = false ∧
      (operating (.holdup .imageSecond) (returning .save)).mp.waiters.holdup ≠ some .imageFirst :=
  ⟨_, rfl, by decide, by decide, by decide, by decide, by decide⟩

/-! ### Witnesses: slider and sense bus -/

theorem witness_SliderQualified :
    base.ps.power ≠ .off ∧ base.pins.wp = base.wc.slider ∧
    ({ base with pins := { base.pins with wp := true } }).pins.wp ≠ base.wc.slider := by decide

/-- A WRITE in transfer with a running slider qualification. -/
def sliding (level : Bool) : State :=
  { writing .taking 2 804 base with wc := { base.wc with debounce := some { start := 0, level := level } } }

theorem witness_SliderTakesEffect (level : Bool) :
    (sliding level).ps.power ≠ .off ∧ (sliding level).wc.debounce = some { start := 0, level := level } ∧
    (sliding level).fp.req.isSome = true ∧ (sliding level).fp.port = .taking ∧
    ((0 : Word) + 20 - (sliding level).uptimeMs).toNat ≤ 2147483648 :=
  ⟨(by decide : base.ps.power ≠ .off), rfl, rfl, rfl,
    (by decide : ((0 : Word) + 20 - base.uptimeMs).toNat ≤ 2147483648)⟩

theorem witness_CadenceTicks :
    base.se.timersOn = true ∧ base.se.motionPending = false ∧ base.se.gaugePending = false ∧
    ({ base with se := { base.se with motionPending := true, gaugePending := true } }).se.motionPending = true := by
  decide

/-- For CadenceTicks and AlertAsksEarlyRead: SE IDLE with a free and with a busy bus, and SE not IDLE. -/
theorem witness_ReadAdded :
    base.se.trans = .idle ∧ base.se.busBusy = false ∧ (after .busStartSeen base).se.busBusy = true ∧
    (after .busStartSeen base).se.trans = .idle ∧ (sensing .transfer .motion 1).se.trans ≠ .idle ∧
    (sensing .transfer .motion 1).se.motionPending = false ∧ (sensing .transfer .motion 1).se.gaugePending = false := by
  decide

theorem witness_AttemptSucceeds :
    (sensing .transfer .motion 1).se.trans = .transfer ∧
    (sensing .transfer .motion 1).se.reading = some .motion ∧
    (sensing .transfer .gauge 1).se.reading = some .gauge ∧
    senseByte [0x74, 0x0E, 0x14, 0x00, 0xC8, 0x00, 0x3C] 6 =
      crc8 ([0xB4#8, 0x20#8, 0xB5#8] ++ senseData [0x74, 0x0E, 0x14, 0x00, 0xC8, 0x00, 0x3C]) := by decide +kernel

/-- A read in progress after polling has stopped. -/
def stopped (t : TransState) : State :=
  { sensing t .gauge 2 with se := { (sensing t .gauge 2).se with stopping := true, timersOn := false } }

theorem witness_AttemptFails :
    (sensing .transfer .gauge 2).se.trans = .transfer ∧ (sensing .transfer .gauge 2).se.reading = some .gauge ∧
    (sensing .transfer .gauge 2).se.stopping = false ∧ (stopped .transfer).se.stopping = true ∧
    (sensing .transfer .gauge 2).se.attempt < 3 ∧ 3 ≤ (sensing .transfer .gauge 3).se.attempt ∧
    senseByte [0x74, 0x0E, 0x14, 0x00, 0xC8, 0x00, 0x3D] 6 ≠
      crc8 ([0xB4#8, 0x20#8, 0xB5#8] ++ senseData [0x74, 0x0E, 0x14, 0x00, 0xC8, 0x00, 0x3D]) ∧
    (∀ bytes, AttemptEnd.noAck ≠ .received bytes) :=
  ⟨by decide, by decide, by decide, by decide, by decide, by decide, by decide +kernel, fun _ h => by cases h⟩

/-- A recovery train with what follows it. -/
def training (a : AfterTrain) : State :=
  { sensing .recovery .gauge 3 with se := { (sensing .recovery .gauge 3).se with afterTrain := a } }

theorem witness_TimeoutSendsTrain (a : AfterTrain) :
    (sensing .waitBus .motion 1).se.trans = .waitBus ∧ (sensing .transfer .motion 2).se.trans = .transfer ∧
    (sensing .transfer .motion 2).se.attempt < 3 ∧ 3 ≤ (sensing .transfer .gauge 3).se.attempt ∧
    (sensing .transfer .motion 2).se.stopping = false ∧ (stopped .transfer).se.stopping = true ∧
    (training a).se.trans = .recovery ∧ (training a).se.afterTrain = a ∧ (training a).se.reading = some .gauge ∧
    ((sensing .transfer .motion 2).se.since + 25 - (sensing .transfer .motion 2).uptimeMs).toNat ≤ 2147483648 :=
  ⟨rfl, rfl, (by decide : 2 < 3), (by decide : 3 ≤ 3), rfl, rfl, rfl, rfl, rfl,
    (by decide : ((0 : Word) + 25 - base.uptimeMs).toNat ≤ 2147483648)⟩

theorem witness_BusFollowed :
    base.se.trans ≠ .waitBus ∧ (sensing .waitBus .gauge 1).se.trans = .waitBus := by decide

/-- `base` at an instant, after a gauge read that started at 0. -/
def alerting (now : Word) : State :=
  { base with uptimeMs := now, se := { base.se with gaugeStart := some 0, alertDeferred := true } }

theorem witness_AlertAsksEarlyRead :
    (alerting 10).se.timersOn = true ∧ (alerting 10).se.gaugePending = false ∧
    10 ≤ ((alerting 10).uptimeMs - 0).toNat ∧ ((alerting 9).uptimeMs - 0).toNat < 10 ∧
    (alerting 9).se.gaugeStart = some 0 ∧ (alerting 9).se.alertDeferred = true ∧ base.se.gaugeStart = none := by decide

/-! ### Witnesses: motion monitor and gauge -/

theorem witness_DropFigures :
    (moving .falling).mm.motion = .falling ∧ (moving .struck).mm.motion ≠ .falling ∧
    ({ base with mm := { base.mm with fallSamples := 1829 } }).mm.fallSamples = 1829 := by decide

theorem witness_MotionSampleMoves :
    magnitude 192 0 0 = 36864 ∧ magnitude 0 320 0 = 102400 ∧ magnitude 0 0 191 < 36864 ∧ 102400 < magnitude 321 0 0 ∧
    base.zu.settings.tf ^ 2 = magnitude 90 0 0 ∧ magnitude 89 0 0 < base.zu.settings.tf ^ 2 ∧
    base.zu.settings.nf ≤ 39 + 1 ∧ 38 + 1 < base.zu.settings.nf ∧
    (moving .disabled).mm.motion = .disabled ∧ (moving .struck).mm.motion = .struck ∧
    (inPower .holdup).ps.power = .holdup ∧ base.fp.port ≠ .held := by decide

/-- The clauses of SETTLING, of a fall at its saturation, and of the good count below sixteen. -/
theorem witness_MotionSampleMoves_settling :
    (moving .settling).mm.motion = .settling ∧ base.zu.settings.nf ≤ (if magnitude 0 0 0 < 90 ^ 2 then 39 + 1 else 0) ∧
    base.zu.settings.settleMs / 2 ≤
      (if 36864 ≤ magnitude 256 0 0 ∧ magnitude 256 0 0 ≤ 102400 then 99 + 1 else 0) ∧
    ¬(magnitude 256 0 0 < 90 ^ 2) ∧ 0 < base.zu.settings.nf ∧ 0 < base.zu.settings.settleMs / 2 ∧
    2500 ≤ 2499 + 1 ∧ 2498 + 1 < 2500 ∧ 4093 + 1 < 4095 ∧ 4095 ≤ 4094 + 1 ∧ (moving .disabled).mm.good < 15 := by decide

/-- The sixteenth good sample while a sector is held, and an L that it raises. -/
theorem witness_MotionSampleMoves_held :
    15 ≤ ({ heldBehind 1 with mm := { (moving .disabled).mm with good := 15 } }).mm.good ∧
    (heldBehind 1).fp.port = .held ∧ TablesSized (heldBehind 1) ∧
    (after (.motionSample 256 0 0)
      { heldBehind 1 with
        mm := { (moving .disabled).mm with good := 15 }, sm := { (heldBehind 1).sm with limit := 8 } }).sm.limit ≠ 8 := by
  refine ⟨by decide, rfl, by simp only [TablesSized]; decide, by decide +kernel⟩

theorem witness_DropRecorded :
    (zoneAt base 0).state = .opened ∧ (zoneAt base 1).state ≠ .opened ∧ base.mm.log.length < 16 ∧
    16 ≤ (List.replicate 16 (dropOf 1)).length ∧ base.mm.pendingRecs.length < 16 := by decide

/-- R77, R175: a drop completion changes the drop log and the check sector of zone 0, and no other sector. -/
theorem witness_DropChanges : DropChanges base 12 ∧ DropChanges base 13 ∧ ¬DropChanges base 14 := by
  refine ⟨.inl rfl, .inr ⟨0, by decide, by decide, rfl⟩, ?_⟩
  rintro (h | ⟨k, -, h1, h2⟩)
  · exact absurd h (by decide)
  · rw [zoneAt_base] at h1
    split at h1
    · omega
    · split at h1 <;> exact absurd h1 (by decide)

/-- For DropRecorded and BrownoutEntersHoldup: a drop in each braced state, and peaks beside Ti². -/
theorem witness_DropRecorded_kinds :
    [MotionState.falling, .struck, .settling].map (fun m => bracedState (moving m).mm.motion) = [true, true, true] ∧
    base.mm.peak ≤ base.zu.settings.ti ^ 2 ∧ base.zu.settings.ti ^ 2 < magnitude 1537 0 0 ∧
    (formDrop .powerLost { moving .struck with mm := { (moving .struck).mm with peak := magnitude 1537 0 0 } }).kind =
      .impact := by decide

/-- For MotionSampleMoves and MotionMissDisables: the marks of a drop that ends are offered. -/
theorem witness_DropEnds_offers :
    let s := { moving .settling with mm := { (moving .settling).mm with settleRun := 99 } }
    TablesSized s ∧ s.ps.mediaFault = false ∧ s.fp.port ≠ .held ∧ 12 ∉ s.ru.pending ∧
    (after (.motionSample 256 0 0) s).mm.log.length = 1 ∧ (after (.motionSample 256 0 0) s).ru.pending = [] := by
  simp only [TablesSized]; decide +kernel

/-- R77: the zones that a record names. -/
theorem test_drop_zones : (formDrop .settled base).zoneCount = 1 ∧ (formDrop .settled base).zones = [0, 255, 255, 255] := by
  decide

theorem witness_MotionMissDisables :
    (moving .settling).ps.power ≠ .holdup ∧ (moving .settling).mm.motion ≠ .disabled ∧
    (moving .settling).mm.stale < 7 ∧ bracedState (moving .settling).mm.motion = true ∧
    7 ≤ ({ base with mm := { base.mm with stale := 7 } }).mm.stale ∧ bracedState base.mm.motion = false := by decide

theorem witness_VoltageTable : perMille 3549 = 99 ∧ perMille 3550 = 100 ∧ perMille 4040 = 900 := by decide

theorem witness_BandHysteresis :
    nextBand 5 (-400) = 1 ∧ nextBand 1 850 = 5 ∧ nextBand 3 9 = 3 ∧ nextBand 3 10 = 4 ∧ nextBand 3 (-111) = 2 := by
  decide

/-- R112: at SOC 50, and at SOC 100 with a charge that the product raises above FCC_eff and one that it lowers below. -/
theorem witness_RescaleKeepsSoc : (433125000 : Nat) ≤ fccOf 200 1 ∧ 0 < bandFactor 3 ∧
    rescaleCharge 4279006250 50 205 179 8558812500 ≤ 8558812500 ∧
    socOf (rescaleCharge 8558812500 100 179 205 8558812500) 8558812500 = 100 ∧
    socOf (rescaleCharge 8558812500 100 205 179 8558812500) 8558812500 = 100 := by decide

/-- Before the first sample of a cold start. -/
def cold : State :=
  { base with bg := .reset }

theorem witness_SampleEstablishes :
    cold.ps.power ≠ .holdup ∧ cold.ps.power ≠ .off ∧ cold.fp.port ≠ .held ∧ cold.bg.isSet = false ∧
    cold.bg.flagUnknown = false ∧ imageDecided cold.ps.startPos = true ∧ cold.bg.flagUncertain = false ∧
    ({ base with bg := { base.bg with flagUnknown := true } }).bg.flagUnknown = true ∧ 1 ≤ base.bg.band ∧
    cold.bg.band = 0 := by decide

/-- A sample in HOLDUP, in OFF, and before start-up's decision. -/
theorem witness_SampleEstablishes_early :
    (returning .drain).ps.power = .holdup ∧ (inPower .off).ps.power = .off ∧
    imageDecided (starting .mapArea).ps.startPos = false ∧ (starting .mapArea).bg.isSet = false ∧
    (starting .mapArea).bg.flagUnknown = false ∧ (starting .mapArea).ps.power ≠ .holdup ∧
    (after (.gaugeSample 6000 20 200) (starting .mapArea)).bg.last.map (·.v) = some 5000 ∧
    (after (.gaugeSample 6000 20 200) (starting .mapArea)).bg.isSet = false := by decide +kernel

/-- For SampleEstablishes, SampleIntegrates and GaugeMissCounts: a held sector with no RECORD line staged, one that goes on
being held and one that a change to CRITICAL ends. -/
theorem witness_HoldUndisturbed :
    HoldUndisturbed (heldBehind 1) ∧ (heldBehind 1).fp.port = .held ∧
    (after (.gaugeSample 3700 20 200) (heldBehind 1)).ps.power = .normal ∧
    (after (.gaugeSample 3000 20 200) { heldBehind 1 with bg := { base.bg with rc := 734400000 } }).ps.power = .critical ∧
    (after (.gaugeSample 3000 20 200) { heldBehind 1 with bg := { base.bg with rc := 734400000 } }).fp.port =
      .answering := by
  refine ⟨?_, rfl, by decide +kernel, by decide +kernel, by decide +kernel⟩
  intro _; decide

/-- R78, R175: a sample that lowers SOC to 49 lowers the minimum of the OPEN zone alone, and puts the gauge record and the
zone's check sector into the changed set. -/
theorem test_minSoc :
    let t := after (.gaugeSample 3700 20 200)
      { base with zu := { base.zu with runtimes := List.replicate 64 { Runtime.cleared with minSoc := 50 } } }
    t.bg.soc = 49 ∧ (runtimeAt t 0).minSoc = 49 ∧ (runtimeAt t 1).minSoc = 50 ∧ t.ru.changed = [11, 13] := by
  decide +kernel

/-- For SampleEstablishes, SampleIntegrates and GaugeMissCounts: an event with a change of SOC, and one without. -/
theorem witness_GaugeSeen :
    (after (.gaugeSample 3700 20 200) base).bg.soc ≠ base.bg.soc ∧
    (after (.gaugeSample 3700 0 200) base).bg.soc = base.bg.soc ∧ base.bg.socReported = true ∧
    cold.bg.socReported = false ∧ TablesSized base := by
  simp only [TablesSized]; decide +kernel

/-- For PowerReported: at an entry to LOW all six sectors are marked and offered. -/
theorem witness_PowerReported_offers :
    let t := after (.gaugeSample 3000 20 200) { base with bg := { base.bg with rc := 1958400000 } }
    t.ps.power = .low ∧ base.ru.pending = [] ∧ t.ru.pending = [] := by decide +kernel

/-- SOC at and beside each threshold of R120, with the states it leaves and reaches. -/
theorem witness_PowerFollows :
    base.zu.settings.criticalSoc = 5 ∧ base.zu.settings.lowSoc = 15 ∧
    (after (.gaugeSample 3000 20 200) { base with bg := { base.bg with rc := 734400000, emptyRun := 0 } }).ps.power =
      .critical ∧
    (after (.gaugeSample 3000 20 200) { base with bg := { base.bg with rc := 1958400000 } }).ps.power = .low ∧
    (after (.gaugeSample 3000 20 200) { inPower .low with bg := { base.bg with rc := 2203300000 } }).ps.power =
      .normal ∧
    (after (.gaugeSample 3000 20 200) { inPower .critical with bg := { base.bg with rc := 856900000 } }).ps.power =
      .low := by decide +kernel

theorem witness_SampleIntegrates :
    base.bg.isSet = true ∧ base.bg.flagUnknown = false ∧ 20 ≤ (clampSample 3000 20 200 0).i ∧
    (base.zu.settings.cutoff : Int) ≤ (clampSample 3000 20 200 0).v ∧
    nextBand base.bg.band (clampSample 3000 20 200 0).t = base.bg.band ∧ base.bg.rc ≤ base.bg.fcc := by decide

/-- Samples that complete the empty, the full and the rest run, and one that completes none. -/
theorem witness_SampleIntegrates_anchors :
    EmptyCompletes { base with bg := { base.bg with emptyRun := 2 } } (clampSample 2999 1 200 0) ∧
    FullCompletes { base with bg := { base.bg with fullRun := 7 } } (clampSample 4150 0 200 0) ∧
    RestCompletes { base with bg := { base.bg with restRun := 239 } } (clampSample 3700 19 0 0) ∧
    ¬EmptyCompletes base (clampSample 2999 1 200 0) ∧ ¬FullCompletes base (clampSample 4150 0 200 0) ∧
    ¬RestCompletes base (clampSample 3700 19 0 0) := by
  simp only [EmptyCompletes, FullCompletes, RestCompletes]; decide

/-- A charging sample, a small discharge, and one that changes the band; none completes an anchor. -/
theorem witness_SampleIntegrates_every :
    (clampSample 3700 0xFF9C 200 0).i = -100 ∧ (clampSample 3700 1 200 0).i = 1 ∧
    nextBand base.bg.band (clampSample 3700 20 0 0).t ≠ base.bg.band ∧
    ¬RestCompletes base (clampSample 3700 1 200 0) ∧ ¬EmptyCompletes base (clampSample 3700 20 0 0) ∧
    ¬FullCompletes base (clampSample 3700 0xFF9C 200 0) := by
  simp only [EmptyCompletes, FullCompletes, RestCompletes]; decide

theorem witness_GaugeMissCounts :
    base.bg.isSet = true ∧ base.bg.flagUnknown = false ∧ base.bg.stale < 3 ∧
    ({ base with bg := { base.bg with stale := 3 } }).bg.stale = 3 ∧
    ({ base with bg := { base.bg with stale := 38, last := some (clampSample 3700 20 200 0) } }).bg.stale < 39 ∧
    ({ base with bg := { base.bg with stale := 39 } }).bg.stale = 39 ∧ cold.bg.isSet = false ∧
    base.bg.last = none ∧ (inPower .holdup).ps.power = .holdup := by decide

/-- R106: with no sample since power-on the fourth miss integrates the restored Iavg; an unset gauge only counts. -/
theorem test_gauge_miss_restored :
    (after .gaugeMiss { base with uptimeMs := 250, bg := { base.bg with stale := 3, iavg := 20 } }).bg.rc =
      6120000000 - 5000 ∧
    (after .gaugeMiss { cold with bg := { cold.bg with stale := 3 } }).bg.flagStale = false := by decide +kernel

theorem witness_FirstSampleTimerSetsUnknown :
    ({ cold with bg := { cold.bg with firstTimer := some 0 } }).bg.firstTimer = some 0 ∧
    ((0 : Word) + 1000 - cold.uptimeMs).toNat ≤ 2147483648 ∧ (inPower .off).ps.power = .off ∧
    cold.bg.flagUnknown = false ∧ ({ cold with bg := { cold.bg with flagUnknown := true } }).bg.flagUnknown = true := by
  decide

/-! ### Witnesses: report unit -/

/-- `base` with lines staged, L 128, offsets 11 and 16 changed, and media FAULT or not. -/
def timerDueWith (ls : List Line) (fault : Bool) : State :=
  let s := holding ls base
  { s with
    ru := { s.ru with changed := [11, 16] }, sm := { s.sm with limit := 128 }, ps := { s.ps with mediaFault := fault } }

theorem witness_CheckpointTimerMarks :
    base.ru.timerDue = some 30000 ∧ inService (inPower .holdup).ps.power = false ∧ inService base.ps.power = true ∧
    freeCount (holding (List.replicate 32 line) base).sb.lines = 0 ∧
    ∀ l ∈ (holding (List.replicate 32 line) base).sb.lines, l.cls ≠ .record := by decide

/-- Where a line is FREE, the changed sectors are admitted. -/
theorem witness_CheckpointTimerMarks_admits :
    base.fp.port ≠ .held ∧ 0 < freeCount base.sb.lines ∧
    (after .checkpointTimerExpiry { base with ru := { base.ru with changed := [11, 16] } }).ru.pending = [] := by
  decide +kernel

/-- R174: with one line FREE the gauge record is admitted, and the check sector in the next line stays pending; a sector
held with no RECORD line staged; media FAULT. -/
theorem witness_CheckpointTimerMarks_offers :
    HoldUndisturbed base ∧ HoldUndisturbed (heldBehind 1) ∧ TablesSized base ∧ base.ps.mediaFault = false ∧
    11 ∉ base.ru.pending ∧ (1999968 + 11) / 8 ≠ (1999968 + 16) / 8 ∧
    (after .checkpointTimerExpiry (timerDueWith (List.replicate 31 line) false)).ru.pending = [16] ∧
    (after .checkpointTimerExpiry (timerDueWith (List.replicate 31 line) false)).ru.changed = [16] ∧
    (after .checkpointTimerExpiry (timerDueWith [] true)).ru.pending = [11, 16] := by
  refine ⟨fun h => absurd h (by decide), fun _ => by decide, by simp only [TablesSized]; decide, by decide, by decide,
    by decide, by decide +kernel, by decide +kernel, by decide +kernel⟩

/-- Section 11.6: the marker and the SOC of an admitted gauge record. -/
theorem test_gaugeSector : field (gaugeSector base) 0 8 = ascii ['G', 'S', '2', '4', 'G', 'A', 'U', 'G'] ∧
    u8At (gaugeSector base) 16 = 50 ∧ u8At (gaugeSector base) 18 = 8 := by decide +kernel

theorem witness_CheckpointAdmitted : (∃ t, offerCheckpoint 12 base = some t) ∧ (∃ t, offerCheckpoint 11 base = some t) :=
  ⟨⟨_, rfl⟩, ⟨_, rfl⟩⟩

/-- A sector that would be admitted, and one that would not. -/
theorem witness_CheckpointAdmitted_admissible :
    Admissible base 11 ∧ ¬Admissible (holding (List.replicate 32 line) base) 11 ∧ 1 ≤ freeCount base.sb.lines ∧
    dirtyCost base.sb.lines + 1 ≤ max 1 base.sm.limit := by
  refine ⟨⟨_, rfl⟩, ?_, by decide, by decide⟩
  rintro ⟨sb, h⟩
  exact absurd ((show AdmitTest.refused .noLine = .admitted sb from h)) (by simp)

end Sys2Proof.Tests
end

