-- ==== Sys2Proof/Proofs/P01.lean ====
section
/-! Reset, and the answers of the front port that no other block has a part in: FLUSH and the end of a hold (R11, R14,
R59, R70). -/

namespace Sys2Proof.Machine

open Sys2Proof

/-! ### Reset -/

theorem zoneAt_reset (k : Nat) : zoneAt State.reset k = .unused := by
  simp only [zoneAt, State.reset, ZoneUnit.reset, List.getD_eq_getElem?_getD, List.getElem?_replicate]
  split <;> rfl

theorem tablesSized_reset : TablesSized State.reset :=
  ⟨by decide, by decide, by decide, by decide⟩

/-- No zone of the reset table holds a sector, and no media operation or held sector stands. -/
theorem zonesStand_reset : ZonesStand State.reset := by
  refine ⟨tablesSized_reset, ⟨fun k h => absurd (by rw [zoneAt_reset]; rfl) h, fun j k n _ h => ?_⟩, ?_, ?_, ?_, ?_, ?_⟩
  · rw [zoneAt_reset] at h
    cases h
  · intro r h o hp
    cases hp
  · rintro (h | h) <;> cases h
  · refine ⟨fun _ _ h => ?_, fun _ h => ?_, fun h => ?_, fun h => absurd rfl h, fun _ h => ?_⟩ <;> cases h
  · exact ⟨fun _ _ h => (by cases h), fun _ h => (by cases h)⟩
  · exact ⟨by decide, fun h => by cases h⟩

/-- Settles O39. -/
theorem resetMeetsInvariants : Obligations.ResetMeetsInvariants := by
  refine ⟨⟨by decide, by decide, by decide, by decide⟩, ⟨by decide, by decide⟩, fun h => (by cases h),
    ⟨by decide, by decide⟩, ⟨tablesSized_reset, ⟨by decide, by decide⟩, Nat.zero_le 4⟩, ?_,
    ⟨by decide, by decide⟩, fun r _ h => (by cases h), fun _ => ⟨fun h => (by cases h), ?_⟩, zonesStand_reset,
    fun h => (by cases h)⟩
  · simp only [SettingsInRange]
    decide
  · rintro ⟨⟨l, hl, h⟩, -⟩
    have hfree : l = Line.free := List.eq_of_mem_replicate hl
    subst hfree
    obtain h | ⟨h, -⟩ := h <;> cases h

/-! ### The end of a hold (R11) -/

/-- R11, R70: what `refuse` leaves alone. -/
theorem refuse_eq (a : Answer) (m : BitVec 9) (n : Nat) (p : List Byte) (s : State) :
    refuse a m n p s = { s with fp := (refuse a m n p s).fp, wc := { s.wc with refusal := (refuse a m n p s).wc.refusal } } := by
  unfold refuse writeRefusal
  split <;> rfl

/-- R70: a refusal of the current request, as the statements read it. -/
theorem refuse_recorded {a : Answer} {m : BitVec 9} {n : Nat} {p : List Byte} {s : State} {r : Request}
    (h : s.fp.req = some r) : Recorded (refuse a m n p s) a r.code r.count r.sector m n := by
  simp [Recorded, refuse_refusal a m n p s r h]

theorem takenCount_of_req {s : State} {r : Request} (h : s.fp.req = some r) : takenCount s = r.taken := by
  simp [takenCount, h]

/-- Settles O21: HOLD_LIMIT refuses the request with the BUSY answer of the last test. -/
theorem holdLimitEndsBusy : Obligations.HoldLimitEndsBusy := by
  intro s r h start hport hreq hheld hstart
  have hw : (waitUntil (start + 25) s).fp = s.fp := by simp
  have hreq' : (waitUntil (start + 25) s).fp.req = some r := by rw [hw]; exact hreq
  have hex : exec .holdLimit s =
      .next (refuse (busyAnswer h.reason) 0 r.taken [] (waitUntil (start + 25) s)) := by
    simp [exec, execHoldLimit, hport, hheld, hstart, takenCount_of_req hreq]
  have hrec := refuse_recorded (a := busyAnswer h.reason) (m := 0) (n := r.taken) (p := []) hreq'
  refine ⟨_, hex, fun hr => ?_, fun hr => ?_, rfl, rfl, fun ht => ?_, ?_⟩
  · rw [hr] at hrec ⊢
    exact ⟨⟨rfl, rfl⟩, hrec⟩
  · rw [hr] at hrec ⊢
    exact ⟨⟨rfl, rfl⟩, hrec⟩
  · rw [refuse_eq]
    exact waitUntil_uptimeMs _ _ ht
  · conv_lhs => rw [refuse_eq]
    simp

/-! ### FLUSH (R14) -/

/-- R155, R160: a new request changes the front port and the media read of the READ it abandons. -/
theorem newRequest_eq (code count : Byte) (sector : Word) (s : State) :
    newRequest code count sector s =
      { s with
        fp := { FrontPort.reset with req := some { code := code, count := count, sector := sector, taken := 0 } }
        mp := (abandonRead s).mp } :=
  rfl

/-- R57: a request that is passed on is taken. -/
theorem arrive_passedOn {s : State} (h : PassedOn s) (code count : Byte) (sector : Word) (go : State → State) :
    arrive code count sector go s = go (newRequest code count sector s) := by
  obtain ⟨ht, hm, hp⟩ := h
  simp [arrive, answerBeforeChecks, ht, hm, hp]

/-- R14: a completion wait of a FLUSH, tested. -/
theorem testWait_completing {s : State} {m : Word} {r : Request} (hp : s.fp.port = .completing)
    (hm : s.fp.mark = some m) (hr : s.fp.req = some r) :
    testWait s = if anyBelow s.sb.lines m then s
      else if r.code = 3 then answerFlush r s else respond .ok r.taken [] s := by
  simp [testWait, hp, hm, hr]

/-- Settles O11: the FLUSH is refused in HOLDUP, and its wait tested at once elsewhere. -/
theorem flushAnswered : Obligations.FlushAnswered := by
  intro count sector s hs
  have hex : exec (.flush count sector) s = .next (beginFlush (newRequest 3 count sector s)) :=
    congrArg Host.Outcome.next (arrive_passedOn hs 3 count sector beginFlush)
  refine ⟨_, hex, fun hp => ?_, fun hp => ?_⟩
  · have hb : beginFlush (newRequest 3 count sector s) =
        refuse .powerHoldup (maskFlag 3) 0 [] (newRequest 3 count sector s) := by
      simp [beginFlush, newRequest_eq, hp]
    rw [hb]
    refine ⟨?_, ⟨rfl, rfl⟩, refuse_recorded (s := newRequest 3 count sector s) rfl⟩
    rw [OnlyRequest]
    conv_lhs => rw [refuse_eq]
    rfl
  · have hb : beginFlush (newRequest 3 count sector s) = testWait
        { newRequest 3 count sector s with
          fp := { (newRequest 3 count sector s).fp with port := .completing, mark := some s.sb.ageCounter } } := by
      simp [beginFlush, newRequest_eq, hp]
    rw [hb, testWait_completing rfl rfl rfl, if_pos rfl]
    change _ = { s with fp := _, mp := _, sb := _ } ∧ _
    obtain hany | hany := Bool.eq_false_or_eq_true (anyBelow s.sb.lines s.sb.ageCounter)
    · rw [if_pos (by exact hany)]
      exact ⟨rfl, fun _ => ⟨rfl, rfl, rfl, rfl⟩, fun h => by simp [hany] at h, fun h => by simp [hany] at h⟩
    · rw [if_neg (by exact Bool.eq_false_iff.mp hany), answerFlush]
      obtain hd | hd := Bool.eq_false_or_eq_true s.sb.deferred
      · rw [if_pos (by exact hd)]
        exact ⟨rfl, fun h => by simp [hany] at h, fun _ h => by simp [hd] at h, fun _ _ => ⟨⟨rfl, rfl⟩, rfl⟩⟩
      · rw [if_neg (by exact Bool.eq_false_iff.mp hd)]
        exact ⟨rfl, fun h => by simp [hany] at h, fun _ _ => ⟨⟨rfl, rfl⟩, rfl⟩, fun _ h => by simp [hd] at h⟩

end Sys2Proof.Machine
end

