-- ==== Sys2Proof/Proofs/P02.lean ====
section
/-! Lines of the staging buffer: which line is picked, which holds a sector, what a stored sector, a started and a finished
run make of the dirty cost and the FREE count (R1 to R8, R16 to R18). -/

namespace Sys2Proof.Machine

open Sys2Proof

/-! ### The picked line (R2) -/

/-- Where `better` orders the candidates as a key does, no candidate has a greater key than the picked line. -/
theorem pickLine_best {better : Line → Line → Bool} {p : Line → Bool} (key : Line → Nat) {ls : List Line} {i j : Nat}
    {l : Line} (hb : ∀ a ∈ ls, ∀ b ∈ ls, p a = true → p b = true → (better a b = true ↔ key b < key a))
    (h : pickLine better p ls i = some (j, l)) : ∀ m ∈ ls, p m = true → key m ≤ key l := by
  induction ls generalizing i j l with
  | nil => simp [pickLine] at h
  | cons x xs ih =>
    have hb' : ∀ a ∈ xs, ∀ b ∈ xs, p a = true → p b = true → (better a b = true ↔ key b < key a) :=
      fun a ha b hm => hb a (List.mem_cons_of_mem _ ha) b (List.mem_cons_of_mem _ hm)
    simp only [pickLine] at h
    split at h
    · next hn =>
      split at h
      · cases h
        intro m hm hp
        obtain rfl | hm := List.mem_cons.mp hm
        · exact le_rfl
        · exact absurd hp (by simp [pickLine_none.mp hn m hm])
      · cases h
    · next k m hk =>
      have hbest := ih hb' hk
      obtain ⟨-, hget, hpm⟩ := pickLine_some hk
      have hmem : m ∈ xs := List.mem_of_getElem? hget
      intro y hy hpy
      split at h
      · next hx =>
        cases h
        simp only [Bool.and_eq_true, Bool.not_eq_true'] at hx
        have hle : key m ≤ key x := by
          have := hb m (List.mem_cons_of_mem _ hmem) x List.mem_cons_self hpm hx.1
          rw [hx.2] at this
          simpa using this
        obtain rfl | hy := List.mem_cons.mp hy
        · exact le_rfl
        · exact (hbest y hy hpy).trans hle
      · next hx =>
        cases h
        obtain hyx | hy := List.mem_cons.mp hy
        · subst hyx
          have hbt : better l y = true := by simpa [hpy] using hx
          exact ((hb l (List.mem_cons_of_mem _ hmem) y List.mem_cons_self hpm hpy).mp hbt).le
        · exact hbest y hy hpy

/-- R2: within a window of 2^31 the earlier age is the one nearer to its base. -/
theorem earlier_iff_of_window {a b base : Word} (ha : (a - base).toNat < 2147483648)
    (hb : (b - base).toNat < 2147483648) : earlier a b = true ↔ (a - base).toNat < (b - base).toNat := by
  have hd : (b - a).toNat = ((b - base).toNat + (4294967296 - (a - base).toNat)) % 4294967296 := by bv_omega
  simp only [earlier, Bool.and_eq_true, decide_eq_true_eq, hd]
  omega

/-! ### The line that holds a sector (R16) -/

/-- R16: the condition of `holderOf`. -/
theorem holds_iff (l : Line) (n : Nat) :
    (l.live && l.addr == n / 8 && l.valid.getLsbD (n % 8)) = true ↔ HoldsSector l n := by
  simp [HoldsSector, and_assoc]

theorem holderOf_eq_none_iff (lines : List Line) (n : Nat) : holderOf lines n = none ↔ ∀ l ∈ lines, ¬HoldsSector l n := by
  simp only [holderOf, newestLine, pickLine_none, ← holds_iff, Bool.not_eq_true]

/-- R16: the line that serves a sector stands in the buffer and holds it. -/
theorem holderOf_some {lines : List Line} {n i : Nat} {l : Line} (h : holderOf lines n = some (i, l)) :
    lines[i]? = some l ∧ HoldsSector l n := by
  obtain ⟨-, hl, hp⟩ := pickLine_some h
  exact ⟨by simpa using hl, (holds_iff l n).mp hp⟩

/-- R16: it is the newest such line. -/
theorem holderOf_newest {lines : List Line} {n i : Nat} {l : Line} {base : Word}
    (hw : ∀ l ∈ lines, l.live = true → (l.age - base).toNat < 2147483648) (h : holderOf lines n = some (i, l)) :
    ∀ m ∈ lines, HoldsSector m n → (m.age - base).toNat ≤ (l.age - base).toNat := by
  intro m hm hh
  refine pickLine_best (fun l => (l.age - base).toNat) (fun a ha b hb pa pb => ?_) h m hm ((holds_iff m n).mpr hh)
  have hla := ((holds_iff a n).mp pa).1
  have hlb := ((holds_iff b n).mp pb).1
  exact earlier_iff_of_window (hw b hb hlb) (hw a ha hla)

/-- R158: a miss is a sector that neither RU nor a line has. -/
theorem isMiss_iff (s : State) (n : Nat) : isMiss s n = true ↔
    (n < tailBase s + 5 ∨ tailBase s + 10 < n) ∧ ∀ l ∈ s.sb.lines, ¬HoldsSector l n := by
  simp only [isMiss, inLiveWindow, Bool.and_eq_true, Bool.not_eq_true', Bool.and_eq_false_iff, decide_eq_false_iff_not,
    Option.isNone_iff_eq_none, holderOf_eq_none_iff, not_le]

/-! ### The dirty cost and the FREE count (R3, R6) -/

/-- The sum over a list with one entry replaced. -/
theorem sum_map_set {α : Type} (f : α → Nat) {l : List α} {i : Nat} {a : α} (h : l[i]? = some a) (b : α) :
    ((l.set i b).map f).sum + f a = (l.map f).sum + f b := by
  induction l generalizing i with
  | nil => simp at h
  | cons x xs ih =>
    cases i with
    | zero =>
      simp only [List.getElem?_cons_zero, Option.some.injEq] at h
      subst h
      simp only [List.set_cons_zero, List.map_cons, List.sum_cons]
      omega
    | succ i =>
      have := ih (by simpa using h)
      simp only [List.set_cons_succ, List.map_cons, List.sum_cons]
      omega

theorem dirtyCost_set {lines : List Line} {i : Nat} {a : Line} (h : lines[i]? = some a) (b : Line) :
    dirtyCost (lines.set i b) + a.runCount = dirtyCost lines + b.runCount :=
  sum_map_set Line.runCount h b

/-- The number of FREE records of a buffer, as a sum. -/
theorem freeCount_eq_sum (lines : List Line) : freeCount lines = (lines.map fun l => (!l.live).toNat).sum := by
  unfold freeCount
  induction lines with
  | nil => rfl
  | cons x xs ih => cases hx : x.live <;> simp [hx, ih, Nat.add_comm]

theorem freeCount_set {lines : List Line} {i : Nat} {a : Line} (h : lines[i]? = some a) (b : Line) :
    freeCount (lines.set i b) + (!a.live).toNat = freeCount lines + (!b.live).toNat := by
  simpa only [freeCount_eq_sum] using sum_map_set (fun l : Line => (!l.live).toNat) h b

/-- R6: a FREE line is counted. -/
theorem freeCount_pos_iff (lines : List Line) : 1 ≤ freeCount lines ↔ ∃ l ∈ lines, l.live = false := by
  simp [freeCount, List.length_pos_iff_exists_mem, Nat.succ_le_iff]

@[simp] theorem Line.live_dirty {l : Line} (h : l.state = .dirty) : l.live = true := by simp [Line.live, h]

@[simp] theorem Line.live_draining {l : Line} (h : l.state = .draining) : l.live = true := by simp [Line.live, h]

theorem Line.not_live_iff (l : Line) : l.live = false ↔ l.state = .free := by
  unfold Line.live
  cases l.state <;> decide

/-! ### A stored sector (R5, R6, R8) -/

@[simp] theorem Line.store_state (l : Line) (n : Nat) (d : Sector) : (l.store n d).state = l.state := rfl
@[simp] theorem Line.store_live (l : Line) (n : Nat) (d : Sector) : (l.store n d).live = l.live := rfl
@[simp] theorem Line.store_addr (l : Line) (n : Nat) (d : Sector) : (l.store n d).addr = l.addr := rfl
@[simp] theorem Line.store_cls (l : Line) (n : Nat) (d : Sector) : (l.store n d).cls = l.cls := rfl
@[simp] theorem Line.store_age (l : Line) (n : Nat) (d : Sector) : (l.store n d).age = l.age := rfl
@[simp] theorem Line.store_zone (l : Line) (n : Nat) (d : Sector) : (l.store n d).zone = l.zone := rfl
@[simp] theorem Line.store_programmed (l : Line) (n : Nat) (d : Sector) : (l.store n d).programmed = l.programmed := rfl
@[simp] theorem Line.store_data_length (l : Line) (n : Nat) (d : Sector) : (l.store n d).data.length = l.data.length := by
  simp [Line.store]

/-- The mask of one slot. -/
theorem getLsbD_slotMask_one (n k : Nat) (hn : n < 8) : (slotMask n 1).getLsbD k = decide (k = n) := by
  by_cases hk : k < 8
  · interval_cases n <;> interval_cases k <;> decide
  · rw [BitVec.getLsbD_of_ge _ _ (by omega)]
    exact (decide_eq_false (by omega)).symm

/-- R8: the slot of the stored sector is valid, and every other slot as it was. -/
theorem Line.store_valid (l : Line) (n k : Nat) (d : Sector) (hn : n < 8) :
    (l.store n d).valid.getLsbD k = (l.valid.getLsbD k || decide (k = n)) := by
  simp [Line.store, getLsbD_slotMask_one _ _ hn]

theorem Line.store_data_self {l : Line} {n : Nat} (h : n < l.data.length) (d : Sector) :
    (l.store n d).data[n]? = some d := by
  simp [Line.store, h]

theorem Line.store_data_ne (l : Line) {n k : Nat} (h : k ≠ n) (d : Sector) : (l.store n d).data[k]? = l.data[k]? := by
  simp [Line.store, List.getElem?_set_ne (Ne.symm h)]

@[simp] theorem newLine_state (c : LineClass) (n : Nat) (z : Option Nat) (a : Word) (d : Sector) :
    (newLine c n z a d).state = .dirty := rfl
@[simp] theorem newLine_live (c : LineClass) (n : Nat) (z : Option Nat) (a : Word) (d : Sector) :
    (newLine c n z a d).live = true := rfl
@[simp] theorem newLine_addr (c : LineClass) (n : Nat) (z : Option Nat) (a : Word) (d : Sector) :
    (newLine c n z a d).addr = n / 8 := rfl
@[simp] theorem newLine_cls (c : LineClass) (n : Nat) (z : Option Nat) (a : Word) (d : Sector) :
    (newLine c n z a d).cls = c := rfl
@[simp] theorem newLine_age (c : LineClass) (n : Nat) (z : Option Nat) (a : Word) (d : Sector) :
    (newLine c n z a d).age = a := rfl
@[simp] theorem newLine_zone (c : LineClass) (n : Nat) (z : Option Nat) (a : Word) (d : Sector) :
    (newLine c n z a d).zone = z := rfl
@[simp] theorem newLine_programmed (c : LineClass) (n : Nat) (z : Option Nat) (a : Word) (d : Sector) :
    (newLine c n z a d).programmed = 0 := rfl
@[simp] theorem newLine_data_length (c : LineClass) (n : Nat) (z : Option Nat) (a : Word) (d : Sector) :
    (newLine c n z a d).data.length = 8 := by simp [newLine, Line.free]

theorem newLine_valid (c : LineClass) (n k : Nat) (z : Option Nat) (a : Word) (d : Sector) :
    (newLine c n z a d).valid.getLsbD k = decide (k = n % 8) := by
  rw [newLine, Line.store_valid _ _ _ _ (by omega)]
  simp [Line.free]

theorem newLine_data (c : LineClass) (n : Nat) (z : Option Nat) (a : Word) (d : Sector) :
    (newLine c n z a d).data[n % 8]? = some d :=
  Line.store_data_self (by simp [Line.free]; omega) d

/-- R6: a new line has one run. -/
theorem newLine_runCount (c : LineClass) (n : Nat) (z : Option Nat) (a : Word) (d : Sector) :
    (newLine c n z a d).runCount = 1 := by
  change maskRuns ((0 ||| slotMask (n % 8) 1) &&& ~~~0) = 1
  have h8 : n % 8 < 8 := by omega
  generalize n % 8 = k at h8
  interval_cases k <;> decide

/-- A place for a sector, R5 and R6: its merge target, or the lowest FREE record. -/
theorem placeSector_cases {sb t : Staging} {cls : LineClass} {sector : Nat} {zone : Option Nat} {reserve : Nat}
    {data : Sector} (h : placeSector sb cls sector zone reserve data = some t) :
    (∃ i l, mergeTarget sb.lines cls sector = some (i, l) ∧
      t = { sb with lines := sb.lines.set i (l.store (sector % 8) data) }) ∨
    (∃ i l, mergeTarget sb.lines cls sector = none ∧ mayAllocate sb.lines cls reserve = true ∧
      sb.lines[i]? = some l ∧ l.live = false ∧
      (∀ (j : Nat) (m : Line), j < i → sb.lines[j]? = some m → m.live = true) ∧
      t = { sb with lines := sb.lines.set i (newLine cls sector zone sb.ageCounter data)
                    ageCounter := sb.ageCounter + 1 }) := by
  unfold placeSector at h
  split at h
  · next i l hm => cases h; exact .inl ⟨i, l, hm, rfl⟩
  · next hm =>
    split at h
    · next ha =>
      split at h
      · next i hi =>
        cases h
        obtain ⟨hlt, hp, hlow⟩ := List.findIdx?_eq_some_iff_getElem.mp hi
        refine .inr ⟨i, sb.lines[i], hm, ha, List.getElem?_eq_getElem hlt, by simpa using hp, fun j m hj hm => ?_, rfl⟩
        obtain ⟨hjl, rfl⟩ := List.getElem?_eq_some_iff.mp hm
        simpa using hlow j hj
      · cases h
    · cases h

/-- R2, R6, R8: a sector stored in a FREE line, the lowest-numbered one. -/
theorem storedAt_newLine {lines : List Line} {i : Nat} {l : Line} {cls : LineClass} {sector : Nat} {zone : Option Nat}
    {age : Word} {data : Sector} (hl : lines[i]? = some l) (hfree : l.live = false)
    (hlow : ∀ (j : Nat) (m : Line), j < i → lines[j]? = some m → m.live = true) :
    StoredAt i cls age zone sector data lines (lines.set i (newLine cls sector zone age data)) := by
  have hi : i < lines.length := (List.getElem?_eq_some_iff.mp hl).1
  refine ⟨l, newLine cls sector zone age data, hl, by simp [hi], rfl, rfl, rfl, ?_, newLine_data ..,
    fun n hn hne => ?_, fun _ => ⟨rfl, rfl, rfl, hlow⟩, fun hf => by simp [hfree] at hf⟩
  · rw [newLine_valid]; simp
  · rw [newLine_valid]; simp [hne, hfree]

/-- R8: after a sector has been placed, it stands stored in one line and every other line is as it was. -/
theorem placeSector_storedAt {sb t : Staging} {cls : LineClass} {sector : Nat} {zone : Option Nat} {reserve : Nat}
    {data : Sector} (h : placeSector sb cls sector zone reserve data = some t)
    (h8 : ∀ l ∈ sb.lines, l.data.length = 8) :
    ∃ i, StoredAt i cls sb.ageCounter zone sector data sb.lines t.lines ∧ ∀ j, j ≠ i → t.lines[j]? = sb.lines[j]? := by
  have hlt : sector % 8 < 8 := Nat.mod_lt _ (by omega)
  obtain ⟨i, l, hm, rfl⟩ | ⟨i, l, hm, ha, hl, hfree, hlow, rfl⟩ := placeSector_cases h
  · obtain ⟨-, hget, hdirty, haddr, hcls⟩ := mergeTarget_some hm
    have hi : i < sb.lines.length := (List.getElem?_eq_some_iff.mp hget).1
    have hlive : l.live = true := Line.live_dirty hdirty
    have hlen : l.data.length = 8 := h8 l (List.mem_of_getElem? hget)
    refine ⟨i, ⟨l, l.store (sector % 8) data, hget, by simp [hi], by simpa using hlive, hcls, haddr, ?_,
      Line.store_data_self (by omega) data, fun n hn hne => ?_, fun hf => by simp [hlive] at hf, fun _ =>
        ⟨hdirty, hcls, haddr, rfl, rfl, rfl, fun n hn => Line.store_data_ne l hn data⟩⟩, fun j hj => ?_⟩
    · rw [Line.store_valid _ _ _ _ hlt]; simp
    · rw [Line.store_valid _ _ _ _ hlt]; simp [hne, hlive]
    · exact List.getElem?_set_ne (Ne.symm hj)
  · exact ⟨i, storedAt_newLine hl hfree hlow, fun j hj => List.getElem?_set_ne (Ne.symm hj)⟩

/-- R6: an allocation raises the dirty cost by one and takes a FREE record and an age. -/
theorem placeSector_allocates {sb t : Staging} {cls : LineClass} {sector : Nat} {zone : Option Nat} {reserve : Nat}
    {data : Sector} (h : placeSector sb cls sector zone reserve data = some t)
    (hm : mergeTarget sb.lines cls sector = none) :
    dirtyCost t.lines = dirtyCost sb.lines + 1 ∧ freeCount t.lines + 1 = freeCount sb.lines ∧
      t.ageCounter = sb.ageCounter + 1 ∧ (cls = .data → reserve < freeCount sb.lines) := by
  obtain ⟨i, l, hm', -⟩ | ⟨i, l, -, ha, hl, hfree, -, rfl⟩ := placeSector_cases h
  · simp [hm] at hm'
  · have hc := dirtyCost_set hl (newLine cls sector zone sb.ageCounter data)
    have hf := freeCount_set hl (newLine cls sector zone sb.ageCounter data)
    have hr : l.runCount = 0 := by simp [Line.runCount, hfree]
    rw [newLine_runCount, hr] at hc
    simp only [newLine_live, hfree, Bool.not_false, Bool.not_true, Bool.toNat_true, Bool.toNat_false] at hf
    exact ⟨hc, hf, rfl, fun hd => by simpa [mayAllocate, hd] using ha⟩

/-- R5: a merge leaves the FREE count and the age counter as they are. -/
theorem placeSector_merges {sb t : Staging} {cls : LineClass} {sector : Nat} {zone : Option Nat} {reserve : Nat}
    {data : Sector} (h : placeSector sb cls sector zone reserve data = some t)
    (hm : (mergeTarget sb.lines cls sector).isSome = true) :
    freeCount t.lines = freeCount sb.lines ∧ t.ageCounter = sb.ageCounter := by
  obtain ⟨i, l, hm', rfl⟩ | ⟨i, l, hm', -⟩ := placeSector_cases h
  · obtain ⟨-, hget, hdirty, -, -⟩ := mergeTarget_some hm'
    have hf := freeCount_set hget (l.store (sector % 8) data)
    simp only [Line.store_live] at hf
    exact ⟨by simpa using hf, rfl⟩
  · simp [hm'] at hm

/-- R5: where a sector may merge. -/
theorem mergeTarget_isSome_iff (lines : List Line) (cls : LineClass) (sector : Nat) :
    (mergeTarget lines cls sector).isSome = true ↔
      cls ≠ .map ∧ ∃ l ∈ lines, l.state = .dirty ∧ l.addr = sector / 8 ∧ l.cls = cls := by
  unfold mergeTarget
  split
  · next h => simp [h]
  · next h =>
    rw [← not_iff_not, Bool.not_eq_true, Option.isSome_eq_false_iff, Option.isNone_iff_eq_none, newestLine, pickLine_none]
    simp [h]

/-- R5, R6: where a place is found. -/
theorem placeSector_isSome_iff (sb : Staging) (cls : LineClass) (sector : Nat) (zone : Option Nat) (reserve : Nat)
    (data : Sector) :
    (∃ t, placeSector sb cls sector zone reserve data = some t) ↔
      (mergeTarget sb.lines cls sector).isSome = true ∨ (cls = .data ∧ reserve < freeCount sb.lines) ∨
      (cls ≠ .data ∧ 1 ≤ freeCount sb.lines) := by
  have hfind : (∃ i, sb.lines.findIdx? (fun l => !l.live) = some i) ↔ 1 ≤ freeCount sb.lines := by
    rw [← Option.isSome_iff_exists, List.findIdx?_isSome, List.any_eq_true, freeCount_pos_iff]
    simp
  have hmay : mayAllocate sb.lines cls reserve = true ↔
      (cls = .data ∧ reserve < freeCount sb.lines) ∨ (cls ≠ .data ∧ 1 ≤ freeCount sb.lines) := by
    cases cls <;> simp [mayAllocate]
  unfold placeSector
  split
  · next i l hm => simp [hm]
  · next hm =>
    split
    · next ha =>
      have h1 := hmay.mp ha
      have hpos : 1 ≤ freeCount sb.lines := by omega
      obtain ⟨i, hi⟩ := hfind.mpr hpos
      simp only [hi, Option.some.injEq, exists_eq', true_iff]
      exact .inr h1
    · next ha => simp [← hmay, ha, hm]

/-! ### The admission test (R7, R11) -/

theorem costAllows_iff (before after limit : Nat) :
    costAllows before after limit = true ↔ after ≤ max 1 limit ∨ after ≤ before := by
  simp [costAllows]

/-- R11: NOLINE is answered exactly where no place is found. -/
theorem admitTest_noLine_iff (sb : Staging) (cls : LineClass) (sector : Nat) (zone : Option Nat) (reserve limit : Nat)
    (data : Sector) : admitTest sb cls sector zone reserve limit data = .refused .noLine ↔
      placeSector sb cls sector zone reserve data = none := by
  unfold admitTest
  split
  · next h => simp [h]
  · next h => split <;> simp [h]

/-- R11: COST is answered exactly where a place is found and the cost test fails. -/
theorem admitTest_cost_iff (sb : Staging) (cls : LineClass) (sector : Nat) (zone : Option Nat) (reserve limit : Nat)
    (data : Sector) : admitTest sb cls sector zone reserve limit data = .refused .cost ↔
      ∃ t, placeSector sb cls sector zone reserve data = some t ∧ max 1 limit < dirtyCost t.lines ∧
        dirtyCost sb.lines < dirtyCost t.lines := by
  unfold admitTest
  split
  · next h => simp [h]
  · next u h =>
    have hc := costAllows_iff (dirtyCost sb.lines) (dirtyCost u.lines) limit
    split
    · next ha =>
      have := hc.mp ha
      simp only [h, reduceCtorEq, Option.some.injEq, exists_eq_left', false_iff]
      omega
    · next ha =>
      have := mt hc.mpr ha
      simp only [h, Option.some.injEq, exists_eq_left', true_iff]
      omega

/-- R7: a placed sector is admitted exactly where the cost it produces is allowed. -/
theorem admitTest_admitted_iff {sb t : Staging} {cls : LineClass} {sector : Nat} {zone : Option Nat} {reserve : Nat}
    {limit : Nat} {data : Sector} (h : placeSector sb cls sector zone reserve data = some t) :
    admitTest sb cls sector zone reserve limit data = .admitted t ↔
      dirtyCost t.lines ≤ max 1 limit ∨ dirtyCost t.lines ≤ dirtyCost sb.lines := by
  rw [← costAllows_iff]
  simp only [admitTest, h]
  split <;> simp_all

end Sys2Proof.Machine
end

