-- ==== Sys2Proof/Proofs/P03.lean ====
section
/-! The media port's grants outside HOLDUP (R17, R164 to R167) and the assembly of READs (R158, R159, R169, R172). -/

namespace Sys2Proof.Machine

open Sys2Proof

theorem inService_iff (p : PowerState) : inService p = true ↔ p = .normal ∨ p = .low ∨ p = .critical := by
  cases p <;> decide

theorem ne_holdup_of_inService {p : PowerState} (h : inService p = true) : p ≠ .holdup := by
  rintro rfl; cases h

theorem ne_off_of_inService {p : PowerState} (h : inService p = true) : p ≠ .off := by
  rintro rfl; cases h

/-! ### The drain request (R17) -/

/-- R17: bringing the drain request up to date writes it and, at a withdrawal, the starvation count. -/
theorem syncDrain_eq (s : State) : syncDrain s =
    { s with mp := { s.mp with
      waiters := { s.mp.waiters with drain := (syncDrain s).mp.waiters.drain }
      starvation := (syncDrain s).mp.starvation } } := by
  unfold syncDrain
  (repeat' split) <;> rfl

theorem exists_syncDrain (s : State) : ∃ d n, syncDrain s =
    { s with mp := { s.mp with waiters := { s.mp.waiters with drain := d }, starvation := n } } :=
  ⟨_, _, syncDrain_eq s⟩

theorem syncDrain_current (s : State) : (syncDrain s).mp.current = s.mp.current := by rw [syncDrain_eq]

theorem syncDrain_readMiss (s : State) : (syncDrain s).mp.waiters.readMiss = s.mp.waiters.readMiss := by
  rw [syncDrain_eq]

theorem syncDrain_lines (s : State) : (syncDrain s).sb = s.sb := by rw [syncDrain_eq]

/-- R17: whether a drain is wanted depends on the lines, the operation in progress, the motion and the power state. -/
theorem drainWanted_congr {s t : State} (hl : t.sb.lines = s.sb.lines) (hr : runInFlight t = runInFlight s)
    (hm : t.mm.motion = s.mm.motion) (hp : t.ps.power = s.ps.power) : drainWanted t = drainWanted s := by
  simp only [drainWanted, hasUnissuedRun, hl, hr, hm, hp]

theorem drainWanted_syncDrain (s : State) : drainWanted (syncDrain s) = drainWanted s := by
  rw [syncDrain_eq]
  rfl

/-- R17: outside OFF the request stands afterwards exactly where it is wanted. -/
theorem syncDrain_drain {s : State} (hp : s.ps.power ≠ .off) : (syncDrain s).mp.waiters.drain = drainWanted s := by
  unfold syncDrain
  rw [if_neg hp]
  split
  · next h => exact h.symm
  · next h =>
    split
    · exact (Bool.eq_false_iff.mpr h).symm
    · next h' => rw [Bool.eq_false_iff.mpr h, Bool.eq_false_iff.mpr h']

/-- R17: a request that stands as it should stays as it is. -/
theorem syncDrain_of_agrees {s : State} (h : s.ps.power ≠ .off → s.mp.waiters.drain = drainWanted s) :
    syncDrain s = s := by
  unfold syncDrain
  split
  · rfl
  · next hp =>
    have hd := h hp
    split
    · next hw => rw [hw] at hd; simp [← hd]
    · next hw => rw [Bool.eq_false_iff.mpr hw] at hd; simp [hd]

theorem syncDrain_syncDrain (s : State) : syncDrain (syncDrain s) = syncDrain s := by
  refine syncDrain_of_agrees fun h => ?_
  have hp : s.ps.power ≠ .off := by rw [syncDrain_eq] at h; exact h
  rw [drainWanted_syncDrain, syncDrain_drain hp]

theorem pump_busy {s : State} (h : mpIdle s = false) : pump s = syncDrain s := by
  have hb : mpIdle (syncDrain s) = false := by rw [syncDrain_eq]; exact h
  rw [pump, grantNext_busy hb, syncDrain_syncDrain]

/-! ### Grants in service (R166, R167) -/

theorem grantNext_service {s : State} (hp : inService s.ps.power = true) (hi : mpIdle s = true) :
    grantNext s = grantService s := by
  unfold grantNext
  rw [if_pos hi]
  obtain h | h | h := (inService_iff _).mp hp <;> rw [h]

/-- R166: with nothing waiting and no drain wanted, nothing is granted. -/
theorem pump_quiet {s : State} (hp : inService s.ps.power = true) (hw : drainWanted s = false)
    (hd : s.mp.waiters.drain = false) (hm : s.mp.waiters.readMiss = none) : pump s = s := by
  have hs : syncDrain s = s := syncDrain_of_agrees fun _ => by rw [hd, hw]
  have hg : grantNext s = s := by
    cases hi : mpIdle s
    · exact grantNext_busy hi
    · rw [grantNext_service hp hi, grantService, hd]
      simp [grantWaitingMiss, hm]
  rw [pump, hs, hg, hs]

/-- R158, R166: MP idle, with a read miss alone waiting and no drain wanted, issues it. -/
theorem pump_miss {s : State} {m : MissRun} (hp : inService s.ps.power = true) (hi : mpIdle s = true)
    (hw : drainWanted s = false) (hd : s.mp.waiters.drain = false) (hm : s.mp.waiters.readMiss = some m) :
    pump s = { s with mp := { s.mp with
      waiters := { s.mp.waiters with readMiss := none }
      current := some { kind := .read, sector := m.first, count := m.len, data := [], requester := .readMiss
                        attempt := 1, start := s.uptimeMs, abandoned := false } } } := by
  have hs : syncDrain s = s := syncDrain_of_agrees fun _ => by rw [hd, hw]
  have hg : grantNext s = grantMiss m s := by
    rw [grantNext_service hp hi, grantService, hd, Bool.false_and, if_neg (by decide)]
    simp [grantWaitingMiss, hm, hi]
  have hcur : s.mp.current = none := by
    simp only [mpIdle, Bool.and_eq_true, Option.isNone_iff_eq_none] at hi
    exact hi.1
  have hmiss : grantMiss m s = { s with mp := { s.mp with
      waiters := { s.mp.waiters with readMiss := none }
      current := some { kind := .read, sector := m.first, count := m.len, data := [], requester := .readMiss
                        attempt := 1, start := s.uptimeMs, abandoned := false } } } := by
    unfold grantMiss
    rw [hd, if_neg (by decide)]
    rfl
  rw [pump, hs, hg, hmiss]
  refine syncDrain_of_agrees fun _ => ?_
  refine (hd.trans hw.symm).trans (Eq.symm ?_)
  refine drainWanted_congr rfl ?_ rfl rfl
  simp [runInFlight, hcur, Requester.isDrain]

/-- R17: the lines after a grant: as they were, or the chosen line DRAINING. -/
theorem grantDrain_onlyDrainStarted (s : State) : OnlyDrainStarted s.sb.lines (grantDrain s).sb.lines := by
  unfold grantDrain
  dsimp only
  split
  · exact .inl rfl
  · split
    · next c hc => exact .inr ⟨c, hc, rfl⟩
    · exact .inl rfl

theorem grantWaitingMiss_lines (s : State) : (grantWaitingMiss s).sb = s.sb := by simp

theorem grantService_onlyDrainStarted (s : State) : OnlyDrainStarted s.sb.lines (grantService s).sb.lines := by
  unfold grantService
  split
  · rw [grantWaitingMiss_lines]; exact grantDrain_onlyDrainStarted s
  · rw [grantWaitingMiss_lines]; exact .inl rfl

theorem grantNext_onlyDrainStarted {s : State} (h : s.ps.power ≠ .holdup) :
    OnlyDrainStarted s.sb.lines (grantNext s).sb.lines := by
  unfold grantNext
  split
  · split
    · contradiction
    · unfold grantStarting
      split
      · next step _ => cases step <;> exact .inl rfl
      · split
        · exact grantDrain_onlyDrainStarted s
        · exact .inl rfl
    · exact grantService_onlyDrainStarted s
    · exact grantService_onlyDrainStarted s
    · exact grantService_onlyDrainStarted s
    · exact .inl rfl
  · exact .inl rfl

/-- R17: outside HOLDUP a grant leaves the lines, but that it may make the chosen line DRAINING. -/
theorem pump_onlyDrainStarted {s : State} (h : s.ps.power ≠ .holdup) :
    OnlyDrainStarted s.sb.lines (pump s).sb.lines := by
  have hg := grantNext_onlyDrainStarted (s := syncDrain s) (by rw [syncDrain_eq]; exact h)
  rw [pump, syncDrain_lines]
  rwa [syncDrain_lines] at hg

/-- What `GrantOnly` says, as one equation. -/
theorem GrantOnly.eq {s t : State} (h : GrantOnly s t) :
    t = { s with mp := { t.mp with resetPulses := s.mp.resetPulses }
                 sb := { s.sb with lines := t.sb.lines } } := by
  obtain ⟨h1, h2, h3, h4, h5, h6, h7, h8, h9, h10, h11, h12, h13, h14, h15, h16, h17, h18, h19, h20, h21⟩ := h
  obtain ⟨u1, u2, u3, u4, u5, u6, u7, ⟨l, a, lc, ll, d⟩, ⟨c, w, n, hd, rp⟩, u10, u11, u12, u13, u14, u15, u16, u17⟩ := t
  dsimp only at *
  subst_vars
  rfl

/-- Which requests wait, and how they join the set, is MP's own. -/
theorem GrantOnly.rejoin {s t : State} {w : Waiters} (h : GrantOnly s t) :
    GrantOnly s { t with mp := { t.mp with waiters := w } } := by
  obtain ⟨h1, h2, h3, h4, h5, h6, h7, h8, h9, h10, h11, h12, h13, h14, h15, h16, h17, h18, h19, h20, h21⟩ := h
  exact ⟨h1, h2, h3, h4, h5, h6, h7, h8, h9, h10, h11, h12, h13, h14, h15, h16, h17, h18, h19, h20, h21⟩

theorem GrantOnly.grantAfterWaiters {s : State} {w : Waiters} (h : s.ps.power ≠ .holdup) :
    GrantOnly s (grantNext { s with mp := { s.mp with waiters := w } }) :=
  (GrantOnly.refl s).rejoin.trans (grantNext_grantOnly h)

/-- R166: MP going idle outside HOLDUP: besides a grant, the model's own counter and mark of a hand-over. -/
theorem goIdle_grantOnly {before : Waiters} {s : State} (h : s.ps.power ≠ .holdup) :
    GrantOnly { s with fresh := (goIdle before s).fresh, mp := { s.mp with handing := false } } (goIdle before s) := by
  have h1 := syncDrain_grantOnly { s with mp := { s.mp with handing := false } }
  have hp1 : (syncDrain { s with mp := { s.mp with handing := false } }).ps.power ≠ .holdup := by rw [h1.ps]; exact h
  have lift : ∀ {f : Nat} {u : State}, GrantOnly { syncDrain { s with mp := { s.mp with handing := false } } with fresh := f } u →
      GrantOnly { s with fresh := u.fresh, mp := { s.mp with handing := false } } u := by
    intro f u hu
    rw [syncDrain_eq] at hu
    exact ⟨hu.uptimeMs, hu.uptimeSec, hu.msOfSec, rfl, hu.pins, hu.fp, hu.wc, hu.zu, hu.sm, hu.mm, hu.bg, hu.ps, hu.se,
      hu.ru, hu.pending, hu.sbAgeCounter, hu.sbLostCount, hu.sbLastLost, hu.sbDeferred, hu.mpHanding, hu.mpResetPulses⟩
  unfold goIdle
  dsimp only
  split
  · split
    · refine lift (f := (syncDrain { s with mp := { s.mp with handing := false } }).fresh + 1) ?_
      unfold grantAmong
      refine GrantOnly.trans (GrantOnly.grantAfterWaiters ?_).rejoin (syncDrain_grantOnly _)
      exact hp1
    · exact lift (pump_grantOnly hp1)
  · exact lift (pump_grantOnly hp1)

theorem goIdle_eq {before : Waiters} {s : State} (h : s.ps.power ≠ .holdup) :
    goIdle before s = { s with
      fresh := (goIdle before s).fresh
      mp := { (goIdle before s).mp with resetPulses := s.mp.resetPulses }
      sb := { s.sb with lines := (goIdle before s).sb.lines } } :=
  (goIdle_grantOnly (before := before) h).eq

/-- R166: where nobody waited before, MP goes idle and grants what the requester has added. -/
theorem goIdle_none {s : State} : goIdle .none s = pump (syncDrain { s with mp := { s.mp with handing := false } }) := by
  have hc : ∀ a : Waiters, Waiters.common .none a = .none := fun a => by
    unfold Waiters.common Waiters.none
    congr 1 <;> split <;> simp_all
  unfold goIdle
  dsimp only
  rw [hc, if_neg (by simp)]

theorem pump_syncDrain (s : State) : pump (syncDrain s) = pump s := by
  rw [pump, pump, syncDrain_syncDrain]

/-! ### Assembly of a READ (R158) -/

/-- R158: a sector that is no miss, as it is formed or copied. -/
def sourceSector (s : State) (n : Nat) : Sector :=
  if inLiveWindow s n then liveSector s (n - tailBase s) else stagedSector s n

/-- R158: the `k` sectors from sector `n` on. -/
def readSectors (s : State) (n k : Nat) : List Sector :=
  (List.range k).map fun i => sourceSector s (n + i)

/-- The live status is among the `k` sectors from `n` on. -/
def coversStatus (s : State) (n k : Nat) : Bool :=
  n ≤ tailBase s + 5 && tailBase s + 5 < n + k

/-- R158, R172: FP after the `k` sectors from `n` on have gone into the read buffer. -/
def readAhead (s : State) (n k : Nat) : State :=
  { s with
    fp := { s.fp with
      readBuf := s.fp.readBuf ++ readSectors s n k
      req := s.fp.req.map fun r => { r with taken := r.taken + k } }
    ru := if coversStatus s n k then { s.ru with attn := false } else s.ru
    fresh := if coversStatus s n k then s.fresh + 1 else s.fresh }

theorem coversStatus_iff (s : State) (n k : Nat) : coversStatus s n k = true ↔ CoversStatus s n k := by
  simp [coversStatus, CoversStatus]

/-- R169: a sector of the live window is read as it is formed at that moment. -/
theorem sourceSector_live {s : State} {n o : Nat} (h : n = tailBase s + o) (h5 : 5 ≤ o) (h10 : o ≤ 10) :
    sourceSector s n = liveSector s o := by
  have hl : inLiveWindow s n = true := by
    simp only [inLiveWindow, Bool.and_eq_true, decide_eq_true_eq]
    omega
  rw [sourceSector, if_pos hl, h, Nat.add_sub_cancel_left]

theorem liveSector_check (s : State) (q : Nat) : liveSector s (7 + q) = checkSector s q := by
  rw [liveSector, if_neg (by omega), if_neg (by omega), Nat.add_sub_cancel_left]

/-- R169: the sectors read, as the statements say them. -/
theorem assembles_readSectors (s : State) (n k : Nat) : Assembles s n k (readSectors s n k) := by
  refine ⟨by simp [readSectors], fun i b hb => ?_⟩
  simp only [readSectors, List.getElem?_map, Option.map_eq_some_iff] at hb
  obtain ⟨j, hj, rfl⟩ := hb
  obtain ⟨-, rfl⟩ := List.getElem?_eq_some_iff.mp hj
  simp only [List.getElem_range]
  refine ⟨fun h => ?_, fun h => ?_, fun q hq h => ?_, fun h => ?_⟩
  · rw [sourceSector_live h (by omega) (by omega), liveSector, if_pos rfl]
  · rw [sourceSector_live h (by omega) (by omega), liveSector, if_neg (by omega), if_pos rfl]
  · rw [sourceSector_live (o := 7 + q) (by omega) (by omega) (by omega), liveSector_check]
  · rw [sourceSector, h, if_neg (by decide)]

theorem readAhead_zero (s : State) (n : Nat) : readAhead s n 0 = s := by
  have hc : coversStatus s n 0 = false := by
    simp only [coversStatus, Bool.and_eq_false_iff, decide_eq_false_iff_not]
    omega
  simp [readAhead, hc, readSectors]

/-- R158: the read buffer and the count of taken sectors do not enter what a sector is read as. -/
theorem sourceSector_readAhead (s : State) (n k : Nat) :
    sourceSector (readAhead s n k) (n + k) = sourceSector s (n + k) := by
  by_cases h5 : n + k = tailBase s + 5
  · have hc : coversStatus s n k = false := by
      simp only [coversStatus, Bool.and_eq_false_iff, decide_eq_false_iff_not]
      omega
    simp only [readAhead, hc, Bool.false_eq_true, if_false]
    rfl
  · have hne : inLiveWindow s (n + k) = true → ¬(n + k - tailBase s = 5) := by
      simp only [inLiveWindow, Bool.and_eq_true, decide_eq_true_eq]
      omega
    have hw : inLiveWindow (readAhead s n k) (n + k) = inLiveWindow s (n + k) := rfl
    have ht : tailBase (readAhead s n k) = tailBase s := rfl
    rw [sourceSector, sourceSector, hw, ht]
    split
    · next hl =>
      rw [liveSector, liveSector, if_neg (hne hl), if_neg (hne hl)]
      rfl
    · rfl

/-- R158: a sector that is no miss has a source, and the live status clears the ATTN latch. -/
theorem readSource_of_not_miss {s : State} {n : Nat} (h : isMiss s n = false) :
    readSource s n = some (sourceSector s n,
      if n = tailBase s + 5 then { s with ru := { s.ru with attn := false }, fresh := s.fresh + 1 } else s) := by
  unfold readSource sourceSector
  by_cases hl : inLiveWindow s n = true
  · have h5 : n - tailBase s = 5 ↔ n = tailBase s + 5 := by
      simp only [inLiveWindow, Bool.and_eq_true, decide_eq_true_eq] at hl
      omega
    simp only [hl, if_true, formLive, h5]
  · have hne : ¬n = tailBase s + 5 := by
      rintro rfl
      exact hl (by simp [inLiveWindow])
    simp only [Bool.not_eq_true] at hl
    simp only [isMiss, hl, Bool.not_false, Bool.true_and, Option.isNone_eq_false_iff] at h
    obtain ⟨⟨i, l⟩, hh⟩ := Option.isSome_iff_exists.mp h
    simp [hl, hh, stagedSector, hne]

theorem readSource_of_miss {s : State} {n : Nat} (h : isMiss s n = true) : readSource s n = none := by
  simp only [isMiss, Bool.and_eq_true, Bool.not_eq_true', Option.isNone_iff_eq_none] at h
  simp [readSource, h.1, h.2]

/-- One more sector read ahead. -/
theorem readAhead_succ (s : State) (n k : Nat) :
    putRead (sourceSector (readAhead s n k) (n + k))
      (if n + k = tailBase s + 5 then
        { readAhead s n k with ru := { (readAhead s n k).ru with attn := false }, fresh := (readAhead s n k).fresh + 1 }
       else readAhead s n k) = readAhead s n (k + 1) := by
  rw [sourceSector_readAhead]
  have hs : readSectors s n (k + 1) = readSectors s n k ++ [sourceSector s (n + k)] := by
    simp [readSectors, List.range_succ]
  have hr : s.fp.req.map (fun r => { r with taken := r.taken + (k + 1) }) =
      (s.fp.req.map fun r => { r with taken := r.taken + k }).map fun r => { r with taken := r.taken + 1 } := by
    cases s.fp.req <;> rfl
  by_cases h5 : n + k = tailBase s + 5
  · have hc : coversStatus s n k = false := by
      simp only [coversStatus, Bool.and_eq_false_iff, decide_eq_false_iff_not]; omega
    have hc1 : coversStatus s n (k + 1) = true := by
      simp only [coversStatus, Bool.and_eq_true, decide_eq_true_eq]; omega
    simp only [if_pos h5, readAhead, hc, hc1, hs, hr, putRead, Bool.false_eq_true, if_false, if_true, List.append_assoc]
  · have hc : coversStatus s n (k + 1) = coversStatus s n k := by
      simp only [coversStatus]
      congr 1
      exact decide_eq_decide.mpr (by omega)
    simp only [if_neg h5, readAhead, hc, hs, hr, putRead, List.append_assoc]

/-- R158: the assembly of the first `k` sectors, none of them a miss. -/
theorem assembleFrom_readAhead {s : State} {n k left : Nat} (hk : k ≤ left)
    (h : ∀ i, i < k → isMiss s (n + i) = false) :
    assembleFrom left n s = assembleFrom (left - k) (n + k) (readAhead s n k) := by
  induction k with
  | zero => rw [readAhead_zero]; rfl
  | succ k ih =>
    rw [ih (by omega) fun i hi => h i (by omega)]
    obtain ⟨m, hm⟩ : ∃ m, left - k = m + 1 := ⟨left - k - 1, by omega⟩
    have hl : left - (k + 1) = m := by omega
    have hmiss := h k (by omega)
    rw [hm, hl, assembleFrom, readSource_of_not_miss (s := readAhead s n k) hmiss, ← readAhead_succ]
    rfl

/-- The miss run that begins at a miss: its extent (R158). -/
theorem missLength_spec {s : State} {n left : Nat} (hm : isMiss s n = true) (hl : 0 < left) :
    1 ≤ missLength s n left ∧ missLength s n left ≤ left ∧ (∀ i, i < missLength s n left → isMiss s (n + i) = true) ∧
      (missLength s n left < left → isMiss s (n + missLength s n left) = false) := by
  set p : Nat → Bool := fun i => isMiss s (n + i) with hp
  have hlen : missLength s n left = ((List.range left).takeWhile p).length := rfl
  have hle : missLength s n left ≤ left := by
    rw [hlen]
    simpa using (List.takeWhile_sublist (l := List.range left) p).length_le
  have hin : ∀ i, i < missLength s n left → isMiss s (n + i) = true := by
    intro i hi
    have hpre := List.takeWhile_prefix p (l := List.range left)
    have hget := hpre.getElem (i := i) (by rw [← hlen]; exact hi)
    have hmem : ((List.range left).takeWhile p)[i]'(by rw [← hlen]; exact hi) ∈ (List.range left).takeWhile p :=
      List.getElem_mem _
    have := List.mem_takeWhile_imp hmem
    rw [hget] at this
    simpa [hp] using this
  have hstop : missLength s n left < left → isMiss s (n + missLength s n left) = false := by
    intro hlt
    have := List.takeWhile_append_dropWhile (p := p) (l := List.range left)
    have hne : (List.range left).dropWhile p ≠ [] := by
      intro hd
      rw [hd, List.append_nil] at this
      rw [hlen, this, List.length_range] at hlt
      omega
    have hhead := List.head_dropWhile_not p hne
    have hidx : ((List.range left).dropWhile p).head hne = missLength s n left := by
      have h1 : (List.range left)[missLength s n left]'(by simpa using hlt) = missLength s n left := by simp
      have h2 : (List.range left)[missLength s n left]? = ((List.range left).dropWhile p)[0]? := by
        conv_lhs => rw [← this]
        rw [List.getElem?_append_right (by rw [hlen]), ← hlen, Nat.sub_self]
      rw [List.getElem?_eq_getElem (by simpa using hlt), h1] at h2
      rw [List.head_eq_getElem]
      exact (List.getElem_eq_iff _).mpr h2.symm
    rw [hidx] at hhead
    simpa [hp] using hhead
  refine ⟨?_, hle, hin, hstop⟩
  by_contra h0
  have h0' : missLength s n left = 0 := by omega
  have := hstop (by omega)
  rw [h0', Nat.add_zero, hm] at this
  cases this

end Sys2Proof.Machine
end

