-- ==== Sys2Proof/Proofs/P04.lean ====
section
/-! READs served from staging and the live window, and their misses (R16, R158, R159, R163, R165, R166, R169, R172). -/

namespace Sys2Proof.Machine

open Sys2Proof

/-! ### A READ at its arrival -/

/-- The front port of a READ whose assembly begins. -/
def readBegun (count : Byte) (sector : Word) : FrontPort :=
  { FrontPort.reset with req := some { code := 1, count := count, sector := sector, taken := 0 }, port := .assembling }

/-- R158: a READ in service that passes its two checks is assembled from its first sector on. -/
theorem exec_read_assembles {count : Byte} {sector : Word} {s : State} (hs : PassedOn s)
    (hp : inService s.ps.power = true) (hf : ¬FormatFails count) (he : ¬EndFails s count sector) :
    exec (.read count sector) s = .next (assembleFrom count.toNat sector.toNat
      { s with fp := readBegun count sector, mp := (abandonRead s).mp }) := by
  have hc : countFails count = false := by simpa [countFails, FormatFails] using hf
  have h2 : check2 (newRequest 1 count sector s) count sector = false := by
    exact decide_eq_false he
  have hb : beginRead count sector (newRequest 1 count sector s) = assemble (newRequest 1 count sector s) := by
    rw [beginRead, readRefusalOf, hc, h2]
    exact if_neg (ne_holdup_of_inService hp)
  refine (congrArg Host.Outcome.next (arrive_passedOn hs 1 count sector (beginRead count sector))).trans ?_
  rw [hb]
  rfl

/-- What a READ assembles does not depend on the front port and the media port. -/
theorem readSectors_congr (s : State) (f : FrontPort) (m : MediaPort) (n k : Nat) :
    readSectors { s with fp := f, mp := m } n k = readSectors s n k :=
  rfl

/-- R172: what the assembly of `k` sectors makes of RU and of the model's own counter. -/
theorem statusRead_readAhead {s t : State} {n k : Nat} (hru : t.ru = (readAhead s n k).ru)
    (hf : t.fresh = (readAhead s n k).fresh) : StatusRead (CoversStatus s n k) s t := by
  rw [StatusRead, ← coversStatus_iff, hru, hf]
  cases hc : coversStatus s n k <;> simp [readAhead, hc]

/-- R158: a READ with no miss left is answered. -/
theorem assembleFrom_complete {s : State} {n left : Nat} (h : ∀ i, i < left → isMiss s (n + i) = false) :
    assembleFrom left n s = answerRead (readAhead s n left) := by
  rw [assembleFrom_readAhead le_rfl h, Nat.sub_self]
  rfl

/-- R158: a READ whose first miss is its sector `k` waits for the run that begins there. -/
theorem assembleFrom_miss {s : State} {n k left : Nat} (hk : k < left) (h : ∀ i, i < k → isMiss s (n + i) = false)
    (hm : isMiss s (n + k) = true) :
    assembleFrom left n s = waitForMiss (n + k) (left - k) (readAhead s n k) := by
  rw [assembleFrom_readAhead hk.le h]
  obtain ⟨m, hm'⟩ : ∃ m, left - k = m + 1 := ⟨left - k - 1, by omega⟩
  rw [hm', assembleFrom, readSource_of_miss (s := readAhead s n k) hm]

/-- Settles O8: with no miss in its range the READ is answered at its arrival with what it has assembled. -/
theorem readServedFromStaging : Obligations.ReadServedFromStaging := by
  refine ⟨fun lines n => ⟨holderOf_eq_none_iff lines n, fun base hw i l h => ?_⟩, fun s n => isMiss_iff s n,
    fun count sector s hs hp hf he hmiss => ?_⟩
  · obtain ⟨hget, hh⟩ := holderOf_some h
    exact ⟨hget, hh, holderOf_newest hw h⟩
  · have hex := exec_read_assembles hs hp hf he
    rw [assembleFrom_complete (by exact hmiss)] at hex
    refine ⟨_, readSectors s sector.toNat count.toNat, hex, assembles_readSectors .., ⟨rfl, ?_⟩,
      statusRead_readAhead rfl rfl, rfl⟩
    simp [answerRead, respond, takenCount, assembledBytes, readAhead, readBegun, FrontPort.reset, readSectors_congr]

/-! ### Misses -/

/-- R158: FP waits for a miss run, and MP holds its request. -/
theorem waitForMiss_eq (n left : Nat) (s : State) : waitForMiss n left s = pump
    { s with
      fp := { s.fp with port := .missWait }
      mp := { s.mp with waiters := { s.mp.waiters with readMiss := some { first := n, len := missLength s n left } } } } :=
  rfl

/-- R158, R166: what the wait for a miss changes outside HOLDUP besides the media port and the lines: the port alone. -/
theorem waitForMiss_grantOnly {n left : Nat} {s : State} (h : s.ps.power ≠ .holdup) :
    GrantOnly { s with fp := { s.fp with port := .missWait } } (waitForMiss n left s) := by
  rw [waitForMiss_eq]
  exact (GrantOnly.refl { s with fp := { s.fp with port := .missWait } }).rejoin.trans (pump_grantOnly h)

/-- R166: a busy MP lets the run wait. -/
theorem waitForMiss_busy {n left : Nat} {s : State} (h : mpIdle s = false) : waitForMiss n left s = syncDrain
    { s with
      fp := { s.fp with port := .missWait }
      mp := { s.mp with waiters := { s.mp.waiters with readMiss := some { first := n, len := missLength s n left } } } } := by
  rw [waitForMiss_eq]
  exact pump_busy h

/-- R158, R166: an idle MP with no other waiter issues the run. -/
theorem waitForMiss_idle {n left : Nat} {s : State} (hp : inService s.ps.power = true) (hi : mpIdle s = true)
    (hw : drainWanted s = false) (hn : s.mp.waiters = .none) : waitForMiss n left s =
    { s with
      fp := { s.fp with port := .missWait }
      mp := { s.mp with
        current := some { kind := .read, sector := n, count := missLength s n left, data := [], requester := .readMiss
                          attempt := 1, start := s.uptimeMs, abandoned := false } } } := by
  rw [waitForMiss_eq, pump_miss (m := { first := n, len := missLength s n left }) (by exact hp) (by exact hi)
    (by rw [← hw]; exact drainWanted_congr rfl rfl rfl rfl) (by rw [hn]; rfl) rfl]
  simp [hn, Waiters.none]

theorem mpIdle_false_of_current {s : State} (h : s.mp.current.isSome = true) : mpIdle s = false := by
  simp [mpIdle, Option.isNone_eq_false_iff.mpr h]

theorem abandonRead_mp_of_none {s : State} (hc : s.mp.current = none) (hw : s.mp.waiters = .none) :
    (abandonRead s).mp = s.mp := by
  rcases hmp : s.mp with ⟨c, w, st, ha, rp⟩
  rw [hmp] at hc hw
  dsimp only at hc hw
  subst hc hw
  simp [abandonRead, hmp, Waiters.none]

/-- O9, at the arrival: the first miss run is asked for. -/
theorem exec_read_miss {count : Byte} {sector : Word} {s : State} {k : Nat} (hs : PassedOn s)
    (hp : inService s.ps.power = true) (hf : ¬FormatFails count) (he : ¬EndFails s count sector)
    (hk : k < count.toNat) (hhit : ∀ i, i < k → isMiss s (sector.toNat + i) = false)
    (hm : isMiss s (sector.toNat + k) = true) :
    ∃ t len out, exec (.read count sector) s = .next t ∧ Assembles s sector.toNat k out ∧
      1 ≤ len ∧ k + len ≤ count.toNat ∧ (∀ i, i < len → isMiss s (sector.toNat + k + i) = true) ∧
      (k + len < count.toNat → isMiss s (sector.toNat + k + len) = false) ∧
      t.fp = { FrontPort.reset with
        req := some { code := 1, count := count, sector := sector, taken := k }, port := .missWait, readBuf := out } ∧
      waitPin t = .active ∧ StatusRead (CoversStatus s sector.toNat k) s t ∧
      (s.mp.current = none → s.mp.handing = false → s.mp.waiters = .none → drainWanted s = false →
        t = { s with
          fp := t.fp, ru := t.ru, fresh := t.fresh
          mp := { s.mp with
            current := some { kind := .read, sector := sector.toNat + k, count := len, data := []
                              requester := .readMiss, attempt := 1, start := s.uptimeMs, abandoned := false } } }) ∧
      (s.mp.current.isSome = true →
        t = { s with fp := t.fp, ru := t.ru, fresh := t.fresh, mp := t.mp } ∧
        t.mp.current = (abandonRead s).mp.current ∧
        t.mp.waiters.readMiss = some { first := sector.toNat + k, len := len }) := by
  have hex := exec_read_assembles hs hp hf he
  rw [assembleFrom_miss hk (by exact hhit) (by exact hm)] at hex
  obtain ⟨h1, hle, hin, hstop⟩ := missLength_spec (s := s) (n := sector.toNat + k) (left := count.toNat - k) hm (by omega)
  set b : State := readAhead { s with fp := readBegun count sector, mp := (abandonRead s).mp } sector.toNat k with hb
  have hlen : missLength b (sector.toNat + k) (count.toNat - k) =
      missLength s (sector.toNat + k) (count.toNat - k) := rfl
  have hg := waitForMiss_grantOnly (n := sector.toNat + k) (left := count.toNat - k) (s := b) (ne_holdup_of_inService hp)
  have hfp : (waitForMiss (sector.toNat + k) (count.toNat - k) b).fp = { FrontPort.reset with
      req := some { code := 1, count := count, sector := sector, taken := k }, port := .missWait
      readBuf := readSectors s sector.toNat k } := by
    rw [hg.fp]
    simp [hb, readAhead, readBegun, FrontPort.reset, readSectors_congr]
  refine ⟨_, missLength s (sector.toNat + k) (count.toNat - k), readSectors s sector.toNat k, hex,
    assembles_readSectors .., h1, by omega, hin, fun h => hstop (by omega), hfp, by simp [waitPin, hfp],
    statusRead_readAhead hg.ru hg.fresh, fun hc hh hw hd => ?_, fun hc => ?_⟩
  · have hmp := abandonRead_mp_of_none hc hw
    have hbmp : b.mp = s.mp := hmp
    have hwb := waitForMiss_idle (n := sector.toNat + k) (left := count.toNat - k) (s := b) hp
      (by simp [mpIdle, hbmp, hc, hh])
      ((drainWanted_congr (s := s) (t := b) rfl (by rw [runInFlight, runInFlight, hbmp]) rfl rfl).trans hd) (by rw [hbmp, hw])
    rw [hwb, hbmp]
    rfl
  · have hi : mpIdle b = false := mpIdle_false_of_current (by
      change (s.mp.current.map _).isSome = true
      rw [Option.isSome_map]; exact hc)
    rw [waitForMiss_busy hi]
    obtain ⟨d, n, hd⟩ := exists_syncDrain { b with
      fp := { b.fp with port := .missWait }
      mp := { b.mp with waiters := { b.mp.waiters with
        readMiss := some { first := sector.toNat + k, len := missLength b (sector.toNat + k) (count.toNat - k) } } } }
    rw [hd]
    exact ⟨rfl, rfl, rfl⟩

/-! ### The end of a media read -/

@[simp] theorem sectorsOf_length (n : Nat) (l : List Byte) : (sectorsOf n l).length = n := by
  induction n generalizing l with
  | zero => rfl
  | succ n ih => simp [sectorsOf, ih]

/-- R158: the sectors of a run go into the read buffer and are counted. -/
theorem foldl_putRead (secs : List Sector) (s : State) : secs.foldl (fun s sec => putRead sec s) s =
    { s with fp := { s.fp with
      readBuf := s.fp.readBuf ++ secs
      req := s.fp.req.map fun r => { r with taken := r.taken + secs.length } } } := by
  induction secs generalizing s with
  | nil => simp
  | cons x xs ih =>
    have hr : ((s.fp.req.map fun r => { r with taken := r.taken + 1 }).map fun r => { r with taken := r.taken + xs.length }) =
        s.fp.req.map fun r => { r with taken := r.taken + (x :: xs).length } := by
      cases s.fp.req
      · rfl
      · simp; omega
    rw [List.foldl_cons, ih]
    simp only [putRead, hr, List.append_assoc, List.singleton_append]

/-- MP hands an outcome over. -/
def handing (s : State) : State :=
  { s with mp := { s.mp with current := none, handing := true } }

/-- R158: the state in which the assembly goes on behind the run of a media read. -/
def readResumed (r : Request) (next : Nat) (secs : List Sector) (s : State) : State :=
  { handing s with fp := { s.fp with
    port := .assembling, readBuf := s.fp.readBuf ++ secs, req := some { r with taken := next } } }

theorem leaveReadOnlySave_of_not_holdup {s : State} (h : s.ps.power ≠ .holdup) : leaveReadOnlySave s = s := by
  simp [leaveReadOnlySave, h]

theorem operationComplete_success {s : State} {op : MediaOp} (h : s.mp.current = some op) (payload : List Byte) :
    exec (.mediaOperationComplete 0 payload) s =
      .next (goIdle s.mp.waiters (handOutcome op (some payload) (handing s))) := by
  simp [exec, execMediaOperationComplete, operationComplete, h, finishOp, handing]

/-- R158: the outcome of a READ's media read: the assembly goes on, and MP goes idle. -/
theorem exec_missDone {payload : List Byte} {s : State} {op : MediaOp} {r : Request} (hc : s.mp.current = some op)
    (hq : op.requester = .readMiss) (ha : op.abandoned = false) (hr : s.fp.req = some r) :
    exec (.mediaOperationComplete 0 payload) s = .next (goIdle s.mp.waiters (leaveReadOnlySave
      (assembleFrom (r.count.toNat - (r.taken + op.count)) (r.sector.toNat + (r.taken + op.count))
        (readResumed r (r.taken + op.count) (sectorsOf op.count payload) s)))) := by
  rw [operationComplete_success hc, handOutcome, hq]
  dsimp only
  rw [missEnded, if_neg (by simp [ha]), readMissDone, foldl_putRead]
  have hreq : (handing s).fp.req = some r := hr
  simp only [hreq, Option.map_some, sectorsOf_length]
  rfl

theorem exec_missDone_complete {payload : List Byte} {s : State} {op : MediaOp} {r : Request} {next : Nat}
    (hc : s.mp.current = some op) (hq : op.requester = .readMiss) (ha : op.abandoned = false)
    (hp : inService s.ps.power = true) (hr : s.fp.req = some r) (hnext : next = r.taken + op.count)
    (hle : next ≤ r.count.toNat) (hhit : ∀ i, next ≤ i → i < r.count.toNat → isMiss s (r.sector.toNat + i) = false) :
    ∃ t, exec (.mediaOperationComplete 0 payload) s = .next t ∧
      Answers t .ok r.count.toNat ((s.fp.readBuf ++ sectorsOf op.count payload).flatten ++
        (readSectors s (r.sector.toNat + next) (r.count.toNat - next)).flatten) ∧
      StatusRead (CoversStatus s (r.sector.toNat + next) (r.count.toNat - next)) s
        { t with fresh := (readAhead s (r.sector.toNat + next) (r.count.toNat - next)).fresh } ∧
      t = { s with fresh := t.fresh, fp := t.fp, ru := t.ru, mp := { t.mp with resetPulses := s.mp.resetPulses }
                   sb := { s.sb with lines := t.sb.lines } } := by
  have hex := exec_missDone (payload := payload) hc hq ha hr
  rw [← hnext, assembleFrom_complete (fun i hi => by
    have := hhit (next + i) (by omega) (by omega)
    rw [← Nat.add_assoc] at this
    exact this), leaveReadOnlySave_of_not_holdup (by exact ne_holdup_of_inService hp)] at hex
  set b : State := answerRead (readAhead (readResumed r next (sectorsOf op.count payload) s) (r.sector.toNat + next)
    (r.count.toNat - next)) with hb
  have hg := goIdle_grantOnly (before := s.mp.waiters) (s := b) (ne_holdup_of_inService hp)
  have hbfp : b.fp.port = .answering ∧ b.fp.response = some
      { answer := .ok, sectors := r.count.toNat
        payload := (s.fp.readBuf ++ sectorsOf op.count payload).flatten ++
          (readSectors s (r.sector.toNat + next) (r.count.toNat - next)).flatten } := by
    refine ⟨rfl, ?_⟩
    have hrs : readSectors (readResumed r next (sectorsOf op.count payload) s) (r.sector.toNat + next)
        (r.count.toNat - next) = readSectors s (r.sector.toNat + next) (r.count.toNat - next) := rfl
    have hn : next + (r.count.toNat - next) = r.count.toNat := by omega
    rw [hb, answerRead, respond_response, takenCount, assembledBytes, readAhead, hrs]
    simp only [readResumed, Option.map_some, hn, List.flatten_append]
  refine ⟨_, hex, ⟨by rw [hg.fp]; exact hbfp.1, by rw [hg.fp]; exact hbfp.2⟩,
    statusRead_readAhead (by exact hg.ru) rfl, ?_⟩
  conv_lhs => rw [goIdle_eq (s := b) (ne_holdup_of_inService hp)]
  rw [hg.fp, hg.ru]
  rfl

/-- R158, R166: the next miss is issued with its own run. -/
theorem exec_missDone_miss {payload : List Byte} {s : State} {op : MediaOp} {r : Request} {next k : Nat}
    (hc : s.mp.current = some op) (hq : op.requester = .readMiss) (ha : op.abandoned = false)
    (hp : inService s.ps.power = true) (hport : s.fp.port = .missWait) (hr : s.fp.req = some r)
    (hnext : next = r.taken + op.count) (hk : next + k < r.count.toNat)
    (hhit : ∀ i, i < k → isMiss s (r.sector.toNat + next + i) = false)
    (hm : isMiss s (r.sector.toNat + next + k) = true) (hw : s.mp.waiters = .none) (hd : drainWanted s = false) :
    exec (.mediaOperationComplete 0 payload) s = .next
      { s with
        fp := { s.fp with
          req := some { r with taken := next + k }
          readBuf := s.fp.readBuf ++ sectorsOf op.count payload ++ readSectors s (r.sector.toNat + next) k }
        ru := (readAhead s (r.sector.toNat + next) k).ru
        fresh := (readAhead s (r.sector.toNat + next) k).fresh
        mp := { s.mp with
          handing := false
          current := some { kind := .read, sector := r.sector.toNat + next + k
                            count := missLength s (r.sector.toNat + next + k) (r.count.toNat - next - k), data := []
                            requester := .readMiss, attempt := 1, start := s.uptimeMs, abandoned := false } } } := by
  have hex := exec_missDone (payload := payload) hc hq ha hr
  set b : State := readAhead (readResumed r next (sectorsOf op.count payload) s) (r.sector.toNat + next) k with hb
  have hbw : b.mp.waiters = .none := hw
  have hrun : runInFlight b = runInFlight s := by
    have hbc : b.mp.current = none := rfl
    simp [runInFlight, hbc, hc, hq, Requester.isDrain]
  have hbd : drainWanted b = false := (drainWanted_congr (s := s) (t := b) rfl hrun rfl rfl).trans hd
  have hsync : ∀ u : State, u.mp.waiters.drain = false → drainWanted u = false → syncDrain u = u :=
    fun u h1 h2 => syncDrain_of_agrees fun _ => by rw [h1, h2]
  set m : MissRun :=
    { first := r.sector.toNat + next + k
      len := missLength b (r.sector.toNat + next + k) (r.count.toNat - next - k) } with hmdef
  set c : State :=
    { b with
      fp := { b.fp with port := .missWait }
      mp := { b.mp with waiters := { b.mp.waiters with readMiss := some m } } } with hcdef
  have hcd : drainWanted c = false := hbd
  have hwait : waitForMiss (r.sector.toNat + next + k) (r.count.toNat - next - k) b = c := by
    rw [waitForMiss_busy (by rfl)]
    exact hsync c (by rw [hcdef, hbw]; rfl) hcd
  rw [← hnext, assembleFrom_miss (k := k) (by omega) (by exact hhit) (by exact hm),
    leaveReadOnlySave_of_not_holdup (by rw [hwait]; exact ne_holdup_of_inService hp), hwait, hw, goIdle_none,
    pump_syncDrain, pump_miss (m := m)
      (by exact hp) (by rfl) (by exact hbd) (by rw [hcdef, hbw]; rfl) rfl] at hex
  rw [hex]
  have hreq : b.fp.req = some { r with taken := next + k } := rfl
  have hbuf : b.fp.readBuf = s.fp.readBuf ++ sectorsOf op.count payload ++ readSectors s (r.sector.toNat + next) k := rfl
  have hfp : { b.fp with port := PortState.missWait } = { s.fp with
      req := some { r with taken := next + k }
      readBuf := s.fp.readBuf ++ sectorsOf op.count payload ++ readSectors s (r.sector.toNat + next) k } := by
    rw [← hport]; rfl
  congr 1
  rw [hcdef]
  simp only [hfp, hbw, hw]
  rfl

/-- R159, R165: an attempt that fails for the last time. -/
theorem attemptFailure_last {s : State} {op : MediaOp} (h : mayRetry op s = false) :
    attemptFailure op s = goIdle s.mp.waiters (handOutcome op none (handing s)) := by
  simp [attemptFailure, h, finishOp, handing]

theorem exec_complete_failure {s : State} {op : MediaOp} {status : Byte} (hc : s.mp.current = some op) (hs : status ≠ 0)
    (payload : List Byte) : exec (.mediaOperationComplete status payload) s = .next (attemptFailure op s) := by
  simp only [exec, execMediaOperationComplete, operationComplete, hc, if_neg hs]

/-- R164: the state at a timeout of the operation in progress. -/
def timedOut (op : MediaOp) (s : State) : State :=
  { waitUntil (op.start + 200) s with mp := { s.mp with resetPulses := s.mp.resetPulses + 1 } }

theorem exec_timeout {s : State} {op : MediaOp} (hc : s.mp.current = some op) :
    exec .mediaTimeout s = .next (attemptFailure op (timedOut op s)) := by
  have hmp : (waitUntil (op.start + 200) s).mp = s.mp := by simp
  simp only [exec, execMediaTimeout, operationTimeout, hc, pulseReset, timedOut, hmp]

/-- R159, R165: after its second failure the READ is answered MEDIA/READ. -/
theorem readMiss_failed {s : State} {op : MediaOp} {r : Request} (hq : op.requester = .readMiss)
    (ha : op.abandoned = false) (hp : inService s.ps.power = true) (hr : s.fp.req = some r) (h2 : 2 ≤ op.attempt) :
    Answers (attemptFailure op s) .mediaRead r.taken s.fp.readBuf.flatten ∧
      attemptFailure op s = { s with
        fresh := (attemptFailure op s).fresh, fp := (attemptFailure op s).fp
        mp := { (attemptFailure op s).mp with resetPulses := s.mp.resetPulses }
        sb := { s.sb with lines := (attemptFailure op s).sb.lines } } := by
  have hno : mayRetry op s = false := by
    simp only [mayRetry, hq, Bool.and_eq_false_iff, decide_eq_false_iff_not]
    omega
  have hout : handOutcome op none (handing s) = respond .mediaRead r.taken s.fp.readBuf.flatten (handing s) := by
    rw [handOutcome, hq]
    dsimp only
    rw [missEnded, if_neg (by simp [ha]), readMissDone, leaveReadOnlySave_of_not_holdup (by exact ne_holdup_of_inService hp),
      takenCount_of_req (s := handing s) hr]
    rfl
  rw [attemptFailure_last hno, hout]
  have hg := goIdle_grantOnly (before := s.mp.waiters)
    (s := respond .mediaRead r.taken s.fp.readBuf.flatten (handing s)) (ne_holdup_of_inService hp)
  refine ⟨⟨by rw [hg.fp]; rfl, by rw [hg.fp]; rfl⟩, ?_⟩
  conv_lhs => rw [goIdle_eq (s := respond .mediaRead r.taken s.fp.readBuf.flatten (handing s)) (ne_holdup_of_inService hp)]
  rw [hg.fp]
  rfl

/-- Settles O9: the READ is followed from its arrival to the end of each of its miss runs. -/
theorem readMissIssued : Obligations.ReadMissIssued := by
  refine ⟨fun count sector s k hs hp hf he hk hhit hm => exec_read_miss hs hp hf he hk hhit hm,
    fun payload s op r next hc hq ha hp hport hr hnext hle => ?_,
    fun status payload s op r hc hq ha hp hport hr hs h2 => ⟨?_, ?_⟩⟩
  · refine ⟨_, (operationComplete_success hc payload), fun hhit => ?_, fun k hk hhit hm hw hd => ?_⟩
    · obtain ⟨t, hex, hans, hru, hframe⟩ := exec_missDone_complete (payload := payload) hc hq ha hp hr hnext hle hhit
      obtain rfl := Host.Outcome.next.inj ((operationComplete_success hc payload).symm.trans hex)
      exact ⟨_, assembles_readSectors .., hans, fun h => (hru.1 h).1, fun h => (hru.2 h).1, hframe⟩
    · have hex := exec_missDone_miss (payload := payload) hc hq ha hp hport hr hnext hk hhit hm hw hd
      rw [Host.Outcome.next.inj ((operationComplete_success hc payload).symm.trans hex)]
      obtain ⟨h1, hlen, hin, hstop⟩ := missLength_spec (s := s) (left := r.count.toNat - next - k) hm (by omega)
      exact ⟨_, _, assembles_readSectors .., h1, by omega, hin, fun h => hstop (by omega), statusRead_readAhead rfl rfl, rfl⟩
  · exact ⟨_, exec_complete_failure hc hs payload, readMiss_failed hq ha hp hr h2⟩
  · have hw : (timedOut op s).fp = s.fp ∧ (timedOut op s).ps = s.ps := by simp [timedOut]
    have h := readMiss_failed (s := timedOut op s) hq ha (by rw [hw.2]; exact hp) (by rw [hw.1]; exact hr) h2
    rw [hw.1] at h
    refine ⟨_, exec_timeout hc, h.1, h.2.trans ?_⟩
    simp [timedOut]

end Sys2Proof.Machine
end

