-- ==== Sys2Proof/Proofs/P05.lean ====
section
/-! The bytes of the sectors that the part forms for its record area (section 11.6): what a layout of ascending fields
holds, and with it the gauge record, the drop log and a check sector (R84, R174). -/

namespace Sys2Proof.Machine

open Sys2Proof

/-! ### Layouts of ascending fields -/

/-- The fields ascend from `lo` without overlapping and end within `n` bytes. -/
def FieldsFrom (n : Nat) : Nat → List (Nat × List Byte) → Prop
  | lo, [] => lo ≤ n
  | lo, f :: fs => lo ≤ f.1 ∧ FieldsFrom n (f.1 + f.2.length) fs

/-- The fields put into a list of bytes, one after the other. -/
def putFields (fs : List (Nat × List Byte)) (l : List Byte) : List Byte :=
  fs.foldl (fun l f => putAt f.1 f.2 l) l

theorem layout_eq_putFields (n : Nat) (fs : List (Nat × List Byte)) :
    layout n fs = putFields fs (List.replicate n 0) :=
  rfl

theorem FieldsFrom.le {n lo : Nat} {fs : List (Nat × List Byte)} (h : FieldsFrom n lo fs) : lo ≤ n := by
  induction fs generalizing lo with
  | nil => exact h
  | cons f fs ih =>
    obtain ⟨h1, h2⟩ := h
    have := ih h2
    omega

theorem putFields_length {n lo : Nat} {fs : List (Nat × List Byte)} {l : List Byte} (hl : l.length = n)
    (h : FieldsFrom n lo fs) : (putFields fs l).length = n := by
  induction fs generalizing lo l with
  | nil => exact hl
  | cons f fs ih =>
    obtain ⟨h1, h2⟩ := h
    have := h2.le
    exact ih (by rw [putAt_length (by omega), hl]) h2

/-- Below the first field the bytes stay. -/
theorem putFields_below {n lo off len : Nat} {fs : List (Nat × List Byte)} {l : List Byte} (hl : l.length = n)
    (h : FieldsFrom n lo fs) (hb : off + len ≤ lo) : field (putFields fs l) off len = field l off len := by
  induction fs generalizing lo l with
  | nil => rfl
  | cons f fs ih =>
    obtain ⟨h1, h2⟩ := h
    have := h2.le
    have hp : (putAt f.1 f.2 l).length = n := by rw [putAt_length (by omega), hl]
    exact (ih hp h2 (by omega)).trans (field_putAt_other (by omega) (.inl (by omega)))

/-- Each field holds the bytes put there. -/
theorem putFields_field {n lo : Nat} {fs : List (Nat × List Byte)} {l : List Byte} (hl : l.length = n)
    (h : FieldsFrom n lo fs) {off : Nat} {bs : List Byte} (hm : (off, bs) ∈ fs) :
    field (putFields fs l) off bs.length = bs := by
  induction fs generalizing lo l with
  | nil => cases hm
  | cons f fs ih =>
    obtain ⟨h1, h2⟩ := h
    have := h2.le
    have hp : (putAt f.1 f.2 l).length = n := by rw [putAt_length (by omega), hl]
    obtain hm | hm := List.mem_cons.mp hm
    · subst hm
      exact (putFields_below hp h2 le_rfl).trans (field_putAt_same (by omega))
    · exact ih hp h2 hm

/-- A byte that no field covers stays. -/
theorem putFields_byteAt {n lo i : Nat} {fs : List (Nat × List Byte)} {l : List Byte} (hl : l.length = n)
    (h : FieldsFrom n lo fs) (hi : ∀ f ∈ fs, i < f.1 ∨ f.1 + f.2.length ≤ i) : byteAt (putFields fs l) i = byteAt l i := by
  induction fs generalizing lo l with
  | nil => rfl
  | cons f fs ih =>
    obtain ⟨h1, h2⟩ := h
    have := h2.le
    have hp : (putAt f.1 f.2 l).length = n := by rw [putAt_length (by omega), hl]
    have hf := hi f List.mem_cons_self
    refine (ih hp h2 fun g hg => hi g (List.mem_cons_of_mem _ hg)).trans ?_
    rw [byteAt_putAt (by omega), if_neg (by omega)]

theorem layout_field {n : Nat} {fs : List (Nat × List Byte)} (h : FieldsFrom n 0 fs) {off : Nat} {bs : List Byte}
    (hm : (off, bs) ∈ fs) : field (layout n fs) off bs.length = bs :=
  putFields_field (by simp) h hm

theorem byteAt_replicate_zero (n i : Nat) : byteAt (List.replicate n 0) i = 0 := by
  rw [byteAt, List.getD_eq_getElem?_getD, List.getElem?_replicate]
  split <;> rfl

/-- Every byte not listed is written as 0. -/
theorem layout_byteAt_zero {n i : Nat} {fs : List (Nat × List Byte)} (h : FieldsFrom n 0 fs)
    (hi : ∀ f ∈ fs, i < f.1 ∨ f.1 + f.2.length ≤ i) : byteAt (layout n fs) i = 0 := by
  rw [layout_eq_putFields, putFields_byteAt (by simp) h hi, byteAt_replicate_zero]

theorem layout_length_of_fieldsFrom {n : Nat} {fs : List (Nat × List Byte)} (h : FieldsFrom n 0 fs) :
    (layout n fs).length = n :=
  putFields_length (by simp) h

/-- One byte of a field of the same length. -/
theorem byteAt_of_field {l bs : List Byte} {off len : Nat} (h : field l off len = bs) (i : Nat) (hi : i < len) :
    byteAt l (off + i) = byteAt bs i := by
  subst h
  simp [byteAt, field, List.getD_eq_getElem?_getD, List.getElem?_drop, hi]

/-- A one-byte field, as the byte at its offset. -/
theorem byteAt_of_le_one {l : List Byte} {off n : Nat} (h : field l off 1 = le 1 n) : byteAt l off = BitVec.ofNat 8 n :=
  byteAt_of_field h 0 (by omega)

theorem u8At_of_le_one {l : List Byte} {off n : Nat} (h : field l off 1 = le 1 n) : u8At l off = n % 256 := by
  rw [u8At, byteAt_of_le_one h]
  rfl

/-- A part of a field. -/
theorem field_field {l : List Byte} {a n b m : Nat} (h : b + m ≤ n) : field (field l a n) b m = field l (a + b) m := by
  apply List.ext_getElem?
  intro i
  simp only [field, List.getElem?_take, List.getElem?_drop]
  split
  · rw [if_pos (by omega), Nat.add_assoc]
  · rfl

/-! ### Sectors of sixteen places -/

theorem length_flatMap_places {f : Nat → List Byte} {m : Nat} (h : ∀ i, (f i).length = m) (n : Nat) :
    ((List.range n).flatMap f).length = n * m := by
  induction n with
  | zero => simp
  | succ n ih => rw [List.range_succ, List.flatMap_append, List.length_append, ih]; simp [h, Nat.succ_mul]

/-- The place of number `i` of a sector formed of places of one size. -/
theorem field_flatMap_places {f : Nat → List Byte} {m : Nat} (h : ∀ i, (f i).length = m) {n i : Nat} (hi : i < n) :
    field ((List.range n).flatMap f) (m * i) m = f i := by
  induction n with
  | zero => omega
  | succ n ih =>
    have hlen := length_flatMap_places h n
    rw [List.range_succ, List.flatMap_append, field]
    simp only [List.flatMap_cons, List.flatMap_nil, List.append_nil]
    by_cases hin : i < n
    · have hle : m * i + m ≤ n * m := by nlinarith
      rw [List.drop_append_of_le_length (by omega), List.take_append_of_le_length (by rw [List.length_drop]; omega)]
      exact ih hin
    · obtain rfl : i = n := by omega
      rw [List.drop_append, List.drop_of_length_le (by rw [hlen, Nat.mul_comm]), hlen, Nat.mul_comm, Nat.sub_self]
      simp [← h i]

/-! ### Flags of a byte -/

theorem flagByte_three (a b c : Bool) : flagByte [a, b, c] < 8 ∧
    (BitVec.ofNat 8 (flagByte [a, b, c])).getLsbD 0 = a ∧ (BitVec.ofNat 8 (flagByte [a, b, c])).getLsbD 1 = b ∧
    (BitVec.ofNat 8 (flagByte [a, b, c])).getLsbD 2 = c := by
  revert a b c; decide

theorem flagByte_five (a b c d e : Bool) : flagByte [a, b, c, d, e] < 32 ∧
    (BitVec.ofNat 8 (flagByte [a, b, c, d, e])).getLsbD 0 = a ∧ (BitVec.ofNat 8 (flagByte [a, b, c, d, e])).getLsbD 1 = b ∧
    (BitVec.ofNat 8 (flagByte [a, b, c, d, e])).getLsbD 2 = c ∧ (BitVec.ofNat 8 (flagByte [a, b, c, d, e])).getLsbD 3 = d ∧
    (BitVec.ofNat 8 (flagByte [a, b, c, d, e])).getLsbD 4 = e := by
  revert a b c d e; decide

/-! ### The gauge record -/

/-- The fields of the gauge record, section 11.6. -/
def gaugeRecordFields (s : State) : List (Nat × List Byte) :=
  [(0, markerGauge), (8, le 4 s.bg.total), (12, le 4 (s.bg.rc / 3600000)), (16, le 1 s.bg.soc), (17, le 1 s.bg.band),
    (18, le 1 s.bg.flagBits), (20, le 4 (cycleCount s)), (24, le 4 s.uptimeSec.toNat), (28, le 4 (wallSeconds s).toNat)]

theorem gaugeSector_eq_layout (s : State) : gaugeSector s = layout 512 (gaugeRecordFields s) :=
  rfl

theorem markerGauge_length : markerGauge.length = 8 := by decide

theorem gaugeRecordFields_fit (s : State) : FieldsFrom 512 0 (gaugeRecordFields s) := by
  simp [gaugeRecordFields, FieldsFrom, markerGauge_length]

/-- Section 11.6: the gauge record sector, field by field. -/
theorem gaugeFields_gaugeSector (s : State) : GaugeFields s (gaugeSector s) := by
  have hfit := gaugeRecordFields_fit s
  have hfld : ∀ {off : Nat} {bs : List Byte}, (off, bs) ∈ gaugeRecordFields s →
      field (gaugeSector s) off bs.length = bs := fun hm => layout_field hfit hm
  have hflags : field (gaugeSector s) 18 1 = le 1 s.bg.flagBits :=
    hfld (off := 18) (bs := le 1 s.bg.flagBits) (by simp [gaugeRecordFields])
  have hbyte := byteAt_of_le_one hflags
  obtain ⟨hlt, h0, h1, h2, h3, h4⟩ :=
    flagByte_five s.bg.flagStale s.bg.flagUnknown s.bg.flagUncertain s.bg.isSet (charging s.bg)
  refine ⟨layout_length_of_fieldsFrom hfit, ?_, hfld (off := 8) (bs := le 4 _) (by simp [gaugeRecordFields]),
    hfld (off := 12) (bs := le 4 _) (by simp [gaugeRecordFields]),
    hfld (off := 16) (bs := le 1 _) (by simp [gaugeRecordFields]),
    hfld (off := 17) (bs := le 1 _) (by simp [gaugeRecordFields]), by rw [hbyte]; exact h0, by rw [hbyte]; exact h1,
    by rw [hbyte]; exact h2, by rw [hbyte]; exact h3, ?_, ?_,
    hfld (off := 20) (bs := le 4 _) (by simp [gaugeRecordFields, cycleCount]),
    hfld (off := 24) (bs := le 4 _) (by simp [gaugeRecordFields]),
    hfld (off := 28) (bs := le 4 _) (by simp [gaugeRecordFields]), fun n hn h => ?_⟩
  · have := hfld (off := 0) (bs := markerGauge) (by simp [gaugeRecordFields])
    rwa [markerGauge_length] at this
  · have hc : (BitVec.ofNat 8 s.bg.flagBits).getLsbD 4 = charging s.bg := h4
    rw [hbyte, hc, charging, decide_eq_true_eq]
  · have hb : s.bg.flagBits < 32 := hlt
    rw [u8At_of_le_one hflags]
    omega
  · refine layout_byteAt_zero hfit fun f hf => ?_
    simp only [List.mem_cons, List.not_mem_nil, or_false] at hf
    obtain rfl | rfl | rfl | rfl | rfl | rfl | rfl | rfl | rfl := hf <;> simp only [le_length, markerGauge_length] <;> omega

/-! ### Check records -/

/-- The fields of a check record, section 11.6. -/
def checkRecordFields (z : ZoneState) (r : Runtime) : List (Nat × List Byte) :=
  [(0, le 1 z.code), (1, le 1 r.flagBits), (2, le 1 r.drops), (3, le 1 r.minSoc), (4, le 2 r.worstPeak),
    (6, le 4 r.fillMark), (10, le 4 (shownCrc z r).toNat), (14, le 4 r.openWall.toNat),
    (18, le 4 (r.closeWall.getD 0).toNat)]

theorem checkRecord_eq_layout (z : ZoneState) (r : Runtime) : checkRecord z r = layout 32 (checkRecordFields z r) :=
  rfl

theorem checkRecordFields_fit (z : ZoneState) (r : Runtime) : FieldsFrom 32 0 (checkRecordFields z r) := by
  simp [checkRecordFields, FieldsFrom]

@[simp] theorem checkRecord_length (z : ZoneState) (r : Runtime) : (checkRecord z r).length = 32 :=
  layout_length_of_fieldsFrom (checkRecordFields_fit z r)

/-- Section 11.6: a check record, field by field. -/
theorem checkFields_checkRecord (z : ZoneState) (r : Runtime) : CheckFields z r (checkRecord z r) := by
  have hfit := checkRecordFields_fit z r
  have hfld : ∀ {off : Nat} {bs : List Byte}, (off, bs) ∈ checkRecordFields z r →
      field (checkRecord z r) off bs.length = bs := fun hm => layout_field hfit hm
  have hstate : field (checkRecord z r) 0 1 = le 1 z.code := hfld (bs := le 1 _) (by simp [checkRecordFields])
  have hflags : field (checkRecord z r) 1 1 = le 1 r.flagBits :=
    hfld (off := 1) (bs := le 1 r.flagBits) (by simp [checkRecordFields])
  have hcrc : field (checkRecord z r) 10 4 = le 4 (shownCrc z r).toNat :=
    hfld (off := 10) (bs := le 4 _) (by simp [checkRecordFields])
  have hclose : field (checkRecord z r) 18 4 = le 4 (r.closeWall.getD 0).toNat :=
    hfld (off := 18) (bs := le 4 _) (by simp [checkRecordFields])
  have hbyte := byteAt_of_le_one hflags
  obtain ⟨hlt, h0, h1, h2⟩ := flagByte_three r.interrupted r.damaged r.uncertain
  refine ⟨checkRecord_length z r, ?_, ?_, ?_, by rw [hbyte]; exact h0, by rw [hbyte]; exact h1, by rw [hbyte]; exact h2,
    ?_, hfld (off := 2) (bs := le 1 _) (by simp [checkRecordFields]),
    hfld (off := 3) (bs := le 1 _) (by simp [checkRecordFields]),
    hfld (off := 4) (bs := le 2 _) (by simp [checkRecordFields]),
    hfld (off := 6) (bs := le 4 _) (by simp [checkRecordFields]), ?_, ?_, ?_,
    hfld (off := 14) (bs := le 4 _) (by simp [checkRecordFields]), ?_, ?_, fun n h22 h32 => ?_⟩
  · rintro rfl; rw [u8At_of_le_one hstate]; rfl
  · rintro rfl; rw [u8At_of_le_one hstate]; rfl
  · rintro rfl; rw [u8At_of_le_one hstate]; rfl
  · have hb : r.flagBits < 8 := hlt
    rw [u8At_of_le_one hflags]
    omega
  · rintro rfl; exact hcrc
  · rintro rfl; exact hcrc
  · rintro rfl; exact hcrc
  · intro h; rw [hclose, h]; rfl
  · intro w h; rw [hclose, h]; rfl
  · refine layout_byteAt_zero hfit fun f hf => ?_
    simp only [List.mem_cons, List.not_mem_nil, or_false] at hf
    obtain rfl | rfl | rfl | rfl | rfl | rfl | rfl | rfl | rfl := hf <;> simp only [le_length] <;> omega

@[simp] theorem checkSector_length (s : State) (q : Nat) : (checkSector s q).length = 512 :=
  length_flatMap_places (m := 32) (fun i => by simp) 16

/-- R84: the check record of place `pos` of a check sector. -/
theorem field_checkSector (s : State) (q : Nat) {pos : Nat} (h : pos < 16) :
    field (checkSector s q) (32 * pos) 32 =
      checkRecord (zoneAt s (16 * q + pos)).state (runtimeAt s (16 * q + pos)) :=
  field_flatMap_places (f := fun pos => checkRecord (zoneAt s (16 * q + pos)).state (runtimeAt s (16 * q + pos)))
    (fun i => by simp) h

/-! ### The drop log -/

/-- The fields of a drop record's place, section 11.6. -/
def dropRecordFields (r : DropRecord) (trailer : List Byte) : List (Nat × List Byte) :=
  [(0, le 2 r.sequence), (2, le 1 r.kind.code), (3, le 1 r.outcome.code), (4, le 2 r.fallSamples), (6, le 2 r.height),
    (8, le 2 r.peak), (10, le 4 r.uptime.toNat), (14, le 4 r.wall.toNat), (18, le 1 r.soc),
    (19, le 1 (bit r.supplyDip)), (20, le 1 r.zoneCount),
    (21, le 1 (r.zones.getD 0 255) ++ le 1 (r.zones.getD 1 255) ++ le 1 (r.zones.getD 2 255) ++ le 1 (r.zones.getD 3 255)),
    (28, trailer)]

theorem dropBytes_eq_layout (r : DropRecord) (trailer : List Byte) :
    dropBytes r trailer = layout 32 (dropRecordFields r trailer) :=
  rfl

theorem dropRecordFields_fit (r : DropRecord) {trailer : List Byte} (h : trailer.length ≤ 4) :
    FieldsFrom 32 0 (dropRecordFields r trailer) := by
  simp [dropRecordFields, FieldsFrom]
  omega

theorem bit_eq_toNat (b : Bool) : bit b = b.toNat := by cases b <;> rfl

/-- Section 11.6: the place of a drop record, field by field. -/
theorem dropFields_dropBytes (r : DropRecord) {trailer : List Byte} (h : trailer.length ≤ 4) :
    DropFields (some r) (dropBytes r trailer) := by
  have hfit := dropRecordFields_fit r h
  have hfld : ∀ {off : Nat} {bs : List Byte}, (off, bs) ∈ dropRecordFields r trailer →
      field (dropBytes r trailer) off bs.length = bs := fun hm => layout_field hfit hm
  have hkind : field (dropBytes r trailer) 2 1 = le 1 r.kind.code := hfld (bs := le 1 _) (by simp [dropRecordFields])
  have hout : field (dropBytes r trailer) 3 1 = le 1 r.outcome.code := hfld (bs := le 1 _) (by simp [dropRecordFields])
  have hdip : field (dropBytes r trailer) 19 1 = le 1 (bit r.supplyDip) := hfld (bs := le 1 _) (by simp [dropRecordFields])
  have hzones := hfld (off := 21)
    (bs := le 1 (r.zones.getD 0 255) ++ le 1 (r.zones.getD 1 255) ++ le 1 (r.zones.getD 2 255) ++ le 1 (r.zones.getD 3 255))
    (by simp [dropRecordFields])
  refine ⟨layout_length_of_fieldsFrom hfit, fun h => (by cases h), fun d hd => ?_⟩
  obtain rfl := Option.some.inj hd
  refine ⟨hfld (bs := le 2 _) (by simp [dropRecordFields]), ?_, ?_, ?_, ?_, ?_, ?_, ?_,
    hfld (off := 4) (bs := le 2 _) (by simp [dropRecordFields]),
    hfld (off := 6) (bs := le 2 _) (by simp [dropRecordFields]),
    hfld (off := 8) (bs := le 2 _) (by simp [dropRecordFields]),
    hfld (off := 10) (bs := le 4 _) (by simp [dropRecordFields]),
    hfld (off := 14) (bs := le 4 _) (by simp [dropRecordFields]),
    hfld (off := 18) (bs := le 1 _) (by simp [dropRecordFields]), ?_,
    hfld (off := 20) (bs := le 1 _) (by simp [dropRecordFields]), fun n hn => ?_, fun n h25 h28 => ?_⟩
  · intro hk; rw [u8At_of_le_one hkind, hk]; rfl
  · intro hk; rw [u8At_of_le_one hkind, hk]; rfl
  · intro ho; rw [u8At_of_le_one hout, ho]; rfl
  · intro ho; rw [u8At_of_le_one hout, ho]; rfl
  · intro ho; rw [u8At_of_le_one hout, ho]; rfl
  · intro ho; rw [u8At_of_le_one hout, ho]; rfl
  · intro ho; rw [u8At_of_le_one hout, ho]; rfl
  · rw [u8At_of_le_one hdip, bit_eq_toNat]
    cases r.supplyDip <;> rfl
  · have hpart := field_field (l := dropBytes r trailer) (a := 21) (n := 4) (b := n) (m := 1) (by omega)
    rw [show field (dropBytes r trailer) 21 4 = _ from hzones] at hpart
    rw [← hpart]
    interval_cases n <;> rfl
  · refine layout_byteAt_zero hfit fun f hf => ?_
    simp only [List.mem_cons, List.not_mem_nil, or_false] at hf
    obtain rfl | rfl | rfl | rfl | rfl | rfl | rfl | rfl | rfl | rfl | rfl | rfl | rfl := hf <;>
      simp only [le_length, List.length_append] <;> omega

theorem emptyPlace_fit {trailer : List Byte} (h : trailer.length ≤ 4) : FieldsFrom 32 0 [(28, trailer)] := by
  simp [FieldsFrom]
  omega

/-- Section 11.6: an empty place is zero but for its trailer. -/
theorem dropFields_empty {trailer : List Byte} (h : trailer.length ≤ 4) : DropFields none (layout 32 [(28, trailer)]) := by
  refine ⟨layout_length_of_fieldsFrom (emptyPlace_fit h), fun _ n hn => ?_, fun d hd => (by cases hd)⟩
  refine layout_byteAt_zero (emptyPlace_fit h) fun f hf => ?_
  obtain rfl := List.mem_singleton.mp hf
  exact .inl hn

theorem dropFields_dropPlace (recs : List DropRecord) (i : Nat) {trailer : List Byte} (h : trailer.length ≤ 4) :
    DropFields (recs[i]?) (dropPlace recs i trailer) := by
  unfold dropPlace
  cases recs[i]? with
  | none => exact dropFields_empty h
  | some r => exact dropFields_dropBytes r h

/-- Section 11.6: the trailer of a place. -/
theorem field_dropPlace_trailer (recs : List DropRecord) (i : Nat) {trailer : List Byte} (h : trailer.length ≤ 4) :
    field (dropPlace recs i trailer) 28 trailer.length = trailer := by
  unfold dropPlace
  split
  · next r _ => exact layout_field (dropRecordFields_fit r h) (by simp [dropRecordFields])
  · exact layout_field (emptyPlace_fit h) (by simp)

/-- A place without a trailer has four zero bytes there. -/
theorem field_dropPlace_noTrailer (recs : List DropRecord) (i : Nat) : field (dropPlace recs i []) 28 4 = le 4 0 := by
  have hlen : (dropPlace recs i []).length = 32 := (dropFields_dropPlace recs i (by simp)).1
  have hz : ∀ n, 28 ≤ n → n < 32 → byteAt (dropPlace recs i []) n = 0 := by
    intro n h1 h2
    unfold dropPlace
    split
    · next r _ =>
      refine layout_byteAt_zero (dropRecordFields_fit r (by simp)) fun f hf => ?_
      simp only [List.mem_cons, List.not_mem_nil, or_false] at hf
      obtain rfl | rfl | rfl | rfl | rfl | rfl | rfl | rfl | rfl | rfl | rfl | rfl | rfl := hf <;>
        simp only [le_length, List.length_append, List.length_nil] <;> omega
    · refine layout_byteAt_zero (emptyPlace_fit (by simp)) fun f hf => ?_
      obtain rfl := List.mem_singleton.mp hf
      exact .inr (by simpa using h1)
  rw [field_eq (b := List.replicate 32 0) (by simp [hlen]) fun n h1 h2 => ?_]
  · decide
  · rw [hz n h1 (by omega)]
    exact (byteAt_replicate_zero 32 n).symm

theorem logTrailer_length (s : State) (i : Nat) : (logTrailer s i).length ≤ 4 := by
  unfold logTrailer
  split
  · decide
  · split <;> simp

theorem dropPlace_length (s : State) (i : Nat) : (dropPlace s.mm.log i (logTrailer s i)).length = 32 :=
  (dropFields_dropPlace _ _ (logTrailer_length s i)).1

theorem field_dropLogSector (s : State) {i : Nat} (h : i < 16) :
    field (dropLogSector s) (32 * i) 32 = dropPlace s.mm.log i (logTrailer s i) :=
  field_flatMap_places (f := fun i => dropPlace s.mm.log i (logTrailer s i)) (dropPlace_length s) h

/-- Section 11.6: the drop log sector, field by field. -/
theorem logFields_dropLogSector (s : State) : LogFields s (dropLogSector s) := by
  have hpart : ∀ i off len, i < 16 → off + len ≤ 32 →
      field (dropLogSector s) (32 * i + off) len = field (dropPlace s.mm.log i (logTrailer s i)) off len := fun i off len hi h => by
    rw [← field_dropLogSector s hi, field_field h]
  have h1 : field (dropPlace s.mm.log 1 (logTrailer s 1)) 28 4 = le 2 s.mm.total ++ le 2 s.mm.lastSeq :=
    field_dropPlace_trailer _ _ (logTrailer_length s 1)
  refine ⟨length_flatMap_places (dropPlace_length s) 16, ?_, ?_, ?_, fun i hi => ?_, fun i h2 hi => ?_⟩
  · rw [show (28 : Nat) = 32 * 0 + 28 by rfl, hpart 0 28 4 (by omega) (by omega)]
    exact field_dropPlace_trailer _ _ (logTrailer_length s 0)
  · rw [show (60 : Nat) = 32 * 1 + (28 + 0) by rfl, hpart 1 (28 + 0) 2 (by omega) (by omega), ← field_field (n := 4) (by omega), h1]
    rfl
  · rw [show (62 : Nat) = 32 * 1 + (28 + 2) by rfl, hpart 1 (28 + 2) 2 (by omega) (by omega), ← field_field (n := 4) (by omega), h1]
    rfl
  · rw [field_dropLogSector s hi]
    exact dropFields_dropPlace _ _ (logTrailer_length s i)
  · rw [hpart i 28 4 hi (by omega), logTrailer, if_neg (by omega), if_neg (by omega)]
    exact field_dropPlace_noTrailer _ _

/-- Section 11.6: a checkpoint sector holds what the state gives it. -/
theorem recordFormed_recordSector (s : State) (o : Nat) : RecordFormed s o (recordSector s o) := by
  refine ⟨?_, ?_, fun h13 h16 => ?_⟩
  · rintro rfl
    rw [recordSector, if_pos rfl]
    exact gaugeFields_gaugeSector s
  · rintro rfl
    rw [recordSector, if_neg (by omega), if_pos rfl]
    exact logFields_dropLogSector s
  · rw [recordSector, if_neg (by omega), if_neg (by omega)]
    refine ⟨checkSector_length s _, fun pos hpos => ?_⟩
    rw [field_checkSector s _ hpos]
    exact checkFields_checkRecord _ _

end Sys2Proof.Machine
end

