-- ==== Sys2Proof/Proofs/P06.lean ====
section
/-! Statements about offers that fail in a state with two DIRTY RECORD lines of one line address and one age. The sector
that is offered would merge into the first of them, which the cost test refuses; MP's grant then makes that line DRAINING,
and the sector would merge into the second at no cost: it is pending, and yet admissible, in the state the step ends in
(R5, R7, R17, R174). No run of the part reaches such a pair, as a sector merges into the line that stands; the statements
name no premise that excludes it. -/

namespace Sys2Proof.Machine

open Sys2Proof

/-! ### A part with twin RECORD lines -/

/-- A DIRTY RECORD line with some valid slots and age 0. -/
def twinLine (addr : Nat) (valid : BitVec 8) : Line :=
  { Line.free with state := .dirty, addr := addr, valid := valid, cls := .record }

/-- A part in NORMAL with T 32, L 0, the gauge set and these lines before FREE ones. -/
def twinState (ls : List Line) : State :=
  { State.reset with
    sb := { Staging.reset with lines := ls ++ List.replicate (32 - ls.length) .free }
    sm := { Supply.reset with converting := 0, firstPending := false }
    mm := { Motion.reset with motion := .still }
    bg := { Gauge.reset with isSet := true, band := 5, soc := 50, rc := 6120000000 }
    ps := { PowerSup.reset with power := .normal, startPos := .served, capacity := 64 } }

theorem offersMade_contradiction {marked : Nat → Prop} {s t : State} {o : Nat} (h : OffersMade marked s t) (h11 : 11 ≤ o)
    (h16 : o ≤ 16) (hm : marked o) (hp : o ∈ t.ru.pending) (ha : ∀ c, c ≤ o → marked c → Admissible t c) : False := by
  obtain ⟨⟨cut, hcut, hall⟩, -⟩ := h
  obtain hlt | hle := Nat.lt_or_ge o cut
  · exact ((hall o h11 h16 hm).1 hlt).1 hp
  · obtain rfl | ⟨hmc, hna⟩ := hcut
    · omega
    · exact hna (ha cut hle hmc)

/-- The state a command ends in. -/
def endState (c : Instr) (s : State) : State :=
  match exec c s with
  | .next t => t
  | _ => s

theorem endState_of_next {c : Instr} {s t : State} (h : exec c s = .next t) : t = endState c s := by
  rw [endState, h]

/-- Whether a checkpoint sector would be admitted, as a test that evaluates. -/
def admissibleNow (s : State) (o : Nat) : Bool :=
  match admitTest s.sb .record (tailBase s + o) none s.zu.settings.reserve s.sm.limit [] with
  | .admitted _ => true
  | .refused _ => false

theorem dirtyCost_set_congr {lines : List Line} {i : Nat} {a b : Line} (h : a.runCount = b.runCount) :
    dirtyCost (lines.set i a) = dirtyCost (lines.set i b) := by
  simp [dirtyCost, List.map_set, h]

/-- R5 to R7: whether a sector is admitted does not depend on its data. -/
theorem admitTest_data {sb t : Staging} {cls : LineClass} {sector : Nat} {zone : Option Nat} {reserve limit : Nat}
    {d : Sector} (h : admitTest sb cls sector zone reserve limit d = .admitted t) (d' : Sector) :
    ∃ u, admitTest sb cls sector zone reserve limit d' = .admitted u := by
  obtain ⟨hp, hc⟩ := admitTest_admitted h
  obtain ⟨u, hu⟩ := (placeSector_isSome_iff sb cls sector zone reserve d').mpr
    ((placeSector_isSome_iff sb cls sector zone reserve d).mp ⟨t, hp⟩)
  have hcost : dirtyCost u.lines = dirtyCost t.lines := by
    cases hm : mergeTarget sb.lines cls sector with
    | none => rw [(placeSector_allocates hu hm).1, (placeSector_allocates hp hm).1]
    | some p =>
      obtain ⟨i, l, hl, rfl⟩ | ⟨i, l, hl, -⟩ := placeSector_cases hp
      · obtain ⟨j, m, hj, rfl⟩ | ⟨j, m, hj, -⟩ := placeSector_cases hu
        · obtain ⟨rfl, rfl⟩ := Prod.mk.inj (Option.some.inj (hl.symm.trans hj))
          exact dirtyCost_set_congr rfl
        · simp [hm] at hj
      · simp [hm] at hl
  exact ⟨u, (admitTest_admitted_iff hu).mpr (by rw [hcost]; exact (costAllows_iff ..).mp hc)⟩

theorem admissible_of_now {s : State} {o : Nat} (h : admissibleNow s o = true) : Admissible s o := by
  unfold admissibleNow at h
  split at h
  · next sb hsb => exact admitTest_data hsb _
  · cases h

/-- Offers are not made as the rule says where the state a command ends in has a marked sector pending that it would
take, and would take every marked one below it. -/
theorem not_offersMade_of_eval {marked : Nat → Prop} {s t u : State} {c : Instr} {o : Nat} (h : OffersMade marked s t)
    (hex : exec c u = .next t) (h11 : 11 ≤ o) (h16 : o ≤ 16) (hm : marked o)
    (hp : (endState c u).ru.pending.contains o = true)
    (ha : ∀ p, p ≤ o → marked p → admissibleNow (endState c u) p = true) : False := by
  obtain rfl := endState_of_next hex
  exact offersMade_contradiction h h11 h16 hm (by simpa using hp) fun p hp hmp => admissible_of_now (ha p hp hmp)

/-! ### A drain run (R18, R19) -/

/-- The run of the one DRAINING line of `drainingTwins`. -/
def twinRun (attempt : Nat) : MediaOp :=
  { kind := .write, sector := 0, count := 1, data := [], requester := .drain, attempt := attempt, start := 0
    abandoned := false }

/-- A run in flight, beside twin lines with the sectors 40 (slot 0) and 42 (slot 2); offset 11, sector 43, is pending. -/
def drainingTwins (attempt : Nat) : State :=
  { twinState [{ Line.free with state := .draining, valid := 1 }, twinLine 5 1, twinLine 5 4] with
    mp := { MediaPort.reset with current := some (twinRun attempt) }
    ru := { ReportUnit.reset with pending := [11] } }

theorem tablesSized_drainingTwins (attempt : Nat) : TablesSized (drainingTwins attempt) :=
  ⟨rfl, by simp [drainingTwins, twinState, twinLine, Line.free], rfl, rfl⟩

/-- Refutes O23: at the run's completion offset 11 stays pending, and the drain of the first twin makes it admissible. -/
theorem not_lastRunFreesLine : ¬Obligations.LastRunFreesLine := by
  rintro ⟨hoffers, -, -⟩
  obtain ⟨t, hex, h⟩ := hoffers [] (drainingTwins 1) (twinRun 1) rfl rfl rfl rfl (by decide) (tablesSized_drainingTwins 1)
    (.inl (by decide))
  refine not_offersMade_of_eval h hex (o := 11) (by omega) (by omega) (by decide) (by decide +kernel) fun p _ hp => ?_
  obtain rfl : p = 11 := List.mem_singleton.mp hp
  decide +kernel

/-- Refutes O24: so it is at the loss of that run, in a part without zones. -/
theorem not_lossReported : ¬Obligations.LossReported := by
  rintro ⟨-, -, -, hlost, -⟩
  obtain ⟨⟨t, hex, h⟩, -⟩ := hlost 1 [] (drainingTwins 2) (twinRun 2) (tablesSized_drainingTwins 2) rfl rfl rfl le_rfl
    (by decide) (by decide)
  obtain ⟨-, -, -, -, -, -, hoffers, -⟩ := h
  have hzone : ∀ k, ¬DamagedBy (drainingTwins 2) 0 (drainingZone (drainingTwins 2).sb.lines) k := by
    rintro k (⟨h, -⟩ | ⟨-, h⟩)
    · exact absurd h (by simp [show drainingZone (drainingTwins 2).sb.lines = none from by decide])
    · exact absurd h (by simp [show zoneOf (drainingTwins 2).zu.zones 0 = none from by decide])
  have h := (hoffers rfl rfl (tablesSized_drainingTwins 2) (.inl (by decide))).1 fun o ⟨k, hk, _⟩ => hzone k hk
  refine not_offersMade_of_eval h hex (o := 11) (by omega) (by omega) (by decide) (by decide +kernel) fun p _ hp => ?_
  obtain rfl : p = 11 := List.mem_singleton.mp hp
  decide +kernel

/-! ### A conversion and a motion sample -/

/-- MP idle, twin lines, L 5 and a conversion in progress; offset 11 is pending. -/
def convertingTwins : State :=
  { twinState [twinLine 5 1, twinLine 5 4] with
    sm := { Supply.reset with converting := 1, firstPending := false, limit := 5 }
    ru := { ReportUnit.reset with pending := [11] } }

/-- Refutes O29: a conversion that lowers L to 0 offers offset 11 in vain before MP's grant. -/
theorem not_conversionComputes : ¬Obligations.ConversionComputes := by
  intro h
  obtain ⟨t, hex, -, -, -, -, -, -, -, -, -, -, -, -, -, -, -, -, -, -, -, hoffers, -⟩ :=
    h 0 0 convertingTwins (by decide)
  obtain rfl := endState_of_next hex
  have hm := hoffers (by decide +kernel) rfl rfl (by decide)
    ⟨rfl, by simp [convertingTwins, twinState, twinLine, Line.free], rfl, rfl⟩
  refine not_offersMade_of_eval hm hex (o := 11) (by omega) (by omega) (by decide) (by decide +kernel) fun p _ hp => ?_
  obtain rfl : p = 11 := List.mem_singleton.mp hp
  decide +kernel

/-- A drop in SETTLING at its last sample, MP idle, and twin lines with the sectors 40 and 43; offset 12 is sector 44. -/
def settlingTwins : State :=
  { twinState [twinLine 5 1, twinLine 5 8] with
    mm := { Motion.reset with motion := .settling, settleElapsed := 2499 } }

/-- Refutes O49: the drop that ends UNSETTLED has offset 12 offered in vain before MP's grant. -/
theorem not_motionSampleMoves : ¬Obligations.MotionSampleMoves := by
  intro h
  obtain ⟨-, h⟩ := h 0x400#16 0#16 0#16 settlingTwins
  obtain ⟨t, hex, -, -, -, -, -, -, -, -, -, -, -, -, hsettling⟩ := h (by decide) (by decide)
  obtain ⟨-, -, hends, -⟩ := hsettling 0 0 rfl (by decide) (by decide)
  obtain ⟨-, -, -, -, -, hoffers, -⟩ := hends (by decide) (by decide) (by decide)
  have hp : ∀ p, DropChanges settlingTwins p → p = 12 := by
    rintro p (rfl | ⟨k, -, hk, -⟩)
    · rfl
    · exact absurd hk (by rw [show zoneAt settlingTwins k = .unused from zoneAt_reset k]; decide)
  have hm := hoffers (by decide) rfl rfl ⟨rfl, by simp [settlingTwins, twinState, twinLine, Line.free], rfl, rfl⟩
    ⟨12, .inl rfl, by decide⟩
  refine not_offersMade_of_eval hm hex (o := 12) (by omega) (by omega) (.inr (.inl rfl)) (by decide +kernel) fun p _ hp' => ?_
  obtain hp' | hp' := hp'
  · exact absurd hp' List.not_mem_nil
  · obtain rfl := hp p hp'
    decide +kernel

/-! ### Gauge events that change the power state -/

/-- MP idle; the first twin holds sector 40; the second the sectors 40 to 42, and another line 32 to 39: of the offsets
0 to 11, each but the last is held, and sector 43 would merge into the first twin. -/
def gaugeTwins (g : Gauge) : State :=
  { twinState [twinLine 5 1, twinLine 5 7, twinLine 4 255] with bg := g }

theorem tablesSized_gaugeTwins (g : Gauge) : TablesSized (gaugeTwins g) :=
  ⟨rfl, by simp [gaugeTwins, twinState, twinLine, Line.free], rfl, rfl⟩

/-- Refutes O55: the sample that establishes SOC 0 takes the part to CRITICAL, where offset 11 is offered in vain before
MP's grant. -/
theorem not_sampleEstablishes : ¬Obligations.SampleEstablishes := by
  rintro ⟨-, -, h⟩
  obtain ⟨h, -⟩ := h 0 0 0 (gaugeTwins Gauge.reset) (by decide) (by decide) (fun h => by cases h)
  obtain ⟨t, x, hex, -, -, -, -, -, -, -, -, -, -, -, -, -, -, -, -, -, -, -, hreport, -⟩ := h rfl rfl rfl
  have ht := endState_of_next hex
  obtain ⟨-, -, -, hoffers, -⟩ := hreport (by rw [ht]; decide +kernel)
  have hm := hoffers (.inr (by rw [ht]; decide +kernel)) rfl (tablesSized_gaugeTwins _) ⟨11, by omega, by omega, by decide⟩
  refine not_offersMade_of_eval hm hex (o := 11) (by omega) (by omega) trivial (by decide +kernel) fun p hp _ => ?_
  interval_cases p <;> decide +kernel

/-- A gauge that the next miss empties. -/
def emptyingGauge : Gauge :=
  { Gauge.reset with isSet := true, band := 5, soc := 50, stale := 3 }

/-- Refutes O57: so it is at the fourth miss, where the SOC computed is 0. -/
theorem not_gaugeMissCounts : ¬Obligations.GaugeMissCounts := by
  rintro ⟨h, -, -⟩
  obtain ⟨t, hex, -, -, -, -, -, -, -, -, -, -, -, -, -, -, -, -, -, -, h, -⟩ :=
    h (gaugeTwins emptyingGauge) (by decide) (by decide) (fun h => by cases h) rfl rfl
  obtain ⟨-, -, -, hreport, -⟩ := h (by decide) (by decide)
  have ht := endState_of_next hex
  obtain ⟨-, -, -, hoffers, -⟩ := hreport (by rw [ht]; decide +kernel)
  have hm := hoffers (.inr (by rw [ht]; decide +kernel)) rfl (tablesSized_gaugeTwins _) ⟨11, by omega, by omega, by decide⟩
  refine not_offersMade_of_eval hm hex (o := 11) (by omega) (by omega) trivial (by decide +kernel) fun p hp _ => ?_
  interval_cases p <;> decide +kernel

end Sys2Proof.Machine
end

