-- ==== Sys2Proof/Proofs/P07.lean ====
section
/-! What a drain grant and an admitted checkpoint sector leave of the lines, and the effect of the offers on the pending and
changed sets (R8, R17, R101, R174). -/

namespace Sys2Proof.Machine

open Sys2Proof

/-! ### A started drain (R17) -/

theorem OnlyDrainStarted.refl (lines : List Line) : OnlyDrainStarted lines lines := .inl rfl

theorem chooseRun_live {lines : List Line} {c : RunChoice} (h : chooseRun lines = some c) : c.line.live = true := by
  obtain ⟨-, -, h | ⟨h, -⟩⟩ := chooseRun_some h
  · exact Line.live_draining h
  · exact Line.live_dirty h

/-- Each line record holds what it held, but for its state. -/
theorem OnlyDrainStarted.kept {old new : List Line} (h : OnlyDrainStarted old new) {j : Nat} {a : Line}
    (ha : old[j]? = some a) : ∃ b, new[j]? = some b ∧ b.live = a.live ∧ b = { a with state := b.state } := by
  obtain rfl | ⟨c, hc, rfl⟩ := h
  · exact ⟨a, ha, rfl, rfl⟩
  · obtain ⟨hget, -⟩ := chooseRun_some hc
    by_cases hj : c.idx = j
    · subst hj
      obtain rfl := Option.some.inj (hget.symm.trans ha)
      refine ⟨{ c.line with state := .draining }, ?_, ?_, rfl⟩
      · rw [List.getElem?_set_self (List.getElem?_eq_some_iff.mp hget).1]
      · rw [chooseRun_live hc]; rfl
    · exact ⟨a, by rw [List.getElem?_set_ne hj, ha], rfl, rfl⟩

theorem OnlyDrainStarted.length {old new : List Line} (h : OnlyDrainStarted old new) : new.length = old.length := by
  obtain rfl | ⟨c, -, rfl⟩ := h
  · rfl
  · simp

/-- A function of the lines that does not look at which of two live states a line has. -/
theorem OnlyDrainStarted.map_eq {α : Type} {f : Line → α} (hf : ∀ l : Line, l.live = true →
    f { l with state := .draining } = f l) {old new : List Line} (h : OnlyDrainStarted old new) : new.map f = old.map f := by
  obtain rfl | ⟨c, hc, rfl⟩ := h
  · rfl
  · obtain ⟨hget, -⟩ := chooseRun_some hc
    rw [List.map_set, hf _ (chooseRun_live hc)]
    apply List.ext_getElem?
    intro j
    by_cases hj : c.idx = j
    · subst hj
      rw [List.getElem?_set_self (by simpa using (List.getElem?_eq_some_iff.mp hget).1), List.getElem?_map, hget]
      rfl
    · rw [List.getElem?_set_ne hj]

theorem OnlyDrainStarted.dirtyCost {old new : List Line} (h : OnlyDrainStarted old new) : dirtyCost new = dirtyCost old := by
  have := h.map_eq (f := Line.runCount) fun l hl => by
    rw [Line.runCount, Line.runCount, hl]
    rfl
  rw [Machine.dirtyCost, this, Machine.dirtyCost]

theorem OnlyDrainStarted.freeCount {old new : List Line} (h : OnlyDrainStarted old new) : freeCount new = freeCount old := by
  have := h.map_eq (f := fun l => (!l.live).toNat) fun l hl => by rw [hl]; rfl
  rw [freeCount_eq_sum, this, freeCount_eq_sum]

theorem OnlyDrainStarted.any_eq {old new : List Line} {f : Line → Bool} (h : OnlyDrainStarted old new)
    (hf : ∀ l : Line, l.live = true → f { l with state := .draining } = f l) : new.any f = old.any f := by
  simpa [List.any_map, Function.comp_def] using congrArg (·.any id) (h.map_eq hf)

theorem OnlyDrainStarted.anyBelow {old new : List Line} (h : OnlyDrainStarted old new) (m : Word) :
    anyBelow new m = anyBelow old m :=
  h.any_eq fun l hl => by
    rw [hl]
    rfl

theorem OnlyDrainStarted.staged {old new : List Line} (h : OnlyDrainStarted old new) : staged new = staged old :=
  h.any_eq fun l hl => by rw [hl]; rfl

/-- A stored sector stays stored. -/
theorem StoredAt.drainStarted {i : Nat} {cls : LineClass} {age : Word} {zone : Option Nat} {sector : Nat} {data : Sector}
    {old mid new : List Line} (h : StoredAt i cls age zone sector data old mid) (hd : OnlyDrainStarted mid new) :
    StoredAt i cls age zone sector data old new := by
  obtain ⟨a, b, ha, hb, hlive, hcls, haddr, hval, hdat, hoth, halloc, hmerge⟩ := h
  obtain ⟨b', hb', hl, he⟩ := hd.kept hb
  rw [he]  at hb'
  refine ⟨a, _, ha, hb', ?_, hcls, haddr, hval, hdat, hoth, halloc, hmerge⟩
  rw [← he, hl, hlive]

/-! ### Lines besides the record area's (R8) -/

/-- Every live line of class DATA or MAP is as it was, but for its state. -/
def FrontLinesKept (old new : List Line) : Prop :=
  ∀ (j : Nat) (a : Line), old[j]? = some a → a.live = true → a.cls ≠ .record →
    ∃ b, new[j]? = some b ∧ b.live = true ∧ b = { a with state := b.state }

theorem FrontLinesKept.refl (lines : List Line) : FrontLinesKept lines lines := fun _ a h hl _ => ⟨a, h, hl, rfl⟩

theorem FrontLinesKept.trans {a b c : List Line} (h : FrontLinesKept a b) (g : FrontLinesKept b c) : FrontLinesKept a c := by
  intro j x hx hl hc
  obtain ⟨y, hy, hly, hey⟩ := h j x hx hl hc
  obtain ⟨z, hz, hlz, hez⟩ := g j y hy hly (by rw [hey]; exact hc)
  exact ⟨z, hz, hlz, by rw [hez, hey]⟩

theorem OnlyDrainStarted.frontLinesKept {old new : List Line} (h : OnlyDrainStarted old new) : FrontLinesKept old new := by
  intro j a ha hl _
  obtain ⟨b, hb, hbl, he⟩ := h.kept ha
  exact ⟨b, hb, hbl.trans hl, he⟩

/-- A checkpoint sector goes into a FREE line or a RECORD line. -/
theorem placeSector_record_frontLinesKept {sb t : Staging} {sector : Nat} {zone : Option Nat} {reserve : Nat}
    {data : Sector} (h : placeSector sb .record sector zone reserve data = some t) : FrontLinesKept sb.lines t.lines := by
  intro j a ha hl hc
  obtain ⟨i, l, hm, rfl⟩ | ⟨i, l, hm, -, hget, hfree, -, rfl⟩ := placeSector_cases h
  · obtain ⟨-, hget, -, -, hcls⟩ := mergeTarget_some hm
    have hij : i ≠ j := by
      rintro rfl
      obtain rfl := Option.some.inj (hget.symm.trans ha)
      exact hc hcls
    exact ⟨a, by simpa [List.getElem?_set_ne hij] using ha, hl, rfl⟩
  · have hij : i ≠ j := by
      rintro rfl
      obtain rfl := Option.some.inj (hget.symm.trans ha)
      simp [hl] at hfree
    exact ⟨a, by simpa [List.getElem?_set_ne hij] using ha, hl, rfl⟩

/-- A sector stored in a line of class DATA or MAP stays stored. -/
theorem StoredAt.frontLinesKept {i : Nat} {cls : LineClass} {age : Word} {zone : Option Nat} {sector : Nat} {data : Sector}
    {old mid new : List Line} (hc : cls ≠ .record) (h : StoredAt i cls age zone sector data old mid)
    (hk : FrontLinesKept mid new) : StoredAt i cls age zone sector data old new := by
  obtain ⟨a, b, ha, hb, hlive, hcls, haddr, hval, hdat, hoth, halloc, hmerge⟩ := h
  obtain ⟨b', hb', hl, he⟩ := hk i b hb hlive (by rw [hcls]; exact hc)
  rw [he] at hb'
  refine ⟨a, _, ha, hb', ?_, hcls, haddr, hval, hdat, hoth, halloc, hmerge⟩
  rw [← he, hl]

/-- Lines that a stored sector leaves as they are stay so. -/
theorem otherLinesKept_of {i : Nat} {old mid new : List Line} (h : ∀ j, j ≠ i → mid[j]? = old[j]?)
    (hk : FrontLinesKept mid new) : OtherLinesKept i old new := by
  intro j a hj ha hl hc
  exact hk j a (by rw [h j hj, ha]) hl hc

/-! ### Sectors held in RECORD lines (R174) -/

/-- A live RECORD line holds sector `n`, with `d` in its slot. -/
def RecordHolds (lines : List Line) (n : Nat) (d : Option Sector) : Prop :=
  ∃ l ∈ lines, l.live = true ∧ l.cls = .record ∧ l.addr = n / 8 ∧ l.valid.getLsbD (n % 8) = true ∧ l.data[n % 8]? = d

theorem recordStaged_iff (s : State) (o : Nat) : RecordStaged s o ↔ ∃ d, RecordHolds s.sb.lines (tailBase s + o) d := by
  constructor
  · rintro ⟨l, hl, h1, h2, h3, h4⟩
    exact ⟨_, l, hl, h1, h2, h3, h4, rfl⟩
  · rintro ⟨d, l, hl, h1, h2, h3, h4, -⟩
    exact ⟨l, hl, h1, h2, h3, h4⟩

theorem RecordHolds.drainStarted {old new : List Line} {n : Nat} {d : Option Sector} (h : RecordHolds old n d)
    (hd : OnlyDrainStarted old new) : RecordHolds new n d := by
  obtain ⟨l, hl, h1, h2, h3, h4, h5⟩ := h
  obtain ⟨j, hj⟩ := List.getElem?_of_mem hl
  obtain ⟨b, hb, hbl, he⟩ := hd.kept hj
  rw [he] at hb
  exact ⟨_, List.mem_of_getElem? hb, by rw [← he, hbl, h1], h2, h3, h4, h5⟩

/-- Two sectors of one line have different slots. -/
theorem slot_ne_of_ne {m n : Nat} (h : m ≠ n) (ha : m / 8 = n / 8) : n % 8 ≠ m % 8 := by omega

/-- A placed sector leaves every other sector in its line. -/
theorem RecordHolds.placed {sb t : Staging} {cls : LineClass} {m n : Nat} {zone : Option Nat} {reserve : Nat}
    {data : Sector} {d : Option Sector} (h : RecordHolds sb.lines n d)
    (hp : placeSector sb cls m zone reserve data = some t) (hne : m ≠ n) : RecordHolds t.lines n d := by
  obtain ⟨l, hl, h1, h2, h3, h4, h5⟩ := h
  obtain ⟨j, hj⟩ := List.getElem?_of_mem hl
  obtain ⟨i, a, hm, rfl⟩ | ⟨i, a, hm, -, hget, hfree, -, rfl⟩ := placeSector_cases hp
  · obtain ⟨-, hget, -, haddr, -⟩ := mergeTarget_some hm
    by_cases hij : i = j
    · subst hij
      obtain rfl := Option.some.inj (hget.symm.trans hj)
      have hs := slot_ne_of_ne hne (haddr.symm.trans h3)
      refine ⟨a.store (m % 8) data, ?_, h1, h2, h3, ?_, ?_⟩
      · exact List.mem_of_getElem? (i := i) (by simp [(List.getElem?_eq_some_iff.mp hget).1])
      · rw [Line.store_valid _ _ _ _ (by omega), h4]; rfl
      · rw [Line.store_data_ne _ hs, h5]
    · exact ⟨l, List.mem_of_getElem? (i := j) (by simpa [List.getElem?_set_ne hij] using hj), h1, h2, h3, h4, h5⟩
  · have hij : i ≠ j := by
      rintro rfl
      obtain rfl := Option.some.inj (hget.symm.trans hj)
      simp [h1] at hfree
    exact ⟨l, List.mem_of_getElem? (i := j) (by simpa [List.getElem?_set_ne hij] using hj), h1, h2, h3, h4, h5⟩

/-- A placed checkpoint sector is held. -/
theorem recordHolds_of_placed {sb t : Staging} {n : Nat} {zone : Option Nat} {reserve : Nat} {data : Sector}
    (hp : placeSector sb .record n zone reserve data = some t) :
    ∃ d, RecordHolds t.lines n d ∧ ((∀ l ∈ sb.lines, l.data.length = 8) → d = some data) := by
  have hlt : n % 8 < 8 := Nat.mod_lt _ (by omega)
  obtain ⟨i, a, hm, rfl⟩ | ⟨i, a, hm, -, hget, hfree, -, rfl⟩ := placeSector_cases hp
  · obtain ⟨-, hget, hdirty, haddr, hcls⟩ := mergeTarget_some hm
    refine ⟨_, ⟨a.store (n % 8) data, ?_, Line.live_dirty hdirty, hcls, haddr, ?_, rfl⟩, fun h8 => ?_⟩
    · exact List.mem_of_getElem? (i := i) (by simp [(List.getElem?_eq_some_iff.mp hget).1])
    · rw [Line.store_valid _ _ _ _ hlt]; simp
    · exact Line.store_data_self (by rw [h8 a (List.mem_of_getElem? hget)]; exact hlt) data
  · refine ⟨_, ⟨newLine .record n zone sb.ageCounter data, ?_, rfl, rfl, rfl, ?_, rfl⟩, fun _ => newLine_data ..⟩
    · exact List.mem_of_getElem? (i := i) (by simp [(List.getElem?_eq_some_iff.mp hget).1])
    · rw [newLine_valid]; simp

theorem placeSector_data_length {sb t : Staging} {cls : LineClass} {n : Nat} {zone : Option Nat} {reserve : Nat}
    {data : Sector} (hp : placeSector sb cls n zone reserve data = some t) (h8 : ∀ l ∈ sb.lines, l.data.length = 8) :
    ∀ l ∈ t.lines, l.data.length = 8 := by
  intro l hl
  obtain ⟨i, a, hm, rfl⟩ | ⟨i, a, -, -, -, -, -, rfl⟩ := placeSector_cases hp
  · obtain ⟨-, hget, -⟩ := mergeTarget_some hm
    obtain hl | rfl := List.mem_or_eq_of_mem_set hl
    · exact h8 l hl
    · rw [Line.store_data_length]; exact h8 a (List.mem_of_getElem? hget)
  · obtain hl | rfl := List.mem_or_eq_of_mem_set hl
    · exact h8 l hl
    · simp

theorem OnlyDrainStarted.data_length {old new : List Line} (h : OnlyDrainStarted old new)
    (h8 : ∀ l ∈ old, l.data.length = 8) : ∀ l ∈ new, l.data.length = 8 := by
  obtain rfl | ⟨c, hc, rfl⟩ := h
  · exact h8
  · intro l hl
    obtain hl | rfl := List.mem_or_eq_of_mem_set hl
    · exact h8 l hl
    · exact h8 c.line (List.mem_of_getElem? (chooseRun_some hc).1)

/-! ### One admitted checkpoint sector (R101, R174) -/

theorem testWindDown_eq (s : State) : testWindDown s = { s with ps := { s.ps with offreq := (testWindDown s).ps.offreq } } := by
  unfold testWindDown
  split <;> rfl

/-- What RU and MM take out at an admission. -/
theorem checkpointTaken_eq (o : Nat) (s : State) : checkpointTaken o s =
    { s with
      ru := { s.ru with pending := s.ru.pending.filter (· != o), changed := s.ru.changed.filter (· != o) }
      mm := if o = 12 then (dropCarried s).mm else s.mm
      ps := { s.ps with offreq := (checkpointTaken o s).ps.offreq } } := by
  by_cases h : o = 12
  · rw [if_pos h]
    unfold checkpointTaken
    rw [if_pos h]
    exact testWindDown_eq _
  · rw [if_neg h]
    unfold checkpointTaken
    rw [if_neg h]
    exact testWindDown_eq _

/-- R174: an offer is admitted as its test says; the buffer takes the sector, RU's sets let it go, and MP grants. -/
theorem offerCheckpoint_some {o : Nat} {s t : State} (h : offerCheckpoint o s = some t) :
    ∃ sb, admitTest s.sb .record (tailBase s + o) none s.zu.settings.reserve s.sm.limit (recordSector s o) = .admitted sb ∧
      t = pump (checkpointTaken o { s with sb := sb }) := by
  unfold offerCheckpoint at h
  split at h
  · next sb hsb => exact ⟨sb, hsb, (Option.some.inj h).symm⟩
  · cases h

theorem offerCheckpoint_isSome_iff (o : Nat) (s : State) : (∃ t, offerCheckpoint o s = some t) ↔ Admissible s o := by
  unfold offerCheckpoint Admissible
  split
  · next sb hsb => simp [hsb]
  · next why hw => simp [hw]

theorem offerCheckpoint_eq_none_iff (o : Nat) (s : State) : offerCheckpoint o s = none ↔ ¬Admissible s o := by
  rw [← offerCheckpoint_isSome_iff, Option.eq_none_iff_forall_ne_some]
  simp

/-- The lines of a state in which an offered sector has just been stored. -/
theorem offerCheckpoint_lines {o : Nat} {s t : State} (hp : s.ps.power ≠ .holdup) (h : offerCheckpoint o s = some t) :
    ∃ sb, placeSector s.sb .record (tailBase s + o) none s.zu.settings.reserve (recordSector s o) = some sb ∧
      costAllows (dirtyCost s.sb.lines) (dirtyCost sb.lines) s.sm.limit = true ∧
      OnlyDrainStarted sb.lines t.sb.lines ∧ t.sb.ageCounter = sb.ageCounter := by
  obtain ⟨sb, ha, rfl⟩ := offerCheckpoint_some h
  obtain ⟨hpl, hcost⟩ := admitTest_admitted ha
  have hc := checkpointTaken_eq o { s with sb := sb }
  have hpow : (checkpointTaken o { s with sb := sb }).ps.power ≠ .holdup := by rw [hc]; exact hp
  have hsb : (checkpointTaken o { s with sb := sb }).sb = sb := by rw [hc]
  have hd := pump_onlyDrainStarted hpow
  rw [hsb] at hd
  exact ⟨sb, hpl, hcost, hd, by rw [(pump_grantOnly hpow).sbAgeCounter, hsb]⟩

theorem offerCheckpoint_ru {o : Nat} {s t : State} (hp : s.ps.power ≠ .holdup) (h : offerCheckpoint o s = some t) :
    t.ru = { s.ru with pending := s.ru.pending.filter (· != o), changed := s.ru.changed.filter (· != o) } ∧
      t.mm = if o = 12 then (dropCarried s).mm else s.mm := by
  obtain ⟨sb, -, rfl⟩ := offerCheckpoint_some h
  have hc := checkpointTaken_eq o { s with sb := sb }
  have hpow : (checkpointTaken o { s with sb := sb }).ps.power ≠ .holdup := by rw [hc]; exact hp
  have hg := pump_grantOnly hpow
  rw [hg.ru, hg.mm, hc]
  exact ⟨rfl, rfl⟩

/-- R174: a merge stores the sector in a slot; it makes at most one run more. -/
theorem maskRuns_or_slot (m : BitVec 8) (n : Fin 8) : maskRuns (m ||| slotMask n 1) ≤ maskRuns m + 1 := by
  revert m n
  decide +kernel

theorem undone_store (l : Line) (n : Nat) (d : Sector) :
    (l.store n d).undone = l.undone ||| (slotMask n 1 &&& ~~~l.programmed) := by
  simp only [Line.undone, Line.store]
  apply BitVec.eq_of_getLsbD_eq
  intro i hi
  simp only [BitVec.getLsbD_and, BitVec.getLsbD_or]
  cases l.valid.getLsbD i <;> cases (slotMask n 1).getLsbD i <;> cases (~~~l.programmed).getLsbD i <;> rfl

/-- A slot of a mask, or no slot: what a store adds to the slots still to program. -/
theorem slotMask_and (n : Nat) (hn : n < 8) (p : BitVec 8) :
    slotMask n 1 &&& p = if p.getLsbD n then slotMask n 1 else 0 := by
  apply BitVec.eq_of_getLsbD_eq
  intro i hi
  rw [BitVec.getLsbD_and, getLsbD_slotMask_one n i hn]
  by_cases hin : i = n
  · subst hin
    cases hp : p.getLsbD i <;> simp [getLsbD_slotMask_one i i hn]
  · cases hp : p.getLsbD n <;> simp [getLsbD_slotMask_one n i hn, hin]

theorem runCount_store (l : Line) (n : Nat) (hn : n < 8) (d : Sector) : (l.store n d).runCount ≤ l.runCount + 1 := by
  unfold Line.runCount
  rw [Line.store_live]
  split
  · rw [undone_store, slotMask_and n hn]
    split
    · exact maskRuns_or_slot l.undone ⟨n, hn⟩
    · rw [show l.undone ||| 0 = l.undone by simp]
      omega
  · omega

/-- R3, R7: a placed sector raises the dirty cost by at most one. -/
theorem placeSector_cost_le {sb t : Staging} {cls : LineClass} {sector : Nat} {zone : Option Nat} {reserve : Nat}
    {data : Sector} (h : placeSector sb cls sector zone reserve data = some t) :
    dirtyCost t.lines ≤ dirtyCost sb.lines + 1 := by
  cases hm : mergeTarget sb.lines cls sector with
  | none => exact (placeSector_allocates h hm).1.le
  | some p =>
    obtain ⟨i, l, hl, rfl⟩ | ⟨i, l, hl, -⟩ := placeSector_cases h
    · obtain ⟨-, hget, -⟩ := mergeTarget_some hl
      have h1 := dirtyCost_set hget (l.store (sector % 8) data)
      have h2 := runCount_store l (sector % 8) (Nat.mod_lt _ (by omega)) data
      dsimp only
      omega
    · simp [hm] at hl

/-- R174: with a FREE line and the cost test passing a checkpoint sector is admitted. -/
theorem admissible_of_free {s : State} (o : Nat) (hf : 1 ≤ freeCount s.sb.lines)
    (hc : dirtyCost s.sb.lines + 1 ≤ max 1 s.sm.limit) : Admissible s o := by
  obtain ⟨t, ht⟩ := (placeSector_isSome_iff s.sb .record (tailBase s + o) none s.zu.settings.reserve
    (recordSector s o)).mpr (.inr (.inr ⟨by decide, hf⟩))
  have := placeSector_cost_le ht
  exact ⟨t, (admitTest_admitted_iff ht).mpr (.inl (by omega))⟩

/-- What `OfferOnly` says, as one equation. -/
theorem OfferOnly.onlyOffers {s t : State} (h : OfferOnly s t) : OnlyOffers s t := by
  obtain ⟨h1, h2, h3, h4, h5, h6, h7, h8, h9, h10, h11, h12, h13, h14, h15, h16, h17, h18, h19, h20, h21, h22, h23, h24,
    h25, h26, h27, h28, h29, h30, h31, h32, h33, h34, h35, h36, h37, h38, h39, h40, h41, h42, h43, h44⟩ := h
  obtain ⟨u1, u2, u3, u4, u5, u6, u7, ⟨l, a, lc, ll, d⟩, ⟨c, w, n, hd, rp⟩, u10, u11,
    ⟨m1, m2, m3, m4, m5, m6, m7, m8, m9, m10, m11, m12, m13, m14⟩, u13,
    ⟨p1, p2, p3, p4, p5, p6, p7, p8, p9, p10, p11, p12, p13⟩, u15, ⟨r1, r2, r3, r4⟩, u17⟩ := t
  dsimp only at *
  subst_vars
  rfl

/-- Settles O60. -/
theorem checkpointAdmitted : Obligations.CheckpointAdmitted := by
  refine ⟨fun o s => ⟨offerCheckpoint_isSome_iff o s, admissible_of_free o⟩, fun o s t hs h => ?_⟩
  have hp := ne_holdup_of_inService hs
  obtain ⟨hru, hmm⟩ := offerCheckpoint_ru hp h
  obtain ⟨sb, hpl, -, hd, -⟩ := offerCheckpoint_lines hp h
  refine ⟨by simp [hru], by simp [hru], fun p hpo => by simp [hru, hpo], ?_, fun ho => by rw [hmm, if_neg ho],
    (offerCheckpoint_offerOnly hp h).onlyOffers, fun hsz => ?_⟩
  · intro ho r hr l hl
    rw [hmm, if_pos ho] at hr
    simp only [dropCarried, List.mem_filter, Bool.not_eq_true', List.any_eq_false, beq_iff_eq] at hr
    exact fun heq => hr.2 l hl heq.symm
  · obtain ⟨i, hst, hoth⟩ := placeSector_storedAt hpl hsz.2.1
    exact ⟨i, recordSector s o, hst.drainStarted hd, otherLinesKept_of hoth hd.frontLinesKept, recordFormed_recordSector s o⟩

end Sys2Proof.Machine
end

