-- ==== Sys2Proof/Proofs/P08.lean ====
section
/-! What the checkpoint offers do to the lines and to the pending and changed sets, and how far an offer of the pending set
gets (R101, R174). -/

namespace Sys2Proof.Machine

open Sys2Proof

/-! ### The effect of offers -/

/-- The record-area sector of tail offset `o` is held in a RECORD line, as the state forms it, and is in neither set. -/
def OfferStored (t : State) (o : Nat) : Prop :=
  o ∉ t.ru.pending ∧ o ∉ t.ru.changed ∧ RecordHolds t.sb.lines (tailBase t + o) (some (recordSector t o))

theorem OfferStored.checkpointTaken {t : State} {o : Nat} (h : OfferStored t o) : CheckpointTaken o t := by
  obtain ⟨hp, hc, l, hl, hlive, hcls, haddr, hvalid, hdata⟩ := h
  exact ⟨hp, hc, l, hl, hlive, hcls, haddr, hvalid, _, hdata, recordFormed_recordSector t o⟩

/-- The lines of the front classes stay, a checkpoint sector that is held stays held, and a sector leaves the pending and
changed sets by being held alone. -/
structure OfferEffect (s t : State) : Prop where
  only : OfferOnly s t
  front : FrontLinesKept s.sb.lines t.sb.lines
  held : ∀ o, RecordStaged s o → RecordStaged t o
  pendingKept : ∀ o ∈ s.ru.pending, (o ∈ t.ru.pending ∧ (o ∈ s.ru.changed → o ∈ t.ru.changed)) ∨ RecordStaged t o
  changedKept : ∀ o ∈ s.ru.changed, o ∈ t.ru.changed ∨ (o ∈ s.ru.pending ∧ RecordStaged t o)
  pendingSub : ∀ o ∈ t.ru.pending, o ∈ s.ru.pending
  changedSub : ∀ o ∈ t.ru.changed, o ∈ s.ru.changed
  stored : ∀ o, OfferStored s o → OfferStored t o

theorem OfferEffect.refl (s : State) : OfferEffect s s :=
  ⟨.refl s, .refl _, fun _ h => h, fun _ h => .inl ⟨h, id⟩, fun _ h => .inl h, fun _ h => h, fun _ h => h, fun _ h => h⟩

theorem OfferEffect.trans {s t u : State} (h : OfferEffect s t) (g : OfferEffect t u) : OfferEffect s u where
  only := h.only.trans g.only
  front := h.front.trans g.front
  held o ho := g.held o (h.held o ho)
  pendingKept o ho := by
    obtain ⟨hp, hc⟩ | hst := h.pendingKept o ho
    · obtain ⟨gp, gc⟩ | gst := g.pendingKept o hp
      · exact .inl ⟨gp, fun x => gc (hc x)⟩
      · exact .inr gst
    · exact .inr (g.held o hst)
  changedKept o ho := by
    obtain hc | ⟨hp, hst⟩ := h.changedKept o ho
    · obtain gc | ⟨gp, gst⟩ := g.changedKept o hc
      · exact .inl gc
      · exact .inr ⟨h.pendingSub o gp, gst⟩
    · exact .inr ⟨hp, g.held o hst⟩
  pendingSub o ho := h.pendingSub o (g.pendingSub o ho)
  changedSub o ho := h.changedSub o (g.changedSub o ho)
  stored o ho := g.stored o (h.stored o ho)

/-- What an offer forms does not depend on what offers change. -/
theorem OfferOnly.recordSector {s t : State} (h : OfferOnly s t) (o : Nat) : recordSector t o = recordSector s o := by
  rw [h.onlyOffers]
  rfl

theorem OfferOnly.tailBase {s t : State} (h : OfferOnly s t) : tailBase t = tailBase s := by
  rw [Machine.tailBase, h.psCapacity, Machine.tailBase]

/-- R166: a grant outside HOLDUP is no more than that. -/
theorem pump_offerEffect {s : State} (hp : s.ps.power ≠ .holdup) : OfferEffect s (pump s) := by
  have hg := pump_grantOnly hp
  have hd := pump_onlyDrainStarted hp
  have ht := hg.offerOnly.tailBase
  refine ⟨hg.offerOnly, hd.frontLinesKept, fun o ho => ?_, fun o ho => ?_, fun o ho => ?_, fun o ho => ?_, fun o ho => ?_,
    fun o ho => ?_⟩
  · rw [recordStaged_iff, ht]
    obtain ⟨d, h⟩ := (recordStaged_iff s o).mp ho
    exact ⟨d, h.drainStarted hd⟩
  · rw [hg.ru]; exact .inl ⟨ho, id⟩
  · rw [hg.ru]; exact .inl ho
  · rwa [hg.ru] at ho
  · rwa [hg.ru] at ho
  · obtain ⟨h1, h2, h3⟩ := ho
    refine ⟨by rwa [hg.ru], by rwa [hg.ru], ?_⟩
    rw [ht, hg.offerOnly.recordSector]
    exact h3.drainStarted hd

/-- R101, R174: an admitted checkpoint sector is held and in neither set. -/
theorem offerCheckpoint_stored {o : Nat} {s t : State} (hp : s.ps.power ≠ .holdup) (h8 : ∀ l ∈ s.sb.lines, l.data.length = 8)
    (h : offerCheckpoint o s = some t) : OfferStored t o := by
  have ho := offerCheckpoint_offerOnly hp h
  obtain ⟨hru, -⟩ := offerCheckpoint_ru hp h
  obtain ⟨sb, hpl, -, hd, -⟩ := offerCheckpoint_lines hp h
  obtain ⟨d, hh, hdat⟩ := recordHolds_of_placed hpl
  refine ⟨by simp [hru], by simp [hru], ?_⟩
  rw [ho.tailBase, ho.recordSector, ← hdat h8]
  exact hh.drainStarted hd

/-- R101, R174: an admission is an offer's effect, where the sector was pending. -/
theorem offerCheckpoint_offerEffect {o : Nat} {s t : State} (hp : s.ps.power ≠ .holdup) (hpend : o ∈ s.ru.pending)
    (h : offerCheckpoint o s = some t) : OfferEffect s t := by
  have ho := offerCheckpoint_offerOnly hp h
  obtain ⟨hru, -⟩ := offerCheckpoint_ru hp h
  obtain ⟨sb, hpl, -, hd, -⟩ := offerCheckpoint_lines hp h
  have ht := ho.tailBase
  have hown : RecordStaged t o := by
    obtain ⟨d, hh, -⟩ := recordHolds_of_placed hpl
    rw [recordStaged_iff, ht]
    exact ⟨d, hh.drainStarted hd⟩
  have hother : ∀ p d, p ≠ o → RecordHolds s.sb.lines (tailBase s + p) d → RecordHolds t.sb.lines (tailBase s + p) d :=
    fun p d hne hr => (hr.placed hpl (by omega)).drainStarted hd
  refine ⟨ho, (placeSector_record_frontLinesKept hpl).trans hd.frontLinesKept, fun p hps => ?_, fun p hps => ?_,
    fun p hps => ?_, fun p hps => ?_, fun p hps => ?_, fun p hps => ?_⟩
  · by_cases hpo : p = o
    · exact hpo ▸ hown
    · obtain ⟨d, hr⟩ := (recordStaged_iff s p).mp hps
      rw [recordStaged_iff, ht]
      exact ⟨d, hother p d hpo hr⟩
  · by_cases hpo : p = o
    · exact .inr (hpo ▸ hown)
    · exact .inl (by simp [hru, hps, hpo])
  · by_cases hpo : p = o
    · subst hpo
      exact .inr ⟨hpend, hown⟩
    · exact .inl (by simp [hru, hps, hpo])
  · rw [hru] at hps
    exact List.mem_of_mem_filter hps
  · rw [hru] at hps
    exact List.mem_of_mem_filter hps
  · obtain ⟨h1, h2, h3⟩ := hps
    have hpo : p ≠ o := fun e => h1 (e ▸ hpend)
    refine ⟨by simp [hru, h1], by simp [hru, h2], ?_⟩
    rw [ht, ho.recordSector]
    exact hother p _ hpo h3

/-! ### Offers with no front sector held -/

theorem offerFrom_cons_not_pending {o : Nat} {os : List Nat} {s : State} (h : o ∉ s.ru.pending) :
    offerFrom (o :: os) s = offerFrom os s := by
  rw [offerFrom, if_neg (by simpa using h)]

theorem offerFrom_cons_refused {o : Nat} {os : List Nat} {s : State} (h : o ∈ s.ru.pending)
    (hn : offerCheckpoint o s = none) : offerFrom (o :: os) s = s := by
  rw [offerFrom, if_pos (by simpa using h), hn]

theorem offerFrom_cons_admitted {o : Nat} {os : List Nat} {s t : State} (hp : s.ps.power ≠ .holdup)
    (hh : s.fp.port ≠ .held) (h : o ∈ s.ru.pending) (ht : offerCheckpoint o s = some t) :
    offerFrom (o :: os) s = offerFrom os t := by
  have hth : t.fp.port ≠ .held := by rw [(offerCheckpoint_offerOnly hp ht).fp]; exact hh
  rw [offerFrom, if_pos (by simpa using h), ht]
  dsimp only
  rw [retryHeld_of_not_held hth, ite_self]

/-- Induction over an offer of offsets in order: nothing more to offer, an offset that is not pending, one that is refused,
one that is admitted. -/
theorem offerFrom_induction {P : List Nat → State → State → Prop}
    (nil : ∀ s, P [] s s)
    (skip : ∀ o os s, o ∉ s.ru.pending → P os s (offerFrom os s) → P (o :: os) s (offerFrom os s))
    (refused : ∀ o os s, o ∈ s.ru.pending → offerCheckpoint o s = none → P (o :: os) s s)
    (admitted : ∀ o os s t, s.ps.power ≠ .holdup → s.fp.port ≠ .held → o ∈ s.ru.pending → offerCheckpoint o s = some t →
      P os t (offerFrom os t) → P (o :: os) s (offerFrom os t))
    (os : List Nat) (s : State) (hp : s.ps.power ≠ .holdup) (hh : s.fp.port ≠ .held) : P os s (offerFrom os s) := by
  induction os generalizing s with
  | nil => exact nil s
  | cons o os ih =>
    by_cases hpend : o ∈ s.ru.pending
    · cases ht : offerCheckpoint o s with
      | none => rw [offerFrom_cons_refused hpend ht]; exact refused o os s hpend ht
      | some t =>
        have ho := offerCheckpoint_offerOnly hp ht
        rw [offerFrom_cons_admitted hp hh hpend ht]
        exact admitted o os s t hp hh hpend ht (ih t (by rw [ho.psPower]; exact hp) (by rw [ho.fp]; exact hh))
    · rw [offerFrom_cons_not_pending hpend]
      exact skip o os s hpend (ih s hp hh)

theorem offerFrom_offerEffect (os : List Nat) {s : State} (hp : s.ps.power ≠ .holdup) (hh : s.fp.port ≠ .held) :
    OfferEffect s (offerFrom os s) :=
  offerFrom_induction (P := fun _ s t => OfferEffect s t) .refl (fun _ _ _ _ h => h) (fun _ _ s _ _ => .refl s)
    (fun _ _ _ _ hp _ hpend ht h => (offerCheckpoint_offerEffect hp hpend ht).trans h) os s hp hh

theorem offerAll_offerEffect {s : State} (hp : s.ps.power ≠ .holdup) (hh : s.fp.port ≠ .held) :
    OfferEffect s (offerAll s) := by
  unfold offerAll
  split
  · exact offerFrom_offerEffect _ hp hh
  · exact .refl s

theorem OfferEffect.power {s t : State} (h : OfferEffect s t) (hp : s.ps.power ≠ .holdup) : t.ps.power ≠ .holdup := by
  rw [h.only.psPower]; exact hp

theorem OfferEffect.port {s t : State} (h : OfferEffect s t) (hh : s.fp.port ≠ .held) : t.fp.port ≠ .held := by
  rw [h.only.fp]; exact hh

theorem retryRound_of_not_held (before : State) {s : State} (hh : s.fp.port ≠ .held) : retryRound before s = offerAll s := by
  rw [retryRound, retryHeld_of_not_held hh, ite_self]

/-- R10, R174: with no front sector held an event brings nothing but offers about. -/
theorem react_offerEffect (before : State) {s : State} (hp : s.ps.power ≠ .holdup) (hh : s.fp.port ≠ .held) :
    OfferEffect s (react before s) := by
  unfold react
  split
  · rw [retryRound_of_not_held before hh]
    have h1 := offerAll_offerEffect hp hh
    exact h1.trans (offerAll_offerEffect (h1.power hp) (h1.port hh))
  · exact .refl s

theorem settle_offerEffect (before : State) {s : State} (hp : s.ps.power ≠ .holdup) (hh : s.fp.port ≠ .held) :
    OfferEffect s (settle before s) := by
  have h1 := react_offerEffect before hp hh
  exact h1.trans (pump_offerEffect (h1.power hp))

/-! ### How far an offer gets -/

/-- R174: an offer of the offsets `os`, made from `s` to `t`, ends at `cut`: those below it are held, and it is not
admitted. -/
def OffersReach (os : List Nat) (cut : Nat) (s t : State) : Prop :=
  (cut = 17 ∨ (cut ∈ os ∧ cut ∈ s.ru.pending ∧ offerCheckpoint cut t = none)) ∧
    ∀ o ∈ os, o ∈ s.ru.pending → (o < cut → OfferStored t o) ∧ (cut ≤ o → o ∈ t.ru.pending)

/-- R174: offers in ascending order reach an offset that is not admitted, or the end. -/
theorem offerFrom_reaches (os : List Nat) (s : State) (hp : s.ps.power ≠ .holdup) (hh : s.fp.port ≠ .held)
    (h8 : ∀ l ∈ s.sb.lines, l.data.length = 8) (hlt : ∀ o ∈ os, o < 17) (hord : os.Pairwise (· < ·)) :
    ∃ cut, OffersReach os cut s (offerFrom os s) := by
  revert h8 hlt hord
  refine offerFrom_induction (P := fun os s t => (∀ l ∈ s.sb.lines, l.data.length = 8) → (∀ o ∈ os, o < 17) →
    os.Pairwise (· < ·) → ∃ cut, OffersReach os cut s t) ?nil ?skip ?refused ?admitted os s hp hh
  case nil => exact fun _ _ _ _ => ⟨17, .inl rfl, by simp⟩
  case skip =>
    intro o os s hpend ih h8 hlt hord
    obtain ⟨cut, hcut, hall⟩ := ih h8 (fun p hpo => hlt p (.tail _ hpo)) (List.pairwise_cons.mp hord).2
    refine ⟨cut, hcut.imp_right fun ⟨hm, h⟩ => ⟨.tail _ hm, h⟩, fun p hpo hps => ?_⟩
    obtain rfl | hpo := List.mem_cons.mp hpo
    · exact absurd hps hpend
    · exact hall p hpo hps
  case refused =>
    intro o os s hpend hn _ _ hord
    refine ⟨o, .inr ⟨.head _, hpend, hn⟩, fun p hpo hps => ⟨fun hlt => ?_, fun _ => hps⟩⟩
    obtain rfl | hpo := List.mem_cons.mp hpo
    · exact absurd hlt (Nat.lt_irrefl _)
    · exact absurd ((List.pairwise_cons.mp hord).1 p hpo) (by omega)
  case admitted =>
    intro o os s t hp hh hpend ht ih h8 hlt hord
    have hst := offerCheckpoint_stored hp h8 ht
    have he := offerCheckpoint_offerEffect hp hpend ht
    have hrest := offerFrom_offerEffect os (he.power hp) (he.port hh)
    obtain ⟨sb, hpl, -, hd, -⟩ := offerCheckpoint_lines hp ht
    obtain ⟨hru, -⟩ := offerCheckpoint_ru hp ht
    obtain ⟨hlo, hord'⟩ := List.pairwise_cons.mp hord
    obtain ⟨cut, hcut, hall⟩ := ih (hd.data_length (placeSector_data_length hpl h8)) (fun p hpo => hlt p (.tail _ hpo)) hord'
    have hoc : o < cut := by
      obtain rfl | ⟨hm, -⟩ := hcut
      · exact hlt o (.head _)
      · exact hlo cut hm
    refine ⟨cut, hcut.imp_right fun ⟨hm, hps, h⟩ => ⟨.tail _ hm, he.pendingSub _ hps, h⟩, fun p hpo hps => ?_⟩
    obtain rfl | hpo := List.mem_cons.mp hpo
    · exact ⟨fun _ => hrest.stored _ hst, fun hle => absurd hle (by omega)⟩
    · refine hall p hpo ?_
      have hne : p ≠ o := by have := hlo p hpo; omega
      simp [hru, hps, hne]

/-- R174: the lowest pending offset is held afterwards, where it would be admitted. -/
theorem offerFrom_lowest (os : List Nat) (s : State) (hp : s.ps.power ≠ .holdup) (hh : s.fp.port ≠ .held)
    (h8 : ∀ l ∈ s.sb.lines, l.data.length = 8) (hord : os.Pairwise (· < ·)) {o : Nat} (ho : o ∈ os)
    (hps : o ∈ s.ru.pending) (hlow : ∀ p ∈ os, p ∈ s.ru.pending → o ≤ p) (ha : Admissible s o) :
    OfferStored (offerFrom os s) o := by
  induction os with
  | nil => simp at ho
  | cons p os ih =>
    obtain ⟨hlo, hord'⟩ := List.pairwise_cons.mp hord
    by_cases hpend : p ∈ s.ru.pending
    · have hpo : p = o := by
        obtain rfl | ho := List.mem_cons.mp ho
        · rfl
        · have h1 := hlo o ho
          have h2 := hlow p (.head _) hpend
          omega
      subst hpo
      obtain ⟨t, ht⟩ := (offerCheckpoint_isSome_iff p s).mpr ha
      have he := offerCheckpoint_offerEffect hp hpend ht
      rw [offerFrom_cons_admitted hp hh hpend ht]
      exact (offerFrom_offerEffect os (he.power hp) (he.port hh)).stored p (offerCheckpoint_stored hp h8 ht)
    · have ho' : o ∈ os := (List.mem_cons.mp ho).resolve_left fun e => hpend (e ▸ hps)
      rw [offerFrom_cons_not_pending hpend]
      exact ih hord' ho' fun q hq => hlow q (.tail _ hq)

/-- R174: the same offer made again at once changes nothing. -/
theorem offerFrom_offerFrom (os : List Nat) (s : State) (hp : s.ps.power ≠ .holdup) (hh : s.fp.port ≠ .held) :
    offerFrom os (offerFrom os s) = offerFrom os s := by
  induction os generalizing s with
  | nil => rfl
  | cons o os ih =>
    by_cases hpend : o ∈ s.ru.pending
    · cases ht : offerCheckpoint o s with
      | none => rw [offerFrom_cons_refused hpend ht, offerFrom_cons_refused hpend ht]
      | some t =>
        have he := offerCheckpoint_offerEffect hp hpend ht
        have hgone := (offerFrom_offerEffect os (he.power hp) (he.port hh)).pendingSub o
        obtain ⟨hru, -⟩ := offerCheckpoint_ru hp ht
        rw [offerFrom_cons_admitted hp hh hpend ht,
          offerFrom_cons_not_pending fun h => by simpa [hru] using hgone h]
        exact ih t (he.power hp) (he.port hh)
    · have hgone := (offerFrom_offerEffect os hp hh).pendingSub o
      rw [offerFrom_cons_not_pending hpend, offerFrom_cons_not_pending fun h => hpend (hgone h)]
      exact ih s hp hh

theorem offersAllowed_of_offerOnly {s t : State} (h : OfferOnly s t) : offersAllowed t = offersAllowed s := by
  rw [offersAllowed, h.psPower, h.psMediaFault, offersAllowed]

theorem offerAll_offerAll {s : State} (hp : s.ps.power ≠ .holdup) (hh : s.fp.port ≠ .held) :
    offerAll (offerAll s) = offerAll s := by
  have hal := offersAllowed_of_offerOnly (offerAll_offerOnly hp hh)
  by_cases h : offersAllowed s = true
  · rw [offerAll, if_pos (hal.trans h)]
    simp only [offerAll, if_pos h]
    exact offerFrom_offerFrom _ s hp hh
  · have hs : offerAll s = s := by rw [offerAll, if_neg h]
    rw [hs, hs]

/-- R174: with no front sector held an event brings about one offer of the pending set, at a change or a mark. -/
theorem react_of_due {before s : State} (hp : s.ps.power ≠ .holdup) (hh : s.fp.port ≠ .held)
    (h : retryDue before s = true ∨ markedSince before s = true) : react before s = offerAll s := by
  rw [react, if_pos (by rwa [Bool.or_eq_true]), retryRound_of_not_held before hh, offerAll_offerAll hp hh]

/-! ### MP has granted what it could -/

/-- R166: no grant is left to be made in service: the drain request stands as R17 says, and where MP is idle no read miss
waits and no line has a run to issue. -/
def GrantsDone (s : State) : Prop :=
  s.mp.waiters.drain = drainWanted s ∧
    (mpIdle s = true → s.mp.waiters.readMiss = none ∧
      (drainWanted s = true → chooseRun s.sb.lines = none ∧ s.mp.starvation = 0))

theorem not_braced_of_drainWanted {s : State} (hs : inService s.ps.power = true) (h : drainWanted s = true) :
    bracedState s.mm.motion = false := by
  simp only [drainWanted, Bool.and_eq_true, Bool.or_eq_true, Bool.not_eq_true', beq_iff_eq] at h
  exact h.2.resolve_right (ne_holdup_of_inService hs)

theorem grantDrain_of_no_run {s : State} (h : chooseRun s.sb.lines = none) : grantDrain s =
    { s with mp := { s.mp with waiters := { s.mp.waiters with drain := false }, starvation := 0 } } := by
  unfold grantDrain
  dsimp only
  rw [h, ite_self]

/-- R17: with a run to issue and no brace the grant issues it. -/
theorem grantDrain_of_run {s : State} {c : RunChoice} (hb : bracedState s.mm.motion = false)
    (h : chooseRun s.sb.lines = some c) : grantDrain s = issueRun .drain c
    { s with mp := { s.mp with waiters := { s.mp.waiters with drain := false }, starvation := 0 } } := by
  unfold grantDrain
  dsimp only
  rw [if_neg (by simp [hb]), h]

theorem grantWaitingMiss_none {s : State} (h : s.mp.waiters.readMiss = none) : grantWaitingMiss s = s := by
  rw [grantWaitingMiss, h]

/-- R158: MP idle after the grant of a read miss: none waited. -/
theorem grantWaitingMiss_idle {s : State} (h : mpIdle (grantWaitingMiss s) = true) :
    grantWaitingMiss s = s ∧ s.mp.waiters.readMiss = none := by
  cases hm : s.mp.waiters.readMiss with
  | none => exact ⟨grantWaitingMiss_none hm, rfl⟩
  | some r =>
    rw [grantWaitingMiss, hm] at h
    dsimp only at h
    split at h
    · cases h
    · contradiction

theorem syncDrain_grants {s : State} (hs : inService s.ps.power = true)
    (h : mpIdle s = true → s.mp.waiters.readMiss = none ∧ (drainWanted s = true → chooseRun s.sb.lines = none ∧
      s.mp.starvation = 0)) : GrantsDone (syncDrain s) := by
  have hd := syncDrain_drain (ne_off_of_inService hs)
  refine ⟨by rw [hd, drainWanted_syncDrain], fun hi => ?_⟩
  have hi' : mpIdle s = true := by rwa [syncDrain_eq] at hi
  obtain ⟨hm, hr⟩ := h hi'
  refine ⟨by rw [syncDrain_readMiss, hm], fun hw => ?_⟩
  rw [drainWanted_syncDrain] at hw
  obtain ⟨hc, hn⟩ := hr hw
  refine ⟨by rw [syncDrain_lines, hc], ?_⟩
  unfold syncDrain
  rw [if_neg (ne_off_of_inService hs), if_pos hw]
  exact hn

/-- R166: after a grant in service none is left. -/
theorem pump_grantsDone {s : State} (hs : inService s.ps.power = true) : GrantsDone (pump s) := by
  have hs1 : inService (syncDrain s).ps.power = true := by rw [syncDrain_eq]; exact hs
  have hd : (syncDrain s).mp.waiters.drain = drainWanted (syncDrain s) := by
    rw [syncDrain_drain (ne_off_of_inService hs), drainWanted_syncDrain]
  have hs2 : inService (grantNext (syncDrain s)).ps.power = true := by
    rw [(grantNext_grantOnly (ne_holdup_of_inService hs1)).ps]; exact hs1
  refine syncDrain_grants hs2 fun hi => ?_
  cases hi1 : mpIdle (syncDrain s) with
  | false =>
    rw [grantNext_busy hi1, hi1] at hi
    cases hi
  | true =>
    rw [grantNext_service hs1 hi1] at hi ⊢
    generalize syncDrain s = u at *
    unfold grantService at hi ⊢
    split at hi
    · next hw =>
      rw [if_pos hw]
      rw [Bool.and_eq_true, hd] at hw
      obtain ⟨hv, hm⟩ := grantWaitingMiss_idle hi
      rw [hv] at hi ⊢
      refine ⟨hm, fun _ => ?_⟩
      cases hc : chooseRun u.sb.lines with
      | none => rw [grantDrain_of_no_run hc]; exact ⟨hc, rfl⟩
      | some c =>
        rw [grantDrain_of_run (not_braced_of_drainWanted hs1 hw.1) hc] at hi
        cases hi
    · next hw =>
      rw [if_neg hw]
      obtain ⟨hv, hm⟩ := grantWaitingMiss_idle hi
      rw [hv]
      exact ⟨hm, fun hd' => absurd (by simp [hd, hd', hm]) hw⟩

theorem pump_of_grantsDone {s : State} (hs : inService s.ps.power = true) (h : GrantsDone s) : pump s = s := by
  obtain ⟨hd, hi⟩ := h
  have hsync : syncDrain s = s := syncDrain_of_agrees fun _ => hd
  cases hidle : mpIdle s with
  | false => rw [pump_busy hidle, hsync]
  | true =>
    obtain ⟨hm, hw⟩ := hi hidle
    cases hdw : drainWanted s with
    | false => exact pump_quiet hs hdw (hd.trans hdw) hm
    | true =>
      obtain ⟨hc, hn⟩ := hw hdw
      have hg : grantNext s = { s with mp := { s.mp with waiters := { s.mp.waiters with drain := false } } } := by
        rw [grantNext_service hs hidle, grantService, if_pos (by simp [hd, hdw, hm]), grantDrain_of_no_run hc,
          grantWaitingMiss_none (by exact hm), ← hn]
      rw [pump, hsync, hg, syncDrain, if_neg (by exact ne_off_of_inService hs), if_pos (by exact hdw)]
      dsimp only
      rw [← hdw, ← hd]

/-- R166, R174: offers end with their grants made. -/
theorem offerFrom_grantsDone (os : List Nat) {s : State} (hs : inService s.ps.power = true) (hh : s.fp.port ≠ .held)
    (hg : GrantsDone s) : GrantsDone (offerFrom os s) := by
  have hp := ne_holdup_of_inService hs
  revert hs hg
  refine offerFrom_induction (P := fun _ s t => inService s.ps.power = true → GrantsDone s → GrantsDone t) (fun _ _ h => h)
    (fun _ _ _ _ h => h) (fun _ _ _ _ _ _ h => h) (fun o os s t hp _ _ ht ih hs _ => ?_) os s hp hh
  · obtain ⟨sb, -, rfl⟩ := offerCheckpoint_some ht
    have hc : inService (checkpointTaken o { s with sb := sb }).ps.power = true := by rw [checkpointTaken_eq]; exact hs
    exact ih (by rw [(pump_grantOnly (ne_holdup_of_inService hc)).ps]; exact hc) (pump_grantsDone hc)

theorem offerAll_grantsDone {s : State} (hs : inService s.ps.power = true) (hh : s.fp.port ≠ .held)
    (hg : GrantsDone s) : GrantsDone (offerAll s) := by
  unfold offerAll
  split
  · exact offerFrom_grantsDone _ hs hh hg
  · exact hg

end Sys2Proof.Machine
end

