-- ==== Sys2Proof/Proofs/P09.lean ====
section
/-! Front sectors of a write in transfer: the data frame, its admission, and what follows it (R8, R13, R73, R75, R83, R156,
R175). -/

namespace Sys2Proof.Machine

open Sys2Proof

/-! ### A data frame -/

/-- R9, R154: a write in transfer takes its frame in NORMAL, LOW, CRITICAL or HOLDUP. -/
theorem takesSector_iff (s : State) : takesSector s = true ↔
    takesFrames s = true ∧ s.fp.port = .taking ∧ s.ps.power ≠ .starting ∧ s.ps.power ≠ .off := by
  simp [takesSector, and_assoc]

theorem inService_of_takesSector {s : State} (h : takesSector s = true) (hp : s.ps.power ≠ .holdup) :
    inService s.ps.power = true := by
  obtain ⟨-, -, h1, h2⟩ := (takesSector_iff s).mp h
  cases hs : s.ps.power <;> simp_all [inService]

/-- R156: the frame is the next sector of the write. -/
theorem exec_dataFrame {data : Sector} {s : State} {r : Request} (ht : takesSector s = true) (hr : s.fp.req = some r) :
    exec (.dataFrame data) s = .next (settle s (takeFrame (r.sector.toNat + r.taken) (toSector data) s)) := by
  refine congrArg Host.Outcome.next ?_
  rw [dataArrives, if_pos ht, hr]

/-- R9: the sectors that the admission test of a front sector may take. -/
theorem admissionRefusal_none {s : State} {n : Nat} (hc : s.ps.power ≠ .critical) (hh : s.ps.power ≠ .holdup)
    (hz : ∀ k, zoneOf s.zu.zones n = some k → (zoneAt s k).state = .opened) (hn : n ≤ tailBase s + 4) :
    admissionRefusal s n = none := by
  have hz' : ((zoneOf s.zu.zones n).any fun k => (zoneAt s k).state == .closed) = false := by
    cases hk : zoneOf s.zu.zones n with
    | none => rfl
    | some k => simp [hz k hk]
  rw [admissionRefusal, if_neg hc, if_neg hh, hz', if_neg (by decide),
    if_neg (by simp [inLiveWindow, inImageArea]; omega)]

/-- R8: an admitted front sector is accepted. -/
theorem offerSector_admitted {s : State} {n : Nat} {data : Sector} {sb : Staging} (hc : s.ps.power ≠ .critical)
    (hh : s.ps.power ≠ .holdup) (hz : ∀ k, zoneOf s.zu.zones n = some k → (zoneAt s k).state = .opened)
    (hn : n ≤ tailBase s + 4) (ha : frontAdmitTest s n data = .admitted sb) :
    offerSector n data s = acceptSector n data sb s := by
  rw [offerSector, admissionRefusal_none hc hh hz hn]
  dsimp only
  rw [ha]

/-- R4: the zone number of a DATA line is the OPEN zone its sector lies in. -/
theorem lineZone_data {s : State} {n : Nat} (hz : ∀ k, zoneOf s.zu.zones n = some k → (zoneAt s k).state = .opened) :
    lineZone s .data n = zoneOf s.zu.zones n := by
  rw [lineZone, if_pos rfl]
  cases hk : zoneOf s.zu.zones n with
  | none => rfl
  | some k => simp [hz k hk]

theorem frontAdmitTest_data {s : State} {n : Nat} {data : Sector} (hn : n < tailBase s)
    (hz : ∀ k, zoneOf s.zu.zones n = some k → (zoneAt s k).state = .opened) : frontAdmitTest s n data =
      admitTest s.sb .data n (zoneOf s.zu.zones n) s.zu.settings.reserve s.sm.limit data := by
  have hf : frontClass s n = .data := if_neg (by simp; omega)
  rw [frontAdmitTest, hf, lineZone_data hz]

theorem frontAdmitTest_map {s : State} {n : Nat} {data : Sector} (h1 : tailBase s ≤ n) (h2 : n ≤ tailBase s + 4) :
    frontAdmitTest s n data = admitTest s.sb .map n none s.zu.settings.reserve s.sm.limit data := by
  have hf : frontClass s n = .map := if_pos (by simp; omega)
  rw [frontAdmitTest, hf, lineZone, if_neg (by decide)]

/-! ### What an accepted sector brings about besides its content (R8, R13) -/

/-- What offers and grants leave, with the parts they change named apart. -/
theorem OnlyOffers.exists_eq {s t : State} (h : OnlyOffers s t) : ∃ (l : List Line) (a : Word) (m : MediaPort) (p : List DropRecord) (o : Bool) (x c : List Nat), t = { s with
    sb := { s.sb with lines := l, ageCounter := a }, mp := { m with resetPulses := s.mp.resetPulses }
    mm := { s.mm with pendingRecs := p }, ps := { s.ps with offreq := o }
    ru := { s.ru with pending := x, changed := c } } :=
  ⟨_, _, _, _, _, _, _, h⟩

/-- The front port of a request answered OK with `n` sectors. -/
def okPort (n : Nat) (f : FrontPort) : FrontPort :=
  { f with
    port := .answering, holdStart := none, held := none, mark := none, readBuf := []
    response := some { answer := .ok, sectors := n, payload := [] } }

/-- R13: the answer to a write whose last sector has been taken: OK at once, or a completion wait. -/
theorem answerWrite_eq {s : State} {r : Request} (hr : s.fp.req = some r) (hc : r.code ≠ 3) :
    (s.sm.mode = .writeBack ∨ anyBelow s.sb.lines s.sb.ageCounter = false →
      answerWrite s = { s with fp := okPort r.taken s.fp }) ∧
    (s.sm.mode = .writeThrough → anyBelow s.sb.lines s.sb.ageCounter = true →
      answerWrite s = { s with fp := { s.fp with port := .completing, mark := some s.sb.ageCounter } }) := by
  unfold answerWrite
  cases hm : s.sm.mode with
  | writeBack => exact ⟨fun _ => by rw [takenCount_of_req hr]; rfl, fun h => by cases h⟩
  | writeThrough =>
    dsimp only
    rw [testWait_completing rfl rfl (by exact hr), if_neg hc]
    refine ⟨fun h => ?_, fun _ h => if_pos h⟩
    have hany : anyBelow s.sb.lines s.sb.ageCounter = false := h.resolve_left (by decide)
    exact if_neg (by exact Bool.eq_false_iff.mp hany)

/-- R8, R13, R156: the front port after an accepted sector whose content `c` has been taken, in the terms of the statements;
`lines` are the lines that stand then. -/
theorem acceptSector_eq {n : Nat} {data : Sector} {sb : Staging} {s c : State} {r : Request} (hr : s.fp.req = some r)
    (hcode : r.code = 2) (hs : inService s.ps.power = true) (hc : takeContent n data (countTaken { s with sb := sb }) = c)
    (hfp : c.fp = (countTaken s).fp) (hsb : c.sb = sb) (hsm : c.sm.mode = s.sm.mode) (hpow : c.ps.power = s.ps.power) :
    ∃ (f : FrontPort) (m : MediaPort) (l : List Line), acceptSector n data sb s =
        { c with fp := f, mp := { m with resetPulses := c.mp.resetPulses }, sb := { c.sb with lines := l } } ∧
      OnlyDrainStarted sb.lines l ∧ f.port ≠ .held ∧ GrantsDone (acceptSector n data sb s) ∧
      (r.taken + 1 < r.count.toNat → f = { s.fp with
        req := some { r with taken := r.taken + 1 }, port := .taking, held := none, holdStart := none }) ∧
      (r.count.toNat ≤ r.taken + 1 →
        (s.sm.mode = .writeBack ∨ anyBelow sb.lines sb.ageCounter = false →
          f.port = .answering ∧ f.response = some { answer := .ok, sectors := r.taken + 1, payload := [] }) ∧
        (s.sm.mode = .writeThrough → anyBelow sb.lines sb.ageCounter = true →
          f.port = .completing ∧ f.mark = some sb.ageCounter)) := by
  have hcs : inService c.ps.power = true := by rw [hpow]; exact hs
  have hp := ne_holdup_of_inService hcs
  have hg := pump_grantOnly hp
  have hd := pump_onlyDrainStarted hp
  rw [hsb] at hd
  have hfp' : (pump c).fp = { s.fp with
      req := some { r with taken := r.taken + 1 }, port := .taking, held := none, holdStart := none } := by
    rw [hg.fp, hfp, countTaken, hr]
    rfl
  have hreq : (pump c).fp.req = some { r with taken := r.taken + 1 } := by rw [hfp']
  have hacc : acceptSector n data sb s = if r.count.toNat ≤ r.taken + 1 then answerWrite (pump c) else pump c := by
    rw [acceptSector, hc, allTaken, hreq]
    simp
  have hgd := pump_grantsDone hcs
  rw [hacc]
  split
  · next hall =>
    obtain ⟨hok, hwait⟩ := answerWrite_eq hreq (by rw [hcode]; decide)
    rw [hg.sm, hsm, hg.sbAgeCounter, hsb, hd.anyBelow] at hok hwait
    by_cases hnow : s.sm.mode = .writeBack ∨ anyBelow sb.lines sb.ageCounter = false
    · rw [hok hnow]
      refine ⟨okPort (r.taken + 1) (pump c).fp, (pump c).mp, (pump c).sb.lines, ?_, hd, by simp [okPort], hgd,
        fun h => absurd h (by omega), fun _ => ⟨fun _ => ⟨rfl, rfl⟩, fun hm hany => ?_⟩⟩
      · rw [hg.fp]
        conv_lhs => rw [hg.eq]
      · rw [hm, hany] at hnow
        cases hnow.resolve_left (by decide)
    · rw [not_or, Bool.not_eq_false] at hnow
      obtain ⟨hm, hany⟩ := hnow
      have hm : s.sm.mode = .writeThrough := by cases h : s.sm.mode <;> simp_all
      rw [hwait hm hany]
      refine ⟨{ (pump c).fp with port := .completing, mark := some sb.ageCounter }, (pump c).mp, (pump c).sb.lines, ?_,
        hd, by simp, hgd, fun h => absurd h (by omega), fun _ => ⟨fun h => ?_, fun _ _ => ⟨rfl, rfl⟩⟩⟩
      · rw [hg.fp]
        conv_lhs => rw [hg.eq]
      · rw [hm, hany] at h
        cases h.resolve_left (by decide)
  · next hall =>
    refine ⟨(pump c).fp, (pump c).mp, (pump c).sb.lines, ?_, hd, ?_, hgd, fun _ => hfp', fun h => absurd h hall⟩
    · rw [hg.fp]
      conv_lhs => rw [hg.eq]
    · rw [hfp']
      simp

/-- R8, R13, R156: the write goes on as the statements say, where the front port is the one of an accepted sector. -/
theorem writeGoesOn_of {sb : Staging} {r : Request} {s t : State} {f : FrontPort} (ht : t.fp = f)
    (h1 : r.taken + 1 < r.count.toNat → f = { s.fp with
      req := some { r with taken := r.taken + 1 }, port := .taking, held := none, holdStart := none })
    (h2 : r.count.toNat ≤ r.taken + 1 →
      (s.sm.mode = .writeBack ∨ anyBelow sb.lines sb.ageCounter = false →
        f.port = .answering ∧ f.response = some { answer := .ok, sectors := r.taken + 1, payload := [] }) ∧
      (s.sm.mode = .writeThrough → anyBelow sb.lines sb.ageCounter = true →
        f.port = .completing ∧ f.mark = some sb.ageCounter)) : WriteGoesOn sb r s t := by
  subst ht
  refine ⟨h1, fun hall => ⟨(h2 hall).1, fun hm hany => ?_⟩⟩
  obtain ⟨hp, hmark⟩ := (h2 hall).2 hm hany
  exact ⟨hp, hmark, by rw [waitPin, hp]⟩

/-- R83, R175: what joins the changed set before the offers is there after them, or has been admitted. -/
theorem changedBy_of_offers {put marked : Nat → Prop} {s u t : State} (h : OfferEffect u t)
    (hc : ∀ o, o ∈ u.ru.changed ↔ put o ∨ o ∈ s.ru.changed) (hp : ∀ o ∈ u.ru.pending, o ∈ s.ru.pending ∨ marked o) :
    ChangedBy put marked s t := by
  refine ⟨fun o ho => ?_, fun o ho => (hc o).mp (h.changedSub o ho)⟩
  obtain hk | ⟨hpend, hst⟩ := h.changedKept o ((hc o).mpr ho)
  · exact .inl hk
  · exact .inr ⟨hst, hp o hpend⟩

/-! ### A data sector taken into its zone (R73, R75) -/

theorem zoneOf_lt {zones : List ZoneEntry} {n k : Nat} (h : zoneOf zones n = some k) : k < zones.length := by
  simp only [zoneOf] at h
  exact (List.findIdx?_eq_some_iff_findIdx_eq.mp h).1

/-- The runtime record of an OPEN zone that takes sector `n`. -/
def Runtime.append (n : Nat) (data : Sector) (r : Runtime) : Runtime :=
  { r with fillMark := n + 1, crcReg := crc32Update r.crcReg data }

/-- R73, R75: a sector of an OPEN zone advances its fill mark and CRC register, and puts its check sector into the changed
set. -/
theorem appendToZone_opened {s : State} {n k : Nat} {data : Sector} (hz : zoneOf s.zu.zones n = some k)
    (ho : (zoneAt s k).state = .opened) : appendToZone n data s =
      runtimeChange k (setRuntime k ((runtimeAt s k).append n data) s) := by
  rw [appendToZone, hz]
  exact if_pos ho

/-- R73, R75: what the content of a data sector changes: the record of its zone, and the changed set. -/
theorem appendToZone_eq {s : State} {n : Nat} {data : Sector} : appendToZone n data s = { s with
    zu := { s.zu with runtimes := (appendToZone n data s).zu.runtimes }
    ru := { s.ru with changed := (appendToZone n data s).ru.changed } } := by
  unfold appendToZone
  split
  · rfl
  · split <;> rfl

/-- R2, R8: a placed sector changes lines and age counter. -/
theorem placeSector_eq {sb t : Staging} {cls : LineClass} {sector : Nat} {zone : Option Nat} {reserve : Nat}
    {data : Sector} (h : placeSector sb cls sector zone reserve data = some t) :
    t = { sb with lines := t.lines, ageCounter := t.ageCounter } := by
  obtain ⟨i, l, -, rfl⟩ | ⟨i, l, -, -, -, -, -, rfl⟩ := placeSector_cases h <;> rfl

/-- R45: a sector below T, and the header, is not validated. -/
theorem takeFrame_unchecked {s : State} {n : Nat} {data : Sector} (h : validation s n data = none) :
    takeFrame n data s = offerSector n data s := by
  delta takeFrame
  generalize validation s n data = v at *
  subst h
  rfl

theorem validation_below {s : State} {n : Nat} {data : Sector} (h : n < tailBase s) : validation s n data = none := by
  have hn : tailOffset? s n = none := if_pos h
  delta validation
  generalize tailOffset? s n = v at *
  subst hn
  rfl

/-- R8: a sector below T is taken into its zone. -/
theorem takeContent_below {s : State} {n : Nat} {data : Sector} (h : n < tailBase s) :
    takeContent n data s = appendToZone n data s := by
  have hn : tailOffset? s n = none := if_pos h
  delta takeContent
  generalize tailOffset? s n = v at *
  subst hn
  rfl

/-- The content of a data sector, taken into a state whose zone table and records are those of `s`. -/
theorem dataContent {s u : State} {n : Nat} {data : Sector} (hz : s.zu.zones.length = 64) (hr : s.zu.runtimes.length = 64)
    (hu : u.zu = s.zu) (ho : ∀ k, zoneOf s.zu.zones n = some k → (zoneAt s k).state = .opened) :
    (∀ k, zoneOf s.zu.zones n = some k → runtimeAt (appendToZone n data u) k = (runtimeAt s k).append n data) ∧
    (∀ k, zoneOf s.zu.zones n ≠ some k → runtimeAt (appendToZone n data u) k = runtimeAt s k) ∧
    ∀ o, o ∈ (appendToZone n data u).ru.changed ↔ (∃ k, zoneOf s.zu.zones n = some k ∧ o = 13 + k / 16) ∨
      o ∈ u.ru.changed := by
  have hru : ∀ k, runtimeAt u k = runtimeAt s k := fun k => by rw [runtimeAt, hu, runtimeAt]
  cases hk : zoneOf s.zu.zones n with
  | none =>
    have hn : appendToZone n data u = u := by rw [appendToZone, hu, hk]
    rw [hn]
    exact ⟨fun k h => (by cases h), fun k _ => hru k, fun o => by simp⟩
  | some j =>
    have hj : j < u.zu.runtimes.length := by rw [hu, hr, ← hz]; exact zoneOf_lt hk
    have hopen : (zoneAt u j).state = .opened := by rw [zoneAt, hu]; exact ho j hk
    rw [appendToZone_opened (by rw [hu]; exact hk) hopen]
    refine ⟨fun k h => ?_, fun k h => ?_, fun o => ?_⟩
    · obtain rfl := Option.some.inj h
      rw [← hru]
      exact runtimeAt_setRuntime_self j _ u hj
    · rw [← hru]
      exact runtimeAt_setRuntime_ne j k _ u fun e => h (e ▸ rfl)
    · rw [runtimeChange, mem_noteChanged]
      simp [checkOffset]

/-- Settles O15: the frame's sector is accepted, and the offers of the step leave what it brought about. -/
theorem frameAdmitted : Obligations.FrameAdmitted := by
  intro data s r sb hsz ht hr hcode hcrit hhold hn hz ha
  have hs := inService_of_takesSector ht hhold
  generalize hnn : r.sector.toNat + r.taken = n at *
  obtain ⟨hlen, h8, hz64, hr64⟩ := hsz
  have hadm := ha
  rw [frontAdmitTest_data hn hz] at hadm
  obtain ⟨hpl, -⟩ := admitTest_admitted hadm
  have hstep : exec (.dataFrame data) s = .next (settle s (acceptSector n (toSector data) sb s)) := by
    rw [exec_dataFrame ht hr, hnn, takeFrame_unchecked (validation_below hn),
      offerSector_admitted hcrit hhold hz (by omega) ha]
  have hc : takeContent n (toSector data) (countTaken { s with sb := sb }) =
      appendToZone n (toSector data) (countTaken { s with sb := sb }) :=
    takeContent_below hn
  obtain ⟨hfill, hother, hchanged⟩ := dataContent (data := toSector data) (u := countTaken { s with sb := sb }) hz64 hr64 rfl hz
  obtain ⟨f, m, l, hacc, hd, hport, -, hf1, hf2⟩ := acceptSector_eq hr hcode hs hc (by simp; rfl) (by simp; rfl) (by simp; rfl)
    (by simp; rfl)
  generalize acceptSector n (toSector data) sb s = a at *
  have hap : a.ps.power ≠ .holdup := by rw [hacc]; simp; exact hhold
  have hah : a.fp.port ≠ .held := by rw [hacc]; exact hport
  have he := settle_offerEffect s hap hah
  generalize settle s a = t at *
  obtain ⟨i, hst, hoth⟩ := placeSector_storedAt hpl h8
  have hfront : FrontLinesKept sb.lines t.sb.lines := by
    refine FrontLinesKept.trans ?_ he.front
    rw [hacc]
    exact hd.frontLinesKept
  have hzu : t.zu = (appendToZone n (toSector data) (countTaken { s with sb := sb })).zu := by
    rw [he.only.zu, hacc]
  have hrun : ∀ k, runtimeAt t k =
      runtimeAt (appendToZone n (toSector data) (countTaken { s with sb := sb })) k := fun k => by
    rw [runtimeAt, hzu, runtimeAt]
  have hchg : ChangedBy (fun o => ∃ k, zoneOf s.zu.zones n = some k ∧ o = 13 + k / 16) (fun _ => False) s t := by
    refine changedBy_of_offers he (fun o => ?_) fun o ho => ?_
    · rw [hacc]
      exact hchanged o
    · rw [hacc] at ho
      simp only [appendToZone_frame] at ho
      exact .inl ho
  refine ⟨t, hstep, ?_, ⟨⟨i, hst.frontLinesKept (by decide) hfront, otherLinesKept_of hoth hfront⟩, fun k hk => ?_,
    fun k hk => ?_⟩, hchg, ?_, ?_⟩
  · exact writeGoesOn_of (by rw [he.only.fp, hacc]) hf1 hf2
  · rw [hrun, hfill k hk]
    refine ⟨rfl, rfl, rfl, rfl, ?_⟩
    exact (hchg.1 _ (.inl ⟨k, hk, rfl⟩)).imp_right And.left
  · rw [hrun, hother k hk]
  · obtain ⟨l', a', m', p', o', x', c', ht'⟩ := he.only.onlyOffers.exists_eq
    rw [hacc, appendToZone_eq, placeSector_eq hpl] at ht'
    rw [ht']
    rfl
  · rw [he.only.ruAttn, hacc]
    simp
    rfl

end Sys2Proof.Machine
end

