-- ==== Sys2Proof/Proofs/P10.lean ====
section
/-! Front sectors that are refused or held (R9, R10, R45 to R47, R63, R70, R156). -/

namespace Sys2Proof.Machine

open Sys2Proof

/-! ### An entry sector that passes every check is not refused (R46, R47) -/

theorem finalTable_getElem? (s : State) (sec : Nat) (data : Sector) {j : Nat} (hj : j < 64) :
    (finalTable s.zu.zones sec data)[j]? = some (finalEntry s sec data j) := by
  simp only [finalTable, List.getElem?_map, List.getElem?_range hj, Option.map_some]
  rfl

theorem finalEntry_own (s : State) {sec pos : Nat} (data : Sector) (hp : pos < 16) :
    finalEntry s sec data (16 * sec + pos) = rawEntry data pos := by
  rw [finalEntry, if_pos (by omega)]
  congr 1
  omega

theorem RawEntry.used_iff (e : RawEntry) : e.used = true ↔ e.st = 1 ∨ e.st = 2 := by
  simp [RawEntry.used]

/-- Two ranges that meet share the larger of their bases. -/
theorem entryHolds_of_rangesMeet {a b : RawEntry} (h : rangesMeet a b = true) (ha : a.used = true) (hb : b.used = true) :
    EntryHolds a (max a.base b.base) ∧ EntryHolds b (max a.base b.base) := by
  simp only [rangesMeet, Bool.and_eq_true, decide_eq_true_eq] at h
  exact ⟨⟨(RawEntry.used_iff a).mp ha, by omega, by omega⟩, (RawEntry.used_iff b).mp hb, by omega, by omega⟩

theorem entryFails_of_overlapFails {s : State} {sec pos : Nat} {data : Sector} (hp : pos < 16)
    (h : overlapFails (finalTable s.zu.zones sec data) (16 * sec + pos) (rawEntry data pos) = true) :
    EntryFails s sec data (16 * sec + pos) .overlap := by
  simp only [overlapFails, Bool.and_eq_true, List.any_eq_true, bne_iff_ne] at h
  obtain ⟨hu, ⟨b, j⟩, hmem, ⟨hj, hb⟩, hmeet⟩ := h
  have hget := List.mem_zipIdx_iff_getElem?.mp hmem
  have hj64 : j < 64 := by
    have := (List.getElem?_eq_some_iff.mp hget).1
    simpa [finalTable] using this
  rw [finalTable_getElem? s sec data hj64] at hget
  obtain rfl := Option.some.inj hget
  obtain ⟨h1, h2⟩ := entryHolds_of_rangesMeet hmeet hu hb
  exact ⟨j, _, hj64, hj, by rw [finalEntry_own s data hp]; exact h1, h2⟩

theorem entryCheck_none_of_passes {s : State} {sec pos : Nat} {data : Sector} (hp : pos < 16)
    (h : ∀ d, ¬EntryFails s sec data (16 * sec + pos) d) :
    entryCheck (tailBase s) (finalTable s.zu.zones sec data) (zoneAt s (16 * sec + pos)) (16 * sec + pos)
      (rawEntry data pos) = none := by
  have he := finalEntry_own s (sec := sec) data hp
  have hstate : ¬3 ≤ (rawEntry data pos).st := fun h3 => h .state (by rw [EntryFails, he]; exact h3)
  have halign : alignFails (rawEntry data pos) = false := Bool.eq_false_iff.mpr fun ha => h .align (by
    rw [EntryFails, he]
    simpa [alignFails, RawEntry.used, or_assoc] using ha)
  have hbounds : boundsFails (tailBase s) (rawEntry data pos) = false := Bool.eq_false_iff.mpr fun ha => h .bounds (by
    rw [EntryFails, he]
    simpa [boundsFails, RawEntry.used] using ha)
  have hover : overlapFails (finalTable s.zu.zones sec data) (16 * sec + pos) (rawEntry data pos) = false :=
    Bool.eq_false_iff.mpr fun ha => h .overlap (entryFails_of_overlapFails hp ha)
  have hst : (rawEntry data pos).st = 0 ∨ (rawEntry data pos).st = 1 ∨ (rawEntry data pos).st = 2 := by omega
  have htrans : legalMove (zoneAt s (16 * sec + pos)).state (zoneStateOf (rawEntry data pos).st) = true := by
    have := h .transition
    rw [EntryFails, he] at this
    obtain e | e | e := hst <;> cases hz : (zoneAt s (16 * sec + pos)).state <;>
      simp [hz, e, zoneStateOf, legalMove] at this ⊢
  have hchanged : changedFails (zoneAt s (16 * sec + pos)) (rawEntry data pos) = false :=
    Bool.eq_false_iff.mpr fun ha => h .changed (by
      rw [EntryFails, he]
      simp only [changedFails, Bool.and_eq_true, bne_iff_ne, Bool.or_eq_true] at ha
      obtain ⟨⟨⟨hold, hu⟩, hmove⟩, hdiff⟩ := ha
      refine ⟨?_, hdiff⟩
      obtain e | e := (RawEntry.used_iff _).mp hu <;> cases hz : (zoneAt s (16 * sec + pos)).state <;>
        simp [hz, e, zoneStateOf, legalMove] at hold hmove ⊢)
  rw [entryCheck, if_neg hstate, halign, hbounds, hover, htrans, hchanged]
  rfl

/-- R47: a sector whose every entry passes every check is not refused. -/
theorem validateSector_none_of_passes {s : State} {sec : Nat} {data : Sector} (h : SectorPasses s sec data) :
    validateSector s sec data = none := by
  simp only [validateSector, List.findSome?_eq_none_iff, List.mem_range]
  exact fun pos hp => entryCheck_none_of_passes hp (h pos hp)

/-- R45: only a sector of tail offset 1 to 4 is validated. -/
theorem validation_none {s : State} {n : Nat} {data : Sector}
    (h : ∀ o, 1 ≤ o → o ≤ 4 → n = tailBase s + o → validateSector s (o - 1) data = none) : validation s n data = none := by
  by_cases hn : n < tailBase s
  · exact validation_below hn
  · have ho : tailOffset? s n = some (n - tailBase s) := if_neg hn
    delta validation
    generalize tailOffset? s n = v at *
    subst ho
    dsimp only
    split
    · next hr => exact h _ hr.1 hr.2 (by omega)
    · rfl

/-! ### A sector that staging refuses (R9, R70) -/

theorem markedSince_of_ru {a b : State} (h : b.ru = a.ru) : markedSince a b = false := by
  simp [markedSince, h]

theorem retryDue_of_eq {a b : State} (hl : b.sb.lines = a.sb.lines) (hm : b.sm = a.sm)
    (hr : b.zu.settings.reserve = a.zu.settings.reserve) : retryDue a b = false := by
  simp [retryDue, hl, hm, hr]

theorem settle_of_not_due {a b : State} (h : retryDue a b = false) (hm : markedSince a b = false) : settle a b = pump b := by
  rw [settle, react_of_not_due h hm]

/-- R166: in HOLDUP, with no request of the sequence waiting, nothing is granted. -/
theorem pump_holdup_none {s : State} (hp : s.ps.power = .holdup) (hw : s.mp.waiters.holdup = none) :
    pump s = syncDrain s := by
  have hg : grantNext (syncDrain s) = syncDrain s := by
    have hp' : (syncDrain s).ps.power = .holdup := by rw [syncDrain_eq]; exact hp
    have hw' : (syncDrain s).mp.waiters.holdup = none := by rw [syncDrain_eq]; exact hw
    unfold grantNext
    rw [hp', hw']
    exact ite_self _
  rw [pump, hg, syncDrain_syncDrain]

/-- R166: with no request of the hold-up sequence waiting a grant changes the media port and a line's state alone. -/
theorem pump_grantOnly_of {s : State} (h : s.ps.power = .holdup → s.mp.waiters.holdup = none) :
    GrantOnly s (pump s) ∧ OnlyDrainStarted s.sb.lines (pump s).sb.lines := by
  by_cases hp : s.ps.power = .holdup
  · rw [pump_holdup_none hp (h hp), syncDrain_lines]
    exact ⟨syncDrain_grantOnly s, .inl rfl⟩
  · exact ⟨pump_grantOnly hp, pump_onlyDrainStarted hp⟩

theorem offerSector_refused {s : State} {n m : Nat} {data : Sector} {a : Answer} (h : admissionRefusal s n = some (a, m)) :
    offerSector n data s = refuse a (maskFlag m) (takenCount s) [] s := by
  rw [offerSector, h]

/-- R9, R63, R70: a front sector that staging refuses ends its request, and nothing of it reaches staging. -/
theorem frame_refused {data : Sector} {s : State} {r : Request} {a : Answer} {m : Nat} (ht : takesSector s = true)
    (hr : s.fp.req = some r) (hv : validation s (r.sector.toNat + r.taken) (toSector data) = none)
    (hw : s.ps.power = .holdup → s.mp.waiters.holdup = none)
    (h : admissionRefusal s (r.sector.toNat + r.taken) = some (a, m)) :
    ∃ t, exec (.dataFrame data) s = .next t ∧ Answers t a r.taken [] ∧
      Recorded t a r.code r.count r.sector (maskFlag m) r.taken ∧ OnlyDrainStarted s.sb.lines t.sb.lines ∧
      t = { s with fp := t.fp, wc := { s.wc with refusal := t.wc.refusal },
                   mp := { t.mp with resetPulses := s.mp.resetPulses }, sb := { s.sb with lines := t.sb.lines } } := by
  obtain ⟨f, w, hu⟩ : ∃ (f : FrontPort) (w : RefusalRecord), refuse a (maskFlag m) r.taken [] s =
      { s with fp := f, wc := { s.wc with refusal := w } } := ⟨_, _, refuse_eq a (maskFlag m) r.taken [] s⟩
  have hrec := refuse_recorded (a := a) (m := maskFlag m) (n := r.taken) (p := []) hr
  have hans : Answers (refuse a (maskFlag m) r.taken [] s) a r.taken [] := ⟨by simp, by simp⟩
  have hstep : exec (.dataFrame data) s = .next (pump (refuse a (maskFlag m) r.taken [] s)) := by
    rw [exec_dataFrame ht hr, takeFrame_unchecked hv, offerSector_refused h, takenCount_of_req hr, settle_of_not_due]
    · exact retryDue_of_eq (by simp) (by simp) (by simp)
    · exact markedSince_of_ru (by simp)
  generalize refuse a (maskFlag m) r.taken [] s = u at *
  obtain ⟨hg, hd⟩ := pump_grantOnly_of (s := u) (by rw [hu]; exact hw)
  generalize pump u = t at *
  subst hu
  refine ⟨t, hstep, ?_, ?_, hd, ?_⟩
  · rw [Answers, hg.fp]; exact hans
  · rw [Recorded, hg.wc]; exact hrec
  · rw [hg.fp, hg.wc]
    exact hg.eq

/-- R9: what the admission test of a front sector refuses. -/
theorem admissionRefusal_cases (s : State) (n : Nat) :
    (s.ps.power = .critical → admissionRefusal s n = some (.powerCritical, 3)) ∧
    (s.ps.power = .holdup → admissionRefusal s n = some (.powerHoldup, 3)) ∧
    (s.ps.power ≠ .critical → s.ps.power ≠ .holdup →
      (∀ k, zoneOf s.zu.zones n = some k → (zoneAt s k).state = .closed →
        admissionRefusal s n = some (.protectedClosed, 8)) ∧
      ((∀ k, zoneOf s.zu.zones n = some k → (zoneAt s k).state ≠ .closed) →
        (tailBase s + 5 ≤ n ∧ n ≤ tailBase s + 10) ∨ (tailBase s + 17 ≤ n ∧ n ≤ tailBase s + 31) →
        admissionRefusal s n = some (.protectedOwned, 4))) := by
  refine ⟨fun h => if_pos h, fun h => ?_, fun hc hh => ⟨fun k hk hz => ?_, fun hz hn => ?_⟩⟩
  · rw [admissionRefusal, if_neg (by rw [h]; decide), if_pos h]
  · rw [admissionRefusal, if_neg hc, if_neg hh, if_pos (by simp [hk, hz])]
  · have hz' : ((zoneOf s.zu.zones n).any fun k => (zoneAt s k).state == .closed) = false := by
      cases hk : zoneOf s.zu.zones n with
      | none => rfl
      | some k => simp [hz k hk]
    rw [admissionRefusal, if_neg hc, if_neg hh, hz', if_neg (by decide), if_pos (by simpa [inLiveWindow, inImageArea] using hn)]

/-- R37, R48: the zone a sector lies in is the one that holds it. -/
theorem zoneOf_holds {s : State} {n k : Nat} (h : zoneOf s.zu.zones n = some k) : (zoneAt s k).holds n = true := by
  obtain ⟨hk, hh, -⟩ := List.findIdx?_eq_some_iff_getElem.mp h
  rw [zoneAt, List.getD_eq_getElem _ _ hk]
  exact hh

theorem zoneOf_of_holds {s : State} {n k : Nat} (hz : ZonesApart s) (h : (zoneAt s k).holds n = true) :
    zoneOf s.zu.zones n = some k := by
  cases hj : zoneOf s.zu.zones n with
  | none =>
    have hall := List.findIdx?_eq_none_iff.mp hj
    have hk : k < s.zu.zones.length := by
      by_contra hk
      rw [zoneAt, List.getD_eq_default _ _ (by omega)] at h
      cases h
    rw [zoneAt, List.getD_eq_getElem _ _ hk] at h
    rw [hall _ (List.getElem_mem hk)] at h
    cases h
  | some j =>
    by_contra hne
    have hne' : j ≠ k := fun e => hne (e ▸ rfl)
    rw [hz.2 j k n hne' (zoneOf_holds hj)] at h
    cases h

/-- R9: a sector of a CLOSED zone, of the live window or of the image area is refused. -/
theorem admissionRefusal_some {s : State} {n : Nat} (hz : ZonesApart s)
    (h : s.ps.power = .critical ∨ s.ps.power = .holdup ∨ StagingRefused s n) : ∃ a m, admissionRefusal s n = some (a, m) := by
  obtain ⟨hc, hh, hrest⟩ := admissionRefusal_cases s n
  by_cases hpc : s.ps.power = .critical
  · exact ⟨_, _, hc hpc⟩
  by_cases hph : s.ps.power = .holdup
  · exact ⟨_, _, hh hph⟩
  obtain ⟨hclosed, howned⟩ := hrest hpc hph
  obtain ⟨k, hk, hholds⟩ | hn := (h.resolve_left hpc).resolve_left hph
  · exact ⟨_, _, hclosed k (zoneOf_of_holds hz hholds) hk⟩
  · by_cases hex : ∃ k, zoneOf s.zu.zones n = some k ∧ (zoneAt s k).state = .closed
    · obtain ⟨k, hk, hcl⟩ := hex
      exact ⟨_, _, hclosed k hk hcl⟩
    · exact ⟨_, _, howned (fun k hk hcl => hex ⟨k, hk, hcl⟩) hn⟩

/-- R10: a front sector that is not admitted is held, and nothing else changes but by the grant of the step. -/
theorem frame_held {data : Sector} {s : State} {r : Request} {why : HoldReason} (ht : takesSector s = true)
    (hr : s.fp.req = some r) (hc : s.ps.power ≠ .critical) (hh : s.ps.power ≠ .holdup)
    (hv : validation s (r.sector.toNat + r.taken) (toSector data) = none)
    (hz : ∀ k, zoneOf s.zu.zones (r.sector.toNat + r.taken) = some k → (zoneAt s k).state = .opened)
    (hn : r.sector.toNat + r.taken ≤ tailBase s + 4)
    (ha : frontAdmitTest s (r.sector.toNat + r.taken) (toSector data) = .refused why) :
    exec (.dataFrame data) s = .next (pump (holdSector (toSector data) why s)) := by
  rw [exec_dataFrame ht hr, takeFrame_unchecked hv, offerSector, admissionRefusal_none hc hh hz hn]
  dsimp only
  rw [ha, settle_of_not_due]
  · exact retryDue_of_eq rfl rfl rfl
  · exact markedSince_of_ru rfl

/-- Settles O16. -/
theorem frameHeld : Obligations.FrameHeld := by
  refine ⟨fun data s r n ht hr hn hv hw => ?_, fun data s r why ht hr hc hh hn hv hz ha => ?_⟩
  · subst hn
    have hv' := validation_none hv
    obtain ⟨hcrit, hhold, hrest⟩ := admissionRefusal_cases s (r.sector.toNat + r.taken)
    cases ha : admissionRefusal s (r.sector.toNat + r.taken) with
    | none =>
      refine ⟨_, exec_dataFrame ht hr, fun h => ?_, fun h => ?_, fun k h1 h2 hk hz => ?_, fun h1 h2 hz hn => ?_,
        fun h hz _ => ?_⟩
      · cases ha.symm.trans (hcrit h)
      · cases ha.symm.trans (hhold h)
      · cases ha.symm.trans ((hrest h1 h2).1 k hk hz)
      · cases ha.symm.trans ((hrest h1 h2).2 hz hn)
      · obtain ⟨a, m, h'⟩ := admissionRefusal_some hz h
        cases ha.symm.trans h'
    | some p =>
      obtain ⟨a, m⟩ := p
      obtain ⟨t, hex, hans, hrec, hd, heq⟩ := frame_refused ht hr hv' hw ha
      refine ⟨t, hex, fun h => ?_, fun h => ?_, fun k h1 h2 hk hz => ?_, fun h1 h2 hz hn => ?_, fun _ _ _ => ⟨hd, heq⟩⟩
      · cases ha.symm.trans (hcrit h)
        exact ⟨hans, hrec⟩
      · cases ha.symm.trans (hhold h)
        exact ⟨hans, hrec⟩
      · cases ha.symm.trans ((hrest h1 h2).1 k hk hz)
        exact ⟨hans, hrec⟩
      · cases ha.symm.trans ((hrest h1 h2).2 hz hn)
        exact ⟨hans, hrec⟩
  · have hv' : validation s (r.sector.toNat + r.taken) (toSector data) = none :=
      validation_none fun o h1 _ he => validateSector_none_of_passes (hv o h1 he).2
    have hport : s.fp.port ≠ .held := by rw [((takesSector_iff s).mp ht).2.1]; decide
    have hg := pump_grantOnly (s := holdSector (toSector data) why s) hh
    have hd := pump_onlyDrainStarted (s := holdSector (toSector data) why s) hh
    have hfp : (pump (holdSector (toSector data) why s)).fp = { s.fp with
        port := .held, holdStart := some s.uptimeMs, held := some { data := toSector data, reason := why } } := by
      rw [hg.fp, holdSector, if_neg hport]
    refine ⟨_, frame_held ht hr hc hh hv' hz hn ha, by rw [waitPin, hfp], hfp, hd, ?_⟩
    rw [hg.fp]
    exact hg.eq

end Sys2Proof.Machine
end

