-- ==== Sys2Proof/Proofs/P11.lean ====
section
/-! Admitted map sectors: entries move their zones, a header replaces the settings (R8, R39, R41, R49 to R52, R78, R109,
R141). -/

namespace Sys2Proof.Machine

open Sys2Proof

/-! ### One entry (R49 to R52) -/

theorem zoneAt_eq_unused {s : State} {k : Nat} (h : s.zu.zones.length ≤ k) : zoneAt s k = .unused :=
  List.getD_eq_default _ _ h

theorem zoneAt_lt {s : State} {k : Nat} (hz : s.zu.zones.length = 64) (h : (zoneAt s k).state ≠ .unused) : k < 64 := by
  by_contra hk
  exact h (by rw [zoneAt_eq_unused (by omega)]; rfl)

/-- R49: an entry changes the table, the records, and RU's two sets. -/
theorem applyEntry_eq (k : Nat) (e : RawEntry) (s : State) : applyEntry k e s = { s with
    zu := { s.zu with zones := (applyEntry k e s).zu.zones, runtimes := (applyEntry k e s).zu.runtimes }
    ru := { s.ru with pending := (applyEntry k e s).ru.pending, changed := (applyEntry k e s).ru.changed } } := by
  unfold applyEntry
  split <;> rfl

/-- R49 to R52: the runtime record that an entry leaves its zone. -/
def entryRuntime (s : State) (k : Nat) (e : RawEntry) : Runtime :=
  if zoneStateOf e.st = (zoneAt s k).state then runtimeAt s k
  else movedRuntime s (zoneAt s k).state (zoneStateOf e.st) e.base (runtimeAt s k)

theorem applyEntry_zone {k : Nat} {e : RawEntry} {s : State} (hz : k < s.zu.zones.length) :
    zoneAt (applyEntry k e s) k = enteredZone e := by
  unfold applyEntry
  split <;> exact zoneAt_setZone_self k _ s hz

theorem applyEntry_runtime {k : Nat} {e : RawEntry} {s : State} (hr : k < s.zu.runtimes.length) :
    runtimeAt (applyEntry k e s) k = entryRuntime s k e := by
  unfold applyEntry entryRuntime
  split
  · rfl
  · exact runtimeAt_setRuntime_self k _ _ hr

theorem applyEntry_other {k j : Nat} {e : RawEntry} {s : State} (h : j ≠ k) :
    zoneAt (applyEntry k e s) j = zoneAt s j ∧ runtimeAt (applyEntry k e s) j = runtimeAt s j := by
  unfold applyEntry
  split
  · exact ⟨zoneAt_setZone_ne k j _ s h, rfl⟩
  · exact ⟨zoneAt_setZone_ne k j _ s h, runtimeAt_setRuntime_ne k j _ _ h⟩

/-- R49, R83: a transition marks the zone's check sector and puts it into the changed set. -/
theorem applyEntry_sets {k o : Nat} {e : RawEntry} {s : State} :
    (o ∈ (applyEntry k e s).ru.pending ↔ (zoneStateOf e.st ≠ (zoneAt s k).state ∧ o = 13 + k / 16) ∨ o ∈ s.ru.pending) ∧
    (o ∈ (applyEntry k e s).ru.changed ↔ (zoneStateOf e.st ≠ (zoneAt s k).state ∧ o = 13 + k / 16) ∨ o ∈ s.ru.changed) := by
  unfold applyEntry
  split
  · next h => simp [h, setZone]
  · next h => simp [h, setZone, setRuntime, runtimeChange, checkOffset]

theorem applyEntry_lengths (k : Nat) (e : RawEntry) (s : State) :
    (applyEntry k e s).zu.zones.length = s.zu.zones.length ∧
      (applyEntry k e s).zu.runtimes.length = s.zu.runtimes.length := by
  unfold applyEntry
  split <;> simp [setZone, setRuntime, runtimeChange, noteChanged, markSector]

theorem enteredZone_state (e : RawEntry) : (enteredZone e).state = zoneStateOf e.st := by
  unfold enteredZone
  split
  · next h => exact h.symm
  · rfl

theorem enteredZone_range {e : RawEntry} (h : zoneStateOf e.st ≠ .unused) :
    (enteredZone e).base = e.base ∧ (enteredZone e).length = e.length := by
  rw [enteredZone, if_neg h]
  exact ⟨rfl, rfl⟩

/-- R50 to R52: the record of a zone whose entry makes a legal move. -/
theorem entryRuntime_cases {s : State} {k : Nat} {e : RawEntry} :
    (zoneStateOf e.st = (zoneAt s k).state → entryRuntime s k e = runtimeAt s k) ∧
    ((zoneAt s k).state = .unused → e.st = 1 → entryRuntime s k e =
      { fillMark := e.base, crcReg := 0xFFFFFFFF#32, frozenCrc := 0, drops := 0, worstPeak := 0, minSoc := s.bg.soc,
        interrupted := false, damaged := false, uncertain := false, openWall := wallSeconds s, closeWall := none }) ∧
    ((zoneAt s k).state = .opened → e.st = 2 → entryRuntime s k e =
      { runtimeAt s k with
        frozenCrc := (runtimeAt s k).crcReg ^^^ 0xFFFFFFFF#32, crcReg := 0, closeWall := some (wallSeconds s) }) ∧
    ((zoneAt s k).state ≠ .unused → e.st = 0 → entryRuntime s k e = .cleared) := by
  unfold entryRuntime
  refine ⟨fun h => if_pos h, fun hz he => ?_, fun hz he => ?_, fun hz he => ?_⟩
  · rw [hz, he]; rfl
  · rw [hz, he]; rfl
  · rw [he]
    cases h : (zoneAt s k).state with
    | unused => exact absurd h hz
    | opened => rfl
    | closed => rfl

/-! ### The sixteen entries of a sector (R49) -/

/-- The first `m` entries of an entry sector applied. -/
def applyEntries (sec : Nat) (data : Sector) (m : Nat) (s : State) : State :=
  (List.range m).foldl (fun s pos => applyEntry (16 * sec + pos) (rawEntry data pos) s) s

theorem applyEntries_succ (sec : Nat) (data : Sector) (m : Nat) (s : State) :
    applyEntries sec data (m + 1) s = applyEntry (16 * sec + m) (rawEntry data m) (applyEntries sec data m s) := by
  simp [applyEntries, List.range_succ, List.foldl_append]

theorem applyEntries_eq (sec : Nat) (data : Sector) (m : Nat) (s : State) : ∃ (z : List ZoneEntry) (r : List Runtime)
    (p c : List Nat), applyEntries sec data m s = { s with
      zu := { s.zu with zones := z, runtimes := r }, ru := { s.ru with pending := p, changed := c } } := by
  induction m with
  | zero => exact ⟨_, _, _, _, rfl⟩
  | succ m ih =>
    obtain ⟨z, r, p, c, h⟩ := ih
    rw [applyEntries_succ, applyEntry_eq, h]
    exact ⟨_, _, _, _, rfl⟩

/-- R49: the entries of a sector, each as if it were applied alone. -/
structure EntriesApplied (sec : Nat) (data : Sector) (m : Nat) (s t : State) : Prop where
  zones : t.zu.zones.length = s.zu.zones.length
  runtimes : t.zu.runtimes.length = s.zu.runtimes.length
  own : ∀ pos, pos < m → zoneAt t (16 * sec + pos) = enteredZone (rawEntry data pos) ∧
    runtimeAt t (16 * sec + pos) = entryRuntime s (16 * sec + pos) (rawEntry data pos)
  other : ∀ j, (∀ pos, pos < m → j ≠ 16 * sec + pos) → zoneAt t j = zoneAt s j ∧ runtimeAt t j = runtimeAt s j
  pending : ∀ o, o ∈ t.ru.pending ↔ (∃ pos, pos < m ∧ zoneStateOf (rawEntry data pos).st ≠
    (zoneAt s (16 * sec + pos)).state ∧ o = 13 + (16 * sec + pos) / 16) ∨ o ∈ s.ru.pending
  changed : ∀ o, o ∈ t.ru.changed ↔ (∃ pos, pos < m ∧ zoneStateOf (rawEntry data pos).st ≠
    (zoneAt s (16 * sec + pos)).state ∧ o = 13 + (16 * sec + pos) / 16) ∨ o ∈ s.ru.changed

theorem exists_lt_succ_or {m : Nat} {p : Nat → Prop} {q : Prop} :
    ((∃ n, n < m + 1 ∧ p n) ∨ q) ↔ p m ∨ (∃ n, n < m ∧ p n) ∨ q := by
  simp only [Nat.lt_succ_iff_lt_or_eq, or_and_right, exists_or, exists_eq_left]
  exact or_assoc.trans or_left_comm

theorem applyEntries_applied {sec : Nat} {data : Sector} {s : State} (hz : s.zu.zones.length = 64)
    (hr : s.zu.runtimes.length = 64) (hsec : sec < 4) (m : Nat) (hm : m ≤ 16) :
    EntriesApplied sec data m s (applyEntries sec data m s) := by
  induction m with
  | zero => exact ⟨rfl, rfl, by simp, fun _ _ => ⟨rfl, rfl⟩, by simp [applyEntries], by simp [applyEntries]⟩
  | succ m ih =>
    obtain ⟨h1, h2, hown, hother, hp, hc⟩ := ih (by omega)
    obtain ⟨z, r, p, c, heq⟩ := applyEntries_eq sec data m s
    rw [applyEntries_succ]
    generalize applyEntries sec data m s = u at *
    have hk : zoneAt u (16 * sec + m) = zoneAt s (16 * sec + m) ∧ runtimeAt u (16 * sec + m) = runtimeAt s (16 * sec + m) :=
      hother _ fun pos hpos => by omega
    have hrun : entryRuntime u (16 * sec + m) (rawEntry data m) = entryRuntime s (16 * sec + m) (rawEntry data m) := by
      have hmove : ∀ a b base r, movedRuntime u a b base r = movedRuntime s a b base r := by rw [heq]; exact fun _ _ _ _ => rfl
      rw [entryRuntime, entryRuntime, hk.1, hk.2, hmove]
    obtain ⟨l1, l2⟩ := applyEntry_lengths (16 * sec + m) (rawEntry data m) u
    refine ⟨l1.trans h1, l2.trans h2, fun pos hpos => ?_, fun j hj => ?_, fun o => ?_, fun o => ?_⟩
    · obtain hlt | rfl := Nat.lt_succ_iff_lt_or_eq.mp hpos
      · obtain ⟨e1, e2⟩ := applyEntry_other (k := 16 * sec + m) (j := 16 * sec + pos) (e := rawEntry data m) (s := u) (by omega)
        rw [e1, e2]
        exact hown pos hlt
      · rw [applyEntry_zone (by omega), applyEntry_runtime (by omega), hrun]
        exact ⟨rfl, rfl⟩
    · obtain ⟨e1, e2⟩ := applyEntry_other (e := rawEntry data m) (s := u) (hj m (by omega))
      rw [e1, e2]
      exact hother j fun pos hpos => hj pos (by omega)
    · rw [applyEntry_sets.1, hk.1, hp, exists_lt_succ_or]
    · rw [applyEntry_sets.2, hk.1, hc, exists_lt_succ_or]

/-! ### A SOC change (R78) -/

/-- R78: the zone takes SOC `soc` into its minimum. -/
def socLowers (s : State) (soc k : Nat) : Prop :=
  (zoneAt s k).state = .opened ∧ soc < (runtimeAt s k).minSoc

/-- The record of a zone after a SOC change. -/
def socRuntime (s : State) (soc k : Nat) : Runtime :=
  if (zoneAt s k).state = .opened then { runtimeAt s k with minSoc := min (runtimeAt s k).minSoc soc } else runtimeAt s k

theorem socRuntime_of_not_lowers {s : State} {soc k : Nat} (h : ¬socLowers s soc k) : socRuntime s soc k = runtimeAt s k := by
  unfold socRuntime
  split
  · next ho =>
    have hle : (runtimeAt s k).minSoc ≤ soc := by
      by_contra hlt
      exact h ⟨ho, by omega⟩
    rw [Nat.min_eq_left hle]
  · rfl

theorem socRuntime_of_lowers {s : State} {soc k : Nat} (h : socLowers s soc k) :
    socRuntime s soc k = { runtimeAt s k with minSoc := soc } := by
  rw [socRuntime, if_pos h.1, Nat.min_eq_right h.2.le]

theorem socRuntime_ne_iff {s : State} {soc k : Nat} : socRuntime s soc k ≠ runtimeAt s k ↔ socLowers s soc k := by
  refine ⟨fun h => ?_, fun h he => ?_⟩
  · by_contra hn
    exact h (socRuntime_of_not_lowers hn)
  · rw [socRuntime_of_lowers h] at he
    have := congrArg Runtime.minSoc he
    exact absurd this h.2.ne

theorem forZones_succ (n : Nat) (f : Nat → State → State) (s : State) : forZones (n + 1) f s = f n (forZones n f s) := by
  simp [forZones, List.range_succ, List.foldl_append]

theorem lowerMinSoc_eq (soc k : Nat) (s : State) : lowerMinSoc soc k s = { s with
    zu := { s.zu with runtimes := (lowerMinSoc soc k s).zu.runtimes }
    ru := { s.ru with changed := (lowerMinSoc soc k s).ru.changed } } := by
  unfold lowerMinSoc
  split <;> rfl

/-- R78: the zones below `n` have followed the change. -/
structure SocFollowed (soc n : Nat) (s t : State) : Prop where
  frame : ∃ (r : List Runtime) (c : List Nat), t = { s with zu := { s.zu with runtimes := r }, ru := { s.ru with changed := c } }
  length : t.zu.runtimes.length = s.zu.runtimes.length
  below : ∀ k, k < n → runtimeAt t k = socRuntime s soc k
  above : ∀ k, n ≤ k → runtimeAt t k = runtimeAt s k
  changed : ∀ o, o ∈ t.ru.changed ↔ (∃ k, k < n ∧ socLowers s soc k ∧ o = 13 + k / 16) ∨ o ∈ s.ru.changed

theorem forZones_socFollowed (soc : Nat) {s : State} (hr : s.zu.runtimes.length = 64) (n : Nat) (hn : n ≤ 64) :
    SocFollowed soc n s (forZones n (lowerMinSoc soc) s) := by
  induction n with
  | zero => exact ⟨⟨_, _, rfl⟩, rfl, by simp, fun _ _ => rfl, by simp [forZones]⟩
  | succ n ih =>
    obtain ⟨⟨r, c, heq⟩, hlen, hbelow, habove, hchanged⟩ := ih (by omega)
    rw [forZones_succ]
    generalize forZones n (lowerMinSoc soc) s = u at *
    have hz : zoneAt u n = zoneAt s n := by rw [heq]; rfl
    have hrn := habove n le_rfl
    have hframe : ∃ (r : List Runtime) (c : List Nat), lowerMinSoc soc n u =
        { s with zu := { s.zu with runtimes := r }, ru := { s.ru with changed := c } } := by
      rw [lowerMinSoc_eq]
      generalize (lowerMinSoc soc n u).zu.runtimes = r'
      generalize (lowerMinSoc soc n u).ru.changed = c'
      rw [heq]
      exact ⟨_, _, rfl⟩
    by_cases hlow : socLowers s soc n
    · have hstep : lowerMinSoc soc n u = runtimeChange n (setRuntime n { runtimeAt u n with minSoc := soc } u) :=
        if_pos (by rw [hz, hrn]; exact hlow)
      rw [hstep] at hframe ⊢
      refine ⟨hframe, by simpa [runtimeChange, noteChanged, setRuntime] using hlen, fun k hk => ?_, fun k hk => ?_,
        fun o => ?_⟩
      · obtain hlt | rfl := Nat.lt_succ_iff_lt_or_eq.mp hk
        · rw [← hbelow k hlt]
          exact runtimeAt_setRuntime_ne n k _ u (by omega)
        · rw [socRuntime_of_lowers hlow, ← hrn]
          exact runtimeAt_setRuntime_self k _ u (by omega)
      · rw [← habove k (by omega)]
        exact runtimeAt_setRuntime_ne n k _ u (by omega)
      · rw [runtimeChange, mem_noteChanged, exists_lt_succ_or, ← hchanged o]
        simp [checkOffset, hlow]
    · have hstep : lowerMinSoc soc n u = u := if_neg (by rw [hz, hrn]; exact hlow)
      rw [hstep] at hframe ⊢
      refine ⟨hframe, hlen, fun k hk => ?_, fun k hk => habove k (by omega), fun o => ?_⟩
      · obtain hlt | rfl := Nat.lt_succ_iff_lt_or_eq.mp hk
        · exact hbelow k hlt
        · rw [hrn, socRuntime_of_not_lowers hlow]
      · rw [exists_lt_succ_or, ← hchanged o]
        simp [hlow]

/-- R78: a SOC change reaches every zone. -/
theorem attributeSoc_followed (soc : Nat) {s : State} (hr : s.zu.runtimes.length = 64) :
    SocFollowed soc 64 s (attributeSoc soc s) :=
  forZones_socFollowed soc hr 64 le_rfl

/-- R78, R110, R118, R175: what the publication of a gauge state brings about where no flag changes. -/
structure GaugePublished (g : Gauge) (s t : State) : Prop where
  frame : ∃ (b : Bool) (r : List Runtime) (c : List Nat), t = { s with
    bg := { g with socReported := b }, zu := { s.zu with runtimes := r }, ru := { s.ru with changed := c } }
  minima : MinSocFollows s t
  changed : ∀ o, o ∈ t.ru.changed ↔ GaugePuts s t o ∨ o ∈ s.ru.changed

theorem gaugeDiffers_iff {a b : Gauge} : gaugeDiffers a b = true ↔ b.rc ≠ a.rc ∨ b.iavg ≠ a.iavg ∨ b.total ≠ a.total ∨
    b.flagStale ≠ a.flagStale ∨ b.flagUnknown ≠ a.flagUnknown ∨ b.flagUncertain ≠ a.flagUncertain := by
  simp only [gaugeDiffers, flagsDiffer, Bool.or_eq_true, bne_iff_ne, or_assoc, ne_comm]

theorem reportFlags_same {old : Gauge} {s : State} (h : flagsDiffer old s.bg = false) : reportFlags old s = s := by
  have hu : old.flagUnknown = s.bg.flagUnknown := by
    simp only [flagsDiffer, Bool.or_eq_false_iff, bne_eq_false_iff_eq] at h
    exact h.1.2
  simp only [reportFlags, h, hu, if_true, Bool.false_eq_true, if_false]

theorem mem_reportGaugeChange {old : Gauge} {s : State} {o : Nat} : o ∈ (reportGaugeChange old s).ru.changed ↔
    (o = 11 ∧ gaugeDiffers old s.bg = true) ∨ o ∈ s.ru.changed := by
  unfold reportGaugeChange
  split
  · next h => rw [mem_noteChanged]; simp [h]
  · next h => simp [h]

theorem reportGaugeChange_eq (old : Gauge) (s : State) : reportGaugeChange old s =
    { s with ru := { s.ru with changed := (reportGaugeChange old s).ru.changed } } := by
  unfold reportGaugeChange
  split <;> rfl

theorem publishGauge_published {g : Gauge} {s : State} (hz : s.zu.zones.length = 64) (hr : s.zu.runtimes.length = 64)
    (hf : flagsDiffer s.bg g = false) : GaugePublished g s (publishGauge g s) := by
  have hpub : publishGauge g s = reportSoc s.bg (reportGaugeChange s.bg { s with bg := g }) := by
    rw [publishGauge, reportFlags_same (by exact hf)]
  have hnote := fun o => mem_reportGaugeChange (old := s.bg) (s := { s with bg := g }) (o := o)
  obtain ⟨c, hc⟩ : ∃ c : List Nat, reportGaugeChange s.bg { s with bg := g } =
      { s with bg := g, ru := { s.ru with changed := c } } := ⟨_, reportGaugeChange_eq _ _⟩
  rw [hc] at hnote hpub
  by_cases hsame : s.bg.socReported = true ∧ s.bg.soc = g.soc
  · have hq : publishGauge g s = { s with bg := g, ru := { s.ru with changed := c } } := by
      rw [hpub, reportSoc, if_pos hsame]
    have hrun : ∀ k, runtimeAt (publishGauge g s) k = runtimeAt s k := fun k => by rw [hq]; rfl
    refine ⟨⟨g.socReported, s.zu.runtimes, c, hq⟩, ⟨fun h => ?_, fun _ _ k => hrun k⟩, fun o => ?_⟩
    · rw [hq] at h
      exact absurd hsame fun ⟨h1, h2⟩ => h.elim (fun h => h h2.symm) fun h => by simp [h1] at h
    · rw [hq]
      refine (hnote o).trans (or_congr_left ⟨fun h => .inl ⟨h.1, gaugeDiffers_iff.mp h.2⟩, fun h => ?_⟩)
      obtain ⟨ho, h⟩ | ⟨k, -, h, -⟩ := h
      · exact ⟨ho, gaugeDiffers_iff.mpr h⟩
      · exact absurd rfl h
  · have hq : publishGauge g s = attributeSoc g.soc
        { s with bg := { g with socReported := true }, ru := { s.ru with changed := c } } := by
      rw [hpub, reportSoc, if_neg hsame]
    obtain ⟨⟨r, c', heq⟩, -, hbelow, habove, hchanged⟩ := attributeSoc_followed g.soc
      (s := { s with bg := { g with socReported := true }, ru := { s.ru with changed := c } }) hr
    rw [← hq] at heq hbelow habove hchanged
    have hrun : ∀ k, runtimeAt (publishGauge g s) k = socRuntime s g.soc k := fun k => by
      by_cases hk : k < 64
      · exact hbelow k hk
      · have hn : ¬socLowers s g.soc k := fun hl => hk (zoneAt_lt hz (by rw [hl.1]; decide))
        rw [socRuntime_of_not_lowers hn]
        exact habove k (by omega)
    have hbg : (publishGauge g s).bg = { g with socReported := true } := by rw [heq]
    refine ⟨⟨true, r, c', heq⟩, ⟨fun _ k => ⟨fun ho => ?_, fun ho => ?_⟩, fun h1 h2 => ?_⟩, fun o => ?_⟩
    · rw [hrun, hbg, socRuntime, if_pos ho]
    · rw [hrun, socRuntime, if_neg ho]
    · rw [hbg] at h1
      exact absurd ⟨h2, h1.symm⟩ hsame
    · refine (hchanged o).trans ?_
      rw [show (o ∈ c ↔ _) from hnote o, ← or_assoc]
      refine or_congr_left ⟨fun h => ?_, fun h => ?_⟩
      · obtain ⟨k, hk, hl, ho⟩ | ⟨ho, h⟩ := h
        · exact .inr ⟨k, hk, by rw [hrun]; exact socRuntime_ne_iff.mpr hl, ho⟩
        · exact .inl ⟨ho, by rw [GaugeChanged, hbg]; exact gaugeDiffers_iff.mp h⟩
      · obtain ⟨ho, h⟩ | ⟨k, hk, hl, ho⟩ := h
        · rw [GaugeChanged, hbg] at h
          exact .inr ⟨ho, gaugeDiffers_iff.mpr h⟩
        · rw [hrun] at hl
          exact .inl ⟨k, hk, socRuntime_ne_iff.mp hl, ho⟩

/-! ### A map header (R38, R39, R41, R109, R112) -/

theorem hasMarker_header (h : Sector) : hasMarker markerZoneMap 0 h = true ↔ field h 0 8 = markerZoneMap :=
  decide_eq_true_iff

theorem Settings.fixSoc_eq {x : Settings} (h : 1 ≤ x.lowSoc) :
    x.fixSoc = { x with criticalSoc := min x.criticalSoc (x.lowSoc - 1) } := by
  by_cases hle : x.lowSoc ≤ x.criticalSoc
  · rw [Settings.fixSoc, if_pos hle, Nat.min_eq_right (by omega)]
  · rw [Settings.fixSoc, if_neg hle, Nat.min_eq_left (by omega)]

theorem headerSettings_gives (h : Sector) : HeaderGives h (headerSettings h) := by
  refine ⟨fun hm => ?_, fun hm => ?_⟩
  · have hf : hasMarker markerZoneMap 0 h = false := Bool.eq_false_iff.mpr fun e => hm ((hasMarker_header h).mp e)
    rw [headerSettings, hf]
    rfl
  · rw [headerSettings, if_pos ((hasMarker_header h).mpr hm), Settings.fixSoc_eq (by simp [clampNat])]
    simp only [clampNat, Nat.zero_max]

theorem headerTimeBase_times (h : Sector) : HeaderTimes h (headerTimeBase h) := by
  refine ⟨fun hm => ?_, fun hm => ?_⟩
  · exact if_neg fun e => hm ((hasMarker_header h).mp e)
  · exact if_pos ((hasMarker_header h).mpr hm)

/-- R41: the state in which a header's settings and time base are in force, before the gauge hears of them. -/
def headerLatched (data : Sector) (s : State) : State :=
  latchTimeBase (headerTimeBase data) (setSettings (headerSettings data) s)

/-- R109, R112: the gauge that takes a new design capacity, its SOC kept. -/
def rescaledGauge (old new : Nat) (g : Gauge) : Gauge :=
  Gauge.derive { g with
    fcc := fccOf new g.band
    rc := rescaleCharge g.rc (socOf g.rc g.fcc) old new (fccOf new g.band) }

theorem applyHeader_cases (data : Sector) (s : State) :
    ((headerSettings data).design = s.zu.settings.design → applyHeader data s = headerLatched data s) ∧
    ((headerSettings data).design ≠ s.zu.settings.design → s.bg.isSet = false → applyHeader data s =
      { headerLatched data s with bg := { s.bg with fcc := fccOf (headerSettings data).design s.bg.band } }) ∧
    ((headerSettings data).design ≠ s.zu.settings.design → s.bg.isSet = true → applyHeader data s =
      publishGauge (rescaledGauge s.zu.settings.design (headerSettings data).design s.bg) (headerLatched data s)) := by
  refine ⟨fun h => ?_, fun h hs => ?_, fun h hs => ?_⟩
  · exact if_pos (by exact h.symm)
  · exact (if_neg (by exact Ne.symm h)).trans (if_pos (by simpa using hs))
  · exact (if_neg (by exact Ne.symm h)).trans (if_neg (by simpa using hs))

/-- R39, R41, R109, R112, R175: what an admitted header makes of ZU, BG and the changed set. -/
structure HeaderApplied (data : Sector) (s t : State) : Prop where
  frame : ∃ (x : ZoneUnit) (g : Gauge) (c : List Nat), t = { s with zu := x, bg := g, ru := { s.ru with changed := c } }
  zones : t.zu.zones = s.zu.zones
  taken : HeaderTaken data s t
  changed : ∀ o, o ∈ t.ru.changed ↔ GaugePuts s t o ∨ o ∈ s.ru.changed

theorem not_gaugePuts_of_kept {s t : State} {o : Nat} (hg : ¬GaugeChanged s t) (hr : t.zu.runtimes = s.zu.runtimes) :
    ¬GaugePuts s t o := by
  rintro (⟨-, h⟩ | ⟨k, -, h, -⟩)
  · exact hg h
  · exact h (by rw [runtimeAt, hr, runtimeAt])

/-- The part of `HeaderTaken` that is about a new design capacity. -/
theorem rescaledGauge_eq (old new : Nat) (g : Gauge) :
    (rescaledGauge old new g).fcc = new * 3600000 * bandFactor g.band / 256 ∧
    (rescaledGauge old new g).rc = rescaleCharge g.rc (socOf g.rc g.fcc) old new (rescaledGauge old new g).fcc ∧
    (rescaledGauge old new g).soc = (rescaledGauge old new g).rc * 100 / (rescaledGauge old new g).fcc ∧
    rescaledGauge old new g = { g with
      fcc := (rescaledGauge old new g).fcc, rc := (rescaledGauge old new g).rc, soc := (rescaledGauge old new g).soc
      runtime := (rescaledGauge old new g).runtime } :=
  ⟨rfl, rfl, rfl, rfl⟩

theorem applyHeader_applied {data : Sector} {s : State} (hz : s.zu.zones.length = 64) (hr : s.zu.runtimes.length = 64) :
    HeaderApplied data s (applyHeader data s) := by
  obtain ⟨hsame, hunset, hset⟩ := applyHeader_cases data s
  have hgives := headerSettings_gives data
  have htimes := headerTimeBase_times data
  have hl : headerLatched data s = { s with zu := { s.zu with
    settings := headerSettings data, timeBase := headerTimeBase data, latchedUptime := s.uptimeSec } } := rfl
  generalize headerLatched data s = u at *
  generalize headerSettings data = x at *
  generalize headerTimeBase data = b at *
  subst hl
  by_cases hd : x.design = s.zu.settings.design
  · rw [hsame hd]
    refine ⟨⟨_, _, _, rfl⟩, rfl, ⟨hgives, htimes, rfl, fun _ => rfl, fun _ => rfl, fun _ h => absurd hd h,
      fun h => absurd hd h⟩, fun o => (or_iff_right (not_gaugePuts_of_kept (by simp [GaugeChanged]) rfl)).symm⟩
  · cases hi : s.bg.isSet with
    | false =>
      have key : ∀ f : Nat, f = x.design * 3600000 * bandFactor s.bg.band / 256 → HeaderApplied data s
          { s with bg := { s.bg with fcc := f }, zu := { s.zu with
            settings := x, timeBase := b, latchedUptime := s.uptimeSec } } := by
        intro f hf
        refine ⟨⟨_, _, _, rfl⟩, rfl, ⟨hgives, htimes, rfl, fun h => absurd h hd, fun _ => rfl, fun h => ?_, fun _ =>
          ⟨rfl, hf, fun _ => ⟨rfl, rfl⟩, fun h => ?_⟩⟩, fun o =>
            (or_iff_right (not_gaugePuts_of_kept (by simp [GaugeChanged]) rfl)).symm⟩
        · simp [hi] at h
        · simp [hi] at h
      rw [hunset hd hi]
      exact key _ rfl
    | true =>
      rw [hset hd hi]
      obtain ⟨h1, h2, h3, h4⟩ := rescaledGauge_eq s.zu.settings.design x.design s.bg
      generalize rescaledGauge s.zu.settings.design x.design s.bg = g at *
      obtain ⟨⟨b', r, c, heq⟩, hmin, hchanged⟩ := publishGauge_published (g := g) (s := { s with zu := { s.zu with
        settings := x, timeBase := b, latchedUptime := s.uptimeSec } }) hz hr (by rw [h4]; simp [flagsDiffer])
      generalize publishGauge g _ = t at *
      subst heq
      refine ⟨⟨_, _, _, rfl⟩, rfl, ⟨hgives, htimes, rfl, fun h => absurd h hd, fun h => ?_, fun _ _ => hmin, fun _ =>
        ⟨?_, h1, fun h => ?_, fun _ => ⟨h2, h3⟩⟩⟩, hchanged⟩
      · exact h.elim (fun h => by simp [hi] at h) fun h => absurd h hd
      · rw [h4]
      · simp [hi] at h

end Sys2Proof.Machine
end

