-- ==== Sys2Proof/Proofs/P12.lean ====
section
/-! The data frame whose map sector is admitted (R8, R39, R49, R141, R174). -/

namespace Sys2Proof.Machine

open Sys2Proof

/-! ### The content of a map sector (R39, R49, R141) -/

theorem takeContent_map {s : State} {n o : Nat} {data : Sector} (hn : n = tailBase s + o) (ho : o ≤ 4) :
    takeContent n data s = if o = 0 then noteMapCopy 0 data (applyHeader data s)
      else noteMapCopy o data (applyEntrySector (o - 1) data s) := by
  have hto : tailOffset? s n = some o := by
    rw [tailOffset?, if_neg (by omega)]
    congr 1
    omega
  delta takeContent
  generalize tailOffset? s n = v at *
  subst hto
  dsimp only
  split
  · rfl
  · rfl

/-- What the content of a map sector of tail offset `o` may change. -/
def OnlyMapContent (o : Nat) (data : Sector) (s t : State) : Prop :=
  ∃ (x : ZoneUnit) (g : Gauge) (p c : List Nat), t = { s with
    zu := x, bg := g, ps := { s.ps with mapCopy := s.ps.mapCopy.map fun m => m.set o data }
    ru := { s.ru with pending := p, changed := c } }

/-- What a map sector of tail offset `o` makes of ZU, BG and RU's two sets. -/
structure MapContent (o : Nat) (data : Sector) (s t : State) : Prop where
  header : o = 0 → HeaderTaken data s t
  entries : 1 ≤ o → t.bg = s.bg ∧ t.zu = { s.zu with zones := t.zu.zones, runtimes := t.zu.runtimes } ∧
    (∀ pos, pos < 16 → zoneAt t (16 * (o - 1) + pos) = enteredZone (rawEntry data pos) ∧
      runtimeAt t (16 * (o - 1) + pos) = entryRuntime s (16 * (o - 1) + pos) (rawEntry data pos)) ∧
    ∀ k, k / 16 ≠ o - 1 → zoneAt t k = zoneAt s k ∧ runtimeAt t k = runtimeAt s k
  pending : ∀ p, p ∈ t.ru.pending ↔ ZoneMarks s t p ∨ p ∈ s.ru.pending
  changed : ∀ p, p ∈ t.ru.changed ↔ (GaugePuts s t p ∨ ZoneMarks s t p) ∨ p ∈ s.ru.changed

theorem headerContent {data : Sector} {s : State} (hz : s.zu.zones.length = 64) (hr : s.zu.runtimes.length = 64) :
    OnlyMapContent 0 data s (noteMapCopy 0 data (applyHeader data s)) ∧
      MapContent 0 data s (noteMapCopy 0 data (applyHeader data s)) := by
  obtain ⟨⟨x, g, c, heq⟩, hzones, htaken, hchanged⟩ := applyHeader_applied (data := data) hz hr
  generalize applyHeader data s = t at *
  have hm : ∀ p, ¬ZoneMarks s (noteMapCopy 0 data t) p := by
    rintro p ⟨k, -, hne, -⟩
    exact hne (by rw [zoneAt, zoneAt, ← hzones]; rfl)
  refine ⟨?_, fun _ => htaken, fun h => absurd h (by decide), fun p => ?_, fun p => ?_⟩
  · rw [heq]
    exact ⟨_, _, _, _, rfl⟩
  · simp only [hm, false_or]
    rw [heq]
    rfl
  · simp only [hm, or_false]
    exact hchanged p

/-- R49: which zones an entry sector marks. -/
theorem zoneMarks_of_applied {sec : Nat} {data : Sector} {s t : State} (hsec : sec < 4)
    (h : EntriesApplied sec data 16 s t) (p : Nat) : ZoneMarks s t p ↔
      ∃ pos, pos < 16 ∧ zoneStateOf (rawEntry data pos).st ≠ (zoneAt s (16 * sec + pos)).state ∧
        p = 13 + (16 * sec + pos) / 16 := by
  constructor
  · rintro ⟨k, hk, hne, rfl⟩
    by_cases hblock : k / 16 = sec
    · have hkk : k = 16 * sec + k % 16 := by omega
      refine ⟨k % 16, Nat.mod_lt _ (by decide), ?_, by rw [← hkk]⟩
      rw [hkk, (h.own _ (Nat.mod_lt _ (by decide))).1, enteredZone_state] at hne
      exact hne
    · exact absurd (by rw [(h.other k fun pos hpos => by omega).1]) hne
  · rintro ⟨pos, hpos, hne, rfl⟩
    exact ⟨16 * sec + pos, by omega, by rw [(h.own pos hpos).1, enteredZone_state]; exact hne, rfl⟩

theorem entryRuntime_of_same {s : State} {k : Nat} {e : RawEntry} (h : entryRuntime s k e ≠ runtimeAt s k) :
    zoneStateOf e.st ≠ (zoneAt s k).state := fun he => h (entryRuntime_cases.1 he)

theorem entriesContent {o : Nat} {data : Sector} {s : State} (hz : s.zu.zones.length = 64) (hr : s.zu.runtimes.length = 64)
    (h1 : 1 ≤ o) (h4 : o ≤ 4) : OnlyMapContent o data s (noteMapCopy o data (applyEntrySector (o - 1) data s)) ∧
      MapContent o data s (noteMapCopy o data (applyEntrySector (o - 1) data s)) := by
  have happ := applyEntries_applied (sec := o - 1) (data := data) hz hr (by omega) 16 le_rfl
  obtain ⟨z, r, p, c, heq⟩ := applyEntries_eq (o - 1) data 16 s
  change EntriesApplied _ _ _ _ (applyEntrySector (o - 1) data s) at happ
  change applyEntrySector (o - 1) data s = _ at heq
  generalize applyEntrySector (o - 1) data s = t at *
  have hm := zoneMarks_of_applied (by omega) happ
  have hg : ∀ q, GaugePuts s t q → ZoneMarks s t q := by
    rintro q (⟨-, hch⟩ | ⟨k, hk, hne, rfl⟩)
    · rw [heq] at hch
      exact absurd hch (by simp [GaugeChanged])
    · by_cases hblock : k / 16 = o - 1
      · have hkk : k = 16 * (o - 1) + k % 16 := by omega
        refine (hm _).mpr ⟨k % 16, Nat.mod_lt _ (by decide), ?_, by rw [← hkk]⟩
        rw [hkk, (happ.own _ (Nat.mod_lt _ (by decide))).2] at hne
        exact entryRuntime_of_same hne
      · exact absurd (happ.other k fun pos hpos => by omega).2 hne
  refine ⟨?_, fun h => by omega, fun _ => ⟨?_, ?_, fun pos hpos => happ.own pos hpos, fun k hk =>
    happ.other k fun pos hpos => by omega⟩, fun q => ?_, fun q => ?_⟩
  · rw [heq]
    exact ⟨_, _, _, _, rfl⟩
  · rw [heq]
    rfl
  · rw [heq]
    rfl
  · exact (happ.pending q).trans (or_congr_left (hm q).symm)
  · refine (happ.changed q).trans (or_congr_left ((hm q).symm.trans ⟨.inr, fun h => h.elim (hg q) id⟩))

/-- R8: what ZU, BG, PS and RU make of an admitted map sector. -/
theorem mapContent {o n : Nat} {data : Sector} {s : State} (hz : s.zu.zones.length = 64) (hr : s.zu.runtimes.length = 64)
    (hn : n = tailBase s + o) (h4 : o ≤ 4) : OnlyMapContent o data s (takeContent n data s) ∧
      MapContent o data s (takeContent n data s) := by
  rw [takeContent_map hn h4]
  split
  · next h => subst h; exact headerContent hz hr
  · next h => exact entriesContent hz hr (by omega) h4

/-! ### The offers of a step (R174) -/

/-- R174: an offer of the pending set, with no front sector held, has been made as the statements say. -/
theorem offersMade_of_offerAll {marked : Nat → Prop} {s a : State} (hs : inService a.ps.power = true)
    (hf : a.ps.mediaFault = false) (hh : a.fp.port ≠ .held) (h8 : ∀ l ∈ a.sb.lines, l.data.length = 8)
    (hm : ∀ o, marked o ↔ o ∈ a.ru.pending) (hfree : freeCount a.sb.lines = freeCount s.sb.lines)
    (hcost : dirtyCost a.sb.lines = dirtyCost s.sb.lines) : OffersMade marked s (offerAll a) := by
  have hp := ne_holdup_of_inService hs
  have hoff : offerAll a = offerFrom [11, 12, 13, 14, 15, 16] a := if_pos (by simp [offersAllowed, hs, hf])
  have hord : ([11, 12, 13, 14, 15, 16] : List Nat).Pairwise (· < ·) := by decide
  have hmem : ∀ o, 11 ≤ o → o ≤ 16 → o ∈ [11, 12, 13, 14, 15, 16] := fun o h1 h2 => by simp; omega
  obtain ⟨cut, hcut, hall⟩ := offerFrom_reaches _ a hp hh h8 (by decide) hord
  have he := offerFrom_offerEffect [11, 12, 13, 14, 15, 16] hp hh
  have hlow := fun o => offerFrom_lowest _ a hp hh h8 hord (o := o)
  rw [hoff]
  refine ⟨⟨cut, hcut.imp_right fun ⟨_, hpend, hn⟩ => ⟨(hm cut).mpr hpend, (offerCheckpoint_eq_none_iff _ _).mp hn⟩,
    fun o h1 h2 hmo => ?_⟩, fun h1 h2 o ho1 ho2 hmo hmin => ?_⟩
  · obtain ⟨hlt, hge⟩ := hall o (hmem o h1 h2) ((hm o).mp hmo)
    exact ⟨fun h => (hlt h).checkpointTaken, hge⟩
  · refine (hlow o (hmem o ho1 ho2) ((hm o).mp hmo) (fun p hpm hpp => ?_) ?_).checkpointTaken
    · by_contra hlt
      have hp11 : 11 ≤ p := by
        revert hpm
        simp
        omega
      exact hmin p hp11 (by omega) ((hm p).mpr hpp)
    · refine admissible_of_free o (by omega) ?_
      rw [← he.only.sm]
      omega

/-- R166, R174: with no front sector held, and the grants made, a change of L or R or a mark ends the step with the offers. -/
theorem settle_of_due {before a : State} (hs : inService a.ps.power = true) (hh : a.fp.port ≠ .held) (hg : GrantsDone a)
    (h : retryDue before a = true ∨ markedSince before a = true) : settle before a = offerAll a := by
  have hp := ne_holdup_of_inService hs
  have he := offerAll_offerEffect hp hh
  rw [settle, react_of_due hp hh h]
  exact pump_of_grantsDone (by rw [he.only.psPower]; exact hs) (offerAll_grantsDone hs hh hg)

/-! ### The admitted map sector -/

/-- R49 to R52: an entry applied alone moves its zone as the statements say. -/
theorem entryApplied_alone {k : Nat} {e : RawEntry} {s : State} (hsz : TablesSized s) (hk : k < 64) :
    (zoneAt (applyEntry k e s) k).state = zoneStateOf e.st ∧
    (zoneStateOf e.st ≠ .unused →
      (zoneAt (applyEntry k e s) k).base = e.base ∧ (zoneAt (applyEntry k e s) k).length = e.length) ∧
    (zoneStateOf e.st = (zoneAt s k).state → (applyEntry k e s).ru = s.ru) ∧
    (zoneStateOf e.st ≠ (zoneAt s k).state → 13 + k / 16 ∈ (applyEntry k e s).ru.pending ∧
      13 + k / 16 ∈ (applyEntry k e s).ru.changed) ∧
    runtimeAt (applyEntry k e s) k = entryRuntime s k e := by
  obtain ⟨-, -, hz, hr⟩ := hsz
  have hzone := applyEntry_zone (k := k) (e := e) (s := s) (by omega)
  refine ⟨by rw [hzone, enteredZone_state], fun h => by rw [hzone]; exact enteredZone_range h, fun h => ?_, fun h =>
    ⟨applyEntry_sets.1.mpr (.inl ⟨h, rfl⟩), applyEntry_sets.2.mpr (.inl ⟨h, rfl⟩)⟩, applyEntry_runtime (by omega)⟩
  rw [applyEntry, if_pos h]
  rfl

/-- R8: a MAP sector is stored in a line of its own. -/
theorem placeSector_map {sb t : Staging} {n : Nat} {zone : Option Nat} {reserve : Nat} {data : Sector}
    (h : placeSector sb .map n zone reserve data = some t) : ∃ i, StoredAt i .map sb.ageCounter zone n data sb.lines t.lines ∧
      (∀ a, sb.lines[i]? = some a → a.live = false) ∧ ∀ j, j ≠ i → t.lines[j]? = sb.lines[j]? := by
  obtain ⟨i, l, hm, -⟩ | ⟨i, l, -, -, hl, hfree, hlow, rfl⟩ := placeSector_cases h
  · cases hm
  · refine ⟨i, storedAt_newLine hl hfree hlow, fun a ha => ?_, fun j hj => List.getElem?_set_ne (Ne.symm hj)⟩
    obtain rfl := Option.some.inj (hl.symm.trans ha)
    exact hfree

/-- R8, R156: the frame of an admitted map sector. -/
theorem exec_mapFrame {data : Sector} {s : State} {r : Request} {sb : Staging} {o : Nat} (ht : takesSector s = true)
    (hr : s.fp.req = some r) (hc : s.ps.power ≠ .critical) (hh : s.ps.power ≠ .holdup) (h4 : o ≤ 4)
    (hn : r.sector.toNat + r.taken = tailBase s + o)
    (hz : ∀ k, zoneOf s.zu.zones (tailBase s + o) = some k → (zoneAt s k).state = .opened)
    (hv : 1 ≤ o → SectorPasses s (o - 1) (toSector data))
    (ha : frontAdmitTest s (tailBase s + o) (toSector data) = .admitted sb) :
    exec (.dataFrame data) s = .next (settle s (acceptSector (tailBase s + o) (toSector data) sb s)) := by
  have hval : validation s (tailBase s + o) (toSector data) = none := validation_none fun o' h1 _ he => by
    obtain rfl : o' = o := by omega
    exact validateSector_none_of_passes (hv h1)
  rw [exec_dataFrame ht hr, hn, takeFrame_unchecked hval, offerSector_admitted hc hh hz (by omega) ha]

/-- What an admitted map sector makes of the state, after the offers of the step. -/
theorem mapTaken_of_offers {o : Nat} {data : Sector} {s a t : State} (h4 : o ≤ 4)
    (hc : MapContent o data s a) (he : OfferEffect a t)
    (hstored : ∃ i, StoredAt i .map s.sb.ageCounter none (tailBase s + o) data s.sb.lines t.sb.lines ∧
      (∀ b, s.sb.lines[i]? = some b → b.live = false) ∧ OtherLinesKept i s.sb.lines t.sb.lines)
    (hcopy : a.ps.mapCopy = s.ps.mapCopy.map fun c => c.set o data) : MapTaken o data s t := by
  have hzu := he.only.zu
  have hbg := he.only.bg
  have hzone : ∀ k, zoneAt t k = zoneAt a k := fun k => by rw [zoneAt, hzu, zoneAt]
  have hrun : ∀ k, runtimeAt t k = runtimeAt a k := fun k => by rw [runtimeAt, hzu, runtimeAt]
  have hmarks : ZoneMarks s t = ZoneMarks s a := by
    funext p
    simp only [ZoneMarks, hzone]
  have hputs : GaugePuts s t = GaugePuts s a := by
    funext p
    simp only [GaugePuts, GaugeChanged, hbg, hrun]
  refine ⟨hstored, by rw [he.only.psMapCopy, hcopy], fun h0 => ?_, fun h1 => ?_, ?_⟩
  · have := hc.header h0
    simp only [HeaderTaken, MinSocFollows, hzu, hbg, hrun]
    exact this
  · obtain ⟨h2, h3, hown, hother⟩ := hc.entries h1
    refine ⟨hbg.trans h2, by rw [hzu]; exact h3, fun pos hpos => ?_, fun k hk => by rw [hzone, hrun]; exact hother k hk⟩
    obtain ⟨hz, hr⟩ := hown pos hpos
    obtain ⟨e1, e2, e3, e4⟩ := entryRuntime_cases (s := s) (k := 16 * (o - 1) + pos) (e := rawEntry data pos)
    rw [ZoneMoved, hzone, hrun, hz, hr]
    refine ⟨enteredZone_state _, enteredZone_range, e1, fun hne => ?_, e2, e3, e4⟩
    have hmk : ZoneMarks s a (13 + (16 * (o - 1) + pos) / 16) :=
      ⟨_, by omega, by rw [hz, enteredZone_state]; exact hne, rfl⟩
    refine (he.pendingKept _ ((hc.pending _).mpr (.inl hmk))).imp_left fun ⟨hp, hch⟩ => ⟨hp, hch ?_⟩
    exact (hc.changed _).mpr (.inl (.inr hmk))
  · rw [hmarks, hputs]
    exact changedBy_of_offers he hc.changed fun p hp => ((hc.pending p).mp hp).symm

/-- Settles O18. -/
theorem entryApplied : Obligations.EntryApplied := by
  refine ⟨fun k e s hsz hk he hmove => ?_, fun data s r sb o hsz ht hr hcode hcrit hhold h4 hn hz hv ha => ?_⟩
  · obtain ⟨h1, h2, h3, h4, h5⟩ := entryApplied_alone (e := e) hsz hk
    obtain ⟨e1, e2, e3, e4⟩ := entryRuntime_cases (s := s) (k := k) (e := e)
    rw [h5]
    exact ⟨h1, h2, fun j hj => applyEntry_other hj, fun h => ⟨e1 h, h3 h⟩, h4, e2, e3, e4⟩
  · have hs := inService_of_takesSector ht hhold
    have hstep := exec_mapFrame ht hr hcrit hhold h4 hn hz hv ha
    obtain ⟨hlen, h8, hz64, hr64⟩ := hsz
    rw [frontAdmitTest_map (by omega) (by omega)] at ha
    obtain ⟨hpl, -⟩ := admitTest_admitted ha
    obtain ⟨i, hst, hfree, hoth⟩ := placeSector_map hpl
    obtain ⟨⟨x, g, p, c, hframe⟩, hcont⟩ := mapContent (o := o) (data := toSector data)
      (s := countTaken { s with sb := sb }) hz64 hr64 (n := tailBase s + o) rfl h4
    obtain ⟨f, m, l, hacc, hd, hport, hgd, hf1, hf2⟩ := acceptSector_eq hr hcode hs rfl
      (by rw [hframe]; rfl) (by rw [hframe]; rfl) (by rw [hframe]; rfl) (by rw [hframe]; rfl)
    rw [hframe] at hcont hacc
    generalize acceptSector (tailBase s + o) (toSector data) sb s = a at *
    have has : inService a.ps.power = true := by rw [hacc]; exact hs
    have hah : a.fp.port ≠ .held := by rw [hacc]; exact hport
    have he := settle_offerEffect s (ne_holdup_of_inService has) hah
    have hca : MapContent o (toSector data) s a := by
      rw [hacc]
      exact ⟨hcont.header, hcont.entries, hcont.pending, hcont.changed⟩
    have hal : a.sb.lines = l := by rw [hacc]
    have hfront : FrontLinesKept sb.lines (settle s a).sb.lines := by
      refine FrontLinesKept.trans ?_ he.front
      rw [hal]
      exact hd.frontLinesKept
    have hcopy : a.ps.mapCopy = s.ps.mapCopy.map fun c => c.set o (toSector data) := by rw [hacc]; rfl
    have htaken := mapTaken_of_offers (s := s) h4 hca he
      ⟨i, hst.frontLinesKept (by decide) hfront, hfree, otherLinesKept_of hoth hfront⟩ hcopy
    refine ⟨_, hstep, writeGoesOn_of (by rw [he.only.fp, hacc]) hf1 hf2, htaken, fun _ hmf hdue => ?_, ?_, ?_⟩
    · have hmarks : ∀ p, ZoneMarks s (settle s a) p ↔ ZoneMarks s a p := fun p => by
        simp only [ZoneMarks, zoneAt, he.only.zu]
      have hdue' : retryDue s a = true ∨ markedSince s a = true := by
        obtain ⟨-, hres⟩ | ⟨p, hp, hnew⟩ := hdue
        · rw [he.only.zu] at hres
          exact .inl (by simp [retryDue, Ne.symm hres])
        · refine .inr ?_
          simp only [markedSince, List.any_eq_true, Bool.not_eq_true', List.contains_eq_mem, decide_eq_false_iff_not]
          exact ⟨p, (hca.pending p).mpr (.inl ((hmarks p).mp hp)), hnew⟩
      have hoff := settle_of_due has hah hgd hdue'
      have hm : ∀ p, (p ∈ s.ru.pending ∨ ZoneMarks s (settle s a) p) ↔ p ∈ a.ru.pending := fun p => by
        rw [hmarks, hca.pending, or_comm]
      rw [hoff] at hm ⊢
      refine offersMade_of_offerAll has (by rw [hacc]; exact hmf) hah ?_ hm ?_ ?_
      · rw [hal]
        exact hd.data_length (placeSector_data_length hpl h8)
      · rw [hal]; exact hd.freeCount
      · rw [hal]; exact hd.dirtyCost
    · obtain ⟨l', a', m', p', o', x', c', ht'⟩ := he.only.onlyOffers.exists_eq
      generalize settle s a = t at *
      rw [hacc, placeSector_eq hpl] at ht'
      rw [ht']
      rfl
    · rw [he.only.ruAttn, hacc]
      rfl

end Sys2Proof.Machine
end

