-- ==== Sys2Proof/Proofs/P13.lean ====
section
/-! Retries, discarded outcomes and grants of the media port (R17, R138, R159, R164 to R167). -/

namespace Sys2Proof.Machine

open Sys2Proof

/-! ### A first failure (R138, R165) -/

theorem mayRetry_of_retried {op : MediaOp} {s : State} (h1 : op.attempt = 1) (ha : op.abandoned = false)
    (h : Retried op s) : mayRetry op s = true := by
  have henergy : (s.sm.ewUsed ≤ s.sm.avail) → energyTest s = true := fun h => decide_eq_true h
  unfold mayRetry
  cases hq : op.requester with
  | readMiss =>
    obtain h | h | h | h | ⟨h | h, -⟩ := h
    · simp [h1, ha, h]
    all_goals simp [hq] at h
  | drain =>
    obtain h | h | h | h | ⟨-, h⟩ := h
    · simp [h1, h]
    · simp [hq] at h
    · simp [hq] at h
    · simp [hq] at h
    · simp [h1, henergy h]
  | holdup what =>
    cases what with
    | drainRun =>
      obtain h | h | h | h | ⟨-, h⟩ := h
      · simp [h1, h]
      · simp [hq] at h
      · simp [hq] at h
      · simp [hq] at h
      · simp [h1, henergy h]
    | imageFirst => simp [h1]
    | imageSecond => simp [h1]
    | invalidate => simp [h1]
  | startup step =>
    dsimp only
    split <;> simp [h1]

theorem attemptFailure_retried {op : MediaOp} {s : State} (h : mayRetry op s = true) (h1 : op.attempt = 1) :
    attemptFailure op s = { s with mp := { s.mp with current := some { op with attempt := 2, start := s.uptimeMs } } } := by
  rw [attemptFailure, if_pos h, retryOp, h1]

theorem Retried.timedOut {op : MediaOp} {s : State} (h : Retried op s) : Retried op (timedOut op s) := by
  have hps : (Machine.timedOut op s).ps = s.ps := by simp [Machine.timedOut]
  have hsm : (Machine.timedOut op s).sm = s.sm := by simp [Machine.timedOut]
  simp only [Retried, hps, hsm] at h ⊢
  exact h

theorem firstFailure_retried {status : Byte} (payload : List Byte) {s : State} {op : MediaOp} (hc : s.mp.current = some op)
    (hs : status ≠ 0) (h1 : op.attempt = 1) (ha : op.abandoned = false) (h : Retried op s) :
    exec (.mediaOperationComplete status payload) s = .next
      { s with mp := { s.mp with current := some { op with attempt := 2, start := s.uptimeMs } } } ∧
    ∃ t, exec .mediaTimeout s = .next t ∧
      ((op.start + 200 - s.uptimeMs).toNat ≤ 2147483648 → t.uptimeMs = op.start + 200) ∧
      t = { waitUntil (op.start + 200) s with
        mp := { s.mp with
          resetPulses := s.mp.resetPulses + 1
          current := some { op with attempt := 2, start := t.uptimeMs } } } := by
  constructor
  · rw [exec_complete_failure hc hs, attemptFailure_retried (mayRetry_of_retried h1 ha h) h1]
  · rw [exec_timeout hc, attemptFailure_retried (mayRetry_of_retried h1 ha h.timedOut) h1]
    have hup := waitUntil_uptimeMs (op.start + 200) s
    rw [timedOut]
    generalize waitUntil (op.start + 200) s = w at hup ⊢
    exact ⟨_, rfl, hup, rfl⟩

/-! ### A discarded read miss (R159, R165 to R167) -/

theorem drainStands_iff {s : State} (hp : s.ps.power ≠ .off) : DrainStands s ↔ s.mp.waiters.drain = drainWanted s := by
  have hw : drainWanted s = true ↔ (∃ l ∈ s.sb.lines, l.state = .dirty ∨
      (l.state = .draining ∧ (if runInFlight s then 1 else 0) < maskRuns l.undone)) ∧
      (bracedState s.mm.motion = false ∨ s.ps.power = .holdup) := by
    have hrun : ∀ l : Line, (l.state = .draining ∧ (if runInFlight s then 1 else 0) < l.runCount) ↔
        (l.state = .draining ∧ (if runInFlight s then 1 else 0) < maskRuns l.undone) := fun l => by
      refine and_congr_right fun hl => ?_
      rw [Line.runCount, if_pos (Line.live_draining hl)]
    simp only [drainWanted, hasUnissuedRun, Bool.and_eq_true, Bool.or_eq_true, List.any_eq_true, beq_iff_eq,
      Bool.not_eq_true', decide_eq_true_eq, hrun, ← exists_or, ← and_or_left]
  rw [DrainStands, ← hw]
  refine ⟨fun h => ?_, fun h _ => by rw [h]⟩
  rw [Bool.eq_iff_iff]
  exact h hp

/-- R17: with no run in flight, dropping the operation in progress changes nothing for the drain request. -/
theorem drainWanted_handing {s : State} {op : MediaOp} (hc : s.mp.current = some op) (hq : op.requester.isDrain = false)
    (b : Bool) : drainWanted { s with mp := { s.mp with current := none, handing := b } } = drainWanted s := by
  refine drainWanted_congr rfl ?_ rfl rfl
  simp [runInFlight, hc, hq]

/-- MP idle, nothing in progress, the waiters as they stand. -/
def freed (s : State) : State :=
  { s with mp := { s.mp with current := none, handing := false } }

/-- R159, R165: the outcome of an abandoned read miss is discarded in service, and MP grants what waits. -/
theorem exec_abandoned {status : Byte} {payload : List Byte} {s : State} {op : MediaOp} (hc : s.mp.current = some op)
    (hq : op.requester = .readMiss) (ha : op.abandoned = true) (hp : inService s.ps.power = true) (hd : DrainStands s) :
    exec (.mediaOperationComplete status payload) s = .next (syncDrain (grantService (freed s))) := by
  have hno : mayRetry op s = false := by simp [mayRetry, hq, ha]
  have hout : ∀ r, handOutcome op r (handing s) = handing s := fun r => by
    rw [handOutcome, hq]
    dsimp only
    rw [missEnded, if_pos ha, leaveReadOnlySave_of_not_holdup (by exact ne_holdup_of_inService hp)]
  have hsync : syncDrain (freed s) = freed s := syncDrain_of_agrees fun _ => by
    rw [show drainWanted (freed s) = drainWanted s from drainWanted_handing hc (by rw [hq]; rfl) false]
    exact (drainStands_iff (ne_off_of_inService hp)).mp hd
  have hidle : goIdle s.mp.waiters (handing s) = syncDrain (grantService (freed s)) := by
    have hcom : s.mp.waiters.common s.mp.waiters = s.mp.waiters := by
      simp [Waiters.common]
    have hfree : syncDrain { handing s with mp := { (handing s).mp with handing := false } } = freed s := hsync
    unfold goIdle
    rw [hfree]
    dsimp only
    rw [if_neg (by
      rintro ⟨-, -, h⟩
      exact h hcom), pump, hsync, grantNext_service (s := freed s) hp rfl]
  by_cases hs : status = 0
  · rw [hs, operationComplete_success hc, hout, hidle]
  · rw [exec_complete_failure hc hs, attemptFailure_last hno, hout, hidle]

theorem freed_grantOnly (s : State) : GrantOnly (freed s) (syncDrain (grantService (freed s))) :=
  (grantService_grantOnly _).trans (syncDrain_grantOnly _)

theorem freed_eq {s t : State} (h : GrantOnly (freed s) t) :
    t = { s with mp := { t.mp with resetPulses := s.mp.resetPulses }, sb := { s.sb with lines := t.sb.lines } } :=
  h.eq

/-- R167: a drain goes first with no read miss waiting, or when four have passed it. -/
theorem grantService_drain {s : State} (hd : s.mp.waiters.drain = true)
    (h : s.mp.waiters.readMiss = none ∨ s.mp.starvation = 4) : grantService s = grantWaitingMiss (grantDrain s) := by
  unfold grantService
  rw [if_pos (by simpa [hd] using h)]

/-- R167: otherwise the read miss that waits goes first. -/
theorem grantService_miss {s : State} {m : MissRun} (hi : mpIdle s = true) (hm : s.mp.waiters.readMiss = some m)
    (h : s.mp.waiters.drain = false ∨ s.mp.starvation ≠ 4) : grantService s = grantMiss m s := by
  unfold grantService grantWaitingMiss
  rw [if_neg (by rcases h with h | h <;> simp [hm, h]), hm]
  dsimp only
  rw [if_pos hi]

/-- R166: with nothing waiting, nothing is granted. -/
theorem grantService_none {s : State} (hm : s.mp.waiters.readMiss = none) (hd : s.mp.waiters.drain = false) :
    grantService s = s := by
  unfold grantService
  rw [if_neg (by simp [hd]), grantWaitingMiss_none hm]

/-- R17: what a drain grant and the read-miss grant behind it leave when a run has been issued. -/
theorem drainGranted {s : State} {c : RunChoice} (hb : bracedState s.mm.motion = false)
    (hc : chooseRun s.sb.lines = some c) :
    grantWaitingMiss (grantDrain s) = issueRun .drain c
      { s with mp := { s.mp with waiters := { s.mp.waiters with drain := false }, starvation := 0 } } := by
  rw [grantDrain_of_run hb hc]
  unfold grantWaitingMiss
  split
  · exact if_neg (by simp [mpIdle, issueRun])
  · rfl

/-- R17: with no drain request standing, its count of passes stays at 0. -/
theorem syncDrain_starvation_zero {s : State} (h : s.mp.starvation = 0) : (syncDrain s).mp.starvation = 0 := by
  unfold syncDrain
  (repeat' split) <;> simp [h]

/-- R159, R165 to R167: what MP grants when the outcome of an abandoned read miss has been discarded. -/
theorem abandoned_grants {s : State} (hcur : runInFlight s = false) (hp : inService s.ps.power = true) (hd : DrainStands s) :
    ∃ t, syncDrain (grantService (freed s)) = t ∧
      t = { s with mp := { t.mp with resetPulses := s.mp.resetPulses }, sb := { s.sb with lines := t.sb.lines } } ∧
      (∀ c, s.mp.waiters.drain = true → s.mp.waiters.readMiss = none ∨ s.mp.starvation = 4 →
        chooseRun s.sb.lines = some c →
        RunIssued .drain c s.uptimeMs s.sb.lines t ∧ t.mp.starvation = 0 ∧
          t.mp.waiters.readMiss = s.mp.waiters.readMiss) ∧
      (∀ m, s.mp.waiters.readMiss = some m → s.mp.waiters.drain = false ∨ s.mp.starvation ≠ 4 →
        t.mp.current = some { kind := .read, sector := m.first, count := m.len, data := [], requester := .readMiss
                              attempt := 1, start := s.uptimeMs, abandoned := false } ∧
        t.mp.waiters = { s.mp.waiters with readMiss := none } ∧ t.sb = s.sb ∧
        t.mp.starvation = (if s.mp.waiters.drain then min 4 (s.mp.starvation + 1) else s.mp.starvation)) ∧
      (s.mp.waiters.readMiss = none → s.mp.waiters.drain = false → t.mp.current = none ∧ t.sb = s.sb) := by
  have hstands : s.mp.waiters.drain = drainWanted s := (drainStands_iff (ne_off_of_inService hp)).mp hd
  have hsame : ∀ u : State, u.sb.lines = s.sb.lines → runInFlight u = false → u.mm.motion = s.mm.motion →
      u.ps.power = s.ps.power → u.mp.waiters.drain = s.mp.waiters.drain → syncDrain u = u := fun u hl hr hm hpow hdr =>
    syncDrain_of_agrees fun _ => by rw [hdr, hstands, drainWanted_congr hl (hr.trans hcur.symm) hm hpow]
  refine ⟨_, rfl, freed_eq (freed_grantOnly s), fun c hdr hm hc => ?_, fun m hm hdr => ?_, fun hm hdr => ?_⟩
  · have hb : bracedState s.mm.motion = false := not_braced_of_drainWanted hp (hstands ▸ hdr)
    rw [grantService_drain (s := freed s) hdr hm, drainGranted (s := freed s) hb hc]
    exact ⟨⟨by rw [syncDrain_current]; rfl, by rw [syncDrain_lines]; rfl⟩, syncDrain_starvation_zero rfl,
      by rw [syncDrain_readMiss]; rfl⟩
  · rw [grantService_miss (s := freed s) rfl hm hdr, hsame (grantMiss m (freed s)) rfl rfl rfl rfl rfl]
    exact ⟨rfl, rfl, rfl, rfl⟩
  · rw [grantService_none (s := freed s) hm hdr, hsame (freed s) rfl rfl rfl rfl rfl]
    exact ⟨rfl, rfl⟩

/-! ### Which run is chosen (R17) -/

/-- R18: the slots from `i` on that follow one another. -/
theorem runLenFrom_spec (m : BitVec 8) (fuel i : Nat) :
    (∀ n, n < runLenFrom m fuel i → m.getLsbD (i + n) = true) ∧ runLenFrom m fuel i ≤ fuel ∧
      (runLenFrom m fuel i < fuel → m.getLsbD (i + runLenFrom m fuel i) = false) := by
  induction fuel generalizing i with
  | zero => simp [runLenFrom]
  | succ fuel ih =>
    obtain ⟨hset, hle, hend⟩ := ih (i + 1)
    by_cases hi : m.getLsbD i
    · rw [runLenFrom, if_pos hi]
      refine ⟨fun n hn => ?_, by omega, fun hlt => ?_⟩
      · cases n with
        | zero => exact hi
        | succ n => rw [show i + (n + 1) = i + 1 + n by omega]; exact hset n (by omega)
      · rw [show i + (runLenFrom m fuel (i + 1) + 1) = i + 1 + runLenFrom m fuel (i + 1) by omega]
        exact hend (by omega)
    · rw [runLenFrom, if_neg hi]
      exact ⟨fun n hn => absurd hn (by omega), by omega, fun _ => by simpa using hi⟩

theorem firstRun_eq_none_iff (m : BitVec 8) : firstRun m = none ↔ m = 0 := by
  rw [firstRun, Option.map_eq_none_iff, List.find?_eq_none]
  constructor
  · intro h
    refine BitVec.eq_of_getLsbD_eq fun i hi => ?_
    simpa using h i (List.mem_range.mpr hi)
  · rintro rfl
    simp

/-- R18: the first run of a mask is the lowest slot set, as far as slots follow one another. -/
theorem firstRun_spec {m : BitVec 8} {first len : Nat} (h : firstRun m = some (first, len)) :
    1 ≤ len ∧ first + len ≤ 8 ∧ (∀ n, n < first → m.getLsbD n = false) ∧
    (∀ n, n < len → m.getLsbD (first + n) = true) ∧ m.getLsbD (first + len) = false := by
  obtain ⟨i, hi, he⟩ := Option.map_eq_some_iff.mp h
  obtain ⟨rfl, rfl⟩ := Prod.mk.inj he
  obtain ⟨hbit, hlt, hlow⟩ := List.find?_range_eq_some.mp hi
  obtain ⟨hset, hle, hend⟩ := runLenFrom_spec m 8 i
  have hbeyond : ∀ n, 8 ≤ n → m.getLsbD n = false := fun n hn => BitVec.getLsbD_of_ge m n hn
  have hpos : 1 ≤ runLenFrom m 8 i := by
    by_contra hz
    have := hend (by omega)
    rw [show runLenFrom m 8 i = 0 by omega] at this
    simp_all
  refine ⟨hpos, ?_, fun n hn => by simpa using hlow n hn, hset, ?_⟩
  · by_contra hgt
    have := hset (runLenFrom m 8 i - 1) (by omega)
    rw [hbeyond _ (by omega)] at this
    cases this
  · by_cases h8 : runLenFrom m 8 i < 8
    · exact hend h8
    · exact hbeyond _ (by omega)

/-- R17: a run is chosen exactly where a line is staged, each of which has a run left. -/
theorem chooseRun_eq_none_iff {lines : List Line} (h : ∀ l ∈ lines, l.live = true → l.undone ≠ 0) :
    chooseRun lines = none ↔ staged lines = false := by
  have hnone : nextDrainLine lines = none ↔ staged lines = false := by
    have hfree : staged lines = false ↔ ∀ l ∈ lines, (l.state == .draining) = false ∧ (l.state == .dirty) = false := by
      simp only [staged, List.any_eq_false, Bool.not_eq_true, Line.not_live_iff]
      refine forall₂_congr fun l _ => ?_
      cases l.state <;> decide
    unfold nextDrainLine
    rw [hfree]
    split
    · next p hp =>
      refine ⟨nofun, fun hf => ?_⟩
      rw [newestLine, pickLine_none.mpr fun l hl => (hf l hl).1] at hp
      cases hp
    · next hd =>
      rw [oldestLine, pickLine_none]
      exact ⟨fun ho l hl => ⟨pickLine_none.mp hd l hl, ho l hl⟩, fun hf l hl => (hf l hl).2⟩
  rw [← hnone]
  unfold chooseRun
  split
  · next hn => simp [hn]
  · next i l hl =>
    have hmem : l ∈ lines ∧ l.live = true := by
      unfold nextDrainLine at hl
      split at hl
      · next p hp =>
        cases hl
        obtain ⟨-, hget, hst⟩ := pickLine_some hp
        exact ⟨List.mem_of_getElem? hget, Line.live_draining (by simpa using hst)⟩
      · obtain ⟨-, hget, hst⟩ := pickLine_some hl
        exact ⟨List.mem_of_getElem? hget, Line.live_dirty (by simpa using hst)⟩
    have hrun : firstRun l.undone ≠ none := fun hn => h l hmem.1 hmem.2 ((firstRun_eq_none_iff _).mp hn)
    split
    · next hn => exact absurd hn hrun
    · simp [hl]

/-- R2, R17: the run chosen is the first of the DRAINING line, or else of the oldest DIRTY one. -/
theorem runChosen_of_chooseRun {lines : List Line} {c : RunChoice} (ha : AgesClose lines) (h : chooseRun lines = some c) :
    RunChosen lines c := by
  obtain ⟨base, hw⟩ := ha
  obtain ⟨hget, hrun, hst⟩ := chooseRun_some h
  refine ⟨hget, fun ⟨l, hl, hd⟩ => ?_, fun hno => ?_, firstRun_spec hrun⟩
  · rcases hst with hst | ⟨-, hno⟩
    · exact hst
    · exact absurd hd (hno l hl)
  · rcases hst with hst | ⟨hdirty, -⟩
    · exact absurd hst (hno _ (List.mem_of_getElem? hget))
    refine ⟨hdirty, fun l hl hls => ?_⟩
    have hpick : oldestLine (fun l => l.state == .dirty) lines = some (c.idx, c.line) := by
      have hnew : newestLine (fun l => l.state == .draining) lines = none :=
        pickLine_none.mpr fun l hl => by simpa using hno l hl
      unfold chooseRun nextDrainLine at h
      rw [hnew] at h
      dsimp only at h
      split at h
      · cases h
      · next i m hm =>
        split at h
        · cases h
        · cases h
          exact hm
    have hkey := pickLine_best (fun l => 4294967296 - (l.age - base).toNat) (fun a ha b hb pa pb => by
      rw [earlier_iff_of_window (hw a ha (Line.live_dirty (by simpa using pa)))
        (hw b hb (Line.live_dirty (by simpa using pb)))]
      have := hw a ha (Line.live_dirty (by simpa using pa))
      have := hw b hb (Line.live_dirty (by simpa using pb))
      omega) hpick l hl (by simpa using hls)
    have h1 := hw l hl (Line.live_dirty hls)
    have h2 := hw c.line (List.mem_of_getElem? hget) (Line.live_dirty hdirty)
    rw [Bool.eq_false_iff, ne_eq, earlier_iff_of_window h1 h2]
    omega

end Sys2Proof.Machine
end

