-- ==== Sys2Proof/Proofs/P14.lean ====
section
/-! The invariant of the steps fails at a brownout in a state whose front port is in TAKING with no request: R137 has no
request to end, so the port goes on in TAKING, and HOLDUP is not a power state in which a write is in transfer. No run of
the part reaches such a port (R155 sets both at once); the invariant does not name a premise that excludes it. -/

namespace Sys2Proof.Machine

open Sys2Proof

/-- A part in NORMAL whose front port is in TAKING with no request, and a brownout that waits. -/
def takingUnasked : State :=
  { State.reset with
    fp := { FrontPort.reset with port := .taking }
    ps := { PowerSup.reset with power := .normal, startPos := .served }
    pending := [.brownout] }

theorem zonesStand_takingUnasked : ZonesStand takingUnasked := by
  obtain ⟨hsized, hapart, -⟩ := zonesStand_reset
  refine ⟨hsized, hapart, fun _ _ _ h => (by cases h), fun _ => .inl rfl, ?_, ?_, ?_⟩
  · exact ⟨fun _ _ h => (by cases h), fun _ h => (by cases h), fun h => (by cases h), fun _ _ => rfl,
      fun h => (by cases h)⟩
  · exact ⟨fun _ _ h => (by cases h), fun _ h => (by cases h)⟩
  · exact ⟨⟨fun h => (by cases h), fun h => (by cases h)⟩, fun h => (by cases h)⟩

/-- R136, R137: at the brownout the part enters HOLDUP, and the port without a request stays in TAKING. -/
theorem step_takingUnasked : ∃ t, step takingUnasked = .next t ∧ t.fp.port = .taking ∧ t.ps.power = .holdup :=
  ⟨_, rfl, rfl, rfl⟩

/-- Refutes O38: the invariant of the zones says that a write is in transfer in NORMAL and LOW alone, and a brownout
leaves a port in TAKING that has no request as it is, in HOLDUP. -/
theorem not_stepKeepsSized : ¬ Obligations.StepKeepsSized := by
  intro h
  obtain ⟨t, hstep, hport, hpower⟩ := step_takingUnasked
  obtain ⟨-, -, -, -, hzones, -, -⟩ := h takingUnasked t hstep
  obtain ⟨-, -, -, htransfer, -⟩ := hzones zonesStand_takingUnasked
  rcases htransfer (.inl hport) with hp | hp <;> cases hpower.symm.trans hp

end Sys2Proof.Machine
end

