-- ==== Sys2Proof/Proofs/P15.lean ====
section
/-! Runs of slots as sets (R3, R18), and what a discard leaves of the dirty cost (R19, R139). -/

namespace Sys2Proof.Machine

open Sys2Proof

/-! ### Sets of slots and their runs -/

/-- The slots of a mask. -/
def slots (m : BitVec 8) : Finset Nat :=
  (Finset.range 8).filter fun i => m.getLsbD i = true

/-- The slots at which a run of a set of slots starts. -/
def starts (a : Finset Nat) : Finset Nat :=
  a.filter fun i => i = 0 ∨ i - 1 ∉ a

/-- The number of runs of a set of slots. -/
def runsOf (a : Finset Nat) : Nat :=
  (starts a).card

theorem mem_starts {a : Finset Nat} {i : Nat} : i ∈ starts a ↔ i ∈ a ∧ (i = 0 ∨ i - 1 ∉ a) := Finset.mem_filter

theorem mem_slots {m : BitVec 8} {i : Nat} : i ∈ slots m ↔ m.getLsbD i = true := by
  refine Finset.mem_filter.trans (and_iff_right_of_imp fun h => Finset.mem_range.mpr ?_)
  by_contra hge
  rw [BitVec.getLsbD_of_ge m i (by omega)] at h
  cases h

theorem slots_lt {m : BitVec 8} {i : Nat} (h : i ∈ slots m) : i < 8 :=
  Finset.mem_range.mp (Finset.mem_filter.mp h).1

theorem maskRuns_eq (m : BitVec 8) : maskRuns m = runsOf (slots m) := by
  have h : starts (slots m) = (List.toFinset ((List.range 8).filter fun i => runStartsAt m i)) := by
    ext i
    simp only [mem_starts, mem_slots, List.mem_toFinset, List.mem_filter, List.mem_range, runStartsAt, Bool.and_eq_true,
      Bool.or_eq_true, beq_iff_eq, Bool.not_eq_true', Bool.not_eq_true]
    exact ⟨fun h => ⟨slots_lt (mem_slots.mpr h.1), h⟩, fun h => h.2⟩
  rw [runsOf, h, List.toFinset_card_of_nodup ((List.nodup_range).filter _), maskRuns]

theorem slots_eq_empty_iff (m : BitVec 8) : slots m = ∅ ↔ m = 0 := by
  refine ⟨fun h => BitVec.eq_of_getLsbD_eq fun i hi => ?_, by rintro rfl; ext; simp [mem_slots]⟩
  have : i ∉ slots m := by rw [h]; exact Finset.notMem_empty i
  simpa [mem_slots] using this

theorem getLsbD_slotMask {first len n : Nat} (hn : n < 8) :
    (slotMask first len).getLsbD n = decide (first ≤ n ∧ n < first + len) := by
  rw [slotMask, BitVec.getLsbD_ofNat, Nat.testBit_mul_two_pow, Nat.testBit_two_pow_sub_one]
  grind

theorem slots_and_not_slotMask (m : BitVec 8) (first len : Nat) :
    slots (m &&& ~~~slotMask first len) = slots m \ Finset.Ico first (first + len) := by
  ext i
  by_cases hi : i < 8
  · simp only [mem_slots, Finset.mem_sdiff, Finset.mem_Ico, BitVec.getLsbD_and, BitVec.getLsbD_not, getLsbD_slotMask hi]
    simp [hi]
    intro _
    omega
  · exact iff_of_false (fun h => hi (slots_lt h)) fun h => hi (slots_lt (Finset.mem_sdiff.mp h).1)

/-- R3: a run lies between slots that are not in the set. Without its first run a set has one run less. -/
theorem runsOf_sdiff_first {a : Finset Nat} {f q : Nat} (hfq : f < q) (hin : ∀ n, f ≤ n → n < q → n ∈ a)
    (hlow : ∀ n, n < f → n ∉ a) (hq : q ∉ a) : runsOf (a \ Finset.Ico f q) + 1 = runsOf a := by
  have h : starts a = insert f (starts (a \ Finset.Ico f q)) := by
    ext i
    simp only [mem_starts, Finset.mem_insert, Finset.mem_sdiff, Finset.mem_Ico]
    grind
  rw [runsOf, runsOf, h, Finset.card_insert_of_notMem]
  simp [mem_starts, hfq]

theorem runsOf_pos {a : Finset Nat} (h : a.Nonempty) : 1 ≤ runsOf a := by
  refine Finset.card_pos.mpr ⟨a.min' h, mem_starts.mpr ⟨a.min'_mem h, ?_⟩⟩
  by_contra hc
  obtain ⟨hne, hmem⟩ := not_or.mp hc
  have := a.min'_le _ (not_not.mp hmem)
  omega

/-- R18: the slots of the first run of a mask. -/
theorem firstRun_slots {m : BitVec 8} {first len : Nat} (h : firstRun m = some (first, len)) :
    first < first + len ∧ first + len ≤ 8 ∧ (∀ n, first ≤ n → n < first + len → n ∈ slots m) ∧
      (∀ n, n < first → n ∉ slots m) ∧ first + len ∉ slots m := by
  obtain ⟨hpos, hle, hlow, hset, hend⟩ := firstRun_spec h
  refine ⟨by omega, hle, fun n h1 h2 => ?_, fun n hn => by simp [mem_slots, hlow n hn], by simp [mem_slots, hend]⟩
  rw [mem_slots, show n = first + (n - first) by omega]
  exact hset _ (by omega)

/-! ### Finishing a run (R18, R19) -/

theorem Line.finishRun_undone (l : Line) (first len : Nat) :
    l.valid &&& ~~~(l.programmed ||| slotMask first len) = l.undone &&& ~~~slotMask first len := by
  rw [Line.undone, BitVec.not_or, BitVec.and_assoc]

/-- R18: a finished run frees its line, or leaves its other slots to program. -/
theorem Line.finishRun_cases (l : Line) (first len : Nat) :
    (slots l.undone \ Finset.Ico first (first + len) = ∅ ∧ l.finishRun first len = Line.free) ∨
    ((slots l.undone \ Finset.Ico first (first + len)).Nonempty ∧ (l.finishRun first len).state = l.state ∧
      (l.finishRun first len).age = l.age ∧
      slots (l.finishRun first len).undone = slots l.undone \ Finset.Ico first (first + len)) := by
  rw [← slots_and_not_slotMask, ← Line.finishRun_undone, slots_eq_empty_iff, Line.finishRun]
  by_cases h : l.valid &&& ~~~(l.programmed ||| slotMask first len) = 0
  · exact .inl ⟨h, if_pos h⟩
  · refine .inr ⟨Finset.nonempty_iff_ne_empty.mpr fun he => h ((slots_eq_empty_iff _).mp he), ?_⟩
    rw [if_neg h]
    exact ⟨rfl, rfl, rfl⟩

/-- R3: what a finished run leaves of the cost of its line. -/
theorem Line.finishRun_runCount {l : Line} (hl : l.live = true) (first len : Nat) :
    (l.finishRun first len).runCount = runsOf (slots l.undone \ Finset.Ico first (first + len)) := by
  obtain ⟨hempty, hfree⟩ | ⟨-, hst, -, hslots⟩ := l.finishRun_cases first len
  · rw [hfree, hempty]
    rfl
  · have hlive : (l.finishRun first len).live = true := by rw [Line.live, hst]; exact hl
    rw [Line.runCount, if_pos hlive, maskRuns_eq, hslots]

theorem Line.runCount_eq {l : Line} (hl : l.live = true) : l.runCount = runsOf (slots l.undone) := by
  rw [Line.runCount, if_pos hl, maskRuns_eq]

/-! ### One discard (R19) -/

/-- The lines after the run chosen is discarded. -/
def discardLines (c : RunChoice) (lines : List Line) : List Line :=
  (lines.set c.idx { c.line with state := .draining }).map fun l =>
    if l.state = .draining then l.finishRun c.first c.len else l

theorem RunChoice.sector_mod {lines : List Line} {c : RunChoice} (h : chooseRun lines = some c) : c.sector % 8 = c.first := by
  obtain ⟨-, hrun, -⟩ := chooseRun_some h
  have := firstRun_slots hrun
  rw [RunChoice.sector]
  omega

theorem discardRun_lines {s : State} {c : RunChoice} (h : chooseRun s.sb.lines = some c) :
    (discardRun c.sector c.len (startDraining c s)).sb.lines = discardLines c s.sb.lines := by
  have hkept : ∀ z t, (reportLoss c.sector z t).sb = t.sb := fun z t => by simp
  rw [discardRun, hkept, discardLines, ← RunChoice.sector_mod h]
  rfl

theorem discardAll_none {n : Nat} {s : State} (h : chooseRun s.sb.lines = none) : discardAll n s = s := by
  cases n with
  | zero => rfl
  | succ n => rw [discardAll, h]

theorem discardAll_some {n : Nat} {s : State} {c : RunChoice} (h : chooseRun s.sb.lines = some c) :
    discardAll (n + 1) s = discardAll n (discardRun c.sector c.len (startDraining c s)) := by
  rw [discardAll, h]

theorem getElem?_discardLines (c : RunChoice) (lines : List Line) (j : Nat) : (discardLines c lines)[j]? =
    ((lines.set c.idx { c.line with state := .draining })[j]?).map fun l =>
      if l.state = .draining then l.finishRun c.first c.len else l :=
  List.getElem?_map ..

/-- R17: with the line chosen alone DRAINING, a discard finishes the run of that line and changes no other. -/
theorem discardLines_single {lines : List Line} {c : RunChoice} (h : chooseRun lines = some c)
    (hone : ∀ j l, j ≠ c.idx → lines[j]? = some l → l.state ≠ .draining) :
    discardLines c lines = lines.set c.idx (Line.finishRun { c.line with state := .draining } c.first c.len) := by
  obtain ⟨hget, -, -⟩ := chooseRun_some h
  refine List.ext_getElem? fun j => ?_
  rw [getElem?_discardLines]
  by_cases hj : c.idx = j
  · subst hj
    have hlt := (List.getElem?_eq_some_iff.mp hget).1
    simp [List.getElem?_set_self hlt]
  · rw [List.getElem?_set_ne hj, List.getElem?_set_ne hj]
    cases hl : lines[j]? with
    | none => rfl
    | some l => simp [hone j l (Ne.symm hj) hl]

/-- R17: no line but the one numbered `i` is DRAINING. -/
def SoleDraining (i : Nat) (lines : List Line) : Prop :=
  ∀ j l, j ≠ i → lines[j]? = some l → l.state ≠ .draining

theorem soleDraining_of_filter {lines : List Line} (h : (lines.filter fun l => l.state == .draining).length ≤ 1) :
    ∃ i, SoleDraining i lines := by
  induction lines with
  | nil => exact ⟨0, fun j l _ hl => by simp at hl⟩
  | cons x xs ih =>
    rw [List.filter_cons] at h
    by_cases hx : x.state = .draining
    · rw [if_pos (by simp [hx]), List.length_cons] at h
      have hnil : xs.filter (fun l => l.state == .draining) = [] := List.eq_nil_of_length_eq_zero (by omega)
      refine ⟨0, fun j l hj hl => ?_⟩
      obtain ⟨j, rfl⟩ := Nat.exists_eq_succ_of_ne_zero hj
      simpa using List.filter_eq_nil_iff.mp hnil l (List.mem_of_getElem? hl)
    · rw [if_neg (by simp [hx])] at h
      obtain ⟨i, hi⟩ := ih h
      refine ⟨i + 1, fun j l hj hl => ?_⟩
      cases j with
      | zero => cases hl; exact hx
      | succ j => exact hi j l (by omega) hl

/-- R17: where at most one line is DRAINING, the run chosen is of that line, or no line is DRAINING. -/
theorem SoleDraining.chosen {i : Nat} {lines : List Line} {c : RunChoice} (hs : SoleDraining i lines)
    (h : chooseRun lines = some c) : SoleDraining c.idx lines := by
  obtain ⟨hget, -, hst | ⟨-, hno⟩⟩ := chooseRun_some h
  · by_cases hi : c.idx = i
    · exact hi ▸ hs
    · exact absurd hst (hs _ _ hi hget)
  · exact fun j l _ hjl => hno l (List.mem_of_getElem? hjl)

/-- R18: a chosen run is the first of its line's mask. -/
theorem chooseRun_runsOf {lines : List Line} {c : RunChoice} (h : chooseRun lines = some c) :
    runsOf (slots c.line.undone \ Finset.Ico c.first (c.first + c.len)) + 1 = runsOf (slots c.line.undone) := by
  obtain ⟨-, hrun, -⟩ := chooseRun_some h
  obtain ⟨hlt, -, hin, hlow, hend⟩ := firstRun_slots hrun
  exact runsOf_sdiff_first hlt hin hlow hend

/-- R19, R139: with at most one line DRAINING a discard takes one run off the dirty cost, and keeps at most one line
DRAINING. -/
theorem SoleDraining.discard {lines : List Line} {c : RunChoice} (hs : SoleDraining c.idx lines)
    (h : chooseRun lines = some c) :
    dirtyCost (discardLines c lines) + 1 = dirtyCost lines ∧ SoleDraining c.idx (discardLines c lines) := by
  obtain ⟨hget, -, -⟩ := chooseRun_some h
  have hlive : Line.live { c.line with state := .draining } = true := Line.live_draining rfl
  have hrest := Line.finishRun_runCount hlive c.first c.len
  have hcost := Line.runCount_eq (chooseRun_live h)
  have hone := chooseRun_runsOf h
  have hset := dirtyCost_set hget (Line.finishRun { c.line with state := .draining } c.first c.len)
  rw [discardLines_single h hs]
  refine ⟨?_, fun j l hj hl => hs j l hj (by rwa [List.getElem?_set_ne (Ne.symm hj)] at hl)⟩
  have hundone : Line.undone { c.line with state := .draining } = c.line.undone := rfl
  rw [hundone] at hrest
  omega

/-- R19, R139: with at most one line DRAINING the discards only take runs off the dirty cost. -/
theorem SoleDraining.discardAll_cost {i : Nat} (n : Nat) {s : State} (hs : SoleDraining i s.sb.lines) :
    dirtyCost (discardAll n s).sb.lines ≤ dirtyCost s.sb.lines := by
  induction n generalizing s i with
  | zero => exact Nat.le_refl _
  | succ n ih =>
    cases hc : chooseRun s.sb.lines with
    | none => rw [discardAll_none hc]
    | some c =>
      obtain ⟨hcost, hsole⟩ := (hs.chosen hc).discard hc
      rw [← discardRun_lines hc] at hcost hsole
      rw [discardAll_some hc]
      have := ih hsole
      omega

end Sys2Proof.Machine
end

