-- ==== Sys2Proof/Proofs/P16.lean ====
section
/-! The discards of the hold-up sequence never raise the dirty cost, whatever lines they start from (R3, R19, R139).

A run's slots are finished in every DRAINING line, so where several lines are DRAINING a discard can cut the runs of the
others in two. The proof follows the set `gone` of the slots finished so far, and for each DRAINING line a set `own` of which
its undone slots are what is not gone: the line's slots as they were, less the part of the chosen line that is dealt with.
Each discard adds a run to `gone` or joins runs of it, and takes a run off the chosen line; a cut costs a discard more. When
as many discards have been made as there were runs at first, the eight slots leave no room for more runs than that. -/

namespace Sys2Proof.Machine

open Sys2Proof

/-! ### Sets of slots -/

/-- The slots from `q` on. -/
def slotsFrom (q : Nat) (a : Finset Nat) : Finset Nat :=
  a.filter fun i => q ≤ i

/-- The first run of `own` begins in a slot that is gone and goes on, to its left, in another that is gone: a cut that the
left part of the line has paid for. -/
def OpensIn (gone own : Finset Nat) : Prop :=
  ∃ p ∈ own, (∀ n, n < p → n ∉ own) ∧ p ∈ gone ∧ 1 ≤ p ∧ p - 1 ∈ gone

/-- R3: a run that is joined to a set of slots is a run more, but for each of its two neighbours that is in the set. -/
theorem runsOf_union_run {u : Finset Nat} {f q : Nat} (hfq : f < q) (hd : ∀ n, f ≤ n → n < q → n ∉ u) :
    (f = 0 ∨ f - 1 ∉ u → q ∉ u → runsOf (u ∪ Finset.Ico f q) ≤ runsOf u + 1) ∧
    (f = 0 ∨ f - 1 ∉ u → q ∈ u → runsOf (u ∪ Finset.Ico f q) ≤ runsOf u) ∧
    (1 ≤ f → f - 1 ∈ u → q ∉ u → runsOf (u ∪ Finset.Ico f q) ≤ runsOf u) ∧
    (1 ≤ f → f - 1 ∈ u → q ∈ u → runsOf (u ∪ Finset.Ico f q) + 1 ≤ runsOf u) := by
  have hsub : ∀ i ∈ starts (u ∪ Finset.Ico f q), (i ∈ starts u ∧ i ≠ q) ∨ (i = f ∧ (f = 0 ∨ f - 1 ∉ u)) := by
    intro i
    simp only [mem_starts, Finset.mem_union, Finset.mem_Ico]
    grind
  have hq : q ∈ u → q ∈ starts u := fun h => mem_starts.mpr ⟨h, .inr (hd _ (by omega) (by omega))⟩
  have hcard : q ∈ u → ((starts u).erase q).card + 1 = (starts u).card := fun h => Finset.card_erase_add_one (hq h)
  refine ⟨fun _ _ => ?_, fun _ h => ?_, fun h1 hl _ => ?_, fun h1 hl h => ?_⟩
  · refine (Finset.card_le_card (t := insert f (starts u)) fun i hi => ?_).trans (Finset.card_insert_le _ _)
    grind
  · refine (Finset.card_le_card (t := insert f ((starts u).erase q)) fun i hi => ?_).trans
      ((Finset.card_insert_le _ _).trans (hcard h).le)
    grind
  · refine Finset.card_le_card fun i hi => ?_
    grind
  · refine Nat.le_trans (Nat.succ_le_succ (Finset.card_le_card (t := (starts u).erase q) fun i hi => ?_)) (hcard h).le
    grind

/-- R3: the runs of a set from a slot on, where the slot to its left is in the set: those that start from there on, and
the one that the slot itself may be cut from. -/
theorem runsOf_slotsFrom {a : Finset Nat} {q : Nat} (hq : 1 ≤ q) (hin : q - 1 ∈ a) :
    runsOf (slotsFrom q a) + ((starts a).filter fun i => i < q).card = runsOf a + (if q ∈ a then 1 else 0) := by
  have hparts : (starts a).card = ((starts a).filter fun i => i < q).card + ((starts a).filter fun i => ¬i < q).card :=
    (Finset.card_filter_add_card_filter_not _).symm
  by_cases hmem : q ∈ a
  · have h : starts (slotsFrom q a) = insert q ((starts a).filter fun i => ¬i < q) := by
      ext i
      simp only [mem_starts, slotsFrom, Finset.mem_filter, Finset.mem_insert]
      grind
    have hnot : q ∉ (starts a).filter fun i => ¬i < q := by
      simp only [mem_starts, Finset.mem_filter]
      grind
    rw [if_pos hmem, runsOf, runsOf, h, Finset.card_insert_of_notMem hnot]
    omega
  · have h : starts (slotsFrom q a) = (starts a).filter fun i => ¬i < q := by
      ext i
      simp only [mem_starts, slotsFrom, Finset.mem_filter]
      grind
    rw [if_neg hmem, runsOf, runsOf, h]
    omega

/-- Every slot of a set is behind a start. -/
theorem exists_start {a : Finset Nat} {n : Nat} (h : n ∈ a) : ∃ i ∈ starts a, i ≤ n ∧ ∀ j, i ≤ j → j ≤ n → j ∈ a := by
  induction n with
  | zero => exact ⟨0, mem_starts.mpr ⟨h, .inl rfl⟩, Nat.le_refl 0, fun j _ hj => by rwa [Nat.le_zero.mp hj]⟩
  | succ n ih =>
    by_cases hn : n ∈ a
    · obtain ⟨i, hi, hin, hall⟩ := ih hn
      refine ⟨i, hi, by omega, fun j h1 h2 => ?_⟩
      rcases Nat.lt_or_ge n j with hlt | hle
      · rwa [show j = n + 1 by omega]
      · exact hall j h1 hle
    · exact ⟨n + 1, mem_starts.mpr ⟨h, .inr hn⟩, Nat.le_refl _, fun j h1 h2 => by rwa [Nat.le_antisymm h2 h1]⟩

/-- The account of one discard: what it takes off the chosen line pays for the run it adds to the slots gone. -/
theorem discard_account {own gone : Finset Nat} {f q : Nat} {open1 : Prop} [Decidable open1] (hfq : f < q)
    (hin : ∀ n, f ≤ n → n < q → n ∈ own \ gone) (hlow : ∀ n, n < f → n ∉ own \ gone) (hend : q ∉ own \ gone)
    (hopen : open1 → OpensIn gone own) :
    2 * runsOf (slotsFrom q own) + runsOf (gone ∪ Finset.Ico f q) + 1 + (if open1 then 1 else 0) ≤
      2 * runsOf own + runsOf gone + (if q ∈ own then 1 else 0) := by
  have hdisj : ∀ n, f ≤ n → n < q → n ∉ gone := fun n h1 h2 => (Finset.mem_sdiff.mp (hin n h1 h2)).2
  have hown : ∀ n, f ≤ n → n < q → n ∈ own := fun n h1 h2 => (Finset.mem_sdiff.mp (hin n h1 h2)).1
  have hqgone : q ∈ own → q ∈ gone := fun h => by
    by_contra hg
    exact hend (Finset.mem_sdiff.mpr ⟨h, hg⟩)
  obtain ⟨i, hi, hif, hall⟩ := exists_start (hown f (Nat.le_refl f) hfq)
  have hfrom := runsOf_slotsFrom (a := own) (q := q) (by omega) (hown _ (by omega) (by omega))
  obtain ⟨hnn, hny, hyn, hyy⟩ := runsOf_union_run hfq hdisj
  have hmem : i ∈ (starts own).filter fun i => i < q := Finset.mem_filter.mpr ⟨hi, by omega⟩
  have hpos : 1 ≤ ((starts own).filter fun i => i < q).card := Finset.card_pos.mpr ⟨i, hmem⟩
  have hpaid : open1 → ((starts own).filter fun i => i < q).card = 1 → 1 ≤ f ∧ f - 1 ∈ gone := by
    intro ho hone
    obtain ⟨p, hp, hleast, hpg, hp1, hpg1⟩ := hopen ho
    have hpf : p < f := by
      by_contra hge
      rcases Nat.lt_or_ge p q with hlt | hle
      · exact hdisj p (by omega) hlt hpg
      · exact hleast f (by omega) (hown f (Nat.le_refl f) hfq)
    have hpstart : p ∈ (starts own).filter fun i => i < q :=
      Finset.mem_filter.mpr ⟨mem_starts.mpr ⟨hp, .inr (hleast _ (by omega))⟩, by omega⟩
    obtain ⟨a, ha⟩ := Finset.card_eq_one.mp hone
    rw [ha, Finset.mem_singleton] at hmem hpstart
    refine ⟨by omega, ?_⟩
    by_contra hg
    exact hlow (f - 1) (by omega) (Finset.mem_sdiff.mpr ⟨hall _ (by omega) (by omega), hg⟩)
  have hunion : runsOf (gone ∪ Finset.Ico f q) + (if 1 ≤ f ∧ f - 1 ∈ gone then 1 else 0) + (if q ∈ gone then 1 else 0) ≤
      runsOf gone + 1 := by
    by_cases hl : 1 ≤ f ∧ f - 1 ∈ gone <;> by_cases hq : q ∈ gone
    · rw [if_pos hl, if_pos hq]; exact Nat.succ_le_succ (hyy hl.1 hl.2 hq)
    · rw [if_pos hl, if_neg hq]; exact Nat.succ_le_succ (hyn hl.1 hl.2 hq)
    · rw [if_neg hl, if_pos hq]; exact Nat.succ_le_succ (hny (by grind) hq)
    · rw [if_neg hl, if_neg hq]; exact hnn (by grind) hq
  have hright : (if q ∈ own then 1 else 0) ≤ (if q ∈ gone then 1 else 0) := by
    split <;> grind
  have hleft : (if open1 then 1 else 0) ≤ (if 1 ≤ f ∧ f - 1 ∈ gone then 1 else 0) ∨
      2 ≤ ((starts own).filter fun i => i < q).card := by
    by_cases ho : open1
    · rcases Nat.lt_or_ge 1 ((starts own).filter fun i => i < q).card with h2 | h1
      · exact .inr h2
      · exact .inl (by rw [if_pos ho, if_pos (hpaid ho (by omega))])
    · exact .inl (by rw [if_neg ho]; exact Nat.zero_le _)
  have hopen1 : (if open1 then 1 else 0) ≤ 1 := by split <;> omega
  have hgone1 : (if q ∈ gone then 1 else 0) ≤ 1 := by split <;> omega
  omega

/-- A set has as many runs as slots at which a run ends. -/
theorem card_ends (a : Finset Nat) : (a.filter fun i => i + 1 ∉ a).card = runsOf a := by
  have hstarts := Finset.card_filter_add_card_filter_not (s := a) (fun i => i = 0 ∨ i - 1 ∉ a)
  have hends := Finset.card_filter_add_card_filter_not (s := a) (fun i => i + 1 ∉ a)
  have himage : (a.filter fun i => ¬(i = 0 ∨ i - 1 ∉ a)) = (a.filter fun i => ¬i + 1 ∉ a).image (· + 1) := by
    ext i
    simp only [Finset.mem_filter, Finset.mem_image, not_or, not_not]
    constructor
    · rintro ⟨hi, h0, h1⟩
      exact ⟨i - 1, ⟨h1, by rwa [Nat.sub_add_cancel (by omega)]⟩, by omega⟩
    · rintro ⟨j, ⟨hj, hj1⟩, rfl⟩
      exact ⟨hj1, by omega, by simpa using hj⟩
  rw [himage, Finset.card_image_of_injective _ (fun _ _ h => by simpa using h)] at hstarts
  rw [runsOf, starts]
  omega

/-- R3: what is not gone of a set has at most a run more for each run that is gone, and one less where the first run of
the set begins in a slot that is gone. -/
theorem runsOf_sdiff_le (own gone : Finset Nat) : runsOf (own \ gone) ≤ runsOf own + runsOf gone ∧
    (OpensIn gone own → runsOf (own \ gone) + 1 ≤ runsOf own + runsOf gone) := by
  have hsub : starts (own \ gone) ⊆ (starts own \ gone) ∪ (gone.filter fun i => i + 1 ∉ gone).image (· + 1) := by
    intro i hi
    simp only [mem_starts, Finset.mem_sdiff, Finset.mem_union, Finset.mem_image, Finset.mem_filter] at hi ⊢
    by_cases hs : i = 0 ∨ i - 1 ∉ own
    · exact .inl ⟨⟨hi.1.1, hs⟩, hi.1.2⟩
    · refine .inr ⟨i - 1, ⟨by grind, ?_⟩, by omega⟩
      rw [Nat.sub_add_cancel (by omega)]
      exact hi.1.2
  have hcard : runsOf (own \ gone) ≤ (starts own \ gone).card + runsOf gone := by
    refine (Finset.card_le_card hsub).trans ((Finset.card_union_le _ _).trans ?_)
    rw [← card_ends gone]
    exact Nat.add_le_add_left Finset.card_image_le _
  refine ⟨hcard.trans (Nat.add_le_add_right (Finset.card_le_card Finset.sdiff_subset) _), ?_⟩
  rintro ⟨p, hp, hleast, hpg, hp1, -⟩
  have hlt : (starts own \ gone).card < (starts own).card := by
    refine Finset.card_lt_card ⟨Finset.sdiff_subset, fun h => ?_⟩
    exact (Finset.mem_sdiff.mp (h (mem_starts.mpr ⟨hp, .inr (hleast _ (by omega))⟩))).2 hpg
  simp only [runsOf] at hcard ⊢
  omega

/-- A set of slots below 8 has no more runs than slots are left. -/
theorem runsOf_sdiff_le_left {own gone : Finset Nat} (ho : ∀ i ∈ own, i < 8) (hg : ∀ i ∈ gone, i < 8) :
    runsOf (own \ gone) + gone.card ≤ 8 := by
  have hsub : starts (own \ gone) ∪ gone ⊆ Finset.range 8 := by
    intro i
    simp only [Finset.mem_union, mem_starts, Finset.mem_sdiff, Finset.mem_range]
    grind
  have hdisj : Disjoint (starts (own \ gone)) gone := by
    rw [Finset.disjoint_left]
    intro i hi
    simp only [mem_starts, Finset.mem_sdiff] at hi
    exact hi.1.2
  rw [runsOf, ← Finset.card_union_of_disjoint hdisj]
  exact (Finset.card_le_card hsub).trans (by simp)

/-- The arithmetic at the end: with `t` runs left, `b` runs of slots gone, `g` slots gone and `d` runs at first. -/
theorem room_left {t own b g d made opened : Nat} (h1 : t + opened ≤ own * (1 + b)) (h2 : t ≤ own * (8 - g))
    (hacc : 2 * own + b + made ≤ 2 * d + opened) (ho : opened ≤ 1) (hm : made ≤ g) (hg : g ≤ 8) (hd : d ≤ made) : t ≤ d := by
  have hown : own ≤ 4 := by omega
  have hb : b ≤ 9 := by omega
  interval_cases own <;> interval_cases b <;> omega

/-! ### Sums over the lines -/

/-- Line `j` of the buffer, FREE beyond its end. -/
def lineAt (lines : List Line) (j : Nat) : Line :=
  lines.getD j Line.free

/-- The sum of a count over the DRAINING lines. -/
def drainingSum (f : Nat → Nat) (lines : List Line) : Nat :=
  ∑ j ∈ Finset.range lines.length, if (lineAt lines j).state = .draining then f j else 0

/-- The runs of the DIRTY lines. -/
def dirtyRest (lines : List Line) : Nat :=
  ∑ j ∈ Finset.range lines.length, if (lineAt lines j).state = .dirty then (lineAt lines j).runCount else 0

theorem lineAt_of_getElem? {lines : List Line} {j : Nat} {l : Line} (h : lines[j]? = some l) : lineAt lines j = l := by
  rw [lineAt, List.getD_eq_getElem?_getD, h, Option.getD_some]

theorem getElem?_lineAt {lines : List Line} {j : Nat} (h : j < lines.length) : lines[j]? = some (lineAt lines j) := by
  rw [lineAt, List.getD_eq_getElem?_getD, List.getElem?_eq_getElem h, Option.getD_some]

theorem dirtyCost_eq_sum (lines : List Line) :
    dirtyCost lines = ∑ j ∈ Finset.range lines.length, (lineAt lines j).runCount := by
  induction lines with
  | nil => rfl
  | cons x xs ih =>
    rw [List.length_cons, Finset.sum_range_succ']
    simp only [dirtyCost, List.map_cons, List.sum_cons] at ih ⊢
    rw [ih, Nat.add_comm]
    rfl

/-- R3: the dirty cost is that of the DRAINING lines and that of the DIRTY ones. -/
theorem dirtyCost_split (lines : List Line) : dirtyCost lines =
    drainingSum (fun j => runsOf (slots (lineAt lines j).undone)) lines + dirtyRest lines := by
  rw [dirtyCost_eq_sum, drainingSum, dirtyRest, ← Finset.sum_add_distrib]
  refine Finset.sum_congr rfl fun j _ => ?_
  cases hs : (lineAt lines j).state with
  | free => simp [Line.runCount, Line.live, hs]
  | dirty => simp
  | draining => simp [Line.runCount_eq (Line.live_draining hs)]

end Sys2Proof.Machine
end

