-- ==== Sys2Proof/Proofs/P17.lean ====
section
/-! The discards of the hold-up sequence keep the dirty cost down: the account of `discard_account` along the discards. -/

namespace Sys2Proof.Machine

open Sys2Proof

/-- After `made` discards from lines whose DRAINING ones had `first` runs: `gone` are the slots finished, the undone slots of
DRAINING line `j` are what is not gone of `own j`, and the account stands. `cut` says that the line chosen next begins in a
slot that is gone. -/
structure Discarding (gone : Finset Nat) (own : Nat → Finset Nat) (cut : Bool) (made first rest : Nat)
    (lines : List Line) : Prop where
  undone : ∀ j l, lines[j]? = some l → l.state = .draining → slots l.undone = own j \ gone
  ownBelow : ∀ j i, i ∈ own j → i < 8
  goneBelow : ∀ i ∈ gone, i < 8
  count : made ≤ gone.card
  left : gone = ∅ ∨ ∀ j l, lines[j]? = some l → l.state = .draining → (own j \ gone).Nonempty
  account : 2 * drainingSum (fun j => runsOf (own j)) lines + runsOf gone + made ≤ 2 * first + cut.toNat
  cutLine : cut = true → ∃ i l, newestLine (fun l => l.state == .draining) lines = some (i, l) ∧ OpensIn gone (own i)
  rest : dirtyRest lines = rest

/-- Before the first discard. -/
theorem Discarding.start (lines : List Line) : Discarding ∅ (fun j => slots (lineAt lines j).undone) false 0
    (drainingSum (fun j => runsOf (slots (lineAt lines j).undone)) lines) (dirtyRest lines) lines where
  undone := fun j l hj _ => by rw [lineAt_of_getElem? hj, Finset.sdiff_empty]
  ownBelow := fun _ _ h => slots_lt h
  goneBelow := fun i h => absurd h (Finset.notMem_empty i)
  count := Nat.zero_le _
  left := .inl rfl
  account := by
    rw [show runsOf ∅ = 0 from rfl]
    exact Nat.le_refl _
  cutLine := nofun
  rest := rfl

theorem drainingSum_congr {f g : Nat → Nat} {lines : List Line}
    (h : ∀ j, j < lines.length → (lineAt lines j).state = .draining → f j = g j) : drainingSum f lines = drainingSum g lines := by
  refine Finset.sum_congr rfl fun j hj => ?_
  split
  · next hs => exact h j (Finset.mem_range.mp hj) hs
  · rfl

theorem drainingSum_le {f g : Nat → Nat} {lines : List Line}
    (h : ∀ j, j < lines.length → (lineAt lines j).state = .draining → f j ≤ g j) : drainingSum f lines ≤ drainingSum g lines := by
  refine Finset.sum_le_sum fun j hj => ?_
  split
  · next hs => exact h j (Finset.mem_range.mp hj) hs
  · exact Nat.le_refl 0

theorem drainingSum_mul (f : Nat → Nat) (k : Nat) (lines : List Line) :
    drainingSum (fun j => f j * k) lines = drainingSum f lines * k := by
  rw [drainingSum, drainingSum, Finset.sum_mul]
  refine Finset.sum_congr rfl fun j _ => ?_
  split <;> simp

theorem drainingSum_lt {f g : Nat → Nat} {lines : List Line} {i : Nat} {l : Line}
    (h : ∀ j, j < lines.length → (lineAt lines j).state = .draining → f j ≤ g j) (hi : lines[i]? = some l)
    (hl : l.state = .draining) (hlt : f i < g i) : drainingSum f lines < drainingSum g lines := by
  refine Finset.sum_lt_sum (fun j hj => ?_) ⟨i, Finset.mem_range.mpr (List.getElem?_eq_some_iff.mp hi).1, ?_⟩
  · split
    · next hs => exact h j (Finset.mem_range.mp hj) hs
    · exact Nat.le_refl 0
  · rw [lineAt_of_getElem? hi, if_pos hl, if_pos hl]
    exact hlt

/-- The cost that the account allows at any time. -/
theorem Discarding.cost_eq {gone : Finset Nat} {own : Nat → Finset Nat} {cut : Bool} {made first rest : Nat}
    {lines : List Line} (h : Discarding gone own cut made first rest lines) :
    dirtyCost lines = drainingSum (fun j => runsOf (own j \ gone)) lines + rest := by
  rw [dirtyCost_split, h.rest]
  congr 1
  exact drainingSum_congr fun j hj hs => by rw [h.undone j _ (getElem?_lineAt hj) hs]

/-- R3: a line with a slot of its own has a run of it. -/
theorem runsOf_sdiff_le_mul {own gone : Finset Nat} {k : Nat} (h : runsOf (own \ gone) ≤ k)
    : runsOf (own \ gone) ≤ runsOf own * k := by
  rcases own.eq_empty_or_nonempty with rfl | hne
  · rw [Finset.empty_sdiff]
    exact Nat.zero_le _
  · exact h.trans (Nat.le_mul_of_pos_left _ (runsOf_pos hne))

theorem runsOf_own_mul {own : Finset Nat} (hne : own.Nonempty) (b : Nat) : runsOf own + b ≤ runsOf own * (1 + b) := by
  have := Nat.le_mul_of_pos_left b (runsOf_pos hne)
  rw [Nat.mul_add]
  omega

/-- When as many discards have been made as there were runs, no more runs are left than there were. -/
theorem Discarding.cost_le_of_made {gone : Finset Nat} {own : Nat → Finset Nat} {cut : Bool} {made first rest : Nat}
    {lines : List Line} (h : Discarding gone own cut made first rest lines) (hd : first ≤ made) :
    dirtyCost lines ≤ first + rest := by
  rw [h.cost_eq]
  have hcap : ∀ j, runsOf (own j \ gone) ≤ runsOf (own j) * (1 + runsOf gone) := fun j => by
    rcases (own j).eq_empty_or_nonempty with he | hne
    · rw [he, Finset.empty_sdiff]
      exact Nat.zero_le _
    · exact (runsOf_sdiff_le _ _).1.trans (runsOf_own_mul hne _)
  have hslots : ∀ j, runsOf (own j \ gone) ≤ runsOf (own j) * (8 - gone.card) := fun j => by
    have := runsOf_sdiff_le_left (h.ownBelow j) h.goneBelow
    exact runsOf_sdiff_le_mul (by omega)
  have hg : gone.card ≤ 8 := by
    simpa using Finset.card_le_card (fun i hi => Finset.mem_range.mpr (h.goneBelow i hi) : gone ⊆ Finset.range 8)
  have hopened : drainingSum (fun j => runsOf (own j \ gone)) lines + cut.toNat ≤
      drainingSum (fun j => runsOf (own j)) lines * (1 + runsOf gone) := by
    rw [← drainingSum_mul]
    cases hcut : cut with
    | false => exact drainingSum_le fun j _ _ => hcap j
    | true =>
      obtain ⟨i, l, hnew, hopen⟩ := h.cutLine hcut
      obtain ⟨-, hget, hst⟩ := pickLine_some hnew
      have hne : (own i).Nonempty := hopen.imp fun _ hp => hp.1
      refine drainingSum_lt (fun j _ _ => hcap j) hget (by simpa using hst) ?_
      show runsOf (own i \ gone) < runsOf (own i) * (1 + runsOf gone)
      have := (runsOf_sdiff_le (own i) gone).2 hopen
      have := runsOf_own_mul hne (runsOf gone)
      omega
  have hroom : drainingSum (fun j => runsOf (own j \ gone)) lines ≤
      drainingSum (fun j => runsOf (own j)) lines * (8 - gone.card) := by
    rw [← drainingSum_mul]
    exact drainingSum_le fun j _ _ => hslots j
  have hbool : cut.toNat ≤ 1 := by cases cut <;> decide
  exact Nat.add_le_add_right (room_left hopened hroom h.account hbool h.count hg hd) rest

/-! ### One discard -/

theorem pickLine_map {better : Line → Line → Bool} {p : Line → Bool} {f : Line → Line} {lines : List Line} {i : Nat}
    (hp : ∀ l ∈ lines, p (f l) = p l) (hb : ∀ a ∈ lines, ∀ b ∈ lines, better (f a) (f b) = better a b) :
    pickLine better p (lines.map f) i = (pickLine better p lines i).map fun q => (q.1, f q.2) := by
  induction lines generalizing i with
  | nil => rfl
  | cons x xs ih =>
    have ihx := ih (i := i + 1) (fun l hl => hp l (List.mem_cons_of_mem _ hl)) fun a ha b hb' =>
      hb a (List.mem_cons_of_mem _ ha) b (List.mem_cons_of_mem _ hb')
    rw [List.map_cons, pickLine, pickLine, ihx, hp x List.mem_cons_self]
    cases hpick : pickLine better p xs (i + 1) with
    | none => cases p x <;> rfl
    | some q =>
      obtain ⟨j, m⟩ := q
      obtain ⟨-, hm, -⟩ := pickLine_some hpick
      rw [Option.map_some]
      dsimp only
      rw [hb m (List.mem_cons_of_mem _ (List.mem_of_getElem? hm)) x List.mem_cons_self]
      cases p x && !better m x <;> rfl

/-- What a discard makes of a line. -/
def finishDraining (c : RunChoice) (l : Line) : Line :=
  if l.state = .draining then l.finishRun c.first c.len else l

theorem discardLines_map {lines : List Line} {c : RunChoice} (hget : lines[c.idx]? = some c.line)
    (hst : c.line.state = .draining) : discardLines c lines = lines.map (finishDraining c) := by
  have hself : { c.line with state := .draining } = c.line := by
    obtain ⟨i, ⟨_, _, _, _, _, _, _, _⟩, f, n⟩ := c
    cases hst
    rfl
  have hset : lines.set c.idx c.line = lines := by
    obtain ⟨hlt, he⟩ := List.getElem?_eq_some_iff.mp hget
    rw [← he]
    exact List.set_getElem_self hlt
  rw [discardLines, hself, hset]
  rfl

theorem finishDraining_other (c : RunChoice) {l : Line} (h : l.state ≠ .draining) : finishDraining c l = l := if_neg h

/-- A line stays DRAINING where slots are left, and is FREE where none is. -/
theorem finishDraining_cases (c : RunChoice) {l : Line} (h : l.state = .draining) :
    (slots l.undone \ Finset.Ico c.first (c.first + c.len) = ∅ ∧ finishDraining c l = Line.free) ∨
    ((slots l.undone \ Finset.Ico c.first (c.first + c.len)).Nonempty ∧ (finishDraining c l).state = .draining ∧
      (finishDraining c l).age = l.age ∧
      slots (finishDraining c l).undone = slots l.undone \ Finset.Ico c.first (c.first + c.len)) := by
  rw [finishDraining, if_pos h]
  exact (l.finishRun_cases c.first c.len).imp_right fun ⟨h1, h2, h3⟩ => ⟨h1, h2.trans h, h3⟩

theorem finishDraining_draining {c : RunChoice} {l : Line} (h : (finishDraining c l).state = .draining) :
    l.state = .draining := by
  by_contra hn
  rw [finishDraining_other c hn] at h
  exact hn h

theorem finishDraining_free (c : RunChoice) : finishDraining c Line.free = Line.free := finishDraining_other c nofun

theorem lineAt_map (c : RunChoice) (lines : List Line) (j : Nat) :
    lineAt (lines.map (finishDraining c)) j = finishDraining c (lineAt lines j) := by
  rw [lineAt, lineAt, List.getD_eq_getElem?_getD, List.getD_eq_getElem?_getD, List.getElem?_map]
  cases lines[j]? with
  | none => exact (finishDraining_free c).symm
  | some l => rfl

/-- The slots of each line that are not dealt with, after a run of line `c.idx` up to its end. -/
def ownAfter (c : RunChoice) (own : Nat → Finset Nat) (j : Nat) : Finset Nat :=
  if j = c.idx then slotsFrom (c.first + c.len) (own j) else own j

theorem ownAfter_subset (c : RunChoice) (own : Nat → Finset Nat) (j : Nat) : ownAfter c own j ⊆ own j := by
  unfold ownAfter
  split
  · exact Finset.filter_subset _ _
  · exact Finset.Subset.refl _

/-- A discard lowers the sum over the DRAINING lines by what it takes off the chosen line, and by a run more where a line is
freed that had slots left to deal with. -/
theorem drainingSum_discard {c : RunChoice} {own : Nat → Finset Nat} {lines : List Line}
    (hget : lines[c.idx]? = some c.line) (hst : c.line.state = .draining) :
    drainingSum (fun j => runsOf (ownAfter c own j)) (lines.map (finishDraining c)) + runsOf (own c.idx) ≤
      drainingSum (fun j => runsOf (own j)) lines + runsOf (slotsFrom (c.first + c.len) (own c.idx)) ∧
    (∀ j l, lines[j]? = some l → l.state = .draining → (finishDraining c l).state ≠ .draining →
      (ownAfter c own j).Nonempty →
      drainingSum (fun j => runsOf (ownAfter c own j)) (lines.map (finishDraining c)) + runsOf (own c.idx) <
        drainingSum (fun j => runsOf (own j)) lines + runsOf (slotsFrom (c.first + c.len) (own c.idx))) := by
  have hlt : c.idx < lines.length := (List.getElem?_eq_some_iff.mp hget).1
  have hpoint : ∀ x : Nat, (∑ j ∈ Finset.range lines.length, if j = c.idx then x else 0) = x := fun x => by
    rw [Finset.sum_ite_eq', if_pos (Finset.mem_range.mpr hlt)]
  rw [← hpoint (runsOf (own c.idx)), ← hpoint (runsOf (slotsFrom (c.first + c.len) (own c.idx))), drainingSum, drainingSum,
    List.length_map, ← Finset.sum_add_distrib, ← Finset.sum_add_distrib]
  have hterm : ∀ j, (if (lineAt (lines.map (finishDraining c)) j).state = .draining then runsOf (ownAfter c own j) else 0) +
      (if j = c.idx then runsOf (own c.idx) else 0) ≤
      (if (lineAt lines j).state = .draining then runsOf (own j) else 0) +
        (if j = c.idx then runsOf (slotsFrom (c.first + c.len) (own c.idx)) else 0) := fun j => by
    rw [lineAt_map]
    by_cases hj : j = c.idx
    · rw [if_pos hj, if_pos hj, ownAfter, if_pos hj, hj, lineAt_of_getElem? hget, if_pos hst]
      split <;> omega
    · rw [if_neg hj, if_neg hj, ownAfter, if_neg hj]
      by_cases hd : (finishDraining c (lineAt lines j)).state = .draining
      · rw [if_pos hd, if_pos (finishDraining_draining hd)]
      · rw [if_neg hd]
        exact Nat.zero_le _
  refine ⟨Finset.sum_le_sum fun j _ => hterm j, fun j l hjl hdl hfreed hne => ?_⟩
  refine Finset.sum_lt_sum (fun j _ => hterm j) ⟨j, Finset.mem_range.mpr (List.getElem?_eq_some_iff.mp hjl).1, ?_⟩
  have hpos := runsOf_pos hne
  rw [lineAt_map, lineAt_of_getElem? hjl, if_neg hfreed, if_pos hdl]
  unfold ownAfter at hpos
  by_cases hj : j = c.idx
  · rw [if_pos hj, if_pos hj]
    rw [if_pos hj] at hpos
    rw [hj] at hpos ⊢
    omega
  · rw [if_neg hj, if_neg hj]
    rw [if_neg hj] at hpos
    omega

theorem dirtyRest_discard (c : RunChoice) (lines : List Line) :
    dirtyRest (lines.map (finishDraining c)) = dirtyRest lines := by
  rw [dirtyRest, dirtyRest, List.length_map]
  refine Finset.sum_congr rfl fun j _ => ?_
  rw [lineAt_map]
  by_cases hd : (lineAt lines j).state = .draining
  · obtain ⟨-, hfree⟩ | ⟨-, hst, -⟩ := finishDraining_cases c hd
    · rw [hfree, hd]
      rfl
    · rw [hst, hd, if_neg nofun, if_neg nofun]
  · rw [finishDraining_other c hd]

theorem chooseRun_draining {lines : List Line} {c : RunChoice} (h : chooseRun lines = some c)
    (hst : c.line.state = .draining) : newestLine (fun l => l.state == .draining) lines = some (c.idx, c.line) := by
  unfold chooseRun nextDrainLine at h
  cases hnew : newestLine (fun l => l.state == .draining) lines with
  | some p =>
    rw [hnew] at h
    dsimp only at h
    split at h
    · cases h
    · cases h
      rfl
  | none =>
    obtain ⟨hget, -, -⟩ := chooseRun_some h
    have := pickLine_none.mp hnew c.line (List.mem_of_getElem? hget)
    simp [hst] at this

/-- The account goes on over a discard. -/
theorem Discarding.step {gone : Finset Nat} {own : Nat → Finset Nat} {cut : Bool} {made first rest : Nat}
    {lines : List Line} {c : RunChoice} (h : Discarding gone own cut made first rest lines)
    (hc : chooseRun lines = some c) (hst : c.line.state = .draining) :
    ∃ gone' own' cut', Discarding gone' own' cut' (made + 1) first rest (discardLines c lines) := by
  obtain ⟨hget, hrun, -⟩ := chooseRun_some hc
  obtain ⟨hfq, hq8, hin, hlow, hend⟩ := firstRun_slots hrun
  rw [h.undone _ _ hget hst] at hin hlow hend
  have hnew := chooseRun_draining hc hst
  have hmap := discardLines_map hget hst
  have hmem : ∀ j, (lines.map (finishDraining c))[j]? = (lines[j]?).map (finishDraining c) := fun j => List.getElem?_map ..
  have hqgone : c.first + c.len ∈ own c.idx → c.first + c.len ∈ gone := fun hq => by
    by_contra hg
    exact hend (Finset.mem_sdiff.mpr ⟨hq, hg⟩)
  have haccount := discard_account (open1 := cut = true) hfq hin hlow hend fun hcut => by
    obtain ⟨i, l, hi, hopen⟩ := h.cutLine hcut
    cases hnew.symm.trans hi
    exact hopen
  have hcutNat : cut.toNat = if cut = true then 1 else 0 := by cases cut <;> rfl
  obtain ⟨hsum, hfreed⟩ := drainingSum_discard (own := own) hget hst
  have hslots : ∀ j l, lines[j]? = some l → l.state = .draining →
      slots l.undone \ Finset.Ico c.first (c.first + c.len) =
        ownAfter c own j \ (gone ∪ Finset.Ico c.first (c.first + c.len)) := fun j l hj hl => by
    rw [h.undone j l hj hl, sdiff_sdiff, Finset.sup_eq_union]
    by_cases hjc : j = c.idx
    · subst hjc
      ext i
      simp only [ownAfter, if_true, slotsFrom, Finset.mem_sdiff, Finset.mem_union, Finset.mem_Ico, Finset.mem_filter]
      have := hlow i
      grind
    · rw [ownAfter, if_neg hjc]
  have hafter : ∀ j l', (discardLines c lines)[j]? = some l' → l'.state = .draining →
      slots l'.undone = ownAfter c own j \ (gone ∪ Finset.Ico c.first (c.first + c.len)) ∧ (slots l'.undone).Nonempty := by
    intro j l' hj hl'
    rw [hmap, hmem] at hj
    obtain ⟨l, hl, rfl⟩ := Option.map_eq_some_iff.mp hj
    have hd := finishDraining_draining hl'
    obtain ⟨-, hfree⟩ | ⟨hne, -, -, hs⟩ := finishDraining_cases c hd
    · rw [hfree] at hl'
      cases hl'
    · rw [hs]
      exact ⟨hslots j l hl hd, hne⟩
  have hstep : ∀ cut' : Bool, (2 * drainingSum (fun j => runsOf (ownAfter c own j)) (discardLines c lines) +
      runsOf (gone ∪ Finset.Ico c.first (c.first + c.len)) + (made + 1) ≤ 2 * first + cut'.toNat) →
      (cut' = true → c.first + c.len ∈ own c.idx ∧ ∀ l ∈ lines, (finishDraining c l).state = l.state ∧
        (finishDraining c l).age = l.age) →
      Discarding (gone ∪ Finset.Ico c.first (c.first + c.len)) (ownAfter c own) cut' (made + 1) first rest
        (discardLines c lines) := fun cut' hacc hcut' =>
    { undone := fun j l hj hl => (hafter j l hj hl).1
      ownBelow := fun j i hi => h.ownBelow j i (ownAfter_subset c own j hi)
      goneBelow := fun i hi => by
        rcases Finset.mem_union.mp hi with hg | hr
        · exact h.goneBelow i hg
        · have := Finset.mem_Ico.mp hr
          omega
      count := by
        rw [Finset.card_union_of_disjoint (Finset.disjoint_left.mpr fun i hg hi => ?_), Nat.card_Ico]
        · have := h.count
          omega
        · obtain ⟨h1, h2⟩ := Finset.mem_Ico.mp hi
          exact (Finset.mem_sdiff.mp (hin i h1 h2)).2 hg
      left := .inr fun j l hj hl => by
        rw [← (hafter j l hj hl).1]
        exact (hafter j l hj hl).2
      account := hacc
      cutLine := fun hcut => by
        obtain ⟨hq, hsame⟩ := hcut' hcut
        refine ⟨c.idx, finishDraining c c.line, ?_, c.first + c.len, ?_, ?_, ?_, by omega, ?_⟩
        · rw [hmap, newestLine, pickLine_map (fun l hl => by rw [(hsame l hl).1]) fun a ha b hb => by
            rw [(hsame a ha).2, (hsame b hb).2]]
          rw [newestLine] at hnew
          rw [hnew]
          rfl
        · simp [ownAfter, slotsFrom, hq]
        · intro n hn
          simp [ownAfter, slotsFrom, hn]
        · exact Finset.mem_union_left _ (hqgone hq)
        · exact Finset.mem_union_right _ (Finset.mem_Ico.mpr (by omega))
      rest := by rw [hmap, dirtyRest_discard, h.rest] }
  rw [← hmap] at hsum hfreed
  have hacc := h.account
  by_cases hfree : ∃ (j : Nat) (l : Line), lines[j]? = some l ∧ l.state = .draining ∧ (finishDraining c l).state ≠ .draining
  · refine ⟨_, _, false, hstep false ?_ nofun⟩
    obtain ⟨j, l, hj, hl, hf⟩ := hfree
    by_cases hq : c.first + c.len ∈ own c.idx
    · rw [if_pos hq] at haccount
      have hne : (ownAfter c own j).Nonempty := by
        by_cases hjc : j = c.idx
        · exact ⟨c.first + c.len, by simp [ownAfter, slotsFrom, hjc, hq]⟩
        · rw [ownAfter, if_neg hjc]
          rcases h.left with hempty | hleft
          · exact absurd (hempty ▸ hqgone hq) (Finset.notMem_empty _)
          · exact (hleft j l hj hl).mono Finset.sdiff_subset
      have := hfreed j l hj hl hf hne
      rw [Bool.toNat_false]
      omega
    · rw [if_neg hq] at haccount
      rw [Bool.toNat_false]
      omega
  · refine ⟨_, _, decide (c.first + c.len ∈ own c.idx), hstep _ ?_ fun hcut => ⟨of_decide_eq_true hcut, fun l hl => ?_⟩⟩
    · have hdec : (decide (c.first + c.len ∈ own c.idx)).toNat = if c.first + c.len ∈ own c.idx then 1 else 0 := by
        by_cases hq : c.first + c.len ∈ own c.idx <;> simp [hq]
      omega
    · by_cases hd : l.state = .draining
      · obtain ⟨j, hj⟩ := List.getElem?_of_mem hl
        obtain ⟨-, hf⟩ | ⟨-, hst', hage, -⟩ := finishDraining_cases c hd
        · exact absurd ⟨j, l, hj, hd, by rw [hf]; nofun⟩ hfree
        · exact ⟨hst'.trans hd.symm, hage⟩
      · rw [finishDraining_other c hd]
        exact ⟨rfl, rfl⟩

/-- With no line DRAINING the DIRTY ones are all that is staged. -/
theorem dirtyCost_of_none {lines : List Line} (h : ∀ l ∈ lines, l.state ≠ .draining) : dirtyCost lines = dirtyRest lines := by
  rw [dirtyCost_split, drainingSum, Finset.sum_eq_zero, Nat.zero_add]
  intro j hj
  rw [if_neg (h _ (List.mem_of_getElem? (getElem?_lineAt (Finset.mem_range.mp hj))))]

/-- R19, R139: discards enough for the runs that were there at first do not leave more of them. -/
theorem Discarding.discardAll_cost {gone : Finset Nat} {own : Nat → Finset Nat} {cut : Bool} {made first rest n : Nat}
    {s : State} (h : Discarding gone own cut made first rest s.sb.lines) (hn : first ≤ made + n) :
    dirtyCost (discardAll n s).sb.lines ≤ first + rest := by
  induction n generalizing s gone own cut made with
  | zero => exact h.cost_le_of_made hn
  | succ n ih =>
    cases hc : chooseRun s.sb.lines with
    | none =>
      rw [discardAll_none hc]
      cases hnew : newestLine (fun l => l.state == .draining) s.sb.lines with
      | none =>
        rw [dirtyCost_of_none fun l hl => by simpa using pickLine_none.mp hnew l hl, h.rest]
        exact Nat.le_add_left _ _
      | some p =>
        obtain ⟨i, l⟩ := p
        obtain ⟨-, hget, hst⟩ := pickLine_some hnew
        have hd : l.state = .draining := by simpa using hst
        have hempty : slots l.undone = ∅ := by
          rw [slots_eq_empty_iff, ← firstRun_eq_none_iff]
          unfold chooseRun nextDrainLine at hc
          rw [hnew] at hc
          dsimp only at hc
          split at hc
          · assumption
          · cases hc
        have hgone : gone = ∅ := h.left.resolve_right fun hleft => by
          have := hleft i l hget hd
          rw [← h.undone i l hget hd, hempty] at this
          exact Finset.not_nonempty_empty this
        have hcut : cut.toNat = 0 := by
          cases hcut : cut with
          | false => rfl
          | true =>
            obtain ⟨-, -, -, p, -, -, hp, -⟩ := h.cutLine hcut
            rw [hgone] at hp
            exact absurd hp (Finset.notMem_empty p)
        have hacc := h.account
        rw [h.cost_eq, drainingSum_congr (g := fun j => runsOf (own j)) fun j _ _ => by rw [hgone, Finset.sdiff_empty]]
        omega
    | some c =>
      rw [discardAll_some hc]
      by_cases hst : c.line.state = .draining
      · obtain ⟨gone', own', cut', h'⟩ := h.step hc hst
        rw [← discardRun_lines hc] at h'
        exact ih h' (by omega)
      · obtain ⟨-, -, hd | ⟨-, hno⟩⟩ := chooseRun_some hc
        · exact absurd hd hst
        have hsole : SoleDraining c.idx s.sb.lines := fun j l _ hl => hno l (List.mem_of_getElem? hl)
        have := hsole.discardAll_cost (n + 1)
        rw [discardAll_some hc, dirtyCost_of_none hno, h.rest] at this
        omega

/-- R19, R139: the discards of the hold-up sequence never raise the dirty cost. -/
theorem discardAll_cost_le (s : State) : dirtyCost (discardAll (dirtyCost s.sb.lines) s).sb.lines ≤ dirtyCost s.sb.lines := by
  have h := Discarding.start s.sb.lines
  have hsplit := dirtyCost_split s.sb.lines
  have := h.discardAll_cost (n := dirtyCost s.sb.lines) (by omega)
  omega

end Sys2Proof.Machine
end

