-- ==== Sys2Proof/Proofs/P18.lean ====
section
/-! What follows a change of the state within one step: retries, offers, grants and the tests of the completion waits. They
leave the motion state and L alone, keep the dirty cost within L (R7), and issue no drain run of SB while the part is braced
(R17, R102). -/

namespace Sys2Proof.Machine

open Sys2Proof

/-- From `s` to `t` the motion state and L stay, the dirty cost does not rise above the larger of 1 and L, and where the part
is braced no drain run of SB is new. -/
structure Reaction (s t : State) : Prop where
  motion : t.mm.motion = s.mm.motion
  limit : t.sm.limit = s.sm.limit
  cost : dirtyCost t.sb.lines ≤ max (dirtyCost s.sb.lines) (max 1 s.sm.limit)
  drains : bracedState s.mm.motion = true → ∀ op, t.mp.current = some op → op.requester = .drain →
    ∃ p, s.mp.current = some p ∧ op = { p with attempt := op.attempt, start := op.start }

theorem Reaction.trans {s t u : State} (h : Reaction s t) (g : Reaction t u) : Reaction s u where
  motion := g.motion.trans h.motion
  limit := g.limit.trans h.limit
  cost := by
    have h1 := h.cost
    have h2 := g.cost
    rw [h.limit] at h2
    omega
  drains := fun hb op hop hd => by
    obtain ⟨p, hp, he⟩ := g.drains (by rw [h.motion]; exact hb) op hop hd
    have hpd : p.requester = .drain := by rw [he] at hd; exact hd
    obtain ⟨q, hq, he'⟩ := h.drains hb p hp hpd
    exact ⟨q, hq, by rw [he, he']⟩

theorem Reaction.after {s t u : State} (g : Reaction t u) (h : Reaction s t) : Reaction s u := h.trans g

/-- The lines may change at no cost; the operation in progress may end, or be one that drains nothing for SB. -/
theorem Reaction.of_cost {s t : State} (hm : t.mm.motion = s.mm.motion) (hl : t.sm.limit = s.sm.limit)
    (hc : dirtyCost t.sb.lines ≤ dirtyCost s.sb.lines)
    (ho : ∀ op, t.mp.current = some op → op.requester = .drain → s.mp.current = some op) : Reaction s t :=
  ⟨hm, hl, hc.trans (Nat.le_max_left _ _), fun _ op hop hd => ⟨op, ho op hop hd, rfl⟩⟩

theorem Reaction.of_kept {s t : State} (hm : t.mm.motion = s.mm.motion) (hl : t.sm.limit = s.sm.limit)
    (hc : t.sb.lines = s.sb.lines) (ho : t.mp.current = s.mp.current) : Reaction s t :=
  .of_cost hm hl (by rw [hc]) fun op hop _ => by rw [← ho]; exact hop

theorem Reaction.refl (s : State) : Reaction s s := .of_kept rfl rfl rfl rfl

/-- The operation in progress is replaced by one that drains nothing for SB, or by none. -/
theorem Reaction.of_other {s t : State} (hm : t.mm.motion = s.mm.motion) (hl : t.sm.limit = s.sm.limit)
    (hc : t.sb.lines = s.sb.lines) (ho : ∀ op, t.mp.current = some op → op.requester ≠ .drain) : Reaction s t :=
  .of_cost hm hl (by rw [hc]) fun op hop hd => absurd hd (ho op hop)

/-! ### Grants -/

theorem syncDrain_reaction (s : State) : Reaction s (syncDrain s) := by
  refine .of_kept ?_ ?_ ?_ ?_ <;> simp

theorem dirtyCost_startDraining {s : State} {c : RunChoice} (h : chooseRun s.sb.lines = some c) :
    dirtyCost (startDraining c s).sb.lines = dirtyCost s.sb.lines :=
  OnlyDrainStarted.dirtyCost (.inr ⟨c, h, rfl⟩)

theorem issueRun_reaction {who : Requester} {c : RunChoice} {s : State} (hc : chooseRun s.sb.lines = some c)
    (hw : who = .drain → bracedState s.mm.motion = false) : Reaction s (issueRun who c s) where
  motion := rfl
  limit := rfl
  cost := (dirtyCost_startDraining hc).le.trans (Nat.le_max_left _ _)
  drains := fun hb op hop hd => by
    cases hop
    rw [hw hd] at hb
    cases hb

theorem grantDrain_reaction {s : State} (hp : s.ps.power ≠ .holdup) : Reaction s (grantDrain s) := by
  have hdrop : Reaction s { s with mp := { s.mp with waiters := { s.mp.waiters with drain := false }, starvation := 0 } } :=
    .of_kept rfl rfl rfl rfl
  unfold grantDrain
  dsimp only
  split
  · exact hdrop
  · next hb =>
    split
    · next c hc => exact hdrop.trans (issueRun_reaction hc fun _ => by simpa [hp] using hb)
    · exact hdrop

theorem grantMiss_reaction (r : MissRun) (s : State) : Reaction s (grantMiss r s) := by
  refine .of_other rfl rfl rfl fun op hop => ?_
  cases hop
  nofun

theorem grantWaitingMiss_reaction (s : State) : Reaction s (grantWaitingMiss s) := by
  unfold grantWaitingMiss
  (repeat' split)
  · exact grantMiss_reaction _ _
  · exact .refl s
  · exact .refl s

theorem grantService_reaction {s : State} (hp : s.ps.power ≠ .holdup) : Reaction s (grantService s) := by
  unfold grantService
  split
  · exact (grantDrain_reaction hp).trans (grantWaitingMiss_reaction _)
  · exact grantWaitingMiss_reaction s

theorem issueStartup_reaction (step : StartStep) (s : State) : Reaction s (issueStartup step s) := by
  cases step with
  | moduleReset | served => exact .refl s
  | capacity | mapArea | gaugeRecord | dropLog | checkTable | imageFirst | imageSecond | invalidate =>
    exact .of_other rfl rfl rfl fun op hop => by cases hop; nofun

theorem grantStarting_reaction {s : State} (hp : s.ps.power ≠ .holdup) : Reaction s (grantStarting s) := by
  unfold grantStarting
  split
  · exact Reaction.after (issueStartup_reaction _ _) (.of_kept rfl rfl rfl rfl)
  · split
    · exact grantDrain_reaction hp
    · exact .refl s

theorem issueImage_reaction (what : HoldupRequest) (s : State) : Reaction s (issueImage what s) := by
  cases what with
  | drainRun => exact .refl s
  | imageFirst | imageSecond | invalidate => exact .of_other rfl rfl rfl fun op hop => by cases hop; nofun

theorem enterOff_reaction (s : State) : Reaction s (enterOff s) := by
  refine .of_other ?_ ?_ ?_ fun op hop => ?_
  · simp
  · simp
  · simp
  · simp at hop

theorem offWithoutImage_reaction (s : State) : Reaction s (offWithoutImage s) := by
  unfold offWithoutImage
  split
  · exact enterOff_reaction s
  · exact .refl s

theorem enterSave_reaction (s : State) : Reaction s (enterSave s) := by
  unfold enterSave
  dsimp only
  split
  · exact Reaction.after (offWithoutImage_reaction _) (.of_kept rfl rfl rfl rfl)
  · exact .of_kept rfl rfl rfl rfl

theorem testDrained_reaction (s : State) : Reaction s (testDrained s) := by
  unfold testDrained
  split
  · exact .of_kept rfl rfl rfl rfl
  · exact enterSave_reaction s

theorem discardAll_reaction (s : State) : Reaction s (discardAll (dirtyCost s.sb.lines) s) := by
  refine .of_cost ?_ ?_ (discardAll_cost_le s) fun op hop _ => ?_
  · simp
  · simp
  · simpa using hop

theorem stopDraining_reaction (s : State) : Reaction s (stopDraining s) := by
  have hsave := (discardAll_reaction s).trans (enterSave_reaction _)
  unfold stopDraining
  dsimp only
  split
  · exact hsave.trans (Reaction.after (issueImage_reaction _ _) (.of_kept rfl rfl rfl rfl))
  · exact hsave

theorem grantHoldup_reaction (what : HoldupRequest) (s : State) : Reaction s (grantHoldup what s) := by
  unfold grantHoldup
  dsimp only
  split
  · split
    · split
      · next c hc =>
        exact Reaction.after (issueRun_reaction hc fun h => by cases h) (.of_kept rfl rfl rfl rfl)
      · exact .of_kept rfl rfl rfl rfl
    · exact Reaction.after (stopDraining_reaction _) (.of_kept rfl rfl rfl rfl)
  · exact Reaction.after (issueImage_reaction _ _) (.of_kept rfl rfl rfl rfl)

theorem grantNext_reaction (s : State) : Reaction s (grantNext s) := by
  unfold grantNext
  split
  · split
    · split
      · exact grantHoldup_reaction _ _
      · exact .refl s
    · next hp => exact grantStarting_reaction (by rw [hp]; nofun)
    · next hp => exact grantService_reaction (by rw [hp]; nofun)
    · next hp => exact grantService_reaction (by rw [hp]; nofun)
    · next hp => exact grantService_reaction (by rw [hp]; nofun)
    · exact .refl s
  · exact .refl s

theorem pump_reaction (s : State) : Reaction s (pump s) :=
  (syncDrain_reaction s).trans ((grantNext_reaction _).trans (syncDrain_reaction _))

theorem grantAmong_reaction (old : Waiters) (s : State) : Reaction s (grantAmong old s) := by
  have hold : Reaction s { s with mp := { s.mp with waiters := old } } := .of_kept rfl rfl rfl rfl
  unfold grantAmong
  exact (hold.trans (grantNext_reaction _)).trans (Reaction.after (syncDrain_reaction _) (.of_kept rfl rfl rfl rfl))

theorem goIdle_reaction (before : Waiters) (s : State) : Reaction s (goIdle before s) := by
  have hidle : Reaction s (syncDrain { s with mp := { s.mp with handing := false } }) :=
    Reaction.after (syncDrain_reaction _) (.of_kept rfl rfl rfl rfl)
  refine hidle.trans ?_
  unfold goIdle
  generalize syncDrain { s with mp := { s.mp with handing := false } } = u
  dsimp only
  split
  · refine Reaction.trans (t := { u with fresh := u.fresh + 1 }) (.of_kept rfl rfl rfl rfl) ?_
    split
    · exact grantAmong_reaction _ _
    · exact pump_reaction _
  · exact pump_reaction u

/-! ### Admissions -/

/-- R7: an admission keeps the dirty cost within L, or does not raise it. -/
theorem admitted_reaction {s : State} {sb : Staging} {cls : LineClass} {n : Nat} {zone : Option Nat} {reserve : Nat}
    {data : Sector} (h : admitTest s.sb cls n zone reserve s.sm.limit data = .admitted sb) : Reaction s { s with sb := sb } where
  motion := rfl
  limit := rfl
  cost := by
    obtain ⟨-, hc⟩ := admitTest_admitted h
    rcases (costAllows_iff _ _ _).mp hc with hle | hle
    · exact hle.trans (Nat.le_max_right _ _)
    · exact hle.trans (Nat.le_max_left _ _)
  drains := fun _ op hop _ => ⟨op, hop, rfl⟩

theorem checkpointTaken_reaction (o : Nat) (s : State) : Reaction s (checkpointTaken o s) := by
  have h := checkpointTaken_offerOnly o s
  exact .of_kept h.mmMotion (by rw [h.sm]) (by rw [checkpointTaken_eq]) (by rw [checkpointTaken_eq])

theorem offerCheckpoint_reaction {o : Nat} {s t : State} (h : offerCheckpoint o s = some t) : Reaction s t := by
  obtain ⟨sb, ha, rfl⟩ := offerCheckpoint_some h
  exact (admitted_reaction ha).trans ((checkpointTaken_reaction o _).trans (pump_reaction _))

theorem refuse_reaction (a : Answer) (m : BitVec 9) (n : Nat) (p : List Byte) (s : State) : Reaction s (refuse a m n p s) := by
  refine .of_kept ?_ ?_ ?_ ?_ <;> simp

theorem testWait_reaction (s : State) : Reaction s (testWait s) := by
  refine .of_kept ?_ ?_ ?_ ?_ <;> simp

theorem answerWrite_reaction (s : State) : Reaction s (answerWrite s) := by
  refine .of_kept ?_ ?_ ?_ ?_ <;> simp

theorem noteMapCopy_reaction (o : Nat) (d : Sector) (s : State) : Reaction s (noteMapCopy o d s) :=
  .of_kept rfl rfl rfl rfl

theorem takeContent_reaction (n : Nat) (d : Sector) (s : State) : Reaction s (takeContent n d s) := by
  unfold takeContent
  split
  · refine .of_kept ?_ ?_ ?_ ?_ <;> simp
  · split
    · refine Reaction.trans (.of_kept ?_ ?_ ?_ ?_) (noteMapCopy_reaction _ _ _) <;> simp [applyHeader]
    · split
      · refine Reaction.trans (.of_kept ?_ ?_ ?_ ?_) (noteMapCopy_reaction _ _ _) <;> simp
      · exact .refl s

theorem acceptSector_reaction {s : State} {sb : Staging} {cls : LineClass} {n m : Nat} {zone : Option Nat} {reserve : Nat}
    {data d : Sector} (h : admitTest s.sb cls n zone reserve s.sm.limit data = .admitted sb) :
    Reaction s (acceptSector m d sb s) := by
  have hcount : Reaction { s with sb := sb } (countTaken { s with sb := sb }) := .of_kept rfl rfl rfl rfl
  have htaken := (admitted_reaction h).trans (hcount.trans ((takeContent_reaction m d _).trans (pump_reaction _)))
  unfold acceptSector
  dsimp only
  split
  · exact htaken.trans (answerWrite_reaction _)
  · exact htaken

theorem offerSector_reaction (n : Nat) (d : Sector) (s : State) : Reaction s (offerSector n d s) := by
  unfold offerSector
  split
  · exact refuse_reaction _ _ _ _ _
  · split
    · next ha => exact acceptSector_reaction ha
    · exact .of_kept rfl rfl rfl rfl

theorem retryHeld_reaction (s : State) : Reaction s (retryHeld s) := by
  unfold retryHeld
  split
  · exact offerSector_reaction _ _ _
  · exact .refl s

/-! ### Retries and offers -/

theorem offerFrom_reaction (os : List Nat) (s : State) : Reaction s (offerFrom os s) := by
  induction os generalizing s with
  | nil => exact .refl s
  | cons o os ih =>
    unfold offerFrom
    split
    · split
      · exact .refl s
      · next t ht =>
        refine (offerCheckpoint_reaction ht).trans (Reaction.trans ?_ (ih _))
        split
        · exact retryHeld_reaction t
        · exact .refl t
    · exact ih s

theorem offerAll_reaction (s : State) : Reaction s (offerAll s) := by
  unfold offerAll
  split
  · exact offerFrom_reaction _ s
  · exact .refl s

theorem react_reaction (before s : State) : Reaction s (react before s) := by
  unfold react
  split
  · refine Reaction.trans ?_ (offerAll_reaction _)
    unfold retryRound
    refine Reaction.trans ?_ (offerAll_reaction _)
    split
    · exact retryHeld_reaction s
    · exact .refl s
  · exact .refl s

theorem settle_reaction (before s : State) : Reaction s (settle before s) :=
  (react_reaction before s).trans (pump_reaction _)

theorem afterRun_reaction (before s : State) : Reaction s (afterRun before s) := by
  have h := (react_reaction before s).trans (testWait_reaction _)
  unfold afterRun
  dsimp only
  split
  · exact h
  · refine h.trans (.of_kept ?_ ?_ ?_ ?_) <;> simp

theorem testAfterRun_reaction (s : State) : Reaction s (testAfterRun s) := by
  unfold testAfterRun
  split
  · exact testDrained_reaction s
  · exact .refl s

end Sys2Proof.Machine
end

