-- ==== Sys2Proof/Proofs/P19.lean ====
section
/-! Each command as a change of the state followed by a `Reaction`: what changes the motion state, L or a line does so before
anything is admitted or granted (R7, R17, R102). -/

namespace Sys2Proof.Machine

open Sys2Proof

/-! ### The front link -/

theorem current_abandoned {c : Option MediaOp} {op : MediaOp}
    (h : (c.map fun op => if op.requester = .readMiss then { op with abandoned := true } else op) = some op)
    (hd : op.requester = .drain) : c = some op := by
  obtain ⟨p, rfl, he⟩ := Option.map_eq_some_iff.mp h
  split at he
  · next hp =>
    rw [← he, hp] at hd
    cases hd
  · rw [he]

theorem abandonRead_reaction (s : State) : Reaction s (abandonRead s) :=
  .of_cost rfl rfl (Nat.le_refl _) fun _ hop hd => current_abandoned hop hd

theorem newRequest_reaction (code count : Byte) (sector : Word) (s : State) : Reaction s (newRequest code count sector s) := by
  rw [newRequest_eq]
  exact Reaction.trans (abandonRead_reaction s) (.of_kept rfl rfl rfl rfl)

theorem arrive_reaction {go : State → State} (hgo : ∀ s, Reaction s (go s)) (code count : Byte) (sector : Word) (s : State) :
    Reaction s (arrive code count sector go s) := by
  have hnew := newRequest_reaction code count sector s
  unfold arrive
  split
  · split
    · exact hnew.trans (.of_kept rfl rfl rfl rfl)
    · exact hnew.trans (hgo _)
  · exact .refl s

theorem waitForMiss_reaction (n left : Nat) (s : State) : Reaction s (waitForMiss n left s) :=
  Reaction.after (pump_reaction _) (.of_kept rfl rfl rfl rfl)

theorem assembleFrom_reaction (left n : Nat) (s : State) : Reaction s (assembleFrom left n s) := by
  induction left generalizing n s with
  | zero => exact .of_kept rfl rfl rfl rfl
  | succ left ih =>
    unfold assembleFrom
    cases hm : isMiss s n with
    | true =>
      rw [readSource_of_miss hm]
      exact waitForMiss_reaction _ _ s
    | false =>
      rw [readSource_of_not_miss hm]
      refine Reaction.after (ih _ _) ?_
      split <;> exact .of_kept rfl rfl rfl rfl

theorem assemble_reaction (s : State) : Reaction s (assemble s) := by
  unfold assemble
  split
  · exact Reaction.after (assembleFrom_reaction _ _ _) (.of_kept rfl rfl rfl rfl)
  · exact .refl s

theorem beginRead_reaction (count : Byte) (sector : Word) (s : State) : Reaction s (beginRead count sector s) := by
  unfold beginRead
  (repeat' split)
  · exact refuse_reaction _ _ _ _ _
  · exact refuse_reaction _ _ _ _ _
  · exact assemble_reaction s

theorem beginWrite_reaction (count : Byte) (sector : Word) (s : State) : Reaction s (beginWrite count sector s) := by
  unfold beginWrite
  split
  · exact refuse_reaction _ _ _ _ _
  · exact .of_kept rfl rfl rfl rfl

theorem beginFlush_reaction (s : State) : Reaction s (beginFlush s) := by
  unfold beginFlush
  split
  · exact refuse_reaction _ _ _ _ _
  · exact Reaction.after (testWait_reaction _) (.of_kept rfl rfl rfl rfl)

theorem beginInfo_reaction (s : State) : Reaction s (beginInfo s) := by
  unfold beginInfo
  split
  · exact refuse_reaction _ _ _ _ _
  · exact .of_kept rfl rfl rfl rfl

theorem takeFrame_reaction (n : Nat) (d : Sector) (s : State) : Reaction s (takeFrame n d s) := by
  unfold takeFrame
  split
  · exact refuse_reaction _ _ _ _ _
  · exact offerSector_reaction _ _ _

theorem dataArrives_reaction (d : Sector) (s : State) : Reaction s (dataArrives d s) := by
  unfold dataArrives
  split
  · split
    · exact (takeFrame_reaction _ _ _).trans (settle_reaction _ _)
    · exact .refl s
  · exact .refl s

theorem linkResetPort_reaction (s : State) : Reaction s (linkResetPort s) := by
  unfold linkResetPort
  split
  · exact .refl s
  · exact Reaction.after (abandonRead_reaction _) (.of_kept rfl rfl rfl rfl)

/-! ### Media operations -/

/-- The operation in progress is over, its outcome being handed over. -/
theorem handing_reaction (s : State) : Reaction s (handing s) :=
  .of_other rfl rfl rfl fun _ h => nomatch h

theorem putReads_reaction (secs : List Sector) (s : State) : Reaction s (secs.foldl (fun s sec => putRead sec s) s) := by
  rw [foldl_putRead]
  exact .of_kept rfl rfl rfl rfl

theorem leaveReadOnlySave_reaction (s : State) : Reaction s (leaveReadOnlySave s) := by
  unfold leaveReadOnlySave
  split
  · exact offWithoutImage_reaction s
  · exact .refl s

theorem missEnded_reaction (op : MediaOp) (result : Option (List Byte)) (s : State) :
    Reaction s (missEnded op result s) := by
  have hdone : Reaction s (if op.abandoned then s else readMissDone op.count result s) := by
    split
    · exact .refl s
    · unfold readMissDone
      split
      · exact (putReads_reaction _ _).trans (assemble_reaction _)
      · exact .of_kept rfl rfl rfl rfl
  exact hdone.trans (leaveReadOnlySave_reaction _)

theorem reportLoss_reaction (n : Nat) (z : Option Nat) (s : State) : Reaction s (reportLoss n z s) := by
  refine .of_kept ?_ ?_ ?_ ?_ <;> simp

/-- R18, R19: what follows a run that has ended, from the lines it leaves. -/
theorem runEnded_reaction (op : MediaOp) (s : State) :
    Reaction (finishRunAt op.sector op.count s) (runDone op s) ∧ Reaction (finishRunAt op.sector op.count s) (runLost op s) := by
  refine ⟨(afterRun_reaction _ _).trans (testAfterRun_reaction _), ?_⟩
  have hdrop : Reaction (finishRunAt op.sector op.count s) (dropRun op.sector op.count s) := .of_kept rfl rfl rfl rfl
  exact (hdrop.trans (afterRun_reaction _ _)).trans
    ((reportLoss_reaction _ _ _).trans ((react_reaction _ _).trans (testAfterRun_reaction _)))

theorem imageFirstDone_reaction (ok : Bool) (s : State) : Reaction s (imageFirstDone ok s) := by
  unfold imageFirstDone imageThenInvalidate
  (repeat' split)
  · exact enterOff_reaction s
  · exact .of_kept rfl rfl rfl rfl
  · exact .of_kept rfl rfl rfl rfl
  · exact enterOff_reaction s

theorem imageSecondDone_reaction (s : State) : Reaction s (imageSecondDone s) := by
  unfold imageSecondDone imageThenInvalidate
  (repeat' split)
  · exact enterOff_reaction s
  · exact .of_kept rfl rfl rfl rfl
  · exact enterOff_reaction s

/-! ### What a command changes before it reacts -/

/-- ZU's invariant stands, and the run in flight is one whose end does not raise the dirty cost. -/
def CostPremise (s : State) : Prop :=
  ZonesStand s ∧ ∀ op, s.mp.current = some op → op.requester.isDrain = true →
    dirtyCost (linesAfterRun op s.sb.lines) ≤ dirtyCost s.sb.lines

/-- The change of a command before its reaction: where it leaves the part braced, a drain run of SB in progress was there
before, and it does not raise the dirty cost. -/
structure Begun (s u : State) : Prop where
  drains : bracedState u.mm.motion = true → ∀ op, u.mp.current = some op → op.requester = .drain → s.mp.current = some op
  cost : CostPremise s → dirtyCost u.sb.lines ≤ dirtyCost s.sb.lines

/-- A change and the reaction to it. -/
def Follows (s t : State) : Prop :=
  ∃ u, Begun s u ∧ Reaction u t

theorem Begun.of_lines {s u : State} (ho : bracedState u.mm.motion = true → ∀ op, u.mp.current = some op →
    op.requester = .drain → s.mp.current = some op) (hc : u.sb.lines = s.sb.lines) : Begun s u :=
  ⟨ho, fun _ => by rw [hc]⟩

theorem Begun.of_kept {s u : State} (ho : u.mp = s.mp) (hc : u.sb = s.sb) : Begun s u :=
  .of_lines (fun _ op hop _ => by rw [← ho]; exact hop) (by rw [hc])

theorem Reaction.follows {s t : State} (h : Reaction s t) : Follows s t := ⟨s, .of_kept rfl rfl, h⟩

theorem Follows.then {s t v : State} (h : Follows s t) (g : Reaction t v) : Follows s v :=
  h.imp fun _ ⟨hb, hr⟩ => ⟨hb, hr.trans g⟩

theorem zonesStand_handing {s : State} (h : ZonesStand s) : ZonesStand (handing s) := by
  obtain ⟨hsized, hapart, hheld, htransfer, ⟨-, hstartup⟩, ⟨-, hholdup⟩, ⟨hclosed, -⟩⟩ := h
  exact ⟨hsized, hapart, hheld, htransfer, ⟨fun _ _ h => (nomatch h), hstartup⟩, ⟨fun _ _ h => (nomatch h), hholdup⟩,
    ⟨hclosed, fun _ => rfl⟩⟩

/-- What follows the hand-over of an outcome follows the operation's end. -/
theorem Follows.of_handing {s t : State} (h : Follows (handing s) t) : Follows s t := by
  obtain ⟨u, hb, hr⟩ := h
  refine ⟨u, ⟨fun hbr op hop hd => ?_, fun hp => hb.cost ⟨zonesStand_handing hp.1, nofun⟩⟩, hr⟩
  exact nomatch hb.drains hbr op hop hd

theorem bracedState_motionAtHoldup (s : State) : bracedState (motionAtHoldup s).mm.motion = false := by
  unfold motionAtHoldup
  split
  · rfl
  · next h => simpa using h

theorem frontAtHoldup_sb (s : State) : (frontAtHoldup s).sb = s.sb := by
  unfold frontAtHoldup
  split
  · rfl
  · split <;> simp

theorem powerAtHoldup_sb (s : State) : (powerAtHoldup s).sb = s.sb := by
  have h : (powerAtHoldup s).sb = (changePower .holdup (frontAtHoldup s)).sb := rfl
  rw [h, ← frontAtHoldup_sb s]
  simp

/-- The part is at rest, with the staging of `s`, and `t` is the reaction to it. -/
def BeginsAtRest (s t : State) : Prop :=
  ∃ u, bracedState u.mm.motion = false ∧ u.sb = s.sb ∧ Reaction u t

theorem BeginsAtRest.follows {s u t : State} (h : BeginsAtRest u t)
    (hc : CostPremise s → dirtyCost u.sb.lines ≤ dirtyCost s.sb.lines) : Follows s t := by
  obtain ⟨v, hb, hsb, hr⟩ := h
  exact ⟨v, ⟨fun h => (by rw [hb] at h; cases h), fun hp => (by rw [hsb]; exact hc hp)⟩, hr⟩

theorem BeginsAtRest.follows_kept {s u t : State} (h : BeginsAtRest u t) (hc : u.sb = s.sb) : Follows s t :=
  h.follows fun _ => by rw [hc]

/-- R95, R136: at the entry to HOLDUP a drop in progress is over, and nothing is staged or discarded before the test. -/
theorem enterHoldup_begins (s : State) : BeginsAtRest s (enterHoldup s) := by
  refine ⟨stopFirstTimer (stopPolling (motionAtHoldup (powerAtHoldup s))), ?_, ?_, ?_⟩
  · have hm : (stopFirstTimer (stopPolling (motionAtHoldup (powerAtHoldup s)))).mm = (motionAtHoldup (powerAtHoldup s)).mm := by
      simp [stopFirstTimer]
    rw [hm, bracedState_motionAtHoldup]
  · have hsb : (stopFirstTimer (stopPolling (motionAtHoldup (powerAtHoldup s)))).sb = (powerAtHoldup s).sb := by
      simp [stopFirstTimer]
    rw [hsb, powerAtHoldup_sb]
  · unfold enterHoldup testAtEntry
    split
    · exact .refl _
    · exact testDrained_reaction _

theorem noteServed_kept (s : State) : (noteServed s).mm = s.mm ∧ (noteServed s).sb = s.sb := by
  unfold noteServed
  split <;> exact ⟨rfl, rfl⟩

theorem gaugeAtRecovery_kept (s : State) : (gaugeAtRecovery s).mm = s.mm ∧ (gaugeAtRecovery s).sb = s.sb := by
  unfold gaugeAtRecovery
  split <;> exact ⟨rfl, rfl⟩

theorem powerAtRecovery_sb (s : State) : (powerAtRecovery s).sb = s.sb := by
  simp [powerAtRecovery]

theorem served_mm (s : State) :
    (noteServed (gaugeAtRecovery (motionAtRecovery (resumePolling s)))).mm = (motionAtRecovery (resumePolling s)).mm := by
  rw [(noteServed_kept _).1, (gaugeAtRecovery_kept _).1]

theorem served_sb (s : State) : (noteServed (gaugeAtRecovery (motionAtRecovery (resumePolling (powerAtRecovery s))))).sb = s.sb := by
  rw [(noteServed_kept _).2, (gaugeAtRecovery_kept _).2, ← powerAtRecovery_sb s]
  simp

theorem motionAtRecovery_motion (s : State) : (motionAtRecovery s).mm.motion = .still := by
  unfold motionAtRecovery
  dsimp only
  split
  · simp [limitAtMotion]
  · rfl

/-- R95, R144: at a recovery MM is in STILL, and the offers come after it. -/
theorem resumeService_begins (s : State) : BeginsAtRest s (resumeService s) := by
  refine ⟨noteServed (gaugeAtRecovery (motionAtRecovery (resumePolling (powerAtRecovery s)))), ?_, served_sb s,
    (offerAll_reaction _).trans (pump_reaction _)⟩
  rw [served_mm, motionAtRecovery_motion]
  rfl

theorem startUp_follows (wp : Bool) (s : State) : Follows s (startUp wp s) :=
  ⟨powerOnState wp s, ⟨nofun, fun _ => (show dirtyCost (powerOnState wp s).sb.lines = 0 by rfl).le.trans (Nat.zero_le _)⟩,
    pump_reaction _⟩

/-! ### Start-up -/

theorem firstService_reaction (s : State) : Reaction s (firstService s) := by
  have hpower : Reaction s (changePower (socDerived s) s) := by refine .of_kept ?_ ?_ ?_ ?_ <;> simp
  have hserved : ∀ u, Reaction u (noteServed u) := fun u => by
    unfold noteServed
    split <;> exact .of_kept rfl rfl rfl rfl
  exact (hpower.trans (hserved _)).trans ((offerAll_reaction _).trans (pump_reaction _))

/-- Start-up's reads leave staging, the motion state, L and the operation in progress alone. -/
def OnlyStartup (s t : State) : Prop :=
  t.mm.motion = s.mm.motion ∧ t.sm.limit = s.sm.limit ∧ t.sb.lines = s.sb.lines ∧ t.mp.current = s.mp.current

theorem OnlyStartup.reaction {s t : State} (h : OnlyStartup s t) : Reaction s t := .of_kept h.1 h.2.1 h.2.2.1 h.2.2.2

theorem onlyStartup_map (p : List Byte) (s : State) : OnlyStartup s (takeDesign s.zu.settings.design
    (buildFromMap (sectorsOf 5 p) { s with ps := { s.ps with mapCopy := some (sectorsOf 5 p) } })) := by
  simp [OnlyStartup]

theorem onlyStartup_restored (image : List Byte) (s : State) : OnlyStartup s (restoreImage image s) := by
  have hforZones : ∀ {β : Type} (part : State → β) (b : List Byte), (∀ k u, part (restoreZone b k u) = part u) →
      part (forZones 64 (restoreZone b) s) = part s := fun part b hk => forZones_keep part _ hk 64 s
  unfold restoreImage restoreGauge restoreMotion restoreStaging restoreZones
  split <;> simp [OnlyStartup, hforZones]

theorem onlyStartup_rebuilt (s : State) : OnlyStartup s (rebuildCold s) := by
  have hforZones : ∀ {β : Type} (part : State → β) (b : List Sector) (u : State),
      (∀ k u, part (rebuildZone b k u) = part u) → part (forZones 64 (rebuildZone b) u) = part u :=
    fun part b u hk => forZones_keep part _ hk 64 u
  unfold rebuildCold
  simp [OnlyStartup, hforZones]

theorem applyDecision_reaction (a b : Option (List Sector)) (s : State) : Reaction s (applyDecision a b s) := by
  unfold applyDecision
  dsimp only
  split
  · exact Reaction.after (onlyStartup_restored _ _).reaction (.of_kept rfl rfl rfl rfl)
  · exact Reaction.after (onlyStartup_rebuilt _).reaction (.of_kept rfl rfl rfl rfl)

/-- R146 to R152: a start-up operation that ends with start-up still wanted. -/
theorem startupDone_reaction {step : StartStep} {result : Option (List Byte)} {s : State} (hb : s.ps.brownedOut = false) :
    Reaction s (startupDone step result s) := by
  have hreq : ∀ (p : StartStep) (u : State), Reaction u (requestStartup p u) := fun p u => by
    refine .of_kept ?_ ?_ ?_ ?_ <;> simp
  unfold startupDone
  rw [if_neg (by simp [hb])]
  cases step with
  | moduleReset | served => exact .refl s
  | capacity =>
    dsimp only [capacityKnown]
    (repeat' split) <;> exact .of_kept rfl rfl rfl rfl
  | mapArea =>
    refine Reaction.after (hreq .gaugeRecord _) ?_
    cases result with
    | none => exact .of_kept rfl rfl rfl rfl
    | some p => exact (onlyStartup_map p s).reaction
  | gaugeRecord =>
    refine Reaction.after (hreq .dropLog _) ?_
    cases result <;> exact .of_kept rfl rfl rfl rfl
  | dropLog =>
    refine Reaction.after (hreq .checkTable _) ?_
    cases result with
    | none => exact .of_kept rfl rfl rfl rfl
    | some p =>
      dsimp only
      split <;> exact .of_kept rfl rfl rfl rfl
  | checkTable => exact .of_kept rfl rfl rfl rfl
  | imageFirst => exact .of_kept rfl rfl rfl rfl
  | imageSecond =>
    dsimp only [imageSecondRead]
    split
    · exact (applyDecision_reaction _ _ s).trans (hreq _ _)
    · exact (applyDecision_reaction _ _ s).trans (firstService_reaction _)
  | invalidate =>
    dsimp only [startupInvalidated]
    split
    · exact firstService_reaction s
    · exact .of_kept rfl rfl rfl rfl

/-! ### The consumers -/

/-- A sample or a miss leaves staging, the media port and the front request alone. -/
theorem process_kept (h : Handover) (s : State) : (process h s).sb = s.sb ∧ (process h s).mp = s.mp := by
  cases h <;> simp [process]

theorem consume_follows (s : State) (h : Handover) : Follows s (consume s h) := by
  unfold consume
  dsimp only
  split
  · exact ⟨_, .of_kept (by simp) (by simp), .refl _⟩
  · refine ⟨process h (takeHandover h s), .of_kept ?_ ?_, settle_reaction _ _⟩
    · rw [(process_kept _ _).2]
      simp
    · rw [(process_kept _ _).1]
      simp

/-- The front port goes on as it was, or has been answered. -/
def FrontCalm (s t : State) : Prop :=
  t.fp = s.fp ∨ t.fp.port = .answering

theorem FrontCalm.trans {s t u : State} (h : FrontCalm s t) (g : FrontCalm t u) : FrontCalm s u := by
  rcases g with g | g
  · exact h.imp (g.trans ·) (g ▸ ·)
  · exact .inr g

theorem FrontCalm.of_fp {s t : State} (h : t.fp = s.fp) : FrontCalm s t := .inl h

theorem recomputeMode_calm (s : State) : FrontCalm s (recomputeMode s) := by
  unfold recomputeMode
  split
  · unfold endThroughWait
    (repeat' split)
    · exact .inr rfl
    · exact .inl rfl
    · exact .inl rfl
  · exact .inl rfl

theorem limitAtMotion_calm (s : State) : FrontCalm s (limitAtMotion s) :=
  FrontCalm.trans (.of_fp (by simp)) (recomputeMode_calm (recomputeLimit s))

theorem enterDisabled_calm (s : State) : FrontCalm s (enterDisabled s) := by
  unfold enterDisabled
  dsimp only
  refine FrontCalm.trans (FrontCalm.trans (.of_fp ?_) (limitAtMotion_calm _)) (.of_fp rfl)
  split
  · simp
  · rfl

theorem leaveDisabled_calm (s : State) : FrontCalm s (leaveDisabled s) := by
  show FrontCalm { s with mm := { s.mm with motion := .still, ffRun := 0, good := 0 } } (limitAtMotion _)
  exact limitAtMotion_calm _

theorem takeMotionSample_calm (x y z : BitVec 16) (s : State) : FrontCalm s (takeMotionSample x y z s) := by
  have hstale : FrontCalm s { s with mm := { s.mm with stale := 0 } } := .of_fp rfl
  unfold takeMotionSample
  dsimp only
  refine hstale.trans ?_
  generalize { s with mm := { s.mm with stale := 0 } } = u
  split
  · unfold sampleDisabled
    (repeat' split)
    · exact leaveDisabled_calm u
    · exact .of_fp rfl
    · exact .of_fp rfl
  · exact .of_fp (by simp)
  · unfold sampleFalling
    dsimp only
    (repeat' split)
    · exact FrontCalm.trans (.of_fp rfl) (enterDisabled_calm _)
    · exact .of_fp rfl
    · exact .of_fp (by simp)
  · exact .of_fp (by simp)
  · exact .of_fp (by simp)

theorem takeMotionMiss_calm (s : State) : FrontCalm s (takeMotionMiss s) := by
  unfold takeMotionMiss
  dsimp only
  (repeat' split)
  · exact .of_fp rfl
  · exact FrontCalm.trans (.of_fp rfl) (enterDisabled_calm _)
  · exact .of_fp rfl

theorem reportFlags_calm (old : Gauge) (s : State) : FrontCalm s (reportFlags old s) := by
  unfold reportFlags
  dsimp only
  have hattn : FrontCalm s (if flagsDiffer old s.bg then raiseAttn s else s) := by split <;> exact .of_fp rfl
  split
  · exact hattn
  · exact hattn.trans (recomputeMode_calm _)

theorem publishFlags_calm (g : Gauge) (s : State) : FrontCalm s (publishFlags g s) :=
  FrontCalm.trans (.of_fp rfl) ((reportFlags_calm s.bg { s with bg := g }).trans (.of_fp (by unfold publishFlags; simp)))

theorem publishGauge_calm (g : Gauge) (s : State) : FrontCalm s (publishGauge g s) :=
  FrontCalm.trans (.of_fp rfl) ((reportFlags_calm s.bg { s with bg := g }).trans (.of_fp (by unfold publishGauge; simp)))

/-- R120: in STARTING no SOC moves the power state. -/
theorem evaluatePower_starting {s : State} (h : s.ps.power = .starting) (e : Bool) : evaluatePower e s = s := by
  simp [evaluatePower, h, socTransition]

/-- In STARTING a sample or a miss leaves the power state, and begins no transfer of a write. -/
theorem process_starting {s : State} (hs : s.ps.power = .starting) (h : Handover) :
    (process h s).ps.power = .starting ∧ FrontCalm s (process h s) := by
  have hpub : ∀ g e, evaluatePower e (publishGauge g s) = publishGauge g s := fun g e =>
    evaluatePower_starting (by simpa using hs) e
  cases h with
  | motionSample x y z => exact ⟨by simpa [process] using hs, takeMotionSample_calm x y z s⟩
  | motionMiss => exact ⟨by simpa [process] using hs, takeMotionMiss_calm s⟩
  | gaugeSample v i t =>
    unfold process takeGaugeSample
    simp only [hpub]
    (repeat' split)
    · exact ⟨by simpa using hs, publishGauge_calm _ s⟩
    · exact ⟨by simpa using hs, publishGauge_calm _ s⟩
    · exact ⟨by simpa using hs, publishGauge_calm _ s⟩
    · exact ⟨hs, .of_fp rfl⟩
  | gaugeMiss =>
    unfold process takeGaugeMiss
    simp only [hpub]
    (repeat' split)
    · exact ⟨hs, .of_fp rfl⟩
    · exact ⟨by simpa using hs, publishGauge_calm _ s⟩
    · exact ⟨by simpa using hs, publishFlags_calm _ s⟩
    · exact ⟨hs, .of_fp rfl⟩

/-- R57, R154: STARTING, with an operation's outcome being handed over and no write in transfer: nothing is admitted and
nothing granted. -/
def StartingIdle (s : State) : Prop :=
  s.ps.power = .starting ∧ s.fp.port ≠ .taking ∧ s.fp.port ≠ .held ∧ s.mp.handing = true

theorem settle_startingIdle {s : State} (h : StartingIdle s) (before : State) : settle before s = syncDrain s := by
  obtain ⟨hp, -, hheld, hhand⟩ := h
  have hno : ∀ u, u.ps.power = .starting → offerAll u = u := fun u hu => by simp [offerAll, offersAllowed, hu, inService]
  have hreact : react before s = s := by
    unfold react retryRound
    rw [retryHeld_of_not_held hheld, ite_self, hno s hp, hno s hp, ite_self]
  rw [settle, hreact, pump_busy (by simp [mpIdle, hhand])]

/-- Such a state stays one over a sample or a miss, and its lines stay. -/
theorem consume_startingIdle {s : State} (h : StartingIdle s) (e : Handover) :
    StartingIdle (consume s e) ∧ (consume s e).sb.lines = s.sb.lines := by
  obtain ⟨hp, htaking, hheld, hhand⟩ := h
  obtain ⟨hpower, hcalm⟩ := process_starting (s := takeHandover e s) (by simpa using hp) e
  obtain ⟨hsb, hmp⟩ := process_kept e (takeHandover e s)
  have hidle : StartingIdle (process e (takeHandover e s)) := by
    refine ⟨hpower, ?_, ?_, by rw [hmp]; simpa using hhand⟩
    · rcases hcalm with hf | hf
      · rw [hf]; simpa using htaking
      · rw [hf]; nofun
    · rcases hcalm with hf | hf
      · rw [hf]; simpa using hheld
      · rw [hf]; nofun
  unfold consume
  dsimp only
  rw [if_neg (by simp [consumersStopped, hp]), settle_startingIdle hidle]
  refine ⟨?_, by simp [hsb]⟩
  obtain ⟨h1, h2, h3, h4⟩ := hidle
  exact ⟨by simpa using h1, by simpa using h2, by simpa using h3, by simpa using h4⟩

theorem deliverHanded_startingIdle {s : State} (h : StartingIdle s) : (deliverHanded s).sb.lines = s.sb.lines := by
  have hfold : ∀ (es : List Handover) (u : State), StartingIdle u → (es.foldl consume u).sb.lines = u.sb.lines := fun es => by
    induction es with
    | nil => exact fun u _ => rfl
    | cons e es ih =>
      intro u hu
      obtain ⟨hidle, hlines⟩ := consume_startingIdle hu e
      rw [List.foldl_cons, ih _ hidle, hlines]
  exact hfold _ s h

end Sys2Proof.Machine
end

