-- ==== Sys2Proof/Proofs/P20.lean ====
section
/-! Each command, but for a brownout with samples waiting, is a change and its reaction (R7, R17, R102). -/

namespace Sys2Proof.Machine

open Sys2Proof

/-- ZU's invariant does not depend on time, the supply, the consumers or the reports. -/
theorem zonesStand_of_same {s t : State} (hfp : t.fp = s.fp) (hsb : t.sb = s.sb) (hcur : t.mp.current = s.mp.current)
    (hw : t.mp.waiters = s.mp.waiters) (hzu : t.zu = s.zu) (hps : t.ps = s.ps) (h : ZonesStand s) : ZonesStand t := by
  have hz : ∀ k, zoneAt t k = zoneAt s k := fun k => by rw [zoneAt, zoneAt, hzu]
  have ht : tailBase t = tailBase s := by rw [tailBase, tailBase, hps]
  have hv : ∀ o d, validateSector t o d = validateSector s o d := fun o d => by
    simp only [validateSector, hzu, hz, ht]
  simp only [ZonesStand, TablesSized, ZonesApart, HeldChecked, TransferInService, StartUpStands, HoldupStands, ClosedInOff,
    ImageWriteStands, hz, ht, hv, hfp, hsb, hcur, hw, hzu, hps] at h ⊢
  exact h

/-- What follows a change of anything else follows the command. -/
theorem Follows.of_same {s u t : State} (hfp : u.fp = s.fp) (hsb : u.sb = s.sb) (hcur : u.mp.current = s.mp.current)
    (hw : u.mp.waiters = s.mp.waiters) (hzu : u.zu = s.zu) (hps : u.ps = s.ps) (h : Follows u t) : Follows s t := by
  obtain ⟨v, hb, hr⟩ := h
  refine ⟨v, ⟨fun hbr op hop hd => hcur ▸ hb.drains hbr op hop hd, fun hp => ?_⟩, hr⟩
  have := hb.cost ⟨zonesStand_of_same hfp hsb hcur hw hzu hps hp.1, fun op hop hd => by
    rw [hsb]
    exact hp.2 op (hcur ▸ hop) hd⟩
  rwa [hsb] at this

/-! ### The outcome of a media operation -/

/-- R136: a start-up operation that a brownout has waited for. -/
theorem stoppedStartup_follows {s : State} {op : MediaOp} {step : StartStep} (hc : s.mp.current = some op)
    (hq : op.requester = .startup step) (ok : Bool) : Follows s (stoppedStartupDone step ok (handing s)) := by
  unfold stoppedStartupDone
  split
  · split
    · refine (enterHoldup_begins (deliverHanded (handing s))).follows fun ⟨hz, _⟩ => ?_
      obtain ⟨-, -, -, htransfer, ⟨hstarting, -⟩, -⟩ := hz
      obtain ⟨hp, -⟩ := hstarting op step hc hq
      have hport : ¬(s.fp.port = .taking ∨ s.fp.port = .held) := fun h => by
        rcases htransfer h with h | h <;> cases hp.symm.trans h
      have hidle : StartingIdle (handing s) := ⟨hp, fun h => hport (.inl h), fun h => hport (.inr h), rfl⟩
      rw [deliverHanded_startingIdle hidle]
      exact Nat.le_refl _
    · have hfault : Reaction (handing s) (enterMediaFault (handing s)) := .of_kept rfl rfl rfl rfl
      exact ((handing_reaction s).trans (hfault.trans (enterOff_reaction _))).follows
  · exact ((handing_reaction s).trans (enterOff_reaction _)).follows

theorem invalidateDone_follows (ok : Bool) (s : State) : Follows s (invalidateDone ok s) := by
  have hnote : Reaction s { s with ps := { s.ps with brownedOut := false } } := .of_kept rfl rfl rfl rfl
  have hfault : Reaction s (enterMediaFault s) := .of_kept rfl rfl rfl rfl
  unfold invalidateDone
  (repeat' split)
  · exact (hnote.trans (enterSave_reaction _)).follows
  · exact (enterOff_reaction s).follows
  · exact (resumeService_begins _).follows_kept rfl
  · exact hfault.follows

/-- R18, R19: a drain run ends with its lines finished, and what follows from them. -/
theorem runEnded_follows {s t : State} {op : MediaOp} (hc : s.mp.current = some op) (hd : op.requester.isDrain = true)
    (ht : t = runDone op (handing s) ∨ t = runLost op (handing s)) : Follows s t := by
  obtain ⟨hdone, hlost⟩ := runEnded_reaction op (handing s)
  refine ⟨finishRunAt op.sector op.count (handing s), ⟨fun _ _ h => (nomatch h), fun ⟨_, hp⟩ => hp op hc hd⟩, ?_⟩
  rcases ht with rfl | rfl
  · exact hdone
  · exact hlost

theorem handOutcome_follows {s : State} {op : MediaOp} (hc : s.mp.current = some op) (result : Option (List Byte)) :
    Follows s (handOutcome op result (handing s)) := by
  have hrun : op.requester.isDrain = true →
      Follows s (if result.isSome then runDone op (handing s) else runLost op (handing s)) := fun hd => by
    split
    · exact runEnded_follows hc hd (.inl rfl)
    · exact runEnded_follows hc hd (.inr rfl)
  unfold handOutcome
  cases hq : op.requester with
  | readMiss => exact ((handing_reaction s).trans (missEnded_reaction _ _ _)).follows
  | drain => exact hrun (by rw [hq]; rfl)
  | holdup what =>
    cases what with
    | drainRun => exact hrun (by rw [hq]; rfl)
    | imageFirst => exact ((handing_reaction s).trans (imageFirstDone_reaction _ _)).follows
    | imageSecond => exact ((handing_reaction s).trans (imageSecondDone_reaction _)).follows
    | invalidate => exact (invalidateDone_follows _ _).of_handing
  | startup step =>
    dsimp only
    cases hb : s.ps.brownedOut with
    | false => exact ((handing_reaction s).trans (startupDone_reaction hb)).follows
    | true =>
      have hstop : startupDone step result (handing s) = stoppedStartupDone step result.isSome (handing s) := by
        unfold startupDone
        exact if_pos hb
      rw [hstop]
      exact stoppedStartup_follows hc hq _

theorem finishOp_follows {s : State} {op : MediaOp} (hc : s.mp.current = some op) (result : Option (List Byte)) :
    Follows s (finishOp op result s) :=
  (handOutcome_follows hc result).then (goIdle_reaction _ _)

theorem attemptFailure_follows {s : State} {op : MediaOp} (hc : s.mp.current = some op) :
    Follows s (attemptFailure op s) := by
  unfold attemptFailure
  split
  · refine Reaction.follows ⟨rfl, rfl, Nat.le_max_left _ _, fun _ p hp _ => ⟨op, hc, ?_⟩⟩
    cases hp
    rfl
  · exact finishOp_follows hc none

theorem operationComplete_follows (status : Byte) (payload : List Byte) (s : State) :
    Follows s (operationComplete status payload s) := by
  unfold operationComplete
  split
  · exact (Reaction.refl s).follows
  · next op hc =>
    split
    · exact finishOp_follows hc _
    · exact attemptFailure_follows hc

theorem operationTimeout_follows (s : State) : Follows s (operationTimeout s) := by
  unfold operationTimeout
  split
  · exact (Reaction.refl s).follows
  · next op hc =>
    have hcur : (pulseReset (waitUntil (op.start + 200) s)).mp.current = some op := by
      rw [← hc]
      simp [pulseReset]
    refine Follows.of_same ?_ ?_ ?_ ?_ ?_ ?_ (attemptFailure_follows hcur) <;> simp [pulseReset]

/-! ### The supply -/

theorem offAfterOperation_reaction (s : State) : Reaction s (offAfterOperation s) := by
  unfold offAfterOperation
  split
  · exact enterOff_reaction s
  · exact .of_kept rfl rfl rfl rfl

theorem supplyLost_follows (s : State) : Follows s (supplyLost s) := by
  have hstop : Reaction s (stopStartup s) := Reaction.after (offAfterOperation_reaction _) (.of_kept rfl rfl rfl rfl)
  have hnote : Reaction s (noteBrownedOut s) := .of_kept rfl rfl rfl rfl
  have henter := (enterHoldup_begins s).follows_kept rfl
  unfold supplyLost brownoutStarting
  (repeat' split)
  · exact (Reaction.refl s).follows
  · exact (offAfterOperation_reaction s).follows
  · exact henter
  · exact henter
  · exact henter
  · exact henter
  · exact hstop.follows
  · exact hnote.follows
  · exact (Reaction.refl s).follows
  · exact (Reaction.refl s).follows

theorem beginInvalidate_reaction (s : State) : Reaction s (beginInvalidate s) := by
  unfold beginInvalidate
  dsimp only
  split
  · refine Reaction.after (pump_reaction _) ?_
    exact .of_kept rfl rfl rfl rfl
  · exact .of_kept rfl rfl rfl rfl

theorem supplyReturned_follows (s : State) : Follows s (supplyReturned s) := by
  have hback : Reaction s (recoverInvalidate s) := .of_kept rfl rfl rfl rfl
  unfold supplyReturned
  (repeat' split)
  · exact startUp_follows _ s
  · exact (resumeService_begins s).follows_kept rfl
  · exact (beginInvalidate_reaction s).follows
  · exact (Reaction.refl s).follows
  · exact hback.follows
  · exact (Reaction.refl s).follows
  · exact (Reaction.refl s).follows
  · exact (Reaction.refl s).follows
  · exact (Reaction.refl s).follows

theorem computeConversion_begun (vsys vcap : Int) (s : State) : Begun s (computeConversion vsys vcap (endConversion s)) := by
  have hend : (endConversion s).mp = s.mp ∧ (endConversion s).sb = s.sb := by
    unfold endConversion
    dsimp only
    split <;> simp
  refine .of_kept ?_ ?_
  · rw [← hend.1]
    simp [computeConversion]
  · rw [← hend.2]
    simp [computeConversion]

theorem markChanged_kept (s : State) : (markChanged s).mm = s.mm ∧ (markChanged s).sm = s.sm ∧ (markChanged s).sb = s.sb ∧
    (markChanged s).mp = s.mp := by
  unfold markChanged
  have h : ∀ {β : Type} (part : State → β), (∀ u o, part (markSector o u) = part u) →
      part (s.ru.changed.foldl (fun s o => markSector o s) s) = part s := fun part hp => foldl_keep part _ hp _ s
  exact ⟨h (·.mm) fun _ _ => rfl, h (·.sm) fun _ _ => rfl, h (·.sb) fun _ _ => rfl, h (·.mp) fun _ _ => rfl⟩

theorem checkpointExpiry_reaction (due : Word) (s : State) : Reaction s (checkpointExpiry due s) := by
  have hwait : ∀ d : Option Word, Reaction s { waitUntil due s with ru := { (waitUntil due s).ru with timerDue := d } } :=
    fun d => by refine .of_kept ?_ ?_ ?_ ?_ <;> simp
  have hmark : ∀ u, Reaction u (markChanged u) := fun u => by
    obtain ⟨h1, h2, h3, h4⟩ := markChanged_kept u
    exact .of_kept (by rw [h1]) (by rw [h2]) (by rw [h3]) (by rw [h4])
  unfold checkpointExpiry
  dsimp only
  split
  · exact (hwait _).trans ((hmark _).trans (settle_reaction _ _))
  · exact hwait _

/-! ### The commands that neither admit nor grant -/

/-- Staging, the media port, the motion state and L stay. -/
def StagingKept (s t : State) : Prop :=
  t.mm.motion = s.mm.motion ∧ t.sm.limit = s.sm.limit ∧ t.sb = s.sb ∧ t.mp = s.mp

theorem StagingKept.follows {s t : State} (h : StagingKept s t) : Follows s t := by
  obtain ⟨h1, h2, h3, h4⟩ := h
  exact (Reaction.of_kept h1 h2 (by rw [h3]) (by rw [h4])).follows

theorem setSense_stagingKept (e : SenseEngine) (s : State) : StagingKept s (setSense e s) := ⟨rfl, rfl, rfl, rfl⟩

theorem conversionCadence_kept (s : State) : StagingKept s (startConversion (waitUntil s.sm.cadenceDue s)) := by
  simp [StagingKept, startConversion]

theorem holdLimit_kept {s t : State} (h : exec .holdLimit s = .next t) : StagingKept s t := by
  cases h
  split <;> simp [StagingKept]

theorem linkReset_follows {s t : State} (h : exec .linkReset s = .next t) : Follows s t := by
  cases h
  have hpin : Reaction s { s with pins := { s.pins with frst := true } } := .of_kept rfl rfl rfl rfl
  exact (hpin.trans (linkResetPort_reaction _)).follows

theorem slider_kept {s t : State} (h : exec .wpDebounceExpiry s = .next t) : StagingKept s t := by
  cases h
  split
  · split
    · exact ⟨rfl, rfl, rfl, rfl⟩
    · unfold takeSlider
      dsimp only
      split <;> simp [StagingKept]
  · exact ⟨rfl, rfl, rfl, rfl⟩

theorem wpChange_kept {s t : State} (h : exec .wpChange s = .next t) : StagingKept s t := by
  cases h
  unfold noteSlider
  (repeat' split) <;> exact ⟨rfl, rfl, rfl, rfl⟩

/-- The commands of the sense bus: SE alone, and time. -/
theorem sense_kept {c : Instr} {s t : State} (hc : c = .motionCadence ∨ c = .gaugeCadence ∨ (∃ how, c = .attemptComplete how) ∨
    c = .senseTimeout ∨ c = .recoveryTrainEnd ∨ c = .busStartSeen ∨ c = .busStopSeen ∨ c = .alertEdge ∨
    c = .alertDeferExpiry) (h : exec c s = .next t) : StagingKept s t := by
  have hdefer : ∀ u, StagingKept u (deferredAlert u) := fun u => by
    unfold deferredAlert
    dsimp only
    split <;> simp [StagingKept]
  have hfail : ∀ i, StagingKept s (failTimeout (waitUntil i s)) := fun i => by simp [StagingKept]
  obtain rfl | rfl | ⟨how, rfl⟩ | rfl | rfl | rfl | rfl | rfl | rfl := hc <;> cases h
  · split <;> simp [StagingKept]
  · split <;> simp [StagingKept]
  · split <;> simp [StagingKept]
  · split
    · exact hfail _
    · exact hfail _
    · exact ⟨rfl, rfl, rfl, rfl⟩
    · exact ⟨rfl, rfl, rfl, rfl⟩
  · split <;> simp [StagingKept]
  · exact setSense_stagingKept _ s
  · unfold stopSeen
    dsimp only
    split <;> exact setSense_stagingKept _ s
  · unfold alertFalls
    (repeat' split) <;> simp [StagingKept]
  · split
    · split
      · next g _ =>
        have := hdefer (waitUntil (g + 10) s)
        simpa [StagingKept] using this
      · exact hdefer s
    · exact ⟨rfl, rfl, rfl, rfl⟩

theorem rail_kept {c : Instr} {s t : State} (hc : c = .railReturn ∨ c = .railReturnCancel) (h : exec c s = .next t) :
    StagingKept s t := by
  obtain rfl | rfl := hc <;> cases h <;> split <;> exact ⟨rfl, rfl, rfl, rfl⟩

theorem firstTimer_kept {s t : State} (h : exec .firstSampleTimerExpiry s = .next t) : StagingKept s t := by
  cases h
  split
  · unfold firstTimerExpiry
    dsimp only
    split <;> simp [StagingKept]
  · exact ⟨rfl, rfl, rfl, rfl⟩

theorem front_kept {c : Instr} {s t : State} (hc : c = .responseSent ∨ c = .frstRelease ∨ (∃ b, c = .untaggedFrontByte b) ∨
    ∃ bs, c = .strayMediaBytes bs) (h : exec c s = .next t) : StagingKept s t := by
  obtain rfl | rfl | ⟨b, rfl⟩ | ⟨bs, rfl⟩ := hc <;> cases h
  · split <;> exact ⟨rfl, rfl, rfl, rfl⟩
  · exact ⟨rfl, rfl, rfl, rfl⟩
  · exact ⟨rfl, rfl, rfl, rfl⟩
  · exact ⟨rfl, rfl, rfl, rfl⟩

/-! ### All commands -/

/-- Each command is a change and its reaction; a brownout where no sample waits, as those that wait are each processed and
reacted to first. -/
theorem exec_follows {c : Instr} {s t : State} (hb : c = .brownout → s.se.handed = []) (h : exec c s = .next t) :
    Follows s t := by
  cases c with
  | powerOn wp => cases h; exact startUp_follows wp s
  | read count sector => cases h; exact (arrive_reaction (beginRead_reaction count sector) _ _ _ s).follows
  | write count sector => cases h; exact (arrive_reaction (beginWrite_reaction count sector) _ _ _ s).follows
  | flush count sector => cases h; exact (arrive_reaction beginFlush_reaction _ _ _ s).follows
  | info count sector => cases h; exact (arrive_reaction beginInfo_reaction _ _ _ s).follows
  | unknownCodeRequest code count sector =>
    cases h
    exact (arrive_reaction (fun u => refuse_reaction _ _ _ _ u) _ _ _ s).follows
  | dataFrame data => cases h; exact (dataArrives_reaction _ s).follows
  | responseSent => exact (front_kept (.inl rfl) h).follows
  | linkReset => exact linkReset_follows h
  | frstRelease => exact (front_kept (.inr (.inl rfl)) h).follows
  | holdLimit => exact (holdLimit_kept h).follows
  | mediaOperationComplete status payload => cases h; exact operationComplete_follows status payload s
  | mediaTimeout => cases h; exact operationTimeout_follows s
  | conversionCadence => cases h; exact (conversionCadence_kept s).follows
  | conversionComplete vsys vcap =>
    cases h
    split
    · exact (Reaction.refl s).follows
    · exact ⟨_, computeConversion_begun vsys vcap s, settle_reaction _ _⟩
  | brownout =>
    cases h
    rw [deliverHanded_nil (hb rfl)]
    split
    · refine Follows.then ?_ (pump_reaction _)
      exact Follows.of_same (u := setRail .lost s) rfl rfl rfl rfl rfl rfl (supplyLost_follows _)
    · exact (Reaction.refl s).follows
  | railReturn => exact (rail_kept (.inl rfl) h).follows
  | railReturnCancel => exact (rail_kept (.inr rfl) h).follows
  | recoveryQualified =>
    cases h
    split
    · refine (supplyReturned_follows _).of_same ?_ ?_ ?_ ?_ ?_ ?_ <;> simp [setRail]
    · exact (Reaction.refl s).follows
  | wpChange => exact (wpChange_kept h).follows
  | wpDebounceExpiry => exact (slider_kept h).follows
  | motionCadence => exact (sense_kept (.inl rfl) h).follows
  | gaugeCadence => exact (sense_kept (.inr (.inl rfl)) h).follows
  | attemptComplete how => exact (sense_kept (.inr (.inr (.inl ⟨how, rfl⟩))) h).follows
  | senseTimeout => exact (sense_kept (by simp) h).follows
  | recoveryTrainEnd => exact (sense_kept (by simp) h).follows
  | busStartSeen => exact (sense_kept (by simp) h).follows
  | busStopSeen => exact (sense_kept (by simp) h).follows
  | alertEdge => exact (sense_kept (by simp) h).follows
  | alertDeferExpiry => exact (sense_kept (by simp) h).follows
  | motionSample x y z => cases h; exact consume_follows s _
  | motionMiss => cases h; exact consume_follows s _
  | gaugeSample v i g => cases h; exact consume_follows s _
  | gaugeMiss => cases h; exact consume_follows s _
  | firstSampleTimerExpiry => exact (firstTimer_kept h).follows
  | checkpointTimerExpiry =>
    cases h
    split
    · exact (checkpointExpiry_reaction _ s).follows
    · exact (Reaction.refl s).follows
  | untaggedFrontByte b => exact (front_kept (.inr (.inr (.inl ⟨b, rfl⟩))) h).follows
  | strayMediaBytes bs => exact (front_kept (.inr (.inr (.inr ⟨bs, rfl⟩))) h).follows

/-- R17, R102: a command that leaves the part braced has issued no drain run of SB. -/
theorem exec_drains {c : Instr} {s t : State} (hb : c ≠ .brownout) (h : exec c s = .next t)
    (hbr : bracedState t.mm.motion = true) {op : MediaOp} (hop : t.mp.current = some op) (hd : op.requester = .drain) :
    ∃ p, s.mp.current = some p ∧ op = { p with attempt := op.attempt, start := op.start } := by
  obtain ⟨u, hbegun, hr⟩ := exec_follows (fun he => absurd he hb) h
  rw [hr.motion] at hbr
  obtain ⟨p, hp, he⟩ := hr.drains hbr op hop hd
  exact ⟨p, hbegun.drains hbr p hp (by rw [he] at hd; exact hd), he⟩

/-- R7: no command raises the dirty cost above the larger of 1 and L. -/
theorem exec_cost {c : Instr} {s t : State} (hb : c = .brownout → s.se.handed = []) (h : exec c s = .next t)
    (hp : CostPremise s) : dirtyCost t.sb.lines ≤ max (dirtyCost s.sb.lines) (max 1 t.sm.limit) := by
  obtain ⟨u, hbegun, hr⟩ := exec_follows hb h
  have h1 := hbegun.cost hp
  have h2 := hr.cost
  rw [← hr.limit] at h2
  omega

/-- Settles O22: a first failure by the retry it makes, an abandoned outcome by the grants that follow it, the run that is
chosen by the lines' ages, and the brace by the reaction that ends every command. -/
theorem firstFailureRetried : Obligations.FirstFailureRetried := by
  refine ⟨fun status payload s op hc hs h1 ha h => firstFailure_retried payload hc hs h1 ha h, ?_, fun lines hl =>
    ⟨chooseRun_eq_none_iff hl.1, fun ha c hc => runChosen_of_chooseRun ha hc⟩, fun c s t hb h hbr _ op hop hd =>
    exec_drains hb h hbr hop hd⟩
  intro status payload s op hc hq ha hp hd
  have hidle : runInFlight s = false := by simp [runInFlight, hc, hq, Requester.isDrain]
  obtain ⟨t, ht, hspec⟩ := abandoned_grants hidle hp hd
  exact ⟨t, (exec_abandoned hc hq ha hp hd).trans (by rw [ht]), hspec⟩

/-! ### The admission test (R4 to R7, R11) -/

theorem lineZone_not_open {s : State} {n : Nat} (h : ∀ k, zoneOf s.zu.zones n = some k → (zoneAt s k).state ≠ .opened) :
    lineZone s .data n = none := by
  unfold lineZone
  rw [if_pos rfl, Option.filter_eq_none_iff]
  exact fun k hk => by simpa using h k hk

theorem lineZone_open {s : State} {n k : Nat} (hk : zoneOf s.zu.zones n = some k) (ho : (zoneAt s k).state = .opened) :
    lineZone s .data n = some k := by
  unfold lineZone
  rw [if_pos rfl, hk]
  simp [ho]

theorem frontClass_data {s : State} {n : Nat} (h : n < tailBase s ∨ tailBase s + 4 < n) : frontClass s n = .data := by
  unfold frontClass
  exact if_neg (by simp; omega)

/-- Settles O19: the admission test and what it places case by case, and the bound on the dirty cost by the reaction that
ends every command. -/
theorem admissionCosts : Obligations.AdmissionCosts := by
  refine ⟨fun sb cls n z r l d => ⟨admitTest_noLine_iff sb cls n z r l d, admitTest_cost_iff sb cls n z r l d⟩,
    fun s n d => ⟨fun h1 h2 => frontAdmitTest_map h1 h2, fun hn => ⟨fun k hk ho => ?_, fun hno => ?_⟩⟩,
    fun c s t h hz hb hrun => ?_, fun sb cls n z r d => ⟨mergeTarget_isSome_iff _ _ _, placeSector_isSome_iff sb cls n z r d⟩,
    fun sb t cls n z r l d h => ⟨admitTest_admitted_iff h, fun hm => placeSector_allocates h hm,
      fun hm => placeSector_merges h hm, fun h8 => placeSector_storedAt h h8⟩⟩
  · rw [frontAdmitTest, frontClass_data hn, lineZone_open hk ho]
  · rw [frontAdmitTest, frontClass_data hn, lineZone_not_open hno]
  · have := exec_cost hb h ⟨hz, hrun⟩
    omega

end Sys2Proof.Machine
end

