-- ==== Sys2Proof/Proofs/P21.lean ====
section
/-! What the discards of the hold-up sequence leave of a buffer in which every staged line has a run left and at most one
line is DRAINING (R19, R79, R139): nothing staged, every sector counted lost, no zone flag taken back. -/

namespace Sys2Proof.Machine

open Sys2Proof

theorem undoneSectors_eq (lines : List Line) :
    undoneSectors lines = (lines.map fun l => if l.live then (slots l.undone).card else 0).sum := by
  have h : ∀ m : BitVec 8, ((List.range 8).filter fun n => m.getLsbD n).length = (slots m).card := fun m => by
    have hset : slots m = List.toFinset ((List.range 8).filter fun n => m.getLsbD n) := by
      ext i
      simp only [slots, Finset.mem_filter, Finset.mem_range, List.mem_toFinset, List.mem_filter, List.mem_range]
    rw [hset, List.toFinset_card_of_nodup (List.nodup_range.filter _)]
  simp only [undoneSectors, h]

/-- Every line that is staged has a run left. -/
def RunsLeft (lines : List Line) : Prop :=
  ∀ l ∈ lines, l.live = true → l.undone ≠ 0

/-- A discard takes the sectors of its run off those that are still to program. -/
theorem SoleDraining.discard_undone {lines : List Line} {c : RunChoice} (hs : SoleDraining c.idx lines)
    (h : chooseRun lines = some c) (hr : RunsLeft lines) :
    undoneSectors (discardLines c lines) + c.len = undoneSectors lines ∧ RunsLeft (discardLines c lines) := by
  obtain ⟨hget, hrun, -⟩ := chooseRun_some h
  obtain ⟨hlt, -, hin, -, -⟩ := firstRun_slots hrun
  have hlive := chooseRun_live h
  have hcard : (slots c.line.undone \ Finset.Ico c.first (c.first + c.len)).card + c.len = (slots c.line.undone).card := by
    have hsub : Finset.Ico c.first (c.first + c.len) ⊆ slots c.line.undone := fun i hi => by
      obtain ⟨h1, h2⟩ := Finset.mem_Ico.mp hi
      exact hin i h1 h2
    have := Finset.card_sdiff_add_card_eq_card hsub
    rwa [Nat.card_Ico, Nat.add_sub_cancel_left] at this
  rw [discardLines_single h hs, undoneSectors_eq, undoneSectors_eq]
  have hundone : Line.undone { c.line with state := .draining } = c.line.undone := rfl
  have hdraining : Line.live { c.line with state := .draining } = true := rfl
  generalize { c.line with state := .draining } = d at hundone hdraining ⊢
  have hset := sum_map_set (fun l : Line => if l.live then (slots l.undone).card else 0) hget (d.finishRun c.first c.len)
  rw [if_pos hlive] at hset
  obtain ⟨hempty, hfree⟩ | ⟨hne, hst, -, hslots⟩ := d.finishRun_cases c.first c.len
  · rw [hundone] at hempty
    rw [hempty, Finset.card_empty] at hcard
    rw [hfree] at hset ⊢
    refine ⟨?_, fun l hl hll => ?_⟩
    · have hzero : (if Line.free.live then (slots Line.free.undone).card else 0) = 0 := rfl
      omega
    · rcases List.mem_or_eq_of_mem_set hl with hm | rfl
      · exact hr l hm hll
      · cases hll
  · have hlive' : (d.finishRun c.first c.len).live = true := by
      rw [Line.live, hst]
      exact hdraining
    rw [hundone] at hslots hne
    rw [if_pos hlive', hslots] at hset
    refine ⟨by omega, fun l hl hll => ?_⟩
    rcases List.mem_or_eq_of_mem_set hl with hm | rfl
    · exact hr l hm hll
    · intro h0
      rw [← slots_eq_empty_iff, hslots] at h0
      exact hne.ne_empty h0

theorem dirtyCost_pos {lines : List Line} (hr : RunsLeft lines) (h : staged lines = true) : 1 ≤ dirtyCost lines := by
  obtain ⟨l, hl, hlive⟩ := List.any_eq_true.mp h
  have hcount : 1 ≤ l.runCount := by
    rw [Line.runCount_eq hlive]
    refine runsOf_pos (Finset.nonempty_iff_ne_empty.mpr fun he => hr l hl hlive ((slots_eq_empty_iff _).mp he))
  exact hcount.trans (List.le_sum_of_mem (List.mem_map_of_mem hl))

/-! ### What a discard and all of them report -/

theorem discardRun_reports (n len : Nat) (s : State) :
    (discardRun n len s).sb.lostCount = min 65535 (s.sb.lostCount + len) ∧ (discardRun n len s).sb.deferred = true ∧
      (discardRun n len s).ru.attn = true := by
  have hsb : (discardRun n len s).sb = (dropRun n len s).sb := by
    rw [discardRun]
    simp
  refine ⟨?_, ?_, rfl⟩
  · rw [hsb]
    simp only [dropRun, countLost, finishRunAt, satAdd]
  · rw [hsb]
    rfl

/-- R19, R139: all the discards of a buffer leave nothing staged; each sector is counted lost, once. -/
theorem discardAll_emptied {n i : Nat} {s : State} (hn : dirtyCost s.sb.lines = n) (hs : SoleDraining i s.sb.lines)
    (hr : RunsLeft s.sb.lines) : staged (discardAll n s).sb.lines = false ∧
      (1 ≤ n → (discardAll n s).sb.lostCount = min 65535 (s.sb.lostCount + undoneSectors s.sb.lines) ∧
        (discardAll n s).sb.deferred = true ∧ (discardAll n s).ru.attn = true) := by
  induction n generalizing s i with
  | zero =>
    refine ⟨?_, fun h => absurd h (by omega)⟩
    rw [discardAll]
    by_contra hst
    have := dirtyCost_pos hr (by simpa using hst)
    omega
  | succ n ih =>
    have hstaged : staged s.sb.lines = true := by
      by_contra hst
      have hno : chooseRun s.sb.lines = none := (chooseRun_eq_none_iff hr).mpr (by simpa using hst)
      have hnone : ∀ l ∈ s.sb.lines, l.live = false := by simpa [staged] using hst
      have hzero : dirtyCost s.sb.lines = 0 := List.sum_eq_zero fun x hx => by
        obtain ⟨l, hl, rfl⟩ := List.mem_map.mp hx
        rw [Line.runCount, if_neg (by simp [hnone l hl])]
      omega
    obtain ⟨c, hc⟩ : ∃ c, chooseRun s.sb.lines = some c := by
      refine Option.ne_none_iff_exists'.mp fun hno => ?_
      rw [(chooseRun_eq_none_iff hr).mp hno] at hstaged
      cases hstaged
    obtain ⟨hcost, hsole⟩ := (hs.chosen hc).discard hc
    obtain ⟨hundone, hruns⟩ := (hs.chosen hc).discard_undone hc hr
    rw [← discardRun_lines hc] at hcost hsole hundone hruns
    obtain ⟨hlost, hdeferred, hattn⟩ := discardRun_reports c.sector c.len (startDraining c s)
    have hsame : (startDraining c s).sb.lostCount = s.sb.lostCount := rfl
    rw [discardAll_some hc]
    obtain ⟨hempty, hrest⟩ := ih (by omega) hsole hruns
    refine ⟨hempty, fun _ => ?_⟩
    rcases Nat.eq_zero_or_pos n with rfl | hpos
    · rw [discardAll] at hempty ⊢
      have hnone : undoneSectors (discardRun c.sector c.len (startDraining c s)).sb.lines = 0 := by
        rw [undoneSectors_eq]
        refine List.sum_eq_zero fun x hx => ?_
        obtain ⟨l, hl, rfl⟩ := List.mem_map.mp hx
        have hfree : ∀ l ∈ (discardRun c.sector c.len (startDraining c s)).sb.lines, l.live = false := by
          simpa [staged] using hempty
        rw [if_neg (by simp [hfree l hl])]
      exact ⟨by rw [hlost, hsame]; omega, hdeferred, hattn⟩
    · obtain ⟨hl, hd, ha⟩ := hrest hpos
      exact ⟨by rw [hl, hlost, hsame]; omega, hd, ha⟩

/-! ### What the discards keep -/

/-- R79: a zone flag that is set stays set. -/
theorem setZoneFlag_damaged {f : ZoneFlag} {j k : Nat} {s : State} (h : (runtimeAt s k).damaged = true) :
    (runtimeAt (setZoneFlag f j s) k).damaged = true := by
  unfold setZoneFlag
  split
  · exact h
  · have hset : ∀ r, runtimeAt (raiseAttn (markSector (checkOffset j) (runtimeChange j (setRuntime j r s)))) k =
        runtimeAt (setRuntime j r s) k := fun _ => rfl
    rw [hset]
    by_cases hj : k = j
    · subst hj
      by_cases hlt : k < s.zu.runtimes.length
      · rw [runtimeAt_setRuntime_self k _ s hlt]
        cases f
        · exact h
        · rfl
        · exact h
      · simp only [runtimeAt, setRuntime, List.set_eq_of_length_le (Nat.le_of_not_lt hlt)] at h ⊢
        exact h
    · rw [runtimeAt_setRuntime_ne j k _ s hj]
      exact h

/-- The runs' losses are reported to ZU, which keeps its flags, and the part stays writable. -/
theorem discardRun_kept (n len : Nat) (s : State) : (discardRun n len s).zu.readOnly = s.zu.readOnly ∧
    ∀ k, (runtimeAt s k).damaged = true → (runtimeAt (discardRun n len s) k).damaged = true := by
  have hflag : ∀ f j u, (setZoneFlag f j u).zu.readOnly = u.zu.readOnly := fun f j u => by
    unfold setZoneFlag
    split <;> rfl
  unfold discardRun reportLoss damageZone
  split
  · exact ⟨hflag _ _ _, fun k hk => setZoneFlag_damaged (s := dropRun n len s) hk⟩
  · exact ⟨rfl, fun k hk => hk⟩

theorem discardAll_kept (n : Nat) (s : State) : (discardAll n s).zu.readOnly = s.zu.readOnly ∧
    ∀ k, (runtimeAt s k).damaged = true → (runtimeAt (discardAll n s) k).damaged = true := by
  induction n generalizing s with
  | zero => exact ⟨rfl, fun _ h => h⟩
  | succ n ih =>
    rw [discardAll]
    split
    · exact ⟨rfl, fun _ h => h⟩
    · next c _ =>
      obtain ⟨hro, hdam⟩ := discardRun_kept c.sector c.len (startDraining c s)
      obtain ⟨hro', hdam'⟩ := ih (discardRun c.sector c.len (startDraining c s))
      exact ⟨hro'.trans hro, fun k hk => hdam' k (hdam k hk)⟩

end Sys2Proof.Machine
end

