-- ==== Sys2Proof/Proofs/P22.lean ====
section
/-! The energy test of the hold-up sequence (R138, R139, R142, R180): with MP idle in phase DRAIN the next run is issued,
or what remains is discarded and the image begun. -/

namespace Sys2Proof.Machine

open Sys2Proof

/-- R166: MP has handed an outcome over. -/
def outcomeHanded (s : State) : State :=
  { s with mp := { s.mp with handing := false } }

theorem mpIdle_outcomeHanded {s : State} (hc : s.mp.current = none) : mpIdle (outcomeHanded s) = true := by
  simp [mpIdle, outcomeHanded, hc]

/-! ### The image begun (R142) -/

/-- R142: phase SAVE is entered from `s`, which it leaves otherwise as it was as far as the losses go. -/
structure Saved (s t : State) : Prop where
  begun : ImageBegun s t
  sb : t.sb = s.sb
  zu : t.zu = s.zu
  attn : s.ru.attn = true → t.ru.attn = true
  pulses : t.mp.resetPulses = s.mp.resetPulses

theorem Saved.syncDrain {s t : State} (h : Saved s t) : Saved s (syncDrain t) := by
  rw [syncDrain_eq]
  exact ⟨h.begun, h.sb, h.zu, h.attn, h.pulses⟩

theorem Saved.handed {s t : State} (h : Saved s t) : Saved s (outcomeHanded t) :=
  ⟨h.begun, h.sb, h.zu, h.attn, h.pulses⟩

theorem saved_image {s : State} {im : List Sector} (w : Waiters) (n : Nat) (b : Bool) (hp : s.ps.power = .holdup)
    (hro : s.zu.readOnly = false) (him : im.length = 15) : Saved s (issueImage .imageFirst
      { s with ps := { s.ps with phase := some .save, image := im }
               mp := { s.mp with waiters := w, starvation := n, handing := b } }) :=
  ⟨⟨fun h => (by rw [hro] at h; cases h), fun _ => ⟨hp, rfl, him, rfl⟩⟩, rfl, rfl, id, rfl⟩

theorem enterOff_power (s : State) : (enterOff s).ps.power = .off := by
  simp [enterOff, changePower, raiseAttn]

theorem saved_off {s : State} (hro : s.zu.readOnly = true) :
    Saved s (enterOff { s with ps := { s.ps with phase := some .save } }) := by
  have hattn : ∀ u : State, (enterOff u).ru.attn = true := fun u => by simp [enterOff, changePower, raiseAttn]
  have hpulses : ∀ u : State, (enterOff u).mp.resetPulses = u.mp.resetPulses := fun u => by simp [enterOff]
  exact ⟨⟨fun _ => enterOff_power _, fun h => (by rw [hro] at h; cases h)⟩, by simp, by simp, fun _ => hattn _, hpulses _⟩

theorem enterSave_readOnly {s : State} (hro : s.zu.readOnly = true) (hc : s.mp.current = none) :
    enterSave s = enterOff { s with ps := { s.ps with phase := some .save } } := by
  rw [enterSave]
  dsimp only
  rw [if_pos hro, offWithoutImage, if_pos (by simp [hc])]

theorem enterSave_image {s : State} (hro : s.zu.readOnly = false) : enterSave s = requestHoldup .imageFirst
    { s with ps := { s.ps with phase := some .save, image := formImage { s with ps := { s.ps with phase := some .save } } } } := by
  rw [enterSave]
  dsimp only
  rw [if_neg (by simp [hro])]

theorem pump_holdup {s : State} {what : HoldupRequest} (hp : s.ps.power = .holdup) (hi : mpIdle s = true)
    (hw : s.mp.waiters.holdup = some what) : pump s = syncDrain (grantHoldup what (syncDrain s)) := by
  have hg : ∀ u : State, u.ps.power = .holdup → mpIdle u = true → u.mp.waiters.holdup = some what →
      grantNext u = grantHoldup what u := fun u hp hi hw => by
    rw [grantNext, if_pos hi, hp]
    dsimp only
    rw [hw]
  obtain ⟨d, n, hd⟩ := exists_syncDrain s
  rw [pump, hg (syncDrain s) (by rw [hd]; exact hp) (by rw [hd]; exact hi) (by rw [hd]; exact hw)]

theorem pump_image {s : State} (hp : s.ps.power = .holdup) (hc : s.mp.current = none) : ∃ w n,
    pump (outcomeHanded (requestHoldup .imageFirst s)) =
      syncDrain (issueImage .imageFirst
        { s with mp := { s.mp with waiters := w, starvation := n, handing := false } }) := by
  rw [pump_holdup (what := .imageFirst) (by exact hp) (mpIdle_outcomeHanded (by exact hc)) rfl, grantHoldup,
    if_neg (by decide)]
  obtain ⟨d, n, hd⟩ := exists_syncDrain (outcomeHanded (requestHoldup .imageFirst s))
  rw [hd]
  exact ⟨_, n, rfl⟩

/-- R142: the image is begun at the next grant, or the part is in OFF. -/
theorem enterSave_pumped {s : State} (hp : s.ps.power = .holdup) (hc : s.mp.current = none) :
    Saved s (pump (outcomeHanded (enterSave s))) := by
  cases hro : s.zu.readOnly
  · rw [enterSave_image hro]
    obtain ⟨w, n, h⟩ := pump_image (s := { s with ps := { s.ps with
      phase := some .save, image := formImage { s with ps := { s.ps with phase := some .save } } } }) hp hc
    rw [h]
    exact (saved_image w n false hp hro (by simp [formImage])).syncDrain
  · rw [enterSave_readOnly hro hc, pump_off (by exact enterOff_power _)]
    exact (saved_off hro).handed

/-- R139: the discards, then the image. -/
theorem stopDraining_saved {s : State} (hp : s.ps.power = .holdup) (hc : s.mp.current = none) :
    Saved (discardAll (dirtyCost s.sb.lines) s) (stopDraining s) := by
  have hp' : (discardAll (dirtyCost s.sb.lines) s).ps.power = .holdup := by simp [hp]
  have hc' : (discardAll (dirtyCost s.sb.lines) s).mp.current = none := by simp [hc]
  rw [stopDraining]
  generalize discardAll (dirtyCost s.sb.lines) s = u at hp' hc'
  cases hro : u.zu.readOnly
  · rw [enterSave_image hro]
    exact saved_image _ _ _ hp' hro (by simp [formImage])
  · rw [enterSave_readOnly hro hc']
    exact saved_off hro

/-! ### The energy test (R138, R180) -/

theorem ImageBegun.of_same {s u t : State} (h : ImageBegun u t) (hro : u.zu.readOnly = s.zu.readOnly)
    (hcap : u.ps.capacity = s.ps.capacity) (hup : u.uptimeMs = s.uptimeMs) : ImageBegun s t := by
  obtain ⟨hoff, himg⟩ := h
  have htail : tailBase u = tailBase s := by rw [tailBase, tailBase, hcap]
  rw [htail, hup, hro] at himg
  exact ⟨fun h => hoff (hro.trans h), himg⟩

theorem DrainTested.of_same {lines : List Line} {s u t : State} (h : DrainTested lines u t)
    (hro : u.zu.readOnly = s.zu.readOnly) (hps : u.ps.capacity = s.ps.capacity) (hup : u.uptimeMs = s.uptimeMs)
    (havail : u.sm.avail = s.sm.avail) (hew : u.sm.ewUsed = s.sm.ewUsed) (hlost : u.sb.lostCount = s.sb.lostCount) :
    DrainTested lines s t := by
  obtain ⟨hempty, hrun, hdiscard⟩ := h
  rw [havail, hew] at hrun hdiscard
  rw [hup] at hrun
  rw [hlost] at hdiscard
  refine ⟨fun h => (hempty h).of_same hro hps hup, hrun, fun h he => ?_⟩
  obtain ⟨himg, hrest⟩ := hdiscard h he
  exact ⟨himg.of_same hro hps hup, hrest⟩

/-- R138, R139, R180: the energy test of `s` and what it leaves of the account of the losses. -/
structure Tested (s t : State) : Prop where
  tested : DrainTested s.sb.lines s t
  same : staged s.sb.lines = false ∨ s.sm.ewUsed ≤ s.sm.avail →
    t.sb.lostCount = s.sb.lostCount ∧ t.sb.lastLost = s.sb.lastLost
  deferred : s.sb.deferred = true → t.sb.deferred = true
  attn : s.ru.attn = true → t.ru.attn = true
  damaged : ∀ k, (runtimeAt s k).damaged = true → (runtimeAt t k).damaged = true
  pulses : t.mp.resetPulses = s.mp.resetPulses

theorem Tested.syncDrain {s t : State} (h : Tested s t) : Tested s (syncDrain t) := by
  rw [syncDrain_eq]
  exact ⟨h.tested, h.same, h.deferred, h.attn, h.damaged, h.pulses⟩

/-- The waiters and the mark of a hand-over play no part in the test. -/
theorem Tested.of_port {s t : State} {m : MediaPort} (h : Tested { s with mp := m } t)
    (hm : m.resetPulses = s.mp.resetPulses) : Tested s t :=
  ⟨h.tested, h.same, h.deferred, h.attn, h.damaged, h.pulses.trans hm⟩

/-- R180: with nothing staged the image is begun. -/
theorem Saved.tested {s t : State} (h : Saved s t) (hst : staged s.sb.lines = false) : Tested s t := by
  obtain ⟨hbegun, hsb, hzu, hattn, hpulses⟩ := h
  have hno : ∀ {p : Prop}, staged s.sb.lines = true → p := fun h => by rw [hst] at h; cases h
  refine ⟨⟨fun _ => hbegun, hno, hno⟩, fun _ => by rw [hsb]; exact ⟨rfl, rfl⟩, fun h => by rw [hsb]; exact h, hattn,
    fun k h => ?_, hpulses⟩
  rw [runtimeAt, hzu]
  exact h

/-- The runs that are left, and one DRAINING line at most. -/
theorem LinesRun.sole {lines : List Line} (h : LinesRun lines) : ∃ i, SoleDraining i lines :=
  soleDraining_of_filter h.2

/-- R138: the energy test passes: the next run is issued. -/
theorem tested_run {s : State} (hp : s.ps.power = .holdup) (hph : s.ps.phase = some .drain) {c : RunChoice}
    (hc : chooseRun s.sb.lines = some c) (he : s.sm.ewUsed ≤ s.sm.avail) (hst : staged s.sb.lines = true) :
    Tested s (issueRun (.holdup .drainRun) c s) :=
  ⟨⟨fun h => (by rw [hst] at h; cases h), fun _ _ => ⟨hp, hph, c, hc, rfl, rfl⟩, fun _ h => absurd he (by omega)⟩,
    fun _ => ⟨rfl, rfl⟩, id, id, fun _ => id, rfl⟩

/-- R139: the energy test fails: everything is discarded and the image begun. -/
theorem tested_discards {s t : State} (h : Saved (discardAll (dirtyCost s.sb.lines) s) t) (hl : LinesRun s.sb.lines)
    (he : s.sm.avail < s.sm.ewUsed) (hst : staged s.sb.lines = true) : Tested s t := by
  obtain ⟨i, hs⟩ := hl.sole
  obtain ⟨hempty, hcount⟩ := discardAll_emptied rfl hs hl.1
  obtain ⟨hlost, hdeferred, hattn⟩ := hcount (dirtyCost_pos hl.1 hst)
  obtain ⟨hro, hdamaged⟩ := discardAll_kept (dirtyCost s.sb.lines) s
  have hbegun := h.begun.of_same hro (by simp) (by simp)
  refine ⟨⟨fun h => (by rw [hst] at h; cases h), fun _ h => absurd h (by omega), fun _ _ =>
    ⟨hbegun, by rw [h.sb]; exact hempty, by rw [h.sb]; exact hlost, by rw [h.sb]; exact hdeferred, h.attn hattn⟩⟩,
    fun hor => ?_, fun _ => by rw [h.sb]; exact hdeferred, fun _ => h.attn hattn, fun k hk => ?_, ?_⟩
  · rcases hor with h | h
    · rw [hst] at h; cases h
    · omega
  · rw [runtimeAt, h.zu]
    exact hdamaged k hk
  · rw [h.pulses]
    simp

/-- R167: the hold-up drain request waits no more. -/
def drainGrant (s : State) : State :=
  { s with mp := { s.mp with waiters := { s.mp.waiters with holdup := none }, starvation := 0 } }

theorem grantHoldup_drainRun (s : State) : grantHoldup .drainRun s =
    if energyTest (drainGrant s) then
      match chooseRun (drainGrant s).sb.lines with
      | some c => issueRun (.holdup .drainRun) c (drainGrant s)
      | none => drainGrant s
    else stopDraining (drainGrant s) := by
  rw [grantHoldup, if_pos rfl]
  rfl

theorem grantHoldup_tested {s : State} (hp : s.ps.power = .holdup) (hph : s.ps.phase = some .drain)
    (hc : s.mp.current = none) (hl : LinesRun s.sb.lines) (hst : staged s.sb.lines = true) :
    Tested s (grantHoldup .drainRun s) := by
  rw [grantHoldup_drainRun]
  split
  · next he =>
    obtain ⟨c, hrun⟩ : ∃ c, chooseRun s.sb.lines = some c := by
      refine Option.ne_none_iff_exists'.mp fun hno => ?_
      rw [(chooseRun_eq_none_iff hl.1).mp hno] at hst
      cases hst
    have hrun' : chooseRun (drainGrant s).sb.lines = some c := hrun
    rw [hrun']
    exact Tested.of_port (s := s) (tested_run (s := drainGrant s) hp hph hrun (of_decide_eq_true he) hst) rfl
  · next he =>
    have hlow : s.sm.avail < s.sm.ewUsed := Nat.lt_of_not_le fun h => he (decide_eq_true h)
    exact Tested.of_port (s := s)
      (tested_discards (s := drainGrant s) (stopDraining_saved (s := drainGrant s) hp hc) hl hlow hst) rfl

/-- R138, R166: a hold-up drain request is granted with its test. -/
theorem pump_drainRun {s : State} (hp : s.ps.power = .holdup) (hph : s.ps.phase = some .drain) (hi : mpIdle s = true)
    (hw : s.mp.waiters.holdup = some .drainRun) (hl : LinesRun s.sb.lines) (hst : staged s.sb.lines = true) :
    Tested s (pump s) := by
  rw [pump_holdup hp hi hw]
  have hc : s.mp.current = none := by simpa [mpIdle] using (Bool.and_eq_true_iff.mp hi).1
  obtain ⟨d, n, hd⟩ := exists_syncDrain s
  rw [hd]
  exact (Tested.of_port (s := s) (grantHoldup_tested (s := { s with mp := { s.mp with
    waiters := { s.mp.waiters with drain := d }, starvation := n } }) hp hph hc hl hst) rfl).syncDrain

/-- R138, R180: the test in phase DRAIN with no operation in progress, and MP's grant. -/
theorem testDrained_tested {s : State} (hp : s.ps.power = .holdup) (hph : s.ps.phase = some .drain)
    (hc : s.mp.current = none) (hl : LinesRun s.sb.lines) : Tested s (pump (outcomeHanded (testDrained s))) := by
  rw [testDrained]
  split
  · next hst => exact Tested.of_port (pump_drainRun hp hph (mpIdle_outcomeHanded hc) rfl hl hst) rfl
  · next hst => exact (enterSave_pumped hp hc).tested (by simpa using hst)

end Sys2Proof.Machine
end

