-- ==== Sys2Proof/Proofs/P23.lean ====
section
/-! The hold-up sequence's energy test at the brownout, after each run and at the end of a read miss from before the
entry (R136 to R139, R180). -/

namespace Sys2Proof.Machine

open Sys2Proof

/-! ### MP going idle in the hold-up sequence -/

theorem goIdle_outside_service {before : Waiters} {s : State} (h : inService s.ps.power = false) :
    goIdle before s = pump (outcomeHanded s) := by
  have hno : ¬inService (syncDrain (outcomeHanded s)).ps.power = true := by
    rw [syncDrain_eq]
    exact Bool.eq_false_iff.mp h
  unfold goIdle
  dsimp only
  exact (if_neg fun hin => hno hin.1).trans (pump_syncDrain _)

theorem testDrained_outside_service {s : State} (hp : s.ps.power = .holdup) :
    inService (testDrained s).ps.power = false := by
  have hoff : inService (enterOff { s with ps := { s.ps with phase := some .save } }).ps.power = false := by
    rw [enterOff_power]
    rfl
  have hup : inService s.ps.power = false := by rw [hp]; rfl
  unfold testDrained enterSave offWithoutImage
  split
  · exact hup
  · dsimp only
    split
    · split
      · exact hoff
      · exact hup
    · exact hup

/-- R138, R180: in phase DRAIN the test and MP's grant follow the outcome of an operation. -/
theorem goIdle_tested {before : Waiters} {s : State} (hp : s.ps.power = .holdup) (hph : s.ps.phase = some .drain)
    (hc : s.mp.current = none) (hl : LinesRun s.sb.lines) : Tested s (goIdle before (testDrained s)) := by
  rw [goIdle_outside_service (testDrained_outside_service hp)]
  exact testDrained_tested hp hph hc hl

/-! ### The end of a run in phase DRAIN -/

/-- R10, R13, R174: in HOLDUP, with no sector held and no wait, a finished run retries, offers and answers nothing. -/
theorem afterRun_quiet {before s : State} (hp : s.ps.power = .holdup)
    (hf : s.fp.port = .idle ∨ s.fp.port = .answering) : afterRun before s = s ∧ react before s = s := by
  have hoffer : offerAll s = s := by rw [offerAll, if_neg (by simp [offersAllowed, hp, inService])]
  have hheld : retryHeld s = s := retryHeld_of_not_held (by rcases hf with h | h <;> simp [h])
  have hreact : react before s = s := by
    rw [react, retryRound]
    simp only [hheld, ite_self, hoffer]
  have hwait : testWait s = s := by
    rcases hf with h | h <;> simp only [testWait, h]
  have hwind : testWindDown s = s := by rw [testWindDown, if_neg (by simp [hp])]
  refine ⟨?_, hreact⟩
  rw [afterRun, hreact, hwait, hwind, ite_self]

theorem handOutcome_run {op : MediaOp} {result : Option (List Byte)} {s : State}
    (hq : op.requester = .drain ∨ op.requester = .holdup .drainRun) :
    handOutcome op result s = if result.isSome then runDone op s else runLost op s := by
  rcases hq with h | h <;> rw [handOutcome, h]

/-- R18, R138: a run that succeeds. -/
theorem runDone_tested {op : MediaOp} {payload : List Byte} {s : State} (hc : s.mp.current = some op)
    (hq : op.requester = .drain ∨ op.requester = .holdup .drainRun) (hp : s.ps.power = .holdup)
    (hph : s.ps.phase = some .drain) (hf : s.fp.port = .idle ∨ s.fp.port = .answering)
    (hl : LinesRun (linesAfterRun op s.sb.lines)) :
    ∃ t, exec (.mediaOperationComplete 0 payload) s = .next t ∧ DrainTested (linesAfterRun op s.sb.lines) s t := by
  refine ⟨_, operationComplete_success hc payload, ?_⟩
  have hdone : runDone op (handing s) = testDrained (finishRunAt op.sector op.count (handing s)) := by
    rw [runDone, (afterRun_quiet (s := finishRunAt op.sector op.count (handing s)) hp hf).1, testAfterRun, if_pos ⟨hp, hph⟩]
  rw [handOutcome_run hq, Option.isSome_some, if_pos rfl, hdone]
  exact (goIdle_tested (s := finishRunAt op.sector op.count (handing s)) hp hph rfl hl).tested

/-! ### A run that is lost in phase DRAIN -/

theorem damageZone_damages {s : State} {n k : Nat} {zone : Option Nat} (hd : DamagedBy s n zone k)
    (hz : s.zu.zones.length = 64) (hr : s.zu.runtimes.length = 64) :
    (runtimeAt (damageZone n zone s) k).damaged = true := by
  have hflag : k < s.zu.runtimes.length → (runtimeAt (setZoneFlag .damaged k s) k).damaged = true := fun hk => by
    unfold setZoneFlag
    split
    · next h => exact h
    · have hset : ∀ r, runtimeAt (raiseAttn (markSector (checkOffset k) (runtimeChange k (setRuntime k r s)))) k =
          runtimeAt (setRuntime k r s) k := fun _ => rfl
      rw [hset, runtimeAt_setRuntime_self k _ s hk]
      rfl
  obtain ⟨rfl, hholds⟩ | ⟨hnot, hk⟩ := hd
  · have hself : damageZone n (some k) s = setZoneFlag .damaged k s := by simp only [damageZone, hholds, if_true]
    rw [hself]
    refine hflag ?_
    by_contra hlt
    have hnone : zoneAt s k = .unused := by
      rw [zoneAt, List.getD_eq_default _ _ (by omega)]
    rw [hnone] at hholds
    cases hholds
  · have hlt := hflag (by rw [hr, ← hz]; exact zoneOf_lt hk)
    unfold damageZone
    cases zone with
    | none => simpa only [hk] using hlt
    | some z => simpa only [hnot z rfl, Bool.false_eq_true, if_false, hk] using hlt

/-- R19, R138: a run of phase DRAIN that is discarded. -/
theorem runLost_holdup {op : MediaOp} {s : State} (hq : op.requester = .drain ∨ op.requester = .holdup .drainRun)
    (hno : mayRetry op s = false) (hp : s.ps.power = .holdup) (hph : s.ps.phase = some .drain)
    (hf : s.fp.port = .idle ∨ s.fp.port = .answering) (hl : LinesRun (linesAfterRun op s.sb.lines)) :
    RunLostInHoldup op s (attemptFailure op s) ∧ (attemptFailure op s).mp.resetPulses = s.mp.resetPulses := by
  have hdrop := (afterRun_quiet (before := handing s) (s := dropRun op.sector op.count (handing s)) hp hf).1
  set u : State := discardRun op.sector op.count (handing s) with hu
  have hup : u.ps = s.ps := by simp [u, handing]
  have hufp : u.fp = s.fp := by simp [u, handing]
  have hump : u.mp = (handing s).mp := by simp [u]
  have husm : u.sm = s.sm := by simp [u, handing]
  have hums : u.uptimeMs = s.uptimeMs := by simp [u, handing]
  have hlines : u.sb.lines = linesAfterRun op s.sb.lines := by simp [u, discardRun]; rfl
  have hlast : u.sb.lastLost = op.sector + op.count - 1 := by simp [u, discardRun]; rfl
  obtain ⟨hlost, hdeferred, hattn⟩ := discardRun_reports op.sector op.count (handing s)
  obtain ⟨hro, -⟩ := discardRun_kept op.sector op.count (handing s)
  have hfail : attemptFailure op s = goIdle s.mp.waiters (testDrained u) := by
    rw [attemptFailure_last hno, handOutcome_run hq, if_neg (by simp), runLost, hdrop]
    have hreport : reportLoss op.sector (drainingZone (handing s).sb.lines) (dropRun op.sector op.count (handing s)) = u := rfl
    rw [hreport, (afterRun_quiet (by rw [hup]; exact hp) (by rw [hufp]; exact hf)).2, testAfterRun,
      if_pos (by rw [hup]; exact ⟨hp, hph⟩)]
  have htest := goIdle_tested (before := s.mp.waiters) (s := u) (by rw [hup]; exact hp) (by rw [hup]; exact hph)
    (by rw [hump]; rfl) (by rw [hlines]; exact hl)
  rw [← hfail] at htest
  obtain ⟨htested, hsame, hdef, hat, hdam, hpulses⟩ := htest
  rw [hlines, husm] at hsame
  refine ⟨⟨?_, hdef hdeferred, hat hattn, fun h => ?_, fun k hsized hk => hdam k ?_⟩, ?_⟩
  · rw [hlines] at htested
    exact htested.of_same hro (by rw [hup]) hums (by rw [husm]) (by rw [husm]) hlost
  · obtain ⟨hcount, hhigh⟩ := hsame h
    exact ⟨hcount.trans hlost, hhigh.trans hlast⟩
  · obtain ⟨-, -, hz, hr⟩ := hsized
    exact damageZone_damages (s := dropRun op.sector op.count (handing s)) hk hz hr
  · rw [hpulses, hump]
    rfl

theorem mayRetry_run {op : MediaOp} {s : State} (hq : op.requester = .drain ∨ op.requester = .holdup .drainRun)
    (hp : s.ps.power = .holdup) (h : 2 ≤ op.attempt ∨ s.sm.avail < s.sm.ewUsed) : mayRetry op s = false := by
  have hno : ¬(op.attempt < 2 ∧ s.sm.ewUsed ≤ s.sm.avail) := by omega
  rcases hq with hq | hq <;> simpa [mayRetry, hq, hp, energyTest] using hno

/-- The media port's own fields play no part in the report of a lost run. -/
theorem RunLostInHoldup.of_port {op : MediaOp} {s t : State} {m : MediaPort}
    (h : RunLostInHoldup op { s with mp := m } t) : RunLostInHoldup op s t :=
  h

/-- R138, R165: the failure and the timeout of a run that is not tried again. -/
theorem runLost_exec {op : MediaOp} {s : State} (hc : s.mp.current = some op)
    (hq : op.requester = .drain ∨ op.requester = .holdup .drainRun) (hp : s.ps.power = .holdup)
    (hph : s.ps.phase = some .drain) (hf : s.fp.port = .idle ∨ s.fp.port = .answering)
    (hl : LinesRun (linesAfterRun op s.sb.lines)) (hno : 2 ≤ op.attempt ∨ s.sm.avail < s.sm.ewUsed)
    (status : Byte) (payload : List Byte) :
    (status ≠ 0 → ∃ t, exec (.mediaOperationComplete status payload) s = .next t ∧ RunLostInHoldup op s t) ∧
    ∃ t, exec .mediaTimeout s = .next t ∧ RunLostInHoldup op (waitUntil (op.start + 200) s) t ∧
      t.mp.resetPulses = s.mp.resetPulses + 1 := by
  refine ⟨fun hs => ⟨_, exec_complete_failure hc hs payload, ?_⟩, _, exec_timeout hc, ?_⟩
  · exact (runLost_holdup hq (mayRetry_run hq hp hno) hp hph hf hl).1
  · have hps : (timedOut op s).ps = s.ps := by simp [timedOut]
    have hfp : (timedOut op s).fp = s.fp := by simp [timedOut]
    have hsm : (timedOut op s).sm = s.sm := by simp [timedOut]
    have hsb : (timedOut op s).sb = s.sb := by simp [timedOut]
    obtain ⟨hlost, hpulses⟩ := runLost_holdup (s := timedOut op s) hq
      (mayRetry_run hq (by rw [hps]; exact hp) (by rw [hsm]; exact hno))
      (by rw [hps]; exact hp) (by rw [hps]; exact hph) (by rw [hfp]; exact hf) (by rw [hsb]; exact hl)
    generalize attemptFailure op (timedOut op s) = t at hlost hpulses
    rw [timedOut] at hlost
    exact ⟨hlost.of_port, hpulses⟩

/-! ### The entry (R136, R137) -/

theorem frontAtHoldup_kept (s : State) : (frontAtHoldup s).uptimeMs = s.uptimeMs ∧ (frontAtHoldup s).sm = s.sm ∧
    (frontAtHoldup s).zu = s.zu ∧ (frontAtHoldup s).ps = s.ps ∧ (frontAtHoldup s).mp.handing = s.mp.handing ∧
    (s.mp.current = none → (frontAtHoldup s).mp.current = none) := by
  have habandon : ∀ u : State, u.mp.current = none → (abandonRead u).mp.current = none := fun u h => by
    simp [abandonRead, h]
  unfold frontAtHoldup
  (repeat' split) <;> simp +contextual [habandon]

theorem changePower_holdup_ewUsed (s : State) : (changePower .holdup s).sm.ewUsed = s.sm.ewUsed ∧
    (changePower .holdup s).ps.power = .holdup := by
  have hmode : ∀ u : State, (recomputeMode u).sm.ewUsed = u.sm.ewUsed := fun u => by
    unfold recomputeMode
    (repeat' split) <;> simp
  refine ⟨?_, ?_⟩
  · have h : (changePower .holdup s).sm = (recomputeMode (frontAtPower .holdup (raiseAttn
        { s with ps := { s.ps with power := .holdup, offreq := false } }))).sm := rfl
    rw [h, hmode]
    rfl
  · simp [changePower, marksAtPower, frontAtPower, raiseAttn]

theorem motionAtHoldup_readOnly (s : State) : (motionAtHoldup s).zu.readOnly = s.zu.readOnly := by
  have hfold : ∀ (peak : Nat) (ks : List Nat) (u : State),
      (ks.foldl (fun s k => attributeDrop peak k s) u).zu.readOnly = u.zu.readOnly := fun peak ks => by
    induction ks with
    | nil => exact fun _ => rfl
    | cons k ks ih => exact fun u => ih (attributeDrop peak k u)
  unfold motionAtHoldup
  split
  · simp [comeToRest, recordDrop, attributeAll, hfold]
  · rfl

/-- R136, R137: HOLDUP as it has been entered, before its first test. -/
def holdupEntered (s : State) : State :=
  stopFirstTimer (stopPolling (motionAtHoldup (powerAtHoldup s)))

theorem holdupEntered_kept {s : State} (hc : s.mp.current = none) :
    ((holdupEntered s).ps.power = .holdup ∧ (holdupEntered s).ps.phase = some .drain ∧
      (holdupEntered s).mp.current = none ∧ (holdupEntered s).mp.handing = s.mp.handing ∧
      (holdupEntered s).sb = s.sb) ∧ (holdupEntered s).zu.readOnly = s.zu.readOnly ∧
    (holdupEntered s).ps.capacity = s.ps.capacity ∧ (holdupEntered s).uptimeMs = s.uptimeMs ∧
    (holdupEntered s).sm.avail = s.sm.avail ∧ (holdupEntered s).sm.ewUsed = s.sm.ewUsed := by
  obtain ⟨hup, hsm, hzu, hps, hhand, hcur⟩ := frontAtHoldup_kept s
  obtain ⟨hew, hpow⟩ := changePower_holdup_ewUsed (frontAtHoldup s)
  have hro : (motionAtHoldup (powerAtHoldup s)).zu.readOnly = (powerAtHoldup s).zu.readOnly := motionAtHoldup_readOnly _
  have hsb := powerAtHoldup_sb s
  have hmp : (powerAtHoldup s).mp = (frontAtHoldup s).mp := by simp [powerAtHoldup]
  refine ⟨⟨?_, ?_, ?_, ?_, ?_⟩, ?_, ?_, ?_, ?_, ?_⟩ <;> simp only [holdupEntered, stopFirstTimer, stopPolling_frame, motionAtHoldup_frame]
  · exact hpow
  · rfl
  · rw [hmp]; exact hcur hc
  · rw [hmp]; exact hhand
  · exact hsb
  · rw [hro]; simp [powerAtHoldup, hzu]
  · simp [powerAtHoldup, hps]
  · simp [powerAtHoldup, hup]
  · simp [powerAtHoldup, hsm]
  · rw [← hsm]; exact hew

/-- R136, R180: a brownout in service, MP being idle. -/
theorem brownout_tested {s : State} (hrail : s.sm.rail = .good) (hf : s.ps.mediaFault = false)
    (hin : inService s.ps.power = true) (hnone : s.se.handed = []) (hc : s.mp.current = none)
    (hh : s.mp.handing = false) (hl : LinesRun s.sb.lines) :
    ∃ t, exec .brownout s = .next t ∧ DrainTested s.sb.lines s t := by
  have hlost : supplyLost (setRail .lost s) = enterHoldup (setRail .lost s) := by
    have hnf : ¬(setRail .lost s).ps.mediaFault = true := by simp [setRail, hf]
    rw [supplyLost, if_neg hnf]
    obtain h | h | h := (inService_iff _).mp hin <;> (have hset : (setRail .lost s).ps.power = _ := h; rw [hset])
  obtain ⟨⟨hp, hph, hcur, hhand, hsb⟩, hro, hcap, hup, havail, hew⟩ := holdupEntered_kept (s := setRail .lost s) hc
  set w : State := holdupEntered (setRail .lost s) with hw
  have henter : enterHoldup (setRail .lost s) = testDrained w := by
    have htest : enterHoldup (setRail .lost s) = testAtEntry w := rfl
    rw [htest, testAtEntry, if_neg (by simp [runInFlight, hcur])]
  have hidle : outcomeHanded (testDrained w) = testDrained w := by
    have hm : (testDrained w).mp.handing = false := by
      have : (testDrained w).mp.handing = w.mp.handing := by simp
      rw [this, hhand]
      exact hh
    rw [outcomeHanded, ← hm]
  have htest := testDrained_tested hp hph hcur (by rw [hsb]; exact hl)
  rw [hidle] at htest
  refine ⟨pump (testDrained w), ?_, ?_⟩
  · simp only [exec, execBrownout, deliverHanded_nil hnone, hrail, if_true, hlost, henter]
  · have := htest.tested
    rw [hsb] at this
    exact this.of_same hro hcap hup havail hew (by rw [hsb]; rfl)

/-! ### A read miss from before the entry (R137) -/

/-- R137, R159: its outcome is discarded in HOLDUP, and MP grants the hold-up request that waits. -/
theorem exec_abandoned_holdup {status : Byte} {payload : List Byte} {s : State} {op : MediaOp} (hc : s.mp.current = some op)
    (hq : op.requester = .readMiss) (ha : op.abandoned = true) :
    exec (.mediaOperationComplete status payload) s =
      .next (goIdle s.mp.waiters (leaveReadOnlySave (handing s))) := by
  have hno : mayRetry op s = false := by simp [mayRetry, hq, ha]
  have hout : ∀ r, handOutcome op r (handing s) = leaveReadOnlySave (handing s) := fun r => by
    rw [handOutcome, hq]
    dsimp only
    rw [missEnded, if_pos ha]
  by_cases hs : status = 0
  · rw [hs, operationComplete_success hc, hout]
  · rw [exec_complete_failure hc hs, attemptFailure_last hno, hout]

/-- R137: with no image to leave out, MP goes idle. -/
theorem abandoned_goIdle {s : State} (hp : s.ps.power = .holdup) (h : s.ps.phase = some .drain ∨ s.zu.readOnly = false) :
    goIdle s.mp.waiters (leaveReadOnlySave (handing s)) = pump (outcomeHanded (handing s)) := by
  have hleave : leaveReadOnlySave (handing s) = handing s := by
    rw [leaveReadOnlySave]
    refine if_neg ?_
    rintro ⟨-, hph, hro⟩
    rcases h with h | h
    · cases hph.symm.trans h
    · cases hro.symm.trans h
  rw [hleave, goIdle_outside_service]
  have hup : (handing s).ps.power = .holdup := hp
  rw [hup]
  rfl

/-- R142: the image write that waits is granted. -/
theorem abandoned_image {s : State} (hp : s.ps.power = .holdup) (hw : s.mp.waiters.holdup = some .imageFirst) :
    (pump (outcomeHanded (handing s))).mp.current = some
      { kind := .write, sector := tailBase s + 17, count := 7, data := s.ps.image.take 7
        requester := .holdup .imageFirst, attempt := 1, start := s.uptimeMs, abandoned := false } := by
  rw [pump_holdup (s := outcomeHanded (handing s)) (what := .imageFirst) hp (mpIdle_outcomeHanded rfl) hw, syncDrain_current, grantHoldup,
    if_neg (by decide)]
  obtain ⟨d, n, hd⟩ := exists_syncDrain (outcomeHanded (handing s))
  rw [hd]
  rfl

/-- Settles O25, by the energy test as one rule for the state right before it: the brownout, the end of a run and the end
of a read miss each come to it. -/
theorem discardsEmptyStaging : Obligations.DiscardsEmptyStaging := by
  refine ⟨fun s hl => ?_, fun s hrail hf hin hnone hc hh hl => brownout_tested hrail hf hin hnone hc hh hl,
    fun payload s op hc hq hp hph hf hl => runDone_tested hc hq hp hph hf hl,
    fun status payload s op hc hq hp hph hf hl hno => runLost_exec hc hq hp hph hf hl hno status payload,
    fun status payload s op hc hq ha hp => ⟨_, exec_abandoned_holdup hc hq ha, fun hph hw hl hst => ?_, fun hro hw => ?_⟩⟩
  · obtain ⟨i, hs⟩ := hl.sole
    exact (discardAll_emptied rfl hs hl.1).1
  · rw [abandoned_goIdle hp (.inl hph)]
    exact (pump_drainRun (s := outcomeHanded (handing s)) hp hph (mpIdle_outcomeHanded rfl) hw hl hst).tested
  · rw [abandoned_goIdle hp (.inr hro)]
    exact abandoned_image hp hw

end Sys2Proof.Machine
end

/-! The supply monitor's events with no reaction, and the first-sample timer (R23, R28, R31, R32, R118, R119). -/

namespace Sys2Proof.Machine

open Sys2Proof

/-! ### Conversions and the rail (R23, R31, R32) -/

/-- Settles O28: the wait moves the counters of time alone, and the conversion starts in the state that it leaves. -/
theorem conversionStarts : Obligations.ConversionStarts := by
  intro s
  obtain ⟨-, -, -, -, -, -, -, hsm, -⟩ := waitUntil_frame s.sm.cadenceDue s
  exact ⟨_, rfl, waitUntil_uptimeMs _ s, by rw [startConversion, hsm]⟩

/-- Settles O32, by the rail state that each rail event asks for. -/
theorem railQualification : Obligations.RailQualification := by
  intro s
  refine ⟨fun h => ?_, fun h => ?_, fun h => ?_, fun h => ⟨?_, ?_⟩, fun h => ?_⟩
  · exact congrArg Host.Outcome.next (if_pos h)
  · exact congrArg Host.Outcome.next (if_neg h)
  · exact congrArg Host.Outcome.next (if_pos h)
  · exact congrArg Host.Outcome.next (if_neg h)
  · exact congrArg Host.Outcome.next (if_neg h)
  · exact congrArg Host.Outcome.next (if_neg h)

/-! ### The write mode (R28) -/

theorem selectMode_unknown (p : PowerState) (limit : Nat) : selectMode p true limit = .writeThrough := by
  simp [selectMode]

/-- R13: a change to WRITE_THROUGH, or no change, ends no wait. -/
theorem recomputeMode_through {s : State} (h : selectMode s.ps.power s.bg.flagUnknown s.sm.limit = .writeThrough) :
    recomputeMode s = { s with sm := { s.sm with mode := .writeThrough } } := by
  rw [recomputeMode, h, if_neg (by simp)]

/-! ### The first-sample timer (R118, R119) -/

/-- R110, R118, R175: UNKNOWN is reported when it is set anew. -/
theorem publishFlags_unknown {s : State} (h : s.bg.flagUnknown = false) :
    publishFlags { s.bg with firstTimer := none, flagUnknown := true } s = { s with
      bg := { s.bg with firstTimer := none, flagUnknown := true }
      sm := { s.sm with mode := .writeThrough }
      ru := { s.ru with attn := true, changed := insertOffset 11 s.ru.changed } } := by
  have hflags : flagsDiffer s.bg { s.bg with firstTimer := none, flagUnknown := true } = true := by simp [flagsDiffer, h]
  have hgauge : gaugeDiffers s.bg { s.bg with firstTimer := none, flagUnknown := true } = true := by
    rw [gaugeDiffers, hflags, Bool.or_true]
  have hreport : reportFlags s.bg { s with bg := { s.bg with firstTimer := none, flagUnknown := true } } = { s with
      bg := { s.bg with firstTimer := none, flagUnknown := true }
      sm := { s.sm with mode := .writeThrough }
      ru := { s.ru with attn := true } } := by
    rw [reportFlags, if_pos hflags]
    dsimp only
    rw [if_neg (by simp [h]), recomputeMode_through (selectMode_unknown _ _)]
    rfl
  rw [publishFlags, hreport, reportGaugeChange, if_pos hgauge]
  rfl

/-- R118: a flag already set reports nothing. -/
theorem publishFlags_same {g : Gauge} {s : State} (h : gaugeDiffers s.bg g = false) :
    publishFlags g s = { s with bg := g } := by
  have hflags : flagsDiffer s.bg g = false := (Bool.or_eq_false_iff.mp h).2
  rw [publishFlags, reportFlags_same hflags, reportGaugeChange, if_neg (by simp [h])]

/-- Settles O58, by whether the consumers are stopped and whether UNKNOWN was set. -/
theorem firstSampleTimerSetsUnknown : Obligations.FirstSampleTimerSetsUnknown := by
  intro s start hstart
  have hexec : exec .firstSampleTimerExpiry s = .next (firstTimerExpiry (waitUntil (start + 1000) s)) := by
    simp only [exec, execFirstSampleTimerExpiry, hstart]
  refine ⟨_, hexec, ?_⟩
  have huptime := waitUntil_uptimeMs (start + 1000) s
  obtain ⟨-, -, -, -, -, -, -, hsm, -, hbg, hps, -, hru, -⟩ := waitUntil_frame (start + 1000) s
  rw [← hsm, ← hbg, ← hps, ← hru]
  generalize waitUntil (start + 1000) s = u at huptime ⊢
  by_cases hstop : u.ps.power = .holdup ∨ u.ps.power = .off
  · have ht : firstTimerExpiry u = { u with bg := { u.bg with firstTimer := none } } := by
      simp [firstTimerExpiry, consumersStopped, hstop]
    rw [ht]
    exact ⟨huptime, fun h1 h2 => absurd hstop (not_or.mpr ⟨h1, h2⟩), fun _ => rfl, fun _ => rfl, rfl⟩
  · have ht : firstTimerExpiry u = publishFlags { u.bg with firstTimer := none, flagUnknown := true } u := by
      simp [firstTimerExpiry, consumersStopped, not_or.mp hstop]
    rw [ht]
    cases hunknown : u.bg.flagUnknown with
    | false =>
      rw [publishFlags_unknown hunknown]
      exact ⟨huptime, fun _ _ _ => ⟨rfl, rfl, rfl, fun o => mem_insertOffset o 11 _⟩, nofun, fun h => absurd h hstop, rfl⟩
    | true =>
      rw [publishFlags_same (by simp [gaugeDiffers, flagsDiffer, hunknown])]
      exact ⟨huptime, nofun, fun _ => rfl, fun h => absurd h hstop, rfl⟩

end Sys2Proof.Machine

/-! What follows a change within one step, seen from the supply: outside HOLDUP the retries, offers and grants move neither
the power state nor L nor the write mode, and in HOLDUP, where a grant may take the part to OFF, L and the write mode go on
being those that their tables give (R27, R28, R166, R174). -/

namespace Sys2Proof.Machine

open Sys2Proof

/-! ### The tables of L and the write mode (R27, R28) -/

/-- L and the write mode are those that the model's own functions for the two tables give. -/
def SupplyAgrees (s : State) : Prop :=
  s.sm.limit = costLimit s.sm.budget s.mm.motion ∧
    s.sm.mode = selectMode s.ps.power s.bg.flagUnknown s.sm.limit

theorem modeAgrees_iff (s : State) :
    ModeAgrees s ↔ s.sm.mode = selectMode s.ps.power s.bg.flagUnknown s.sm.limit := by
  unfold ModeAgrees selectMode
  split
  · next h =>
    refine ⟨fun ⟨h1, h2, h3, _⟩ => ?_, fun h' => ⟨fun _ => h', fun _ => h', fun _ => h', fun n1 n2 n3 n4 => ?_⟩⟩
    · rcases h with h | h | h | h
      · exact h1 (.inl h)
      · exact h1 (.inr h)
      · exact h2 h
      · exact h3 h
    · rcases h with h | h | h | h
      · exact absurd h n1
      · exact absurd h n2
      · rw [n3] at h; cases h
      · omega
  · next h =>
    simp only [not_or, Bool.not_eq_true, Nat.not_lt] at h
    obtain ⟨n1, n2, n3, n4⟩ := h
    refine ⟨fun ⟨_, _, _, h4⟩ => h4 n1 n2 n3 n4, fun h' => ⟨fun h => ?_, fun h => ?_, fun h => ?_, fun _ _ _ _ => h'⟩⟩
    · exact (h.elim n1 n2).elim
    · rw [n3] at h; cases h
    · omega

theorem limitAgrees_iff (s : State) : LimitAgrees s ↔ s.sm.limit = costLimit s.sm.budget s.mm.motion := by
  unfold LimitAgrees costLimit
  split
  · next h => exact ⟨fun ⟨h1, _⟩ => h1 h, fun h' => ⟨fun _ => h', fun n => absurd h n⟩⟩
  · next h => exact ⟨fun ⟨_, h2⟩ => h2 h, fun h' => ⟨fun n => absurd n h, fun _ => h'⟩⟩

theorem supplyAgrees_iff (s : State) : SupplyAgrees s ↔ ModeAgrees s ∧ LimitAgrees s := by
  rw [SupplyAgrees, modeAgrees_iff, limitAgrees_iff, and_comm]

/-- What the two tables are read from, and what they give. -/
structure SupplyView where
  power : PowerState
  unknown : Bool
  motion : MotionState
  budget : Nat
  limit : Nat
  mode : WriteMode

def supplyView (s : State) : SupplyView :=
  { power := s.ps.power, unknown := s.bg.flagUnknown, motion := s.mm.motion, budget := s.sm.budget, limit := s.sm.limit
    mode := s.sm.mode }

theorem supplyView_congr {s t : State} (hps : t.ps.power = s.ps.power) (hbg : t.bg.flagUnknown = s.bg.flagUnknown)
    (hmm : t.mm.motion = s.mm.motion) (hsm : t.sm = s.sm) : supplyView t = supplyView s := by
  simp only [supplyView, hps, hbg, hmm, hsm]

/-- From `s` to `t` L and the write mode go on agreeing with their tables. -/
def SupplyKept (s t : State) : Prop :=
  SupplyAgrees s → SupplyAgrees t

theorem SupplyKept.refl (s : State) : SupplyKept s s := id

theorem SupplyKept.trans {s t u : State} (h : SupplyKept s t) (g : SupplyKept t u) : SupplyKept s u := g ∘ h

theorem SupplyKept.after {s t u : State} (g : SupplyKept t u) (h : SupplyKept s t) : SupplyKept s u := h.trans g

/-- The agreement is one of the view. -/
theorem SupplyKept.of_view {s t : State} (h : supplyView t = supplyView s) : SupplyKept s t := by
  simp only [supplyView, SupplyView.mk.injEq] at h
  obtain ⟨hpower, hunknown, hmotion, hbudget, hlimit, hmode⟩ := h
  rw [SupplyKept, SupplyAgrees, SupplyAgrees, hpower, hunknown, hmotion, hbudget, hlimit, hmode]
  exact id

/-! ### What neither a consumer nor a reaction touches -/

/-- Time, pins, the queue, SE, the rail, the media FAULT, the slider, the read-only mark and the checkpoint timer. -/
structure Bystanders where
  uptimeMs : Word
  uptimeSec : Word
  pins : Pins
  pending : List Instr
  se : SenseEngine
  rail : RailState
  mediaFault : Bool
  slider : Bool
  debounce : Option Debounce
  readOnly : Bool
  timerDue : Option Word

def bystanders (s : State) : Bystanders :=
  { uptimeMs := s.uptimeMs, uptimeSec := s.uptimeSec, pins := s.pins, pending := s.pending, se := s.se, rail := s.sm.rail
    mediaFault := s.ps.mediaFault, slider := s.wc.slider, debounce := s.wc.debounce, readOnly := s.zu.readOnly
    timerDue := s.ru.timerDue }

/-- From `s` to `t` neither the bystanders nor the supply's view has changed. -/
structure Unmoved (s t : State) : Prop where
  others : bystanders t = bystanders s
  view : supplyView t = supplyView s

theorem Unmoved.refl (s : State) : Unmoved s s := ⟨rfl, rfl⟩

theorem Unmoved.trans {s t u : State} (h : Unmoved s t) (g : Unmoved t u) : Unmoved s u :=
  ⟨g.others.trans h.others, g.view.trans h.view⟩

theorem Unmoved.after {s t u : State} (g : Unmoved t u) (h : Unmoved s t) : Unmoved s u := h.trans g

theorem Unmoved.power {s t : State} (h : Unmoved s t) : t.ps.power = s.ps.power := congrArg SupplyView.power h.view

theorem GrantOnly.unmoved {s t : State} (h : GrantOnly s t) : Unmoved s t :=
  ⟨by simp only [bystanders, h.uptimeMs, h.uptimeSec, h.pins, h.pending, h.se, h.sm, h.ps, h.wc, h.zu, h.ru],
    supplyView_congr (by rw [h.ps]) (by rw [h.bg]) (by rw [h.mm]) h.sm⟩

theorem OfferOnly.unmoved {s t : State} (h : OfferOnly s t) : Unmoved s t :=
  ⟨by simp only [bystanders, h.uptimeMs, h.uptimeSec, h.pins, h.pending, h.se, h.sm, h.psMediaFault, h.wc, h.zu, h.ruTimerDue],
    supplyView_congr h.psPower (by rw [h.bg]) h.mmMotion h.sm⟩

theorem respond_unmoved (a : Answer) (n : Nat) (p : List Byte) (s : State) : Unmoved s (respond a n p s) := ⟨rfl, rfl⟩

theorem refuse_unmoved (a : Answer) (m : BitVec 9) (n : Nat) (p : List Byte) (s : State) : Unmoved s (refuse a m n p s) := by
  rw [refuse_eq]
  exact ⟨rfl, rfl⟩

theorem testWait_unmoved (s : State) : Unmoved s (testWait s) := by
  unfold testWait answerFlush
  (repeat' split) <;> exact ⟨rfl, rfl⟩

theorem answerWrite_unmoved (s : State) : Unmoved s (answerWrite s) := by
  unfold answerWrite
  split
  · exact respond_unmoved _ _ _ s
  · exact (testWait_unmoved _).after ⟨rfl, rfl⟩

theorem endThroughWait_unmoved (s : State) : Unmoved s (endThroughWait s) := by
  unfold endThroughWait
  (repeat' split) <;> exact ⟨rfl, rfl⟩

/-! ### The content of an admitted sector (R8) -/

theorem lowerMinSoc_unmoved (soc k : Nat) (s : State) : Unmoved s (lowerMinSoc soc k s) := by
  rw [lowerMinSoc_eq]
  exact ⟨rfl, rfl⟩

theorem attributeSoc_unmoved (soc : Nat) (s : State) : Unmoved s (attributeSoc soc s) := by
  unfold attributeSoc
  exact ⟨forZones_keep bystanders (lowerMinSoc soc) (fun k u => (lowerMinSoc_unmoved soc k u).others) 64 s,
    forZones_keep supplyView (lowerMinSoc soc) (fun k u => (lowerMinSoc_unmoved soc k u).view) 64 s⟩

theorem reportSoc_unmoved (old : Gauge) (s : State) : Unmoved s (reportSoc old s) := by
  unfold reportSoc
  split
  · exact .refl s
  · exact (attributeSoc_unmoved _ _).after ⟨rfl, rfl⟩

theorem reportGaugeChange_unmoved (old : Gauge) (s : State) : Unmoved s (reportGaugeChange old s) := by
  rw [reportGaugeChange_eq]
  exact ⟨rfl, rfl⟩

theorem recomputeMode_others (s : State) : bystanders (recomputeMode s) = bystanders s := by
  unfold recomputeMode
  split
  · exact (endThroughWait_unmoved _).others.trans rfl
  · rfl

theorem reportFlags_others (old : Gauge) (s : State) : bystanders (reportFlags old s) = bystanders s := by
  unfold reportFlags
  dsimp only
  (repeat' split)
  · rfl
  · rfl
  · exact (recomputeMode_others _).trans rfl
  · exact recomputeMode_others s

/-- R28: the mode is recomputed where UNKNOWN differs. -/
theorem reportFlags_view {old : Gauge} {s : State} (h : old.flagUnknown = s.bg.flagUnknown) :
    supplyView (reportFlags old s) = supplyView s := by
  unfold reportFlags
  dsimp only
  rw [if_pos h]
  split <;> rfl

theorem publishGauge_others (g : Gauge) (s : State) : bystanders (publishGauge g s) = bystanders s :=
  ((reportSoc_unmoved _ _).others.trans (reportGaugeChange_unmoved _ _).others).trans (reportFlags_others _ _)

theorem publishGauge_unmoved {g : Gauge} {s : State} (h : g.flagUnknown = s.bg.flagUnknown) :
    Unmoved s (publishGauge g s) := by
  have hflags : supplyView (reportFlags s.bg { s with bg := g }) = supplyView s :=
    (reportFlags_view h.symm).trans (supplyView_congr rfl h rfl rfl)
  exact ⟨publishGauge_others g s, ((reportSoc_unmoved _ _).view.trans (reportGaugeChange_unmoved _ _).view).trans hflags⟩

theorem takeDesign_unmoved (old : Nat) (s : State) : Unmoved s (takeDesign old s) := by
  by_cases h : old = s.zu.settings.design
  · have heq : takeDesign old s = s := if_pos h
    rw [heq]
    exact .refl s
  · cases hset : s.bg.isSet with
    | false =>
      have heq : takeDesign old s = { s with bg := { s.bg with fcc := fccOf s.zu.settings.design s.bg.band } } :=
        (if_neg h).trans (if_pos (by simp [hset]))
      have hfcc : ∀ n, Unmoved s { s with bg := { s.bg with fcc := n } } := fun n => ⟨rfl, rfl⟩
      rw [heq]
      exact hfcc _
    | true =>
      have heq : takeDesign old s = publishGauge (rescaledGauge old s.zu.settings.design s.bg) s :=
        (if_neg h).trans (if_neg (by simp [hset]))
      obtain ⟨-, -, -, hg⟩ := rescaledGauge_eq old s.zu.settings.design s.bg
      rw [heq]
      generalize rescaledGauge old s.zu.settings.design s.bg = g at hg
      exact publishGauge_unmoved (by rw [hg])

theorem applyEntry_unmoved (k : Nat) (e : RawEntry) (s : State) : Unmoved s (applyEntry k e s) := by
  rw [applyEntry_eq]
  exact ⟨rfl, rfl⟩

theorem applyEntrySector_unmoved (sec : Nat) (d : Sector) (s : State) : Unmoved s (applyEntrySector sec d s) := by
  unfold applyEntrySector
  exact ⟨foldl_keep bystanders _ (fun u pos => (applyEntry_unmoved _ _ u).others) _ s,
    foldl_keep supplyView _ (fun u pos => (applyEntry_unmoved _ _ u).view) _ s⟩

theorem noteMapCopy_unmoved (o : Nat) (d : Sector) (s : State) : Unmoved s (noteMapCopy o d s) := ⟨rfl, rfl⟩

theorem applyHeader_unmoved (d : Sector) (s : State) : Unmoved s (applyHeader d s) := by
  unfold applyHeader
  exact (takeDesign_unmoved _ _).after ⟨rfl, rfl⟩

theorem takeContent_unmoved (n : Nat) (d : Sector) (s : State) : Unmoved s (takeContent n d s) := by
  unfold takeContent
  split
  · rw [appendToZone_eq]
    exact ⟨rfl, rfl⟩
  · split
    · exact (applyHeader_unmoved d s).trans (noteMapCopy_unmoved _ _ _)
    · split
      · exact (applyEntrySector_unmoved _ d s).trans (noteMapCopy_unmoved _ _ _)
      · exact .refl s

/-! ### Another power state (R28, R122) -/

theorem changePower_power (p : PowerState) (s : State) : (changePower p s).ps.power = p := by
  simp [changePower, raiseAttn]

theorem changePower_mode (p : PowerState) (s : State) :
    (changePower p s).sm.mode = selectMode p s.bg.flagUnknown s.sm.limit := by
  simp [changePower, raiseAttn]

/-- R28: the mode is recomputed at each change of the power state. -/
theorem changePower_kept (p : PowerState) (s : State) : SupplyKept s (changePower p s) := fun ⟨hlimit, _⟩ =>
  ⟨by simpa using hlimit, by rw [changePower_mode, changePower_power]; simp⟩

theorem enterOff_kept (s : State) : SupplyKept s (enterOff s) :=
  (changePower_kept .off s).trans (.of_view rfl)

/-! ### Grants in HOLDUP (R138, R139, R142) -/

theorem offWithoutImage_kept (s : State) : SupplyKept s (offWithoutImage s) := by
  unfold offWithoutImage
  split
  · exact enterOff_kept s
  · exact .refl s

theorem enterSave_kept (s : State) : SupplyKept s (enterSave s) := by
  unfold enterSave
  dsimp only
  split
  · exact (offWithoutImage_kept _).after (.of_view rfl)
  · exact .of_view rfl

theorem testDrained_kept (s : State) : SupplyKept s (testDrained s) := by
  unfold testDrained
  split
  · exact .of_view rfl
  · exact enterSave_kept s

theorem issueImage_view (what : HoldupRequest) (s : State) : supplyView (issueImage what s) = supplyView s := by
  cases what <;> rfl

theorem stopDraining_kept (s : State) : SupplyKept s (stopDraining s) := by
  have hdiscard : supplyView (discardAll (dirtyCost s.sb.lines) s) = supplyView s := by
    refine supplyView_congr ?_ ?_ ?_ ?_ <;> simp
  have hsave := (SupplyKept.of_view hdiscard).trans (enterSave_kept _)
  unfold stopDraining
  dsimp only
  split
  · exact hsave.trans (.of_view ((issueImage_view _ _).trans rfl))
  · exact hsave

theorem grantHoldup_kept (what : HoldupRequest) (s : State) : SupplyKept s (grantHoldup what s) := by
  unfold grantHoldup
  dsimp only
  (repeat' split)
  · exact .of_view rfl
  · exact .of_view rfl
  · exact (stopDraining_kept _).after (.of_view rfl)
  · exact .of_view ((issueImage_view _ _).trans rfl)

/-! ### Reactions -/

/-- What follows a change: outside HOLDUP nothing of the view moves, and everywhere the tables are kept. -/
structure Course (s t : State) : Prop where
  quiet : s.ps.power ≠ .holdup → Unmoved s t
  kept : SupplyKept s t

theorem Course.of_unmoved {s t : State} (h : Unmoved s t) : Course s t := ⟨fun _ => h, .of_view h.view⟩

theorem Course.refl (s : State) : Course s s := .of_unmoved (.refl s)

theorem Course.trans {s t u : State} (h : Course s t) (g : Course t u) : Course s u where
  quiet := fun hp => (h.quiet hp).trans (g.quiet (by rw [(h.quiet hp).power]; exact hp))
  kept := h.kept.trans g.kept

theorem Course.after {s t u : State} (g : Course t u) (h : Course s t) : Course s u := h.trans g

theorem grantNext_course (s : State) : Course s (grantNext s) := by
  by_cases hp : s.ps.power = .holdup
  · refine ⟨fun h => absurd hp h, ?_⟩
    rw [grantNext, hp]
    dsimp only
    (repeat' split)
    · exact grantHoldup_kept _ s
    · exact .refl s
    · exact .refl s
  · exact .of_unmoved (grantNext_grantOnly hp).unmoved

theorem syncDrain_course (s : State) : Course s (syncDrain s) := .of_unmoved (syncDrain_grantOnly s).unmoved

theorem pump_course (s : State) : Course s (pump s) :=
  (syncDrain_course s).trans ((grantNext_course _).trans (syncDrain_course _))

theorem grantAmong_course (old : Waiters) (s : State) : Course s (grantAmong old s) := by
  have hold : Course s { s with mp := { s.mp with waiters := old } } := .of_unmoved ⟨rfl, rfl⟩
  unfold grantAmong
  exact (hold.trans (grantNext_course _)).trans ((syncDrain_course _).after (.of_unmoved ⟨rfl, rfl⟩))

theorem goIdle_course (before : Waiters) (s : State) : Course s (goIdle before s) := by
  have hidle : Course s (syncDrain { s with mp := { s.mp with handing := false } }) :=
    (syncDrain_course _).after (.of_unmoved ⟨rfl, rfl⟩)
  refine hidle.trans ?_
  unfold goIdle
  generalize syncDrain { s with mp := { s.mp with handing := false } } = u
  dsimp only
  split
  · refine Course.trans (t := { u with fresh := u.fresh + 1 }) (.of_unmoved ⟨rfl, rfl⟩) ?_
    split
    · exact grantAmong_course _ _
    · exact pump_course _
  · exact pump_course u

theorem offerCheckpoint_course {o : Nat} {s t : State} (h : offerCheckpoint o s = some t) : Course s t := by
  obtain ⟨sb, -, rfl⟩ := offerCheckpoint_some h
  have hput : Unmoved s { s with sb := sb } := ⟨rfl, rfl⟩
  exact (Course.of_unmoved (hput.trans (checkpointTaken_offerOnly o _).unmoved)).trans (pump_course _)

theorem acceptSector_course (n : Nat) (d : Sector) (sb : Staging) (s : State) : Course s (acceptSector n d sb s) := by
  have hcount : Unmoved s (countTaken { s with sb := sb }) := ⟨rfl, rfl⟩
  have htaken := (Course.of_unmoved (hcount.trans (takeContent_unmoved n d _))).trans (pump_course _)
  unfold acceptSector
  dsimp only
  split
  · exact htaken.trans (.of_unmoved (answerWrite_unmoved _))
  · exact htaken

theorem offerSector_course (n : Nat) (d : Sector) (s : State) : Course s (offerSector n d s) := by
  unfold offerSector
  split
  · exact .of_unmoved (refuse_unmoved _ _ _ _ s)
  · split
    · exact acceptSector_course _ _ _ s
    · exact .of_unmoved ⟨rfl, rfl⟩

theorem retryHeld_course (s : State) : Course s (retryHeld s) := by
  unfold retryHeld
  split
  · exact offerSector_course _ _ s
  · exact .refl s

theorem offerFrom_course (os : List Nat) (s : State) : Course s (offerFrom os s) := by
  induction os generalizing s with
  | nil => exact .refl s
  | cons o os ih =>
    unfold offerFrom
    split
    · split
      · exact .refl s
      · next t ht =>
        refine (offerCheckpoint_course ht).trans (Course.trans ?_ (ih _))
        split
        · exact retryHeld_course t
        · exact .refl t
    · exact ih s

theorem offerAll_course (s : State) : Course s (offerAll s) := by
  unfold offerAll
  split
  · exact offerFrom_course _ s
  · exact .refl s

theorem react_course (before s : State) : Course s (react before s) := by
  unfold react
  split
  · refine Course.trans ?_ (offerAll_course _)
    unfold retryRound
    refine Course.trans ?_ (offerAll_course _)
    split
    · exact retryHeld_course s
    · exact .refl s
  · exact .refl s

theorem settle_course (before s : State) : Course s (settle before s) :=
  (react_course before s).trans (pump_course _)

theorem afterRun_course (before s : State) : Course s (afterRun before s) := by
  have h := (react_course before s).trans (.of_unmoved (testWait_unmoved _))
  unfold afterRun
  dsimp only
  split
  · exact h
  · exact h.trans (.of_unmoved (testWindDown_offerOnly _).unmoved)

end Sys2Proof.Machine

/-! Every command keeps L and the write mode as their tables select them: what changes the power state, UNKNOWN, H or the
motion state recomputes them, and what follows is a `Course` (R27, R28, R122). -/

namespace Sys2Proof.Machine

open Sys2Proof

/-! ### What recomputes L and the mode -/

theorem recomputeMode_agrees {s : State} (h : s.sm.limit = costLimit s.sm.budget s.mm.motion) :
    SupplyAgrees (recomputeMode s) :=
  ⟨by simpa using h, by simp⟩

theorem limitAtMotion_agrees (s : State) : SupplyAgrees (limitAtMotion s) :=
  recomputeMode_agrees (s := recomputeLimit s) rfl

/-- R27: outside DISABLED L is read from H alone. -/
theorem SupplyKept.of_awake {s t : State} (hs : s.mm.motion ≠ .disabled) (ht : t.mm.motion ≠ .disabled)
    (hps : t.ps.power = s.ps.power) (hbg : t.bg.flagUnknown = s.bg.flagUnknown) (hsm : t.sm = s.sm) : SupplyKept s t := by
  rw [SupplyKept, SupplyAgrees, SupplyAgrees, hps, hbg, hsm, costLimit, costLimit, if_neg hs, if_neg ht]
  exact id

theorem SupplyAgrees.of_view {s t : State} (h : SupplyAgrees s) (hv : supplyView t = supplyView s) : SupplyAgrees t :=
  SupplyKept.of_view hv h

/-! ### Motion (R87, R89 to R95) -/

theorem enterDisabled_agrees (s : State) : SupplyAgrees (enterDisabled s) :=
  (limitAtMotion_agrees _).of_view rfl

theorem leaveDisabled_agrees (s : State) : SupplyAgrees (leaveDisabled s) :=
  (limitAtMotion_agrees _).of_view rfl

theorem comeToRest_kept (o : DropOutcome) {s : State} (h : s.mm.motion ≠ .disabled) : SupplyKept s (comeToRest o s) :=
  .of_awake h nofun (by simp) (by simp) (by simp)

theorem not_disabled_of_braced {m : MotionState} (h : bracedState m = true) : m ≠ .disabled := by
  rintro rfl
  cases h

theorem sampleDisabled_kept (m : Nat) (s : State) : SupplyKept s (sampleDisabled m s) := by
  unfold sampleDisabled
  (repeat' split)
  · exact fun _ => leaveDisabled_agrees s
  · exact .of_view rfl
  · exact .of_view rfl

theorem sampleFalling_kept (m : Nat) {s : State} (h : s.mm.motion ≠ .disabled) : SupplyKept s (sampleFalling m s) := by
  unfold sampleFalling
  dsimp only
  (repeat' split)
  · exact fun _ => enterDisabled_agrees _
  · exact .of_view rfl
  · exact .of_awake h nofun rfl rfl rfl

theorem sampleStill_kept (m : Nat) {s : State} (h : s.mm.motion ≠ .disabled) : SupplyKept s (sampleStill m s) := by
  unfold sampleStill
  dsimp only
  split
  · exact .of_awake h nofun rfl rfl rfl
  · exact .of_view rfl

theorem sampleStruck_kept (m : Nat) {s : State} (h : s.mm.motion ≠ .disabled) : SupplyKept s (sampleStruck m s) := by
  unfold sampleStruck
  dsimp only
  split
  · exact .of_awake h nofun rfl rfl rfl
  · exact .of_view rfl

theorem sampleSettling_kept (m : Nat) {s : State} (h : s.mm.motion ≠ .disabled) : SupplyKept s (sampleSettling m s) := by
  have hrest : ∀ o u, u.mm.motion = s.mm.motion → SupplyKept s u → SupplyKept s (comeToRest o u) := fun o u hm hu =>
    hu.trans (comeToRest_kept o (by rw [hm]; exact h))
  unfold sampleSettling
  dsimp only
  (repeat' split)
  · refine .of_awake h nofun ?_ ?_ ?_ <;> simp
  · refine hrest .settled _ ?_ ?_
    · rfl
    · exact .of_view rfl
  · refine hrest .unsettled _ ?_ ?_
    · rfl
    · exact .of_view rfl
  · exact .of_view rfl

theorem takeMotionSample_kept (x y z : BitVec 16) (s : State) : SupplyKept s (takeMotionSample x y z s) := by
  have hstale : SupplyKept s { s with mm := { s.mm with stale := 0 } } := .of_view rfl
  have hawake : ∀ {m : MotionState}, s.mm.motion = m → m ≠ .disabled → s.mm.motion ≠ .disabled := fun hm hne =>
    hm ▸ hne
  unfold takeMotionSample
  dsimp only
  refine hstale.trans ?_
  split
  · refine sampleDisabled_kept _ _
  · next hm => refine sampleStill_kept _ ?_; exact hawake hm nofun
  · next hm => refine sampleFalling_kept _ ?_; exact hawake hm nofun
  · next hm => refine sampleStruck_kept _ ?_; exact hawake hm nofun
  · next hm => refine sampleSettling_kept _ ?_; exact hawake hm nofun

theorem takeMotionMiss_kept (s : State) : SupplyKept s (takeMotionMiss s) := by
  unfold takeMotionMiss
  dsimp only
  (repeat' split)
  · exact .of_view rfl
  · exact fun _ => enterDisabled_agrees _
  · exact .of_view rfl

theorem motionAtHoldup_kept (s : State) : SupplyKept s (motionAtHoldup s) := by
  unfold motionAtHoldup
  split
  · next h => exact comeToRest_kept _ (not_disabled_of_braced h)
  · exact .refl s

theorem motionAtRecovery_kept (s : State) : SupplyKept s (motionAtRecovery s) := by
  unfold motionAtRecovery
  dsimp only
  split
  · exact fun _ => (limitAtMotion_agrees _).of_view rfl
  · next h => exact .of_awake h nofun rfl rfl rfl

/-! ### The gauge (R105, R106, R118, R120) -/

theorem reportFlags_kept (g : Gauge) (s : State) : SupplyKept s (reportFlags s.bg { s with bg := g }) := by
  by_cases h : s.bg.flagUnknown = g.flagUnknown
  · exact .of_view ((reportFlags_view h).trans (supplyView_congr rfl h.symm rfl rfl))
  · intro hs
    unfold reportFlags
    dsimp only
    rw [if_neg h]
    refine recomputeMode_agrees ?_
    split <;> exact hs.1

theorem publishGauge_kept (g : Gauge) (s : State) : SupplyKept s (publishGauge g s) :=
  (reportFlags_kept g s).trans (.of_view ((reportSoc_unmoved _ _).view.trans (reportGaugeChange_unmoved _ _).view))

theorem publishFlags_kept (g : Gauge) (s : State) : SupplyKept s (publishFlags g s) :=
  (reportFlags_kept g s).trans (.of_view (reportGaugeChange_unmoved _ _).view)

theorem evaluatePower_kept (e : Bool) (s : State) : SupplyKept s (evaluatePower e s) := by
  unfold evaluatePower
  dsimp only
  (repeat' split)
  · exact .refl s
  · exact .refl s
  · exact changePower_kept _ s

theorem takeGaugeSample_kept (x : GaugeSample) (s : State) : SupplyKept s (takeGaugeSample x s) := by
  unfold takeGaugeSample
  dsimp only
  (repeat' split)
  · exact (publishGauge_kept _ s).trans (evaluatePower_kept _ _)
  · exact (publishGauge_kept _ s).trans (evaluatePower_kept _ _)
  · exact (publishGauge_kept _ s).trans (evaluatePower_kept _ _)
  · exact .of_view rfl

theorem takeGaugeMiss_kept (s : State) : SupplyKept s (takeGaugeMiss s) := by
  unfold takeGaugeMiss
  dsimp only
  (repeat' split)
  · exact .of_view rfl
  · exact (publishGauge_kept _ s).trans (evaluatePower_kept _ _)
  · exact publishFlags_kept _ s
  · exact .of_view rfl

theorem coldDecision_kept (s : State) : SupplyKept s (coldDecision s) := by
  unfold coldDecision
  split
  · exact publishGauge_kept _ s
  · exact .of_view rfl

/-! ### The consumers (R131, R134) -/

theorem process_supplyKept (h : Handover) (s : State) : SupplyKept s (process h s) := by
  cases h with
  | motionSample x y z => exact takeMotionSample_kept x y z s
  | motionMiss => exact takeMotionMiss_kept s
  | gaugeSample v i t => exact takeGaugeSample_kept _ s
  | gaugeMiss => exact takeGaugeMiss_kept s

theorem consume_kept (s : State) (h : Handover) : SupplyKept s (consume s h) := by
  have htake : SupplyKept s (takeHandover h s) := .of_view rfl
  unfold consume
  dsimp only
  split
  · exact htake
  · exact htake.trans ((process_supplyKept h _).trans (settle_course _ _).kept)

theorem deliverHanded_kept (s : State) : SupplyKept s (deliverHanded s) := by
  have hfold : ∀ (hs : List Handover) (u : State), SupplyKept u (hs.foldl consume u) := fun hs => by
    induction hs with
    | nil => exact fun u => .refl u
    | cons h hs ih => exact fun u => (consume_kept u h).trans (ih _)
  exact hfold _ s

/-! ### The front link -/

theorem arrive_kept {go : State → State} (hgo : ∀ s, SupplyKept s (go s)) (code count : Byte) (sector : Word) (s : State) :
    SupplyKept s (arrive code count sector go s) := by
  have hnew : SupplyKept s (newRequest code count sector s) := .of_view rfl
  obtain ⟨-, h⟩ | ⟨-, -, h⟩ | ⟨-, -, -, h⟩ | ⟨-, -, -, h⟩ := arrive_cases code count sector go s
  · rw [h]; exact .refl s
  · rw [h]; exact hnew.trans (.of_view rfl)
  · rw [h]; exact hnew.trans (.of_view rfl)
  · rw [h]; exact hnew.trans (hgo _)

theorem refuse_kept (a : Answer) (m : BitVec 9) (n : Nat) (p : List Byte) (s : State) : SupplyKept s (refuse a m n p s) :=
  .of_view (refuse_unmoved a m n p s).view

theorem assembleFrom_kept (left n : Nat) (s : State) : SupplyKept s (assembleFrom left n s) := by
  induction left generalizing n s with
  | zero => exact .of_view rfl
  | succ left ih =>
    unfold assembleFrom
    cases hm : isMiss s n with
    | true =>
      rw [readSource_of_miss hm]
      exact (pump_course _).kept.after (.of_view rfl)
    | false =>
      rw [readSource_of_not_miss hm]
      refine (ih _ _).after (.of_view ?_)
      split <;> rfl

theorem assemble_kept (s : State) : SupplyKept s (assemble s) := by
  unfold assemble
  split
  · exact (assembleFrom_kept _ _ _).after (.of_view rfl)
  · exact .refl s

theorem beginRead_kept (count : Byte) (sector : Word) (s : State) : SupplyKept s (beginRead count sector s) := by
  unfold beginRead
  (repeat' split)
  · exact refuse_kept _ _ _ _ s
  · exact refuse_kept _ _ _ _ s
  · exact assemble_kept s

theorem beginWrite_kept (count : Byte) (sector : Word) (s : State) : SupplyKept s (beginWrite count sector s) := by
  unfold beginWrite
  split
  · exact refuse_kept _ _ _ _ s
  · exact .of_view rfl

theorem beginFlush_kept (s : State) : SupplyKept s (beginFlush s) := by
  unfold beginFlush
  split
  · exact refuse_kept _ _ _ _ s
  · exact .of_view ((testWait_unmoved _).view.trans rfl)

theorem beginInfo_kept (s : State) : SupplyKept s (beginInfo s) := by
  unfold beginInfo
  split
  · exact refuse_kept _ _ _ _ s
  · exact .of_view rfl

theorem dataArrives_kept (d : Sector) (s : State) : SupplyKept s (dataArrives d s) := by
  have htake : ∀ n, SupplyKept s (takeFrame n d s) := fun n => by
    unfold takeFrame
    split
    · exact refuse_kept _ _ _ _ s
    · exact (offerSector_course n d s).kept
  unfold dataArrives
  split
  · split
    · exact (htake _).trans (settle_course s _).kept
    · exact .refl s
  · exact .refl s

theorem endTransfer_view (a : Answer) (m : BitVec 9) (s : State) : supplyView (endTransfer a m s) = supplyView s := by
  refine supplyView_congr ?_ ?_ ?_ ?_ <;> simp

/-! ### The hold-up sequence and its recoveries (R136, R137, R144, R145) -/

theorem frontAtHoldup_unmoved (s : State) : Unmoved s (frontAtHoldup s) := by
  have habandon : ∀ u, Unmoved u (abandonRead u) := fun _ => ⟨rfl, rfl⟩
  unfold frontAtHoldup
  (repeat' split)
  · exact .refl s
  · exact refuse_unmoved _ _ _ _ s
  · exact refuse_unmoved _ _ _ _ s
  · exact refuse_unmoved _ _ _ _ s
  · exact refuse_unmoved _ _ _ _ s
  · exact (refuse_unmoved _ _ _ _ s).trans (habandon _)
  · exact (refuse_unmoved _ _ _ _ s).trans (habandon _)
  · exact .refl s
  · exact .refl s
  · exact .refl s

theorem holdupEntered_supplyKept (s : State) : SupplyKept s (holdupEntered s) := by
  have hfront : SupplyKept s (frontAtHoldup s) := .of_view (frontAtHoldup_unmoved s).view
  have hpower : SupplyKept s (powerAtHoldup s) := (hfront.trans (changePower_kept .holdup _)).trans (.of_view rfl)
  have hstop : ∀ u, supplyView (stopFirstTimer (stopPolling u)) = supplyView u := fun u =>
    supplyView_congr (by simp [stopFirstTimer]) (by simp [stopFirstTimer]) (by simp [stopFirstTimer]) (by simp [stopFirstTimer])
  exact (hpower.trans (motionAtHoldup_kept _)).trans (.of_view (hstop _))

theorem enterHoldup_kept (s : State) : SupplyKept s (enterHoldup s) := by
  refine (holdupEntered_supplyKept s).trans ?_
  show SupplyKept (holdupEntered s) (testAtEntry (holdupEntered s))
  unfold testAtEntry
  split
  · exact .refl _
  · exact testDrained_kept _

theorem noteServed_view (s : State) : supplyView (noteServed s) = supplyView s := by
  unfold noteServed
  split <;> rfl

theorem gaugeAtRecovery_view (s : State) : supplyView (gaugeAtRecovery s) = supplyView s := by
  unfold gaugeAtRecovery
  split <;> rfl

theorem powerAtRecovery_kept (s : State) : SupplyKept s (powerAtRecovery s) :=
  (changePower_kept _ _).after (.of_view rfl)

theorem resumeService_kept (s : State) : SupplyKept s (resumeService s) := by
  have hpoll : ∀ u, SupplyKept u (resumePolling u) := fun _ => .of_view rfl
  have hmotion := ((powerAtRecovery_kept s).trans (hpoll _)).trans (motionAtRecovery_kept _)
  have hserved := hmotion.trans (.of_view ((noteServed_view _).trans (gaugeAtRecovery_view _)))
  exact hserved.trans ((offerAll_course _).trans (pump_course _)).kept

theorem firstService_kept (s : State) : SupplyKept s (firstService s) := by
  have hserved := (changePower_kept (socDerived s) s).trans (.of_view (noteServed_view _))
  exact hserved.trans ((offerAll_course _).trans (pump_course _)).kept

theorem startUp_kept (wp : Bool) (s : State) : SupplyKept s (startUp wp s) := fun _ =>
  (pump_course (powerOnState wp s)).kept ⟨rfl, rfl⟩

theorem offAfterOperation_kept (s : State) : SupplyKept s (offAfterOperation s) := by
  unfold offAfterOperation
  split
  · exact enterOff_kept s
  · exact .of_view rfl

theorem supplyLost_kept (s : State) : SupplyKept s (supplyLost s) := by
  have hstop : SupplyKept s (stopStartup s) := (offAfterOperation_kept _).after (.of_view rfl)
  have henter := enterHoldup_kept s
  unfold supplyLost brownoutStarting
  (repeat' split)
  · exact .refl s
  · exact offAfterOperation_kept s
  · exact henter
  · exact henter
  · exact henter
  · exact henter
  · exact hstop
  · exact .of_view rfl
  · exact .refl s
  · exact .refl s

theorem beginInvalidate_kept (s : State) : SupplyKept s (beginInvalidate s) := by
  unfold beginInvalidate
  dsimp only
  split
  · exact (pump_course _).kept.after (.of_view rfl)
  · exact .of_view rfl

theorem supplyReturned_kept (s : State) : SupplyKept s (supplyReturned s) := by
  unfold supplyReturned
  (repeat' split)
  · exact startUp_kept _ s
  · exact resumeService_kept s
  · exact beginInvalidate_kept s
  · exact .refl s
  · exact .of_view rfl
  · exact .refl s
  · exact .refl s
  · exact .refl s
  · exact .refl s

/-! ### Start-up (R146 to R152) -/

theorem restoreZone_view (body : List Byte) (k : Nat) (s : State) : supplyView (restoreZone body k s) = supplyView s := by
  refine supplyView_congr ?_ ?_ ?_ ?_ <;> simp

theorem rebuildZone_view (check : List Sector) (k : Nat) (s : State) : supplyView (rebuildZone check k s) = supplyView s := by
  refine supplyView_congr ?_ ?_ ?_ ?_ <;> simp

theorem restoreImage_kept (image : List Byte) (s : State) : SupplyKept s (restoreImage image s) := by
  have hzones : SupplyKept s (restoreZones image s) := by
    have hfold := forZones_keep supplyView _ (restoreZone_view (image.drop 64)) 64 s
    exact (SupplyKept.of_view hfold).trans (.of_view rfl)
  have hmotion : ∀ (b : List Byte) (u : State), SupplyKept u (restoreMotion b (restoreStaging b u)) := fun _ _ => .of_view rfl
  have hgauge : ∀ (b : List Byte) (u : State), SupplyKept u (restoreGauge b u) := fun b u => by
    unfold restoreGauge
    split
    · exact publishGauge_kept _ u
    · exact (coldDecision_kept _).after (.of_view rfl)
  exact ((hzones.trans (hmotion _ _)).trans (hgauge _ _)).trans (.of_view rfl)

theorem rebuildCold_kept (s : State) : SupplyKept s (rebuildCold s) := by
  have hbase : SupplyKept s { s with zu := { s.zu with timeBase := 0 } } := .of_view rfl
  have hzones : ∀ u, SupplyKept u (forZones 64 (rebuildZone s.ps.checkRead) u) := fun u =>
    .of_view (forZones_keep supplyView _ (rebuildZone_view s.ps.checkRead) 64 u)
  have htotal : ∀ u : State, SupplyKept u { u with bg := { u.bg with total := u.ps.coldTotal } } := fun _ => .of_view rfl
  have hrebuilt := hbase.trans (hzones _)
  unfold rebuildCold
  revert hrebuilt
  generalize forZones 64 (rebuildZone s.ps.checkRead) { s with zu := { s.zu with timeBase := 0 } } = u
  exact fun hrebuilt => hrebuilt.trans ((htotal u).trans (coldDecision_kept _))

theorem applyDecision_kept (a b : Option (List Sector)) (s : State) : SupplyKept s (applyDecision a b s) := by
  unfold applyDecision
  dsimp only
  split
  · exact (restoreImage_kept _ _).after (.of_view rfl)
  · exact (rebuildCold_kept _).after (.of_view rfl)

theorem startupDone_running_kept {step : StartStep} {result : Option (List Byte)} {s : State}
    (hb : s.ps.brownedOut = false) : SupplyKept s (startupDone step result s) := by
  have hreq : ∀ p u, SupplyKept u (requestStartup p u) := fun _ _ => .of_view rfl
  unfold startupDone
  rw [if_neg (by simp [hb])]
  cases step with
  | moduleReset | served => exact .refl s
  | capacity =>
    dsimp only [capacityKnown]
    (repeat' split) <;> exact .of_view rfl
  | mapArea =>
    refine (hreq .gaugeRecord _).after ?_
    cases result with
    | none => exact .of_view rfl
    | some p => exact .of_view ((takeDesign_unmoved _ _).view.trans rfl)
  | gaugeRecord =>
    refine (hreq .dropLog _).after ?_
    cases result <;> exact .of_view rfl
  | dropLog =>
    refine (hreq .checkTable _).after ?_
    cases result with
    | none => exact .of_view rfl
    | some p =>
      dsimp only
      split <;> exact .of_view rfl
  | checkTable => exact .of_view rfl
  | imageFirst => exact .of_view rfl
  | imageSecond =>
    dsimp only [imageSecondRead]
    split
    · exact (applyDecision_kept _ _ s).trans (hreq _ _)
    · exact (applyDecision_kept _ _ s).trans (firstService_kept _)
  | invalidate =>
    dsimp only [startupInvalidated]
    split
    · exact firstService_kept s
    · exact .of_view rfl

theorem startupDone_kept (step : StartStep) (result : Option (List Byte)) (s : State) :
    SupplyKept s (startupDone step result s) := by
  cases hb : s.ps.brownedOut with
  | false => exact startupDone_running_kept hb
  | true =>
    have hstop : startupDone step result s = stoppedStartupDone step result.isSome s := by
      unfold startupDone
      exact if_pos hb
    rw [hstop]
    unfold stoppedStartupDone
    (repeat' split)
    · exact (deliverHanded_kept s).trans (enterHoldup_kept _)
    · exact (enterOff_kept _).after (.of_view rfl)
    · exact enterOff_kept s

/-! ### The outcomes of media operations (R18, R19, R142, R145, R158, R165) -/

theorem testAfterRun_kept (s : State) : SupplyKept s (testAfterRun s) := by
  unfold testAfterRun
  split
  · exact testDrained_kept s
  · exact .refl s

theorem runEnded_kept (op : MediaOp) (s : State) : SupplyKept s (runDone op s) ∧ SupplyKept s (runLost op s) := by
  have hdone : SupplyKept s (finishRunAt op.sector op.count s) := .of_view rfl
  have hdrop : SupplyKept s (dropRun op.sector op.count s) := .of_view rfl
  have hreport : ∀ n z u, SupplyKept u (reportLoss n z u) := fun n z u =>
    .of_view (supplyView_congr (by simp) (by simp) (by simp) (by simp))
  refine ⟨(hdone.trans (afterRun_course _ _).kept).trans (testAfterRun_kept _), ?_⟩
  exact ((hdrop.trans (afterRun_course _ _).kept).trans (hreport _ _ _)).trans
    ((react_course _ _).kept.trans (testAfterRun_kept _))

theorem imageThenInvalidate_kept (s : State) : SupplyKept s (imageThenInvalidate s) := by
  unfold imageThenInvalidate
  split
  · exact enterOff_kept s
  · exact .of_view rfl

theorem imageFirstDone_kept (ok : Bool) (s : State) : SupplyKept s (imageFirstDone ok s) := by
  unfold imageFirstDone
  (repeat' split)
  · exact imageThenInvalidate_kept s
  · exact .of_view rfl
  · exact enterOff_kept s

theorem imageSecondDone_kept (s : State) : SupplyKept s (imageSecondDone s) := by
  unfold imageSecondDone
  split
  · exact imageThenInvalidate_kept s
  · exact enterOff_kept s

theorem invalidateDone_kept (ok : Bool) (s : State) : SupplyKept s (invalidateDone ok s) := by
  unfold invalidateDone
  (repeat' split)
  · exact (enterSave_kept _).after (.of_view rfl)
  · exact enterOff_kept s
  · exact (resumeService_kept _).after (.of_view rfl)
  · exact .of_view rfl

theorem missEnded_kept (op : MediaOp) (result : Option (List Byte)) (s : State) : SupplyKept s (missEnded op result s) := by
  have hdone : SupplyKept s (readMissDone op.count result s) := by
    unfold readMissDone
    split
    · rw [foldl_putRead]
      exact (assemble_kept _).after (.of_view rfl)
    · exact .of_view rfl
  have hleave : ∀ u, SupplyKept u (leaveReadOnlySave u) := fun u => by
    unfold leaveReadOnlySave
    split
    · exact offWithoutImage_kept u
    · exact .refl u
  unfold missEnded
  split
  · exact hleave s
  · exact hdone.trans (hleave _)

theorem handOutcome_kept (op : MediaOp) (result : Option (List Byte)) (s : State) :
    SupplyKept s (handOutcome op result s) := by
  obtain ⟨hdone, hlost⟩ := runEnded_kept op s
  unfold handOutcome
  cases op.requester with
  | readMiss => exact missEnded_kept op result s
  | drain => dsimp only; split <;> assumption
  | holdup what =>
    cases what with
    | drainRun => dsimp only; split <;> assumption
    | imageFirst => exact imageFirstDone_kept _ s
    | imageSecond => exact imageSecondDone_kept s
    | invalidate => exact invalidateDone_kept _ s
  | startup step => exact startupDone_kept step result s

theorem finishOp_kept (op : MediaOp) (result : Option (List Byte)) (s : State) : SupplyKept s (finishOp op result s) := by
  unfold finishOp
  exact (goIdle_course _ _).kept.after ((handOutcome_kept op result _).after (.of_view rfl))

theorem attemptFailure_kept (op : MediaOp) (s : State) : SupplyKept s (attemptFailure op s) := by
  unfold attemptFailure
  split
  · exact .of_view rfl
  · exact finishOp_kept op none s

theorem waitUntil_view (i : Word) (s : State) : supplyView (waitUntil i s) = supplyView s := by
  refine supplyView_congr ?_ ?_ ?_ ?_ <;> simp

theorem operationComplete_kept (status : Byte) (payload : List Byte) (s : State) :
    SupplyKept s (operationComplete status payload s) := by
  unfold operationComplete
  (repeat' split)
  · exact .refl s
  · exact finishOp_kept _ _ s
  · exact attemptFailure_kept _ s

theorem operationTimeout_kept (s : State) : SupplyKept s (operationTimeout s) := by
  unfold operationTimeout
  split
  · exact .refl s
  · next op _ =>
    have hwait : SupplyKept s (waitUntil (op.start + 200) s) := .of_view (waitUntil_view _ s)
    have hpulse : ∀ u, SupplyKept u (pulseReset u) := fun _ => .of_view rfl
    exact (hwait.trans (hpulse _)).trans (attemptFailure_kept op _)

/-! ### The supply, the timers and the sense bus -/

/-- R23 to R30: a completed conversion recomputes L and the mode. -/
theorem computeConversion_agrees (vsys vcap : Int) (s : State) : SupplyAgrees (computeConversion vsys vcap s) := by
  have hdip : ∀ u, supplyView (railDip u) = supplyView u := fun u => by
    unfold railDip
    split <;> rfl
  unfold computeConversion
  generalize storeConversion vsys vcap s = u
  exact (recomputeMode_agrees (s := recomputeLimit u) rfl).of_view (hdip _)

theorem conversionCadence_supplyKept (s : State) : SupplyKept s (startConversion (waitUntil s.sm.cadenceDue s)) :=
  (SupplyKept.of_view (waitUntil_view _ s)).trans (.of_view rfl)

theorem markChanged_view (s : State) : supplyView (markChanged s) = supplyView s :=
  foldl_keep supplyView (fun u o => markSector o u) (fun _ _ => rfl) _ s

theorem checkpointExpiry_kept (due : Word) (s : State) : SupplyKept s (checkpointExpiry due s) := by
  have hwait : ∀ d : Option Word, SupplyKept s { waitUntil due s with ru := { (waitUntil due s).ru with timerDue := d } } :=
    fun _ => (SupplyKept.of_view (waitUntil_view due s)).trans (.of_view rfl)
  unfold checkpointExpiry
  dsimp only
  split
  · exact (hwait _).trans ((SupplyKept.of_view (markChanged_view _)).trans (settle_course _ _).kept)
  · exact hwait _

theorem holdLimit_supplyKept {s t : State} (h : exec .holdLimit s = .next t) : SupplyKept s t := by
  cases h
  split
  · exact (SupplyKept.of_view (waitUntil_view _ s)).trans (refuse_kept _ _ _ _ _)
  · exact .refl s

theorem linkReset_supplyKept {s t : State} (h : exec .linkReset s = .next t) : SupplyKept s t := by
  cases h
  unfold linkResetPort
  split <;> exact .of_view rfl

theorem slider_supplyKept {s t : State} (h : exec .wpDebounceExpiry s = .next t) : SupplyKept s t := by
  cases h
  split
  · next d _ =>
    split
    · exact .refl s
    · refine SupplyKept.after (.of_view ?_) (.of_view (waitUntil_view (d.start + 20) s))
      unfold takeSlider
      dsimp only
      split
      · exact endTransfer_view _ _ _
      · rfl
  · exact .refl s

theorem wpChange_supplyKept {s t : State} (h : exec .wpChange s = .next t) : SupplyKept s t := by
  cases h
  unfold noteSlider
  (repeat' split) <;> exact .of_view rfl

theorem firstTimerExpiry_kept (s : State) : SupplyKept s (firstTimerExpiry s) := by
  unfold firstTimerExpiry
  dsimp only
  split
  · exact .of_view rfl
  · exact publishFlags_kept _ s

theorem firstTimer_supplyKept {s t : State} (h : exec .firstSampleTimerExpiry s = .next t) : SupplyKept s t := by
  cases h
  split
  · next g _ =>
    exact (firstTimerExpiry_kept _).after (.of_view (waitUntil_view (g + 1000) s))
  · exact .refl s

theorem rail_supplyKept {c : Instr} {s t : State} (hc : c = .railReturn ∨ c = .railReturnCancel)
    (h : exec c s = .next t) : SupplyKept s t := by
  obtain rfl | rfl := hc <;> cases h <;> split <;> exact .of_view rfl

theorem front_supplyKept {c : Instr} {s t : State} (hc : c = .responseSent ∨ c = .frstRelease ∨
    (∃ b, c = .untaggedFrontByte b) ∨ ∃ bs, c = .strayMediaBytes bs) (h : exec c s = .next t) : SupplyKept s t := by
  obtain rfl | rfl | ⟨b, rfl⟩ | ⟨bs, rfl⟩ := hc <;> cases h
  · split <;> exact .of_view rfl
  · exact .of_view rfl
  · exact .refl s
  · exact .refl s

/-- The commands of the sense bus: SE alone, and time. -/
theorem sense_supplyKept {c : Instr} {s t : State} (hc : c = .motionCadence ∨ c = .gaugeCadence ∨
    (∃ how, c = .attemptComplete how) ∨ c = .senseTimeout ∨ c = .recoveryTrainEnd ∨ c = .busStartSeen ∨
    c = .busStopSeen ∨ c = .alertEdge ∨ c = .alertDeferExpiry) (h : exec c s = .next t) : SupplyKept s t := by
  have hview : ∀ {u : State}, u.ps = s.ps → u.bg = s.bg → u.mm = s.mm → u.sm = s.sm → SupplyKept s u :=
    fun hps hbg hmm hsm => .of_view (supplyView_congr (by rw [hps]) (by rw [hbg]) (by rw [hmm]) hsm)
  have hdefer : ∀ u : State, (deferredAlert u).ps = u.ps ∧ (deferredAlert u).bg = u.bg ∧ (deferredAlert u).mm = u.mm ∧
      (deferredAlert u).sm = u.sm := fun u => by
    unfold deferredAlert
    dsimp only
    split <;> simp
  obtain rfl | rfl | ⟨how, rfl⟩ | rfl | rfl | rfl | rfl | rfl | rfl := hc <;> cases h
  · split <;> refine hview ?_ ?_ ?_ ?_ <;> simp
  · split <;> refine hview ?_ ?_ ?_ ?_ <;> simp
  · split <;> refine hview ?_ ?_ ?_ ?_ <;> simp
  · split <;> refine hview ?_ ?_ ?_ ?_ <;> simp
  · split <;> refine hview ?_ ?_ ?_ ?_ <;> simp
  · exact .of_view rfl
  · unfold stopSeen
    dsimp only
    split <;> exact .of_view rfl
  · unfold alertFalls
    (repeat' split) <;> refine hview ?_ ?_ ?_ ?_ <;> simp
  · (repeat' split) <;> refine hview ?_ ?_ ?_ ?_ <;> simp [hdefer]

/-! ### All commands -/

theorem exec_supplyKept {c : Instr} {s t : State} (h : exec c s = .next t) : SupplyKept s t := by
  cases c with
  | powerOn wp => cases h; exact startUp_kept wp s
  | read count sector => cases h; exact arrive_kept (beginRead_kept count sector) _ _ _ s
  | write count sector => cases h; exact arrive_kept (beginWrite_kept count sector) _ _ _ s
  | flush count sector => cases h; exact arrive_kept beginFlush_kept _ _ _ s
  | info count sector => cases h; exact arrive_kept beginInfo_kept _ _ _ s
  | unknownCodeRequest code count sector => cases h; exact arrive_kept (refuse_kept _ _ _ _) _ _ _ s
  | dataFrame data => cases h; exact dataArrives_kept _ s
  | responseSent => exact front_supplyKept (.inl rfl) h
  | linkReset => exact linkReset_supplyKept h
  | frstRelease => exact front_supplyKept (.inr (.inl rfl)) h
  | holdLimit => exact holdLimit_supplyKept h
  | mediaOperationComplete status payload => cases h; exact operationComplete_kept status payload s
  | mediaTimeout => cases h; exact operationTimeout_kept s
  | conversionCadence => cases h; exact conversionCadence_supplyKept s
  | conversionComplete vsys vcap =>
    cases h
    split
    · exact .refl s
    · exact fun _ => (settle_course _ _).kept (computeConversion_agrees vsys vcap _)
  | brownout =>
    cases h
    split
    · have hrail : SupplyKept s (setRail .lost (deliverHanded s)) := (deliverHanded_kept s).trans (.of_view rfl)
      exact (hrail.trans (supplyLost_kept _)).trans (pump_course _).kept
    · exact .refl s
  | railReturn => exact rail_supplyKept (.inl rfl) h
  | railReturnCancel => exact rail_supplyKept (.inr rfl) h
  | recoveryQualified =>
    cases h
    split
    · have hrail : ∀ i, SupplyKept s (setRail .good (waitUntil i s)) := fun i =>
        (SupplyKept.of_view (waitUntil_view i s)).trans (.of_view rfl)
      exact (hrail _).trans (supplyReturned_kept _)
    · exact .refl s
  | wpChange => exact wpChange_supplyKept h
  | wpDebounceExpiry => exact slider_supplyKept h
  | motionCadence => exact sense_supplyKept (.inl rfl) h
  | gaugeCadence => exact sense_supplyKept (.inr (.inl rfl)) h
  | attemptComplete how => exact sense_supplyKept (.inr (.inr (.inl ⟨how, rfl⟩))) h
  | senseTimeout => exact sense_supplyKept (by simp) h
  | recoveryTrainEnd => exact sense_supplyKept (by simp) h
  | busStartSeen => exact sense_supplyKept (by simp) h
  | busStopSeen => exact sense_supplyKept (by simp) h
  | alertEdge => exact sense_supplyKept (by simp) h
  | alertDeferExpiry => exact sense_supplyKept (by simp) h
  | motionSample x y z => cases h; exact consume_kept s _
  | motionMiss => cases h; exact consume_kept s _
  | gaugeSample v i g => cases h; exact consume_kept s _
  | gaugeMiss => cases h; exact consume_kept s _
  | firstSampleTimerExpiry => exact firstTimer_supplyKept h
  | checkpointTimerExpiry =>
    cases h
    split
    · exact checkpointExpiry_kept _ s
    · exact .refl s
  | untaggedFrontByte b => exact front_supplyKept (.inr (.inr (.inl ⟨b, rfl⟩))) h
  | strayMediaBytes bs => exact front_supplyKept (.inr (.inr (.inr ⟨bs, rfl⟩))) h

/-- With no command waiting a consumer takes the oldest event, or a millisecond passes. -/
theorem idleStep_supplyKept {s t : State} (h : idleStep s = .next t) : SupplyKept s t := by
  unfold idleStep at h
  split at h
  · exact exec_supplyKept h
  · cases h
    exact .of_view rfl

/-- Settles O30: each command recomputes L and the write mode where it changes what their tables are read from, and what
follows the change keeps them. -/
theorem stepKeepsModeAndLimit : Obligations.StepKeepsModeAndLimit := by
  intro s t hmode hlimit h
  have hkept : SupplyKept s t := by
    unfold step at h
    split at h
    · next c rest _ =>
      exact SupplyKept.trans (t := { s with pending := rest }) (.of_view rfl) (exec_supplyKept h)
    · exact idleStep_supplyKept h
  exact (supplyAgrees_iff t).mp (hkept ((supplyAgrees_iff s).mpr ⟨hmode, hlimit⟩))

end Sys2Proof.Machine

/-! What SE has handed over, consumed in service before a brownout: the part stays in service, and of the parts that the
consumers do not own nothing changes (R86, R105, R120, R134). -/

namespace Sys2Proof.Machine

open Sys2Proof

/-! ### The consumers and the bystanders -/

theorem changePower_others (p : PowerState) (s : State) : bystanders (changePower p s) = bystanders s := by
  have hfront : ∀ u, bystanders (frontAtPower p u) = bystanders u := fun u => by
    unfold frontAtPower endTransfer
    (repeat' split)
    · exact (refuse_unmoved _ _ _ _ u).others
    · exact (refuse_unmoved _ _ _ _ u).others
    · rfl
    · rfl
  have hmarks : ∀ u, bystanders (marksAtPower p u) = bystanders u := fun u => by
    unfold marksAtPower testWindDown
    (repeat' split) <;> rfl
  exact ((hmarks _).trans (recomputeMode_others _)).trans ((hfront _).trans rfl)

theorem evaluatePower_others (e : Bool) (s : State) : bystanders (evaluatePower e s) = bystanders s := by
  unfold evaluatePower
  dsimp only
  (repeat' split)
  · rfl
  · rfl
  · exact changePower_others _ s

theorem publishFlags_others (g : Gauge) (s : State) : bystanders (publishFlags g s) = bystanders s :=
  (reportGaugeChange_unmoved _ _).others.trans (reportFlags_others _ _)

theorem takeGaugeSample_others (x : GaugeSample) (s : State) : bystanders (takeGaugeSample x s) = bystanders s := by
  unfold takeGaugeSample
  dsimp only
  (repeat' split)
  · exact (evaluatePower_others _ _).trans (publishGauge_others _ s)
  · exact (evaluatePower_others _ _).trans (publishGauge_others _ s)
  · exact (evaluatePower_others _ _).trans (publishGauge_others _ s)
  · rfl

theorem takeGaugeMiss_others (s : State) : bystanders (takeGaugeMiss s) = bystanders s := by
  unfold takeGaugeMiss
  dsimp only
  (repeat' split)
  · rfl
  · exact (evaluatePower_others _ _).trans (publishGauge_others _ s)
  · exact publishFlags_others _ s
  · rfl

theorem attributeAll_others (peak : Nat) (s : State) : bystanders (attributeAll peak s) = bystanders s :=
  foldl_keep bystanders (fun u k => attributeDrop peak k u) (fun _ _ => rfl) _ s

theorem recordDrop_others (o : DropOutcome) (s : State) : bystanders (recordDrop o s) = bystanders s := by
  have hlog : ∀ (m : Motion) (u : State),
      bystanders (raiseAttn (markSector 12 (noteChanged 12 { u with mm := m }))) = bystanders u := fun _ _ => rfl
  unfold recordDrop
  exact (hlog _ _).trans (attributeAll_others _ s)

theorem limitAtMotion_others (s : State) : bystanders (limitAtMotion s) = bystanders s :=
  (recomputeMode_others _).trans rfl

theorem enterDisabled_others (s : State) : bystanders (enterDisabled s) = bystanders s := by
  have hlimit : ∀ u : State, bystanders (raiseAttn (limitAtMotion u)) = bystanders u := fun u => limitAtMotion_others u
  unfold enterDisabled
  dsimp only
  split
  · exact (hlimit _).trans (recordDrop_others .sensorLost s)
  · exact hlimit _

theorem comeToRest_others (o : DropOutcome) (s : State) : bystanders (comeToRest o s) = bystanders s :=
  recordDrop_others o s

theorem takeMotionMiss_others (s : State) : bystanders (takeMotionMiss s) = bystanders s := by
  unfold takeMotionMiss
  dsimp only
  (repeat' split)
  · rfl
  · exact enterDisabled_others _
  · rfl

theorem sampleDisabled_others (m : Nat) (s : State) : bystanders (sampleDisabled m s) = bystanders s := by
  have hlimit : ∀ u : State, bystanders (raiseAttn (limitAtMotion u)) = bystanders u := fun u => limitAtMotion_others u
  unfold sampleDisabled leaveDisabled
  (repeat' split)
  · exact hlimit _
  · rfl
  · rfl

theorem sampleFalling_others (m : Nat) (s : State) : bystanders (sampleFalling m s) = bystanders s := by
  unfold sampleFalling
  dsimp only
  (repeat' split)
  · exact enterDisabled_others _
  · rfl
  · rfl

theorem sampleSettling_others (m : Nat) (s : State) : bystanders (sampleSettling m s) = bystanders s := by
  have hfall : ∀ (n : Nat) (u : State), bystanders (beginFall n u) = bystanders u := fun _ _ => rfl
  unfold sampleSettling
  dsimp only
  (repeat' split)
  · exact (hfall _ _).trans (recordDrop_others .bounced _)
  · exact comeToRest_others .settled _
  · exact comeToRest_others .unsettled _
  · rfl

theorem takeMotionSample_others (x y z : BitVec 16) (s : State) : bystanders (takeMotionSample x y z s) = bystanders s := by
  have hstill : ∀ (m : Nat) (u : State), bystanders (sampleStill m u) = bystanders u := fun m u => by
    unfold sampleStill
    dsimp only
    split <;> rfl
  have hstruck : ∀ (m : Nat) (u : State), bystanders (sampleStruck m u) = bystanders u := fun m u => by
    unfold sampleStruck
    dsimp only
    split <;> rfl
  unfold takeMotionSample
  dsimp only
  split
  · exact sampleDisabled_others _ _
  · exact hstill _ _
  · exact sampleFalling_others _ _
  · exact hstruck _ _
  · exact sampleSettling_others _ _

theorem process_others (h : Handover) (s : State) : bystanders (process h s) = bystanders s := by
  cases h with
  | motionSample x y z => exact takeMotionSample_others x y z s
  | motionMiss => exact takeMotionMiss_others s
  | gaugeSample v i t => exact takeGaugeSample_others _ s
  | gaugeMiss => exact takeGaugeMiss_others s

/-! ### The power state (R120) -/

theorem evaluatePower_inService (e : Bool) {s : State} (h : inService s.ps.power = true) :
    inService (evaluatePower e s).ps.power = true := by
  have htransition : ∀ p soc low critical, inService p = true → inService (socTransition p soc low critical e) = true := by
    intro p soc low critical hp
    obtain rfl | rfl | rfl := (inService_iff p).mp hp <;> (unfold socTransition; dsimp only; (repeat' split) <;> rfl)
  unfold evaluatePower
  dsimp only
  (repeat' split)
  · exact h
  · exact h
  · rw [changePower_power]
    exact htransition _ _ _ _ h

theorem process_inService (h : Handover) {s : State} (hs : inService s.ps.power = true) :
    inService (process h s).ps.power = true := by
  have hgauge : ∀ e g, inService (evaluatePower e (publishGauge g s)).ps.power = true := fun e g =>
    evaluatePower_inService e (by simpa using hs)
  cases h with
  | motionSample x y z => simpa [process] using hs
  | motionMiss => simpa [process] using hs
  | gaugeSample v i t =>
    unfold process takeGaugeSample
    dsimp only
    (repeat' split)
    · exact hgauge _ _
    · exact hgauge _ _
    · exact hgauge _ _
    · exact hs
  | gaugeMiss =>
    unfold process takeGaugeMiss
    dsimp only
    (repeat' split)
    · exact hs
    · exact hgauge _ _
    · simpa [publishFlags] using hs
    · exact hs

theorem process_awake (h : Handover) {s : State} (hs : consumersStopped s = false) :
    consumersStopped (process h s) = false := by
  have hserving : ∀ {u : State}, inService u.ps.power = true → consumersStopped u = false := fun hu => by
    simp [consumersStopped, ne_holdup_of_inService hu, ne_off_of_inService hu]
  cases hp : s.ps.power with
  | starting => simp [consumersStopped, (process_starting hp h).1]
  | normal | low | critical => exact hserving (process_inService h (by rw [hp]; rfl))
  | holdup | off => simp [consumersStopped, hp] at hs

/-! ### The whole delivery (R134) -/

theorem consume_others (s : State) (h : Handover) : bystanders (consume s h) = bystanders (takeHandover h s) := by
  unfold consume
  dsimp only
  split
  · rfl
  · next hs =>
    have hawake := process_awake h (Bool.eq_false_iff.mpr hs)
    have hup : (process h (takeHandover h s)).ps.power ≠ .holdup := fun he => by simp [consumersStopped, he] at hawake
    exact ((settle_course _ _).quiet hup).others.trans (process_others h _)

theorem consume_inService {s : State} (h : Handover) (hs : inService s.ps.power = true) :
    inService (consume s h).ps.power = true := by
  have hproc : inService (process h (takeHandover h s)).ps.power = true := process_inService h hs
  unfold consume
  dsimp only
  split
  · exact hs
  · rw [((settle_course _ _).quiet (ne_holdup_of_inService hproc)).power]
    exact hproc

/-- R134: with what SE has handed over taken away. -/
def emptied (s : State) : State :=
  { s with se := { s.se with handed := [] } }

theorem foldl_consume_served (hs : List Handover) {s : State} (hh : s.se.handed = hs) (hin : inService s.ps.power = true) :
    bystanders (hs.foldl consume s) = bystanders (emptied s) ∧ inService (hs.foldl consume s).ps.power = true := by
  induction hs generalizing s with
  | nil =>
    have hsame : emptied s = s := by rw [emptied, ← hh]
    rw [hsame]
    exact ⟨rfl, hin⟩
  | cons h hs ih =>
    have htake := consume_others s h
    have hrest : (consume s h).se = { s.se with handed := hs } := by
      have hse := congrArg Bystanders.se htake
      have herase : (takeHandover h s).se = { s.se with handed := hs } := by simp [takeHandover, hh]
      exact hse.trans herase
    have hempty : bystanders (emptied (consume s h)) = bystanders (emptied s) := by
      have hset : ∀ u, bystanders (emptied u) = { bystanders u with se := { (bystanders u).se with handed := [] } } :=
        fun _ => rfl
      rw [hset, htake, hset]
      rfl
    obtain ⟨hothers, hserved⟩ := ih (s := consume s h) (by rw [hrest]) (consume_inService h hin)
    exact ⟨hothers.trans hempty, hserved⟩

theorem deliverHanded_served {s : State} (hin : inService s.ps.power = true) :
    bystanders (deliverHanded s) = bystanders (emptied s) ∧ inService (deliverHanded s).ps.power = true :=
  foldl_consume_served _ rfl hin

/-- R134: the oldest event first. -/
theorem deliverHanded_consume {s : State} {h : Handover} {rest : List Handover} (hh : s.se.handed = h :: rest) :
    deliverHanded s = deliverHanded (consume s h) := by
  have hse : (consume s h).se.handed = rest := by
    have hse := congrArg (·.se.handed) (consume_others s h)
    simpa [bystanders, takeHandover, hh] using hse
  rw [deliverHanded, hh, deliverHanded, hse]
  rfl

theorem exec_handoverCommand (h : Handover) (s : State) : exec (handoverCommand h) s = .next (consume s h) := by
  cases h <;> rfl

end Sys2Proof.Machine

/-! A drop in progress at the entry to HOLDUP is recorded POWER_LOST, and MM is STILL (R95, R98, R99). -/

namespace Sys2Proof.Machine

open Sys2Proof

/-! ### The zones that count a drop (R77) -/

theorem mem_openZones (s : State) (k : Nat) : k ∈ openZones s ↔ k < 64 ∧ (zoneAt s k).state = .opened := by
  simp [openZones]

theorem nodup_openZones (s : State) : (openZones s).Nodup :=
  List.nodup_range.filter _

/-- R43: beyond the table there is no OPEN zone. -/
theorem opened_lt {s : State} {k : Nat} (hz : s.zu.zones.length = 64) (h : (zoneAt s k).state = .opened) : k < 64 := by
  by_contra hk
  have hnone : zoneAt s k = .unused := by
    rw [zoneAt, List.getD_eq_default _ _ (by omega)]
  rw [hnone] at h
  cases h

/-- R77: a zone's record with one more drop counted. -/
def Runtime.counted (peak : Nat) (r : Runtime) : Runtime :=
  { r with drops := satAdd 255 r.drops 1, worstPeak := max r.worstPeak peak }

theorem attributeDrop_runtimes (peak k : Nat) (s : State) :
    (attributeDrop peak k s).zu.runtimes = s.zu.runtimes.set k ((runtimeAt s k).counted peak) := rfl

theorem runtimeAt_attributeDrop {peak k : Nat} {s : State} (h : k < s.zu.runtimes.length) (j : Nat) :
    runtimeAt (attributeDrop peak k s) j = if j = k then (runtimeAt s j).counted peak else runtimeAt s j := by
  have hset : runtimeAt (attributeDrop peak k s) j = runtimeAt (setRuntime k ((runtimeAt s k).counted peak) s) j := rfl
  rw [hset]
  split
  · next hj => rw [hj, runtimeAt_setRuntime_self _ _ _ h]
  · next hj => rw [runtimeAt_setRuntime_ne _ _ _ _ hj]

theorem runtimeAt_foldl_attributeDrop {peak : Nat} (ks : List Nat) {s : State} (hnodup : ks.Nodup)
    (hlt : ∀ k ∈ ks, k < s.zu.runtimes.length) (j : Nat) :
    runtimeAt (ks.foldl (fun u k => attributeDrop peak k u) s) j =
      if j ∈ ks then (runtimeAt s j).counted peak else runtimeAt s j := by
  induction ks generalizing s with
  | nil => simp
  | cons k ks ih =>
    obtain ⟨hnot, hrest⟩ := List.nodup_cons.mp hnodup
    have hlen : (attributeDrop peak k s).zu.runtimes.length = s.zu.runtimes.length := by
      rw [attributeDrop_runtimes, List.length_set]
    rw [List.foldl_cons, ih hrest fun i hi => by rw [hlen]; exact hlt i (List.mem_cons_of_mem _ hi),
      runtimeAt_attributeDrop (hlt k List.mem_cons_self)]
    by_cases hj : j = k
    · subst hj
      simp [hnot]
    · simp [hj]

theorem sets_foldl_attributeDrop {peak : Nat} (ks : List Nat) (s : State) (p : Nat) :
    (p ∈ (ks.foldl (fun u k => attributeDrop peak k u) s).ru.pending ↔
      p ∈ s.ru.pending ∨ ∃ k ∈ ks, p = checkOffset k) ∧
    (p ∈ (ks.foldl (fun u k => attributeDrop peak k u) s).ru.changed ↔
      p ∈ s.ru.changed ∨ ∃ k ∈ ks, p = checkOffset k) := by
  have hone : ∀ k u, (attributeDrop peak k u).ru.pending = insertOffset (checkOffset k) u.ru.pending ∧
      (attributeDrop peak k u).ru.changed = insertOffset (checkOffset k) u.ru.changed := fun _ _ => ⟨rfl, rfl⟩
  induction ks generalizing s with
  | nil => simp
  | cons k ks ih =>
    obtain ⟨hpend, hchg⟩ := hone k s
    obtain ⟨ihp, ihc⟩ := ih (attributeDrop peak k s)
    rw [List.foldl_cons, ihp, ihc, hpend, hchg]
    simp only [mem_insertOffset, List.exists_mem_cons_iff]
    refine ⟨?_, ?_⟩ <;> tauto

/-! ### The record (R98, R99) -/

theorem recordDrop_mm (o : DropOutcome) (s : State) : (recordDrop o s).mm = s.mm.enter (formDrop o s) := by
  simp [recordDrop]

theorem runtimeAt_recordDrop {o : DropOutcome} {s : State} (hs : TablesSized s) (k : Nat) :
    runtimeAt (recordDrop o s) k = { runtimeAt s k with
      drops := if (zoneAt s k).state = .opened then min 255 ((runtimeAt s k).drops + 1) else (runtimeAt s k).drops
      worstPeak := if (zoneAt s k).state = .opened then max (runtimeAt s k).worstPeak (formDrop o s).peak
        else (runtimeAt s k).worstPeak } := by
  obtain ⟨-, -, hzones, hruntimes⟩ := hs
  have hlog : ∀ (m : Motion) (u : State),
      runtimeAt (raiseAttn (markSector 12 (noteChanged 12 { u with mm := m }))) k = runtimeAt u k := fun _ _ => rfl
  have hmem : k ∈ openZones s ↔ (zoneAt s k).state = .opened :=
    (mem_openZones s k).trans ⟨And.right, fun h => ⟨opened_lt hzones h, h⟩⟩
  unfold recordDrop
  rw [hlog, attributeAll, runtimeAt_foldl_attributeDrop _ (nodup_openZones s)
    fun j hj => by rw [hruntimes]; exact ((mem_openZones s j).mp hj).1]
  simp only [hmem]
  split <;> rfl

theorem sets_attributeAll (peak : Nat) (s : State) (p : Nat) :
    (p ∈ (attributeAll peak s).ru.pending ↔ p ∈ s.ru.pending ∨ ∃ k ∈ openZones s, p = checkOffset k) ∧
    (p ∈ (attributeAll peak s).ru.changed ↔ p ∈ s.ru.changed ∨ ∃ k ∈ openZones s, p = checkOffset k) :=
  sets_foldl_attributeDrop (openZones s) s p

theorem dropChanges_iff (s : State) (p : Nat) : DropChanges s p ↔ p = 12 ∨ ∃ k ∈ openZones s, p = checkOffset k := by
  simp only [DropChanges, mem_openZones, checkOffset, and_assoc]

theorem sets_recordDrop (o : DropOutcome) (s : State) (p : Nat) :
    (p ∈ (recordDrop o s).ru.pending ↔ p ∈ s.ru.pending ∨ DropChanges s p) ∧
    (p ∈ (recordDrop o s).ru.changed ↔ p ∈ s.ru.changed ∨ DropChanges s p) := by
  have hlog : ∀ (m : Motion) (u : State),
      (raiseAttn (markSector 12 (noteChanged 12 { u with mm := m }))).ru.pending = insertOffset 12 u.ru.pending ∧
      (raiseAttn (markSector 12 (noteChanged 12 { u with mm := m }))).ru.changed = insertOffset 12 u.ru.changed :=
    fun _ _ => ⟨rfl, rfl⟩
  obtain ⟨hpend, hchg⟩ := sets_attributeAll (formDrop o s).peak s p
  unfold recordDrop
  rw [(hlog _ _).1, (hlog _ _).2, mem_insertOffset, mem_insertOffset, hpend, hchg, dropChanges_iff, or_left_comm,
    or_left_comm (b := p ∈ s.ru.changed)]
  exact ⟨.rfl, .rfl⟩

theorem formDrop_recorded (o : DropOutcome) (s : State) : RecordOfDrop o s (formDrop o s) := by
  unfold RecordOfDrop formDrop
  refine ⟨rfl, rfl, rfl, rfl, rfl, fun hm => ?_, fun hm => ⟨fun hp => ?_, fun hp => ?_⟩, fun hm => ?_, fun hm => ?_⟩
  · simp [dropKindNow, dropPeakNow, strikeNow, hm]
  · simp [dropKindNow, kindOf, hm, hp]
  · simp [dropKindNow, kindOf, hm, Nat.not_lt.mpr hp]
  · simp [dropKindNow, hm]
  · simp [dropPeakNow, strikeNow, hm]

/-! ### The monitor at the entry (R95) -/

theorem motionAtHoldup_rest {s : State} (h : bracedState s.mm.motion = false) : motionAtHoldup s = s :=
  if_neg (by simp [h])

theorem motionAtHoldup_drop {s : State} (h : bracedState s.mm.motion = true) :
    motionAtHoldup s = comeToRest .powerLost s :=
  if_pos h

/-- From `u` to `t` of the runtime records nothing but DAMAGED flags has changed, and no sector has left the sets. -/
structure DamageOnly (u t : State) : Prop where
  runtimes : ∀ k, runtimeAt t k = { runtimeAt u k with damaged := (runtimeAt t k).damaged }
  pending : ∀ p, p ∈ u.ru.pending → p ∈ t.ru.pending
  changed : ∀ p, p ∈ u.ru.changed → p ∈ t.ru.changed

/-- No DAMAGED flag either. -/
structure Unscathed (u t : State) : Prop where
  runtimes : t.zu.runtimes = u.zu.runtimes
  pending : t.ru.pending = u.ru.pending
  changed : t.ru.changed = u.ru.changed

theorem motionAtHoldup_mm {s : State} (h : bracedState s.mm.motion = true) :
    (motionAtHoldup s).mm = { s.mm with
      motion := .still, ffRun := 0, lastSeq := (s.mm.lastSeq + 1) % 65536, total := min 65535 (s.mm.total + 1)
      log := (recordDrop .powerLost s).mm.log, pendingRecs := (recordDrop .powerLost s).mm.pendingRecs } := by
  have hrest : (motionAtHoldup s).mm = { (recordDrop .powerLost s).mm with motion := .still, ffRun := 0 } := by
    rw [motionAtHoldup_drop h]
    rfl
  rw [hrest, recordDrop_mm]
  rfl

/-- What follows the entry leaves MM alone and, of the records, may set DAMAGED flags. -/
theorem MotionAtHoldup.of_motionAtHoldup {s t : State} (hs : TablesSized s) (hmm : t.mm = (motionAtHoldup s).mm)
    (hd : DamageOnly (motionAtHoldup s) t)
    (hu : staged s.sb.lines = false ∨ s.sm.ewUsed ≤ s.sm.avail → Unscathed (motionAtHoldup s) t) : MotionAtHoldup s t := by
  cases hb : bracedState s.mm.motion with
  | false =>
    rw [motionAtHoldup_rest hb] at hmm hd hu
    simp only [MotionAtHoldup, hb, Bool.false_eq_true, false_and, or_false, if_false]
    refine ⟨fun _ => hmm, nofun, hd.runtimes, hd.pending, hd.changed, fun h => ?_⟩
    obtain ⟨hruntimes, hpending, hchanged⟩ := hu h
    exact ⟨fun k => by rw [runtimeAt, runtimeAt, hruntimes], fun p hp => hpending ▸ hp, fun p hp => hchanged ▸ hp⟩
  | true =>
    have hrt : ∀ k, runtimeAt (motionAtHoldup s) k = runtimeAt (recordDrop .powerLost s) k := fun k => by
      rw [motionAtHoldup_drop hb]
      rfl
    have hru : (motionAtHoldup s).ru = (recordDrop .powerLost s).ru := by
      rw [motionAtHoldup_drop hb]
      rfl
    have hsets := sets_recordDrop .powerLost s
    simp only [← hru] at hsets
    simp only [MotionAtHoldup, hb, true_and]
    refine ⟨nofun, fun _ => ⟨hmm.trans (motionAtHoldup_mm hb), formDrop_recorded .powerLost s⟩, fun k => ?_,
      fun p hp => hd.pending p ((hsets p).1.mpr hp), fun p hp => hd.changed p ((hsets p).2.mpr hp), fun h => ?_⟩
    · rw [hd.runtimes k, hrt, runtimeAt_recordDrop hs]
    · obtain ⟨hruntimes, hpending, hchanged⟩ := hu h
      refine ⟨fun k => ?_, fun p hp => (hsets p).1.mp (hpending ▸ hp), fun p hp => (hsets p).2.mp (hchanged ▸ hp)⟩
      have hsame : runtimeAt t k = runtimeAt (motionAtHoldup s) k := by rw [runtimeAt, runtimeAt, hruntimes]
      rw [hsame, hrt, runtimeAt_recordDrop hs]

end Sys2Proof.Machine

/-! The hold-up sequence from its first test on (R137 to R142, R180): runs are issued, or what remains is discarded and the
image begun, or a read-only part is OFF. Of the state that the entry leaves little changes. -/

namespace Sys2Proof.Machine

open Sys2Proof

/-! ### What the sequence changes -/

/-- What the tests and grants of HOLDUP leave as it is: SM but for the write mode, ZU but for the runtime records. -/
structure HoldupFrame where
  uptimeMs : Word
  uptimeSec : Word
  pins : Pins
  pending : List Instr
  timerDue : Option Word
  wc : WriteChecker
  mm : Motion
  bg : Gauge
  sm : Supply
  zu : ZoneUnit

def holdupFrame (s : State) : HoldupFrame :=
  { uptimeMs := s.uptimeMs, uptimeSec := s.uptimeSec, pins := s.pins, pending := s.pending, timerDue := s.ru.timerDue
    wc := s.wc, mm := s.mm, bg := s.bg, sm := { s.sm with mode := .writeBack }, zu := { s.zu with runtimes := [] } }

theorem DamageOnly.of_same {s t : State} (hr : t.zu.runtimes = s.zu.runtimes) (hp : t.ru.pending = s.ru.pending)
    (hc : t.ru.changed = s.ru.changed) : DamageOnly s t where
  runtimes := fun k => by rw [runtimeAt, runtimeAt, hr]
  pending := fun p h => hp ▸ h
  changed := fun p h => hc ▸ h

theorem DamageOnly.trans {s t u : State} (h : DamageOnly s t) (g : DamageOnly t u) : DamageOnly s u where
  runtimes := fun k => by rw [g.runtimes k, h.runtimes k]
  pending := fun p hp => g.pending p (h.pending p hp)
  changed := fun p hp => g.changed p (h.changed p hp)

theorem Unscathed.refl (s : State) : Unscathed s s := ⟨rfl, rfl, rfl⟩

theorem Unscathed.trans {s t u : State} (h : Unscathed s t) (g : Unscathed t u) : Unscathed s u :=
  ⟨g.runtimes.trans h.runtimes, g.pending.trans h.pending, g.changed.trans h.changed⟩

theorem Unscathed.after {s t u : State} (g : Unscathed t u) (h : Unscathed s t) : Unscathed s u := h.trans g

/-- The part goes on as it was: the power state, OFFREQ, no brownout noted, the front port and SE. -/
def GoesOn (s t : State) : Prop :=
  t.ps.power = s.ps.power ∧ t.ps.offreq = s.ps.offreq ∧ t.ps.brownedOut = s.ps.brownedOut ∧ t.fp = s.fp ∧ t.se = s.se

/-- R142, R143: a read-only part is OFF. -/
def EndsInOff (s t : State) : Prop :=
  s.zu.readOnly = true ∧ t.ps.power = .off ∧ t.ps.offreq = false ∧ t.se = s.se.quiet

/-- A stretch of the hold-up sequence. -/
structure HoldupCourse (s t : State) : Prop where
  frame : holdupFrame t = holdupFrame s
  attn : s.ru.attn = true → t.ru.attn = true
  damage : DamageOnly s t
  ending : GoesOn s t ∨ EndsInOff s t

theorem HoldupCourse.refl (s : State) : HoldupCourse s s :=
  ⟨rfl, id, .of_same rfl rfl rfl, .inl ⟨rfl, rfl, rfl, rfl, rfl⟩⟩

theorem HoldupCourse.readOnly {s t : State} (h : HoldupCourse s t) : t.zu.readOnly = s.zu.readOnly :=
  congrArg (·.zu.readOnly) h.frame

theorem HoldupCourse.trans {s t u : State} (h : HoldupCourse s t) (g : HoldupCourse t u) : HoldupCourse s u where
  frame := g.frame.trans h.frame
  attn := fun ha => g.attn (h.attn ha)
  damage := h.damage.trans g.damage
  ending := by
    have hro := h.readOnly
    obtain ⟨hp, ho, hb, hf, he⟩ | ⟨hr, hp, ho, he⟩ := h.ending <;>
      obtain ⟨gp, go, gb, gf, ge⟩ | ⟨gro, gp, go, ge⟩ := g.ending
    · exact .inl ⟨gp.trans hp, go.trans ho, gb.trans hb, gf.trans hf, ge.trans he⟩
    · exact .inr ⟨hro ▸ gro, gp, go, by rw [ge, he]⟩
    · exact .inr ⟨hr, gp.trans hp, go.trans ho, ge.trans he⟩
    · exact .inr ⟨hr, gp, go, by rw [ge, he]; rfl⟩

theorem HoldupCourse.after {s t u : State} (g : HoldupCourse t u) (h : HoldupCourse s t) : HoldupCourse s u := h.trans g

/-- A change of the buffer, the media port and PS's own bookkeeping. -/
theorem HoldupCourse.inside (s : State) (sb : Staging) (mp : MediaPort) (ph : Option HoldupPhase) (im : List Sector) :
    HoldupCourse s { s with sb := sb, mp := mp, ps := { s.ps with phase := ph, image := im } } :=
  ⟨rfl, id, .of_same rfl rfl rfl, .inl ⟨rfl, rfl, rfl, rfl, rfl⟩⟩

/-! ### OFF (R142, R143) -/

/-- R122: a change to a power state other than LOW and CRITICAL. -/
theorem changePower_eq {p : PowerState} (hc : p ≠ .critical) (hl : p ≠ .low) (s : State) : changePower p s =
    { s with
      ps := { s.ps with power := p, offreq := false }, ru := { s.ru with attn := true }
      fp := (changePower p s).fp, sm := { s.sm with mode := (changePower p s).sm.mode } } := by
  have hmode : ∀ u : State, recomputeMode u =
      { u with fp := (recomputeMode u).fp, sm := { u.sm with mode := (recomputeMode u).sm.mode } } := fun u => by
    unfold recomputeMode endThroughWait
    (repeat' split) <;> rfl
  have hchange : changePower p s = recomputeMode (raiseAttn { s with ps := { s.ps with power := p, offreq := false } }) := by
    rw [changePower, marksAtPower, if_neg hc, if_neg hl, frontAtPower, if_neg hc]
  rw [hchange]
  exact hmode _

theorem enterOff_course {s : State} (hro : s.zu.readOnly = true) : HoldupCourse s (enterOff s) := by
  have hoff := changePower_eq (p := .off) nofun nofun s
  refine ⟨?_, ?_, .of_same ?_ ?_ ?_, .inr ⟨hro, enterOff_power s, ?_, ?_⟩⟩ <;>
    (unfold enterOff; dsimp only; rw [hoff])
  · rfl
  · exact fun _ => rfl

theorem offWithoutImage_course {s : State} (hro : s.zu.readOnly = true) : HoldupCourse s (offWithoutImage s) := by
  unfold offWithoutImage
  split
  · exact enterOff_course hro
  · exact .refl s

theorem enterSave_course (s : State) : HoldupCourse s (enterSave s) := by
  unfold enterSave
  dsimp only
  split
  · next hro => exact .trans (.inside s s.sb s.mp (some .save) s.ps.image) (offWithoutImage_course hro)
  · exact .inside s s.sb _ _ _

theorem enterSave_unscathed (s : State) : Unscathed s (enterSave s) := by
  have hoff : ∀ u, Unscathed u (enterOff u) := fun u => by
    have h := changePower_eq (p := .off) nofun nofun u
    refine ⟨by simp, ?_, ?_⟩ <;> unfold enterOff <;> dsimp only <;> rw [h]
  unfold enterSave offWithoutImage
  dsimp only
  (repeat' split)
  · exact (hoff _).after ⟨rfl, rfl, rfl⟩
  · exact ⟨rfl, rfl, rfl⟩
  · exact ⟨rfl, rfl, rfl⟩

theorem testDrained_course (s : State) : HoldupCourse s (testDrained s) := by
  unfold testDrained
  split
  · exact .inside s s.sb _ s.ps.phase s.ps.image
  · exact enterSave_course s

theorem testDrained_unscathed (s : State) : Unscathed s (testDrained s) := by
  unfold testDrained
  split
  · exact ⟨rfl, rfl, rfl⟩
  · exact enterSave_unscathed s

/-! ### Discards (R19, R80, R139) -/

theorem setZoneFlag_course (k : Nat) (s : State) : HoldupCourse s (setZoneFlag .damaged k s) := by
  unfold setZoneFlag
  split
  · exact .refl s
  · refine ⟨rfl, fun _ => rfl, ⟨fun j => ?_, fun p hp => ?_, fun p hp => ?_⟩, .inl ⟨rfl, rfl, rfl, rfl, rfl⟩⟩
    · have hset : runtimeAt (raiseAttn (markSector (checkOffset k) (runtimeChange k
          (setRuntime k ((runtimeAt s k).withFlag .damaged) s)))) j =
        (s.zu.runtimes.set k ((runtimeAt s k).withFlag .damaged)).getD j .cleared := rfl
      rw [hset, List.getD_eq_getElem?_getD, List.getElem?_set]
      split
      · next hj =>
        subst hj
        split
        · rfl
        · next hlen => rw [runtimeAt, List.getD_eq_default _ _ (by omega)]; rfl
      · rw [runtimeAt, List.getD_eq_getElem?_getD]
    · exact (mem_insertOffset _ _ _).mpr (.inr hp)
    · exact (mem_insertOffset _ _ _).mpr (.inr hp)

theorem discardRun_course (n len : Nat) (s : State) : HoldupCourse s (discardRun n len s) := by
  have hdrop : HoldupCourse s (dropRun n len s) := .inside s _ s.mp s.ps.phase s.ps.image
  have hattn : ∀ u, HoldupCourse u (raiseAttn u) := fun u =>
    ⟨rfl, fun _ => rfl, .of_same rfl rfl rfl, .inl ⟨rfl, rfl, rfl, rfl, rfl⟩⟩
  unfold discardRun reportLoss damageZone
  split
  · exact (hdrop.trans (setZoneFlag_course _ _)).trans (hattn _)
  · exact hdrop.trans (hattn _)

theorem discardAll_course (n : Nat) (s : State) : HoldupCourse s (discardAll n s) := by
  induction n generalizing s with
  | zero => exact .refl s
  | succ n ih =>
    rw [discardAll]
    split
    · exact .refl s
    · next c _ =>
      have hdrain : HoldupCourse s (startDraining c s) := .inside s _ s.mp s.ps.phase s.ps.image
      exact (hdrain.trans (discardRun_course _ _ _)).trans (ih _)

/-! ### Grants (R138, R142) -/

theorem issueImage_course (what : HoldupRequest) (s : State) : HoldupCourse s (issueImage what s) := by
  cases what with
  | drainRun => exact .refl s
  | imageFirst | imageSecond | invalidate => exact .inside s s.sb _ s.ps.phase s.ps.image

theorem stopDraining_course (s : State) : HoldupCourse s (stopDraining s) := by
  have hsave := (discardAll_course (dirtyCost s.sb.lines) s).trans (enterSave_course _)
  unfold stopDraining
  dsimp only
  split
  · refine hsave.trans ((issueImage_course _ _).after ?_)
    exact .inside _ _ _ _ _
  · exact hsave

theorem grantHoldup_course (what : HoldupRequest) (s : State) : HoldupCourse s (grantHoldup what s) := by
  have hport : ∀ mp, HoldupCourse s { s with mp := mp } := fun mp => .inside s s.sb mp s.ps.phase s.ps.image
  unfold grantHoldup
  dsimp only
  (repeat' split)
  · exact .inside s _ _ s.ps.phase s.ps.image
  · exact hport _
  · exact (stopDraining_course _).after (hport _)
  · exact (issueImage_course _ _).after (hport _)

theorem syncDrain_holdupCourse (s : State) : HoldupCourse s (syncDrain s) := by
  rw [syncDrain_eq]
  exact .inside s s.sb _ s.ps.phase s.ps.image

theorem grantNext_holdupCourse {s : State} (h : s.ps.power = .holdup ∨ s.ps.power = .off) :
    HoldupCourse s (grantNext s) := by
  unfold grantNext
  split
  · obtain hp | hp := h <;> rw [hp] <;> dsimp only
    · split
      · exact grantHoldup_course _ s
      · exact .refl s
    · exact .refl s
  · exact .refl s

theorem pump_holdupCourse {s : State} (h : s.ps.power = .holdup ∨ s.ps.power = .off) : HoldupCourse s (pump s) := by
  have hsync : (syncDrain s).ps.power = s.ps.power := by simp
  exact ((syncDrain_holdupCourse s).trans (grantNext_holdupCourse (by rw [hsync]; exact h))).trans (syncDrain_holdupCourse _)

/-! ### Losses (R139) -/

theorem issueImage_unscathed (what : HoldupRequest) (s : State) : Unscathed s (issueImage what s) := by
  cases what <;> exact ⟨rfl, rfl, rfl⟩

theorem chooseRun_of_not_staged {lines : List Line} (h : staged lines = false) : chooseRun lines = none := by
  refine (chooseRun_eq_none_iff fun l hl hlive => ?_).mpr h
  exact absurd (List.any_eq_true.mpr ⟨l, hl, hlive⟩) (by rw [← staged, h]; nofun)

theorem stopDraining_unscathed {s : State} (h : staged s.sb.lines = false) : Unscathed s (stopDraining s) := by
  unfold stopDraining
  rw [discardAll_none (chooseRun_of_not_staged h)]
  dsimp only
  split
  · refine (issueImage_unscathed _ _).after ((enterSave_unscathed s).trans ?_)
    exact ⟨rfl, rfl, rfl⟩
  · exact enterSave_unscathed s

/-- R138, R139: with nothing staged, or with the energy, no run is discarded. -/
theorem grantHoldup_unscathed (what : HoldupRequest) {s : State}
    (h : staged s.sb.lines = false ∨ s.sm.ewUsed ≤ s.sm.avail) : Unscathed s (grantHoldup what s) := by
  unfold grantHoldup
  dsimp only
  (repeat' split)
  · exact ⟨rfl, rfl, rfl⟩
  · exact ⟨rfl, rfl, rfl⟩
  · next he =>
    refine .after (stopDraining_unscathed ?_) ?_
    · exact h.resolve_right fun hle => he (decide_eq_true hle)
    · exact ⟨rfl, rfl, rfl⟩
  · exact (issueImage_unscathed _ _).after ⟨rfl, rfl, rfl⟩

theorem pump_unscathed {s : State} (hp : s.ps.power = .holdup ∨ s.ps.power = .off)
    (h : staged s.sb.lines = false ∨ s.sm.ewUsed ≤ s.sm.avail) : Unscathed s (pump s) := by
  have hsync : ∀ u, Unscathed u (syncDrain u) := fun u => by
    rw [syncDrain_eq]
    exact ⟨rfl, rfl, rfl⟩
  have hgrant : ∀ u : State, u.ps.power = .holdup ∨ u.ps.power = .off →
      staged u.sb.lines = false ∨ u.sm.ewUsed ≤ u.sm.avail → Unscathed u (grantNext u) := fun u hp h => by
    unfold grantNext
    split
    · obtain hp | hp := hp <;> rw [hp] <;> dsimp only
      · split
        · exact grantHoldup_unscathed _ h
        · exact .refl u
      · exact .refl u
    · exact .refl u
  have hmid := hgrant (syncDrain s) (by simpa using hp) (by simpa using h)
  exact ((hsync s).trans hmid).trans (hsync _)

end Sys2Proof.Machine

/-! The entry to HOLDUP, before its first test: the front request is ended, polling stops, a drop is recorded and the outputs
change (R31, R95, R134, R136, R137). -/

namespace Sys2Proof.Machine

open Sys2Proof

/-! ### The front request (R136, R159) -/

theorem frontAtHoldup_eq (s : State) : frontAtHoldup s = { s with
    fp := (frontAtHoldup s).fp, mp := (frontAtHoldup s).mp
    wc := { s.wc with refusal := (frontAtHoldup s).wc.refusal } } := by
  have hrefuse : ∀ a m n p, refuse a m n p s = { s with
      fp := (refuse a m n p s).fp, mp := (refuse a m n p s).mp
      wc := { s.wc with refusal := (refuse a m n p s).wc.refusal } } := fun a m n p => by
    rw [refuse_eq]
  have habandon : ∀ a m n p, abandonRead (refuse a m n p s) = { s with
      fp := (abandonRead (refuse a m n p s)).fp, mp := (abandonRead (refuse a m n p s)).mp
      wc := { s.wc with refusal := (abandonRead (refuse a m n p s)).wc.refusal } } := fun a m n p => by
    rw [hrefuse]
    rfl
  unfold frontAtHoldup
  split
  · rfl
  · split
    · exact hrefuse _ _ _ _
    · exact hrefuse _ _ _ _
    · exact hrefuse _ _ _ _
    · exact habandon _ _ _ _
    · exact habandon _ _ _ _
    · rfl
    · rfl
    · rfl

/-- R159: of the operation in progress the entry changes only whether its data are wanted. -/
theorem frontAtHoldup_current {s : State} {op : MediaOp} (hc : s.mp.current = some op) :
    ∃ p, (frontAtHoldup s).mp.current = some { op with abandoned := p } := by
  have hrefuse : ∀ a m n p, (refuse a m n p s).mp.current = some op := fun a m n p => by simpa using hc
  have habandon : ∀ a m n p, ∃ b, (abandonRead (refuse a m n p s)).mp.current = some { op with abandoned := b } :=
    fun a m n p => by
      by_cases hq : op.requester = .readMiss
      · exact ⟨true, by simp [abandonRead, hc, hq]⟩
      · exact ⟨op.abandoned, by simp [abandonRead, hc, hq]⟩
  unfold frontAtHoldup
  split
  · exact ⟨op.abandoned, hc⟩
  · split
    · exact ⟨op.abandoned, hrefuse _ _ _ _⟩
    · exact ⟨op.abandoned, hrefuse _ _ _ _⟩
    · exact ⟨op.abandoned, hrefuse _ _ _ _⟩
    · exact habandon _ _ _ _
    · exact habandon _ _ _ _
    · exact ⟨op.abandoned, hc⟩
    · exact ⟨op.abandoned, hc⟩
    · exact ⟨op.abandoned, hc⟩

/-- R136: the request `r` is ended POWER/HOLDUP in `t`. -/
def EndedHoldup (r : Request) (mask : BitVec 9) (n : Nat) (payload : List Byte) (t : State) : Prop :=
  Recorded t .powerHoldup r.code r.count r.sector mask n ∧ Answers t .powerHoldup n payload

theorem refuse_endedHoldup {s : State} {r : Request} (hr : s.fp.req = some r) (mask : BitVec 9) (n : Nat)
    (payload : List Byte) : EndedHoldup r mask n payload (refuse .powerHoldup mask n payload s) :=
  ⟨refuse_recorded hr, rfl, rfl⟩

theorem frontAtHoldup_write {s : State} {r : Request} (hr : s.fp.req = some r)
    (hp : s.fp.port = .taking ∨ s.fp.port = .held) : EndedHoldup r 4#9 r.taken [] (frontAtHoldup s) := by
  have hfront : frontAtHoldup s = refuse .powerHoldup (maskFlag 3) r.taken [] s := by
    obtain hp | hp := hp <;> simp [frontAtHoldup, hr, hp]
  rw [hfront]
  exact refuse_endedHoldup hr _ _ _

theorem frontAtHoldup_completing {s : State} {r : Request} (hr : s.fp.req = some r) (hp : s.fp.port = .completing) :
    EndedHoldup r 4#9 (if r.code = 3 then r.count.toNat else r.taken) [] (frontAtHoldup s) := by
  have hfront : frontAtHoldup s =
      refuse .powerHoldup (maskFlag 3) (if r.code = 3 then r.count.toNat else r.taken) [] s := by
    simp [frontAtHoldup, hr, hp]
  rw [hfront]
  exact refuse_endedHoldup hr _ _ _

theorem frontAtHoldup_read {s : State} {r : Request} (hr : s.fp.req = some r) (hp : s.fp.port = .missWait) :
    EndedHoldup r 0#9 r.taken s.fp.readBuf.flatten (frontAtHoldup s) := by
  have hfront : frontAtHoldup s = abandonRead (refuse .powerHoldup 0 r.taken (assembledBytes s) s) := by
    simp [frontAtHoldup, hr, hp]
  rw [hfront]
  exact refuse_endedHoldup hr _ _ _

/-! ### The power state (R28, R122, R124, R136) -/

theorem changePower_fp {p : PowerState} {s : State} (hc : p ≠ .critical) (hport : s.fp.port ≠ .completing) :
    (changePower p s).fp = s.fp := by
  have hwait : ∀ u : State, u.fp.port ≠ .completing → endThroughWait u = u := fun u hu => by
    unfold endThroughWait
    split
    · next h _ => exact absurd h hu
    · rfl
  have hmode : ∀ u : State, u.fp.port ≠ .completing → (recomputeMode u).fp = u.fp := fun u hu => by
    unfold recomputeMode
    split
    · refine (congrArg State.fp (hwait _ ?_)).trans rfl
      exact hu
    · rfl
  have hmarks : ∀ u : State, (marksAtPower p u).fp = u.fp := fun u => by simp
  unfold changePower
  rw [hmarks, frontAtPower, if_neg hc]
  refine (hmode _ ?_).trans rfl
  exact hport

theorem powerAtHoldup_eq (s : State) : powerAtHoldup s = { s with
    fp := (powerAtHoldup s).fp, mp := (frontAtHoldup s).mp, wc := { s.wc with refusal := (frontAtHoldup s).wc.refusal }
    ps := { s.ps with power := .holdup, offreq := false, phase := some .drain, brownedOut := false }
    sm := { s.sm with mode := (powerAtHoldup s).sm.mode }, ru := { s.ru with attn := true } } := by
  have hpower : powerAtHoldup s = { changePower .holdup (frontAtHoldup s) with
      ps := { (changePower .holdup (frontAtHoldup s)).ps with phase := some .drain, brownedOut := false } } := rfl
  rw [hpower, changePower_eq (p := .holdup) nofun nofun, frontAtHoldup_eq]

theorem powerAtHoldup_ended {s : State} {r : Request} {mask : BitVec 9} {n : Nat} {payload : List Byte}
    (h : EndedHoldup r mask n payload (frontAtHoldup s)) : EndedHoldup r mask n payload (powerAtHoldup s) := by
  obtain ⟨hrecorded, hport, hresponse⟩ := h
  have hfp : (powerAtHoldup s).fp = (frontAtHoldup s).fp := changePower_fp nofun (by rw [hport]; nofun)
  have hwc : (powerAtHoldup s).wc.refusal = (frontAtHoldup s).wc.refusal := by rw [powerAtHoldup_eq]
  refine ⟨?_, ?_, ?_⟩
  · rw [Recorded, hwc]
    exact hrecorded
  · rw [hfp]
    exact hport
  · rw [hfp]
    exact hresponse

/-! ### Polling (R134) -/

/-- R134: SE with polling stopped, as far as the statements of the entry read it. -/
structure PollingStopped (e e' : SenseEngine) : Prop where
  timersOn : e'.timersOn = false
  alertDeferred : e'.alertDeferred = false
  handed : e'.handed = e.handed
  waiting : e.trans = .waitBus →
    e'.trans = .idle ∧ e'.reading = none ∧ e'.motionPending = false ∧ e'.gaugePending = false
  transfer : e.trans = .transfer → e'.trans = .transfer ∧ e'.stopping = true
  motionPending : e.trans ≠ .waitBus → e'.motionPending = (e.motionPending && (e.reading == some .motion))
  gaugePending : e.trans ≠ .waitBus → e'.gaugePending = (e.gaugePending && (e.reading == some .gauge))

theorem stopPolling_stopped (s : State) : PollingStopped s.se (stopPolling s).se := by
  unfold stopPolling
  dsimp only
  split <;> next h => constructor <;> simp [h]

/-! ### The drop (R95, R99) -/

theorem attributeAll_eq (peak : Nat) (s : State) : attributeAll peak s = { s with
    zu := { s.zu with runtimes := (attributeAll peak s).zu.runtimes }
    ru := { s.ru with pending := (attributeAll peak s).ru.pending, changed := (attributeAll peak s).ru.changed } } := by
  have hfold : ∀ (ks : List Nat) (u : State), ∃ rts p c, ks.foldl (fun u k => attributeDrop peak k u) u =
      { u with zu := { u.zu with runtimes := rts }, ru := { u.ru with pending := p, changed := c } } := fun ks => by
    induction ks with
    | nil => exact fun u => ⟨_, _, _, rfl⟩
    | cons k ks ih =>
      intro u
      obtain ⟨rts, p, c, h⟩ := ih (attributeDrop peak k u)
      exact ⟨rts, p, c, h⟩
  obtain ⟨rts, p, c, h⟩ := hfold (openZones s) s
  rw [attributeAll, h]

theorem motionAtHoldup_eq (s : State) : motionAtHoldup s = { s with
    mm := (motionAtHoldup s).mm, zu := { s.zu with runtimes := (motionAtHoldup s).zu.runtimes }
    ru := { s.ru with
      attn := (motionAtHoldup s).ru.attn, pending := (motionAtHoldup s).ru.pending
      changed := (motionAtHoldup s).ru.changed } } := by
  unfold motionAtHoldup
  split
  · unfold comeToRest recordDrop
    rw [attributeAll_eq]
    rfl
  · rfl

theorem motionAtHoldup_attn {s : State} (h : s.ru.attn = true) : (motionAtHoldup s).ru.attn = true := by
  unfold motionAtHoldup
  split
  · rfl
  · exact h

/-! ### The whole entry -/

theorem holdupEntered_eq (s : State) : holdupEntered s = { s with
    fp := (powerAtHoldup s).fp, mp := (frontAtHoldup s).mp, wc := { s.wc with refusal := (powerAtHoldup s).wc.refusal }
    ps := { s.ps with power := .holdup, offreq := false, phase := some .drain, brownedOut := false }
    sm := { s.sm with mode := (powerAtHoldup s).sm.mode }, bg := { s.bg with firstTimer := none }
    mm := (motionAtHoldup (powerAtHoldup s)).mm, se := (holdupEntered s).se
    zu := { s.zu with runtimes := (motionAtHoldup (powerAtHoldup s)).zu.runtimes }
    ru := { s.ru with
      attn := true, pending := (motionAtHoldup (powerAtHoldup s)).ru.pending
      changed := (motionAtHoldup (powerAtHoldup s)).ru.changed } } := by
  have hpoll : ∀ u : State, stopFirstTimer (stopPolling u) =
      { u with se := (stopPolling u).se, bg := { u.bg with firstTimer := none } } := fun u => by
    unfold stopPolling
    dsimp only
    split <;> rfl
  have hattn : (motionAtHoldup (powerAtHoldup s)).ru.attn = true := motionAtHoldup_attn (by rw [powerAtHoldup_eq])
  have hwc : (powerAtHoldup s).wc.refusal = (frontAtHoldup s).wc.refusal := by rw [powerAtHoldup_eq]
  have hse : (holdupEntered s).se = (stopPolling (motionAtHoldup (powerAtHoldup s))).se := rfl
  have hmotion := motionAtHoldup_eq (powerAtHoldup s)
  have hpower := powerAtHoldup_eq s
  rw [hattn] at hmotion
  rw [← hwc] at hpower
  rw [hse, holdupEntered, hpoll]
  generalize motionAtHoldup (powerAtHoldup s) = m at hmotion
  generalize powerAtHoldup s = q at hmotion hpower
  generalize (stopPolling m).se = e
  rw [hmotion, hpower]

theorem holdupEntered_polling (s : State) : PollingStopped s.se (holdupEntered s).se := by
  have hse : (motionAtHoldup (powerAtHoldup s)).se = s.se := by
    rw [motionAtHoldup_eq, powerAtHoldup_eq]
  have h := stopPolling_stopped (motionAtHoldup (powerAtHoldup s))
  rw [hse] at h
  exact h

theorem holdupEntered_ended {s : State} {r : Request} {mask : BitVec 9} {n : Nat} {payload : List Byte}
    (h : EndedHoldup r mask n payload (frontAtHoldup s)) : EndedHoldup r mask n payload (holdupEntered s) := by
  obtain ⟨hrecorded, hanswers⟩ := powerAtHoldup_ended h
  rw [holdupEntered_eq]
  exact ⟨hrecorded, hanswers⟩

end Sys2Proof.Machine

/-! A brownout: in service it begins the hold-up sequence, in media FAULT and before start-up is over it takes the part to OFF
(R31, R86, R95, R134, R136, R137, R142, R151). -/

namespace Sys2Proof.Machine

open Sys2Proof

/-! ### From the entry to the end of the step -/

theorem testAtEntry_course (s : State) : HoldupCourse s (testAtEntry s) := by
  unfold testAtEntry
  split
  · exact .refl s
  · exact testDrained_course s

theorem testAtEntry_unscathed (s : State) : Unscathed s (testAtEntry s) := by
  unfold testAtEntry
  split
  · exact .refl s
  · exact testDrained_unscathed s

theorem testAtEntry_supply (s : State) : (testAtEntry s).sb = s.sb ∧ (testAtEntry s).sm.ewUsed = s.sm.ewUsed ∧
    (testAtEntry s).sm.avail = s.sm.avail := by
  have hframe := (testAtEntry_course s).frame
  refine ⟨?_, congrArg (·.sm.ewUsed) hframe, congrArg (·.sm.avail) hframe⟩
  unfold testAtEntry
  split
  · rfl
  · simp

theorem HoldupCourse.power {s t : State} (h : HoldupCourse s t) (hs : s.ps.power = .holdup) :
    t.ps.power = .holdup ∨ t.ps.power = .off :=
  h.ending.imp (fun hon => hon.1.trans hs) fun hoff => hoff.2.1

/-- The entry, with the port as `mp` has it, and MP's grant after it. -/
def entryPumped (mp : MediaPort) (s : State) : State :=
  pump { testAtEntry (holdupEntered s) with mp := mp }

theorem holdupEntered_power (s : State) : (holdupEntered s).ps.power = .holdup := by rw [holdupEntered_eq]

theorem entryPumped_course (mp : MediaPort) (s : State) : HoldupCourse (holdupEntered s) (entryPumped mp s) := by
  have htest := testAtEntry_course (holdupEntered s)
  have hport : ∀ u : State, HoldupCourse u { u with mp := mp } := fun u => .inside u u.sb mp u.ps.phase u.ps.image
  exact (htest.trans (hport _)).trans (pump_holdupCourse (htest.power (holdupEntered_power s)))

theorem entryPumped_unscathed (mp : MediaPort) {s : State} (h : staged s.sb.lines = false ∨ s.sm.ewUsed ≤ s.sm.avail) :
    Unscathed (holdupEntered s) (entryPumped mp s) := by
  obtain ⟨hsb, hew, havail⟩ := testAtEntry_supply (holdupEntered s)
  have hport : ∀ u : State, Unscathed u { u with mp := mp } := fun _ => ⟨rfl, rfl, rfl⟩
  have hkept : staged (testAtEntry (holdupEntered s)).sb.lines = false ∨
      (testAtEntry (holdupEntered s)).sm.ewUsed ≤ (testAtEntry (holdupEntered s)).sm.avail := by
    rw [hsb, hew, havail, holdupEntered_eq]
    exact h
  exact ((testAtEntry_unscathed _).trans (hport _)).trans
    (pump_unscathed ((testAtEntry_course _).power (holdupEntered_power s)) hkept)

/-! ### The monitor (R95) -/

/-- The entry's other changes are nothing to the monitor. -/
theorem MotionAtHoldup.of_parts {s t : State} {fp : FrontPort} {mp : MediaPort} {wc : WriteChecker} {ps : PowerSup}
    {mode : WriteMode} {rail : RailState} {attn : Bool}
    (h : MotionAtHoldup { s with
      fp := fp, mp := mp, wc := wc, ps := ps, sm := { s.sm with mode := mode, rail := rail }
      ru := { s.ru with attn := attn } } t) : MotionAtHoldup s t := by
  unfold MotionAtHoldup at h ⊢
  simp only [recordDrop_mm] at h ⊢
  exact h

theorem motionAtHoldup_of_course {s t : State} (hs : TablesSized s) (hc : HoldupCourse (holdupEntered s) t)
    (hu : staged s.sb.lines = false ∨ s.sm.ewUsed ≤ s.sm.avail → Unscathed (holdupEntered s) t) : MotionAtHoldup s t := by
  have hpower := powerAtHoldup_eq s
  have hentered : Unscathed (motionAtHoldup (powerAtHoldup s)) (holdupEntered s) := by
    rw [holdupEntered_eq]
    exact ⟨rfl, rfl, rfl⟩
  have hmm : t.mm = (motionAtHoldup (powerAtHoldup s)).mm := by
    have hframe : t.mm = (holdupEntered s).mm := congrArg HoldupFrame.mm hc.frame
    rw [hframe, holdupEntered_eq]
  have hdamage : DamageOnly (motionAtHoldup (powerAtHoldup s)) t :=
    (DamageOnly.of_same hentered.runtimes hentered.pending hentered.changed).trans hc.damage
  have hall : MotionAtHoldup (powerAtHoldup s) t := by
    refine .of_motionAtHoldup ?_ hmm hdamage fun h => hentered.trans (hu ?_)
    · rw [hpower]
      exact hs
    · rw [hpower] at h
      exact h
  rw [hpower] at hall
  exact hall.of_parts

theorem entryPumped_motion (mp : MediaPort) {s : State} (hs : TablesSized s) : MotionAtHoldup s (entryPumped mp s) :=
  motionAtHoldup_of_course hs (entryPumped_course mp s) (entryPumped_unscathed mp)

/-! ### A brownout in service -/

/-- R31, R134: the state that the entry finds. -/
def railLost (s : State) : State :=
  setRail .lost (deliverHanded s)

theorem exec_brownout_service {s : State} (hrail : s.sm.rail = .good) (hf : s.ps.mediaFault = false)
    (hin : inService s.ps.power = true) :
    exec .brownout s = .next (entryPumped (testAtEntry (holdupEntered (railLost s))).mp (railLost s)) := by
  obtain ⟨hothers, hserved⟩ := deliverHanded_served hin
  have hnf : ¬(railLost s).ps.mediaFault = true := by
    have hfault : (deliverHanded s).ps.mediaFault = s.ps.mediaFault := congrArg Bystanders.mediaFault hothers
    simp [railLost, setRail, hfault, hf]
  have hlost : supplyLost (railLost s) = enterHoldup (railLost s) := by
    rw [supplyLost, if_neg hnf]
    obtain h | h | h := (inService_iff _).mp hserved <;> (have hset : (railLost s).ps.power = _ := h; rw [hset])
  have hexec : exec .brownout s = .next (pump (supplyLost (railLost s))) := by
    simp only [exec, execBrownout, hrail, if_true]
    rfl
  rw [hexec, hlost]
  rfl

theorem railLost_others {s : State} (hin : inService s.ps.power = true) :
    bystanders (railLost s) = { bystanders (emptied s) with rail := .lost } := by
  have hset : bystanders (railLost s) = { bystanders (deliverHanded s) with rail := .lost } := rfl
  rw [hset, (deliverHanded_served hin).1]

/-- SE at the end of the step is as polling left it, or quiet in OFF. -/
theorem HoldupCourse.polling {s t : State} {e : SenseEngine} (h : HoldupCourse s t) (hs : PollingStopped e s.se)
    (he : e.handed = []) : t.se.timersOn = false ∧ t.se.alertDeferred = false ∧ t.se.handed = [] ∧
      (e.trans = .waitBus →
        t.se.trans = .idle ∧ t.se.reading = none ∧ t.se.motionPending = false ∧ t.se.gaugePending = false) := by
  obtain ⟨-, -, -, -, hse⟩ | ⟨-, -, -, hse⟩ := h.ending
  · rw [hse]
    exact ⟨hs.timersOn, hs.alertDeferred, hs.handed.trans he, hs.waiting⟩
  · rw [hse]
    exact ⟨rfl, rfl, rfl, fun _ => ⟨rfl, rfl, rfl, rfl⟩⟩

/-- R136, R137: what the brownout leaves, whatever SE had handed over. -/
theorem entryPumped_outputs (mp : MediaPort) {s : State} (hh : s.se.handed = []) (hrail : s.sm.rail = .lost) :
    (s.zu.readOnly = false → (entryPumped mp s).ps.power = .holdup) ∧
    ((entryPumped mp s).ps.power = .holdup ∨ (entryPumped mp s).ps.power = .off) ∧
    (entryPumped mp s).ps.offreq = false ∧ (entryPumped mp s).ru.attn = true ∧
    bracedState (entryPumped mp s).mm.motion = false ∧ (entryPumped mp s).se.timersOn = false ∧
    (entryPumped mp s).se.alertDeferred = false ∧ (entryPumped mp s).se.handed = [] ∧
    (entryPumped mp s).sm.rail = .lost ∧ (entryPumped mp s).bg.firstTimer = none := by
  have hc := entryPumped_course mp s
  have heq := holdupEntered_eq s
  have hmm : (entryPumped mp s).mm = (motionAtHoldup (powerAtHoldup s)).mm :=
    (congrArg HoldupFrame.mm hc.frame).trans (by rw [holdupFrame, heq])
  obtain ⟨htimers, halert, hhanded, -⟩ := hc.polling (holdupEntered_polling s) hh
  refine ⟨fun hro => ?_, hc.power (holdupEntered_power s), ?_, hc.attn (by rw [heq]), ?_, htimers, halert, hhanded, ?_, ?_⟩
  · obtain ⟨hp, -⟩ | ⟨hr, -⟩ := hc.ending
    · exact hp.trans (holdupEntered_power s)
    · rw [heq] at hr
      exact nomatch hr.symm.trans hro
  · obtain ⟨-, ho, -⟩ | ⟨-, -, ho, -⟩ := hc.ending
    · rw [ho, heq]
    · exact ho
  · rw [hmm]
    exact bracedState_motionAtHoldup _
  · have hsm : (entryPumped mp s).sm.rail = (holdupEntered s).sm.rail := congrArg (·.sm.rail) hc.frame
    rw [hsm, heq]
    exact hrail
  · have hbg : (entryPumped mp s).bg = (holdupEntered s).bg := congrArg HoldupFrame.bg hc.frame
    rw [hbg, heq]

/-- R136, R137: what the brownout leaves as it was. -/
theorem entryPumped_frame (mp : MediaPort) (s : State) :
    (entryPumped mp s).wc = { s.wc with refusal := (entryPumped mp s).wc.refusal } ∧
    (entryPumped mp s).ru.timerDue = s.ru.timerDue ∧ (entryPumped mp s).uptimeMs = s.uptimeMs ∧
    (entryPumped mp s).uptimeSec = s.uptimeSec ∧ (entryPumped mp s).pins = s.pins ∧
    (entryPumped mp s).pending = s.pending ∧
    (entryPumped mp s).zu = { s.zu with runtimes := (entryPumped mp s).zu.runtimes } ∧
    (entryPumped mp s).bg = { s.bg with firstTimer := none } ∧
    (entryPumped mp s).sm = { s.sm with mode := (entryPumped mp s).sm.mode } := by
  have hframe : holdupFrame (entryPumped mp s) = holdupFrame (holdupEntered s) := (entryPumped_course mp s).frame
  rw [holdupEntered_eq] at hframe
  simp only [holdupFrame, HoldupFrame.mk.injEq] at hframe
  obtain ⟨hms, hsec, hpins, hpending, hdue, hwc, -, hbg, hsm, hzu⟩ := hframe
  refine ⟨?_, hdue, hms, hsec, hpins, hpending, ?_, hbg, ?_⟩
  · rw [hwc]
  · exact congrArg (fun z : ZoneUnit => { z with runtimes := (entryPumped mp s).zu.runtimes }) hzu
  · exact congrArg (fun m : Supply => { m with mode := (entryPumped mp s).sm.mode }) hsm

/-- R136: the front request's end is seen in the step's outcome; in OFF FP has left its answer. -/
theorem entryPumped_ended (mp : MediaPort) {s : State} {r : Request} {mask : BitVec 9} {n : Nat} {payload : List Byte}
    (h : EndedHoldup r mask n payload (frontAtHoldup s)) :
    Recorded (entryPumped mp s) .powerHoldup r.code r.count r.sector mask n ∧
      ((entryPumped mp s).ps.power = .holdup → Answers (entryPumped mp s) .powerHoldup n payload) := by
  have hc := entryPumped_course mp s
  obtain ⟨hrecorded, hanswers⟩ := holdupEntered_ended h
  have hwc : (entryPumped mp s).wc = (holdupEntered s).wc := congrArg HoldupFrame.wc hc.frame
  refine ⟨?_, fun hp => ?_⟩
  · rw [Recorded, hwc]
    exact hrecorded
  · obtain ⟨-, -, -, hfp, -⟩ | ⟨-, hoff, -⟩ := hc.ending
    · rw [Answers, hfp]
      exact hanswers
    · exact nomatch hoff.symm.trans hp

/-- R134: the read in transfer goes on to its end, and nothing else is pending. -/
theorem entryPumped_transfer (mp : MediaPort) {s : State} {k : SenseKind} (ht : s.se.trans = .transfer)
    (hk : s.se.reading = some k) (hp : (entryPumped mp s).ps.power = .holdup) :
    (entryPumped mp s).se.trans = .transfer ∧ (entryPumped mp s).se.stopping = true ∧
      pendingRead (entryPumped mp s) k = pendingRead s k ∧ pendingRead (entryPumped mp s) k.other = false := by
  obtain ⟨-, -, -, -, hse⟩ | ⟨-, hoff, -⟩ := (entryPumped_course mp s).ending
  · have hs := holdupEntered_polling s
    obtain ⟨htrans, hstopping⟩ := hs.transfer ht
    have hmotion := hs.motionPending (by rw [ht]; nofun)
    have hgauge := hs.gaugePending (by rw [ht]; nofun)
    cases k <;> simp [pendingRead, SenseKind.other, hse, htrans, hstopping, hmotion, hgauge, hk]
  · exact nomatch hoff.symm.trans hp

/-! ### Where a brownout in service leads to OFF, and where it waits (R142) -/

theorem entryPumped_off {s : State} (hro : s.zu.readOnly = true) (hst : staged s.sb.lines = false)
    (hc : s.mp.current = none) :
    (entryPumped (testAtEntry (holdupEntered s)).mp s).ps.power = .off := by
  obtain ⟨⟨-, -, hcur, -, hsb⟩, hreadOnly, -⟩ := holdupEntered_kept hc
  have hoff : testAtEntry (holdupEntered s) =
      enterOff { holdupEntered s with ps := { (holdupEntered s).ps with phase := some .save } } := by
    rw [testAtEntry, if_neg (by simp [runInFlight, hcur]), testDrained, if_neg (by rw [hsb, hst]; nofun),
      enterSave_readOnly (hreadOnly.trans hro) hcur]
  have hpower : (testAtEntry (holdupEntered s)).ps.power = .off := by rw [hoff, enterOff_power]
  exact (congrArg (·.ps.power) (pump_off (s := testAtEntry (holdupEntered s)) hpower)).trans hpower

theorem entryPumped_waits {s : State} {op : MediaOp} (hc : s.mp.current = some op) :
    (entryPumped (testAtEntry (holdupEntered s)).mp s).ps.power = .holdup ∧
      ∃ p, (entryPumped (testAtEntry (holdupEntered s)).mp s).mp.current = some { op with abandoned := p } := by
  obtain ⟨p, hfront⟩ := frontAtHoldup_current hc
  have hcur : (holdupEntered s).mp.current = some { op with abandoned := p } := by
    rw [holdupEntered_eq]
    exact hfront
  have hoff : ∀ u : State, u.mp.current = (holdupEntered s).mp.current →
      (offWithoutImage u).mp.current = u.mp.current ∧ (offWithoutImage u).ps.power = u.ps.power := fun u hu => by
    rw [offWithoutImage, if_neg (by simp [hu, hcur])]
    exact ⟨rfl, rfl⟩
  have hsave : (testAtEntry (holdupEntered s)).mp.current = (holdupEntered s).mp.current ∧
      (testAtEntry (holdupEntered s)).ps.power = (holdupEntered s).ps.power := by
    unfold testAtEntry testDrained enterSave
    dsimp only
    (repeat' split)
    · exact ⟨rfl, rfl⟩
    · exact ⟨rfl, rfl⟩
    · refine hoff _ ?_
      rfl
    · exact ⟨rfl, rfl⟩
  obtain ⟨htest, hpower⟩ := hsave
  have hbusy : mpIdle (testAtEntry (holdupEntered s)) = false := by simp [mpIdle, htest, hcur]
  have hpump : entryPumped (testAtEntry (holdupEntered s)).mp s = syncDrain (testAtEntry (holdupEntered s)) :=
    pump_busy hbusy
  rw [hpump, syncDrain_eq]
  exact ⟨hpower.trans (holdupEntered_power s), p, htest.trans hcur⟩

/-! ### Media FAULT and start-up (R136, R151) -/

/-- R136: with no operation in progress the part is OFF at the end of the step; otherwise the brownout waits for it. -/
theorem pump_offAfterOperation (s : State) : (pump (offAfterOperation s)).sm.rail = s.sm.rail ∧
    (s.mp.current = none → (pump (offAfterOperation s)).ps.power = .off) ∧
    ∀ op, s.mp.current = some op → (pump (offAfterOperation s)).ps = { s.ps with brownedOut := true } ∧
      (pump (offAfterOperation s)).mp.current = some op := by
  cases hc : s.mp.current with
  | none =>
    rw [offAfterOperation, if_pos (by simp [hc]), pump_off (enterOff_power s)]
    exact ⟨by simp, fun _ => enterOff_power s, nofun⟩
  | some op =>
    have hbusy : mpIdle (noteBrownedOut s) = false := by simp [mpIdle, noteBrownedOut, hc]
    rw [offAfterOperation, if_neg (by simp [hc]), pump_busy hbusy, syncDrain_eq]
    exact ⟨rfl, nofun, fun o ho => ⟨rfl, hc.trans ho⟩⟩

theorem exec_brownout_faulted {s : State} (hrail : s.sm.rail = .good) (hoff : s.ps.power ≠ .off)
    (hh : s.se.handed = []) (h : s.ps.mediaFault = true ∨ (s.ps.power = .starting ∧ s.ps.startPos ≠ .served)) :
    ∃ w, exec .brownout s =
      .next (pump (offAfterOperation { setRail .lost s with mp := { s.mp with waiters := w } })) := by
  have hexec : exec .brownout s = .next (pump (supplyLost (setRail .lost s))) := by
    simp only [exec, execBrownout, hrail, if_true, deliverHanded_nil hh]
  rw [hexec]
  by_cases hf : s.ps.mediaFault = true
  · have hlost : supplyLost (setRail .lost s) = offAfterOperation (setRail .lost s) := by
      rw [supplyLost, if_pos (show (setRail .lost s).ps.mediaFault = true from hf)]
      exact if_neg hoff
    exact ⟨s.mp.waiters, by rw [hlost]; rfl⟩
  · obtain ⟨hp, hpos⟩ := h.resolve_left hf
    have hlost : supplyLost (setRail .lost s) = stopStartup (setRail .lost s) := by
      have hset : (setRail .lost s).ps.power = .starting := hp
      rw [supplyLost, if_neg (show ¬(setRail .lost s).ps.mediaFault = true from hf), hset]
      exact if_neg hpos
    exact ⟨{ s.mp.waiters with startup := none }, by rw [hlost]; rfl⟩

/-! ### The operation that start-up's brownout waits for (R136) -/

theorem exec_complete_final {status : Byte} {payload : List Byte} {s : State} {op : MediaOp} {step : StartStep}
    (hc : s.mp.current = some op) (hq : op.requester = .startup step) (hb : s.ps.brownedOut = true)
    (hfinal : status = 0 ∨ (2 ≤ op.attempt ∧ (step = .capacity → 3 ≤ op.attempt))) :
    exec (.mediaOperationComplete status payload) s =
      .next (goIdle s.mp.waiters (stoppedStartupDone step (decide (status = 0)) (handing s))) := by
  have hout : ∀ r, handOutcome op r (handing s) = stoppedStartupDone step r.isSome (handing s) := fun r => by
    rw [handOutcome, hq]
    exact if_pos hb
  by_cases hs : status = 0
  · subst hs
    rw [operationComplete_success hc, hout]
    rfl
  · obtain ⟨htwo, hthree⟩ := hfinal.resolve_left hs
    have hlast : mayRetry op s = false := by
      rw [mayRetry, hq]
      dsimp only
      split
      · next hcap => exact decide_eq_false (Nat.not_lt.mpr (hthree hcap))
      · exact decide_eq_false (Nat.not_lt.mpr htwo)
    rw [exec_complete_failure hc hs, attemptFailure_last hlast, hout, decide_eq_false hs]
    rfl

theorem stoppedStartupDone_off {step : StartStep} {ok : Bool} {s : State} (h : step ≠ .invalidate ∨ ok = false) :
    (stoppedStartupDone step ok s).ps.power = .off := by
  unfold stoppedStartupDone
  split
  · next hstep =>
    rw [if_neg (by simp [h.resolve_left (absurd hstep)])]
    exact enterOff_power _
  · exact enterOff_power _

theorem goIdle_off {before : Waiters} {s : State} (h : s.ps.power = .off) : (goIdle before s).ps.power = .off := by
  rw [goIdle_outside_service (by rw [h]; rfl), pump_off (s := outcomeHanded s) h]
  exact h

/-- R136, R151: after the invalidation write of start-up the hold-up sequence follows. -/
theorem goIdle_enterHoldup {before : Waiters} {s : State} (hh : s.se.handed = []) :
    goIdle before (stoppedStartupDone .invalidate true s) =
      entryPumped { (testAtEntry (holdupEntered s)).mp with handing := false } s := by
  have hentry : stoppedStartupDone .invalidate true s = testAtEntry (holdupEntered s) := by
    rw [stoppedStartupDone, if_pos rfl, if_pos rfl, deliverHanded_nil hh]
    rfl
  have hup : inService (testAtEntry (holdupEntered s)).ps.power = false := by
    obtain h | h := (testAtEntry_course _).power (holdupEntered_power s) <;> rw [h] <;> rfl
  rw [hentry, goIdle_outside_service hup]
  rfl

/-! ### The obligation -/

/-- R134: an event that SE has handed over is processed before the brownout. -/
theorem exec_brownout_consumed {s u : State} {h : Handover} {rest : List Handover} (hrail : s.sm.rail = .good)
    (hh : s.se.handed = h :: rest) (hu : exec (handoverCommand h) s = .next u) :
    exec .brownout s = exec .brownout u := by
  rw [exec_handoverCommand] at hu
  cases hu
  have hsame : (consume s h).sm.rail = .good :=
    (congrArg Bystanders.rail (consume_others s h)).trans hrail
  simp only [exec, execBrownout, hrail, hsame, if_true, deliverHanded_consume hh]

/-- R31, R136, R137: what a brownout in service leaves and what it leaves as it was, whatever SE had handed over. -/
theorem brownout_service (mp : MediaPort) {s t : State} (hin : inService s.ps.power = true)
    (ht : t = entryPumped mp (railLost s)) :
    (s.zu.readOnly = false → t.ps.power = .holdup) ∧ (t.ps.power = .holdup ∨ t.ps.power = .off) ∧
    t.ps.offreq = false ∧ t.ru.attn = true ∧ bracedState t.mm.motion = false ∧ t.se.timersOn = false ∧
    t.se.alertDeferred = false ∧ t.se.handed = [] ∧ t.sm.rail = .lost ∧ t.bg.firstTimer = none ∧
    t.wc = { s.wc with refusal := t.wc.refusal } ∧
    t.ru.timerDue = s.ru.timerDue ∧ t.uptimeMs = s.uptimeMs ∧ t.uptimeSec = s.uptimeSec ∧ t.pins = s.pins ∧
    t.pending = s.pending := by
  have hothers := railLost_others hin
  simp only [bystanders, emptied, Bystanders.mk.injEq] at hothers
  obtain ⟨hms, hsec, hpins, hpending, hse, hrail, -, hslider, hdebounce, hreadOnly, hdue⟩ := hothers
  obtain ⟨hup, hor, hoffreq, hattn, hrest, htimers, halert, hhanded, hlost, htimer⟩ :=
    entryPumped_outputs mp (s := railLost s) (by rw [hse]) hrail
  obtain ⟨fwc, fdue, fms, fsec, fpins, fpending, -⟩ := entryPumped_frame mp (railLost s)
  simp only [hslider, hdebounce] at fwc
  rw [hreadOnly] at hup
  subst ht
  exact ⟨hup, hor, hoffreq, hattn, hrest, htimers, halert, hhanded, hlost, htimer, fwc, fdue.trans hdue, fms.trans hms,
    fsec.trans hsec, fpins.trans hpins, fpending.trans hpending⟩

/-- R136, R151: the invalidation write of start-up has ended in success; a brownout has waited for it. -/
theorem startup_entersHoldup {s t : State} (mp : MediaPort) (hh : s.se.handed = []) (hro : s.zu.readOnly = false)
    (ht : t = entryPumped mp (handing s)) :
    t.ps.power = .holdup ∧ t.ps.brownedOut = false ∧ t.se.timersOn = false ∧ (TablesSized s → MotionAtHoldup s t) := by
  have hc := entryPumped_course mp (handing s)
  have hentered : (holdupEntered (handing s)).ps.brownedOut = false ∧
      (holdupEntered (handing s)).zu.readOnly = s.zu.readOnly := by
    rw [holdupEntered_eq]
    exact ⟨rfl, rfl⟩
  obtain ⟨hb, hr⟩ := hentered
  obtain ⟨htimers, -⟩ := hc.polling (holdupEntered_polling _) hh
  subst ht
  obtain ⟨hp, -, hbrown, -⟩ | ⟨hoff, -⟩ := hc.ending
  · exact ⟨hp.trans (holdupEntered_power _), hbrown.trans hb, htimers, fun hs =>
      MotionAtHoldup.of_parts (entryPumped_motion (s := handing s) mp hs)⟩
  · exact nomatch (hoff.symm.trans hr).trans hro

/-- Settles O33: in service the step is the entry, its first test and MP's grant, each with what it leaves alone; otherwise
the part is OFF, at once or when the operation in progress has ended. -/
theorem brownoutEntersHoldup : Obligations.BrownoutEntersHoldup := by
  refine ⟨fun s u h rest hrail hh hu => exec_brownout_consumed hrail hh hu, fun s hrail hf hin => ?_,
    fun s hrail hoff hh h => ?_, fun status payload s op step hc hq hb hh hfinal => ?_⟩
  · obtain ⟨hup, hor, hoffreq, hattn, hrest, htimers, halert, hhanded, hlost, htimer, hwc, hdue, hms, hsec, hpins,
      hpending⟩ := brownout_service _ hin rfl
    refine ⟨_, exec_brownout_service hrail hf hin, hup, hor, hoffreq, hattn, hrest, htimers, halert, hhanded, hlost, htimer,
      hwc, hdue, hms, hsec, hpins, hpending, fun hnone => ?_⟩
    have hset : railLost s = setRail .lost s := by rw [railLost, deliverHanded_nil hnone]
    rw [hset]
    obtain ⟨-, -, -, -, -, -, hzu, hbg, hsm⟩ :=
      entryPumped_frame (testAtEntry (holdupEntered (setRail .lost s))).mp (setRail .lost s)
    obtain ⟨-, -, -, hwait⟩ :=
      (entryPumped_course (testAtEntry (holdupEntered (setRail .lost s))).mp (setRail .lost s)).polling
        (holdupEntered_polling _) hnone
    exact ⟨hzu, fun hs => (entryPumped_motion (s := setRail .lost s) _ hs).of_parts,
      fun r hr hp => entryPumped_ended _ (frontAtHoldup_write (s := setRail .lost s) hr hp),
      fun r hr hp => entryPumped_ended _ (frontAtHoldup_completing (s := setRail .lost s) hr hp),
      fun r hr hp => entryPumped_ended _ (frontAtHoldup_read (s := setRail .lost s) hr hp),
      fun hro hst hc => entryPumped_off (s := setRail .lost s) hro hst hc,
      fun op hc _ => entryPumped_waits (s := setRail .lost s) hc, hwait,
      fun k ht hk hp => entryPumped_transfer _ (s := setRail .lost s) ht hk hp, hbg, hsm⟩
  · obtain ⟨w, hexec⟩ := exec_brownout_faulted hrail hoff hh h
    obtain ⟨hrail', hnone, hsome⟩ := pump_offAfterOperation { setRail .lost s with mp := { s.mp with waiters := w } }
    exact ⟨_, hexec, hrail', hnone, hsome⟩
  · have hexec := exec_complete_final (payload := payload) hc hq hb hfinal
    refine ⟨_, hexec, fun h => goIdle_off (stoppedStartupDone_off (h.imp id decide_eq_false)), fun hstep hs hro => ?_⟩
    subst hstep hs
    exact startup_entersHoldup _ hh hro (goIdle_enterHoldup (s := handing s) hh)

end Sys2Proof.Machine

/-! The settings stay within their ranges (R38): no operation but a map header, the map's build at start-up, the read-only
mark and power-on replaces them, and each of these puts clamped or default values in their place (R39, R42, R55, R56). -/

namespace Sys2Proof.Machine

open Sys2Proof

/-! ### What replaces the settings -/

theorem settingsInRange_default : SettingsInRange Settings.default := by
  simp [SettingsInRange, Settings.default]

/-- R39: a map header gives settings within their ranges, whatever its bytes are. -/
theorem settingsInRange_header (h : Sector) : SettingsInRange (headerSettings h) := by
  obtain ⟨hwrong, hright⟩ := headerSettings_gives h
  by_cases hm : field h 0 8 = markerZoneMap
  · rw [hright hm]
    simp only [SettingsInRange]
    omega
  · rw [hwrong hm]
    simp [SettingsInRange]

theorem takeContent_inRange {s : State} (n : Nat) (d : Sector) (h : SettingsInRange s.zu.settings) :
    SettingsInRange (takeContent n d s).zu.settings := by
  have hheader : (applyHeader d s).zu.settings = headerSettings d := by simp [applyHeader, latchTimeBase, setSettings]
  unfold takeContent
  (repeat' split)
  · simpa using h
  · simpa [noteMapCopy, hheader] using settingsInRange_header d
  · simpa [noteMapCopy] using h
  · exact h

/-! ### Admissions, retries and offers (R8, R10, R174) -/

theorem acceptSector_inRange {s : State} (n : Nat) (d : Sector) (sb : Staging) (h : SettingsInRange s.zu.settings) :
    SettingsInRange (acceptSector n d sb s).zu.settings := by
  have htaken := takeContent_inRange (s := countTaken { s with sb := sb }) n d h
  unfold acceptSector
  dsimp only
  split <;> simpa using htaken

theorem offerSector_inRange {s : State} (n : Nat) (d : Sector) (h : SettingsInRange s.zu.settings) :
    SettingsInRange (offerSector n d s).zu.settings := by
  unfold offerSector
  (repeat' split)
  · simpa using h
  · exact acceptSector_inRange _ _ _ h
  · exact h

theorem retryHeld_inRange {s : State} (h : SettingsInRange s.zu.settings) : SettingsInRange (retryHeld s).zu.settings := by
  unfold retryHeld
  split
  · exact offerSector_inRange _ _ h
  · exact h

theorem checkpointTaken_settings (o : Nat) (s : State) : (checkpointTaken o s).zu.settings = s.zu.settings := by
  rw [checkpointTaken_eq]

theorem offerCheckpoint_settings {o : Nat} {s t : State} (h : offerCheckpoint o s = some t) :
    t.zu.settings = s.zu.settings := by
  obtain ⟨sb, -, rfl⟩ := offerCheckpoint_some h
  simp [checkpointTaken_settings]

theorem offerFrom_inRange {s : State} (os : List Nat) (h : SettingsInRange s.zu.settings) :
    SettingsInRange (offerFrom os s).zu.settings := by
  induction os generalizing s with
  | nil => exact h
  | cons o os ih =>
    unfold offerFrom
    split
    · split
      · exact h
      · next t ht =>
        have htaken : SettingsInRange t.zu.settings := by rwa [offerCheckpoint_settings ht]
        refine ih ?_
        split
        · exact retryHeld_inRange htaken
        · exact htaken
    · exact ih h

theorem offerAll_inRange {s : State} (h : SettingsInRange s.zu.settings) : SettingsInRange (offerAll s).zu.settings := by
  unfold offerAll
  split
  · exact offerFrom_inRange _ h
  · exact h

theorem react_inRange {s : State} (before : State) (h : SettingsInRange s.zu.settings) :
    SettingsInRange (react before s).zu.settings := by
  unfold react
  split
  · refine offerAll_inRange (offerAll_inRange ?_)
    split
    · exact retryHeld_inRange h
    · exact h
  · exact h

theorem settle_inRange {s : State} (before : State) (h : SettingsInRange s.zu.settings) :
    SettingsInRange (settle before s).zu.settings := by
  simpa [settle] using react_inRange before h

/-! ### The consumers (R131, R134) -/

theorem consume_inRange {s : State} (e : Handover) (h : SettingsInRange s.zu.settings) :
    SettingsInRange (consume s e).zu.settings := by
  have hprocess : ∀ u, (process e u).zu.settings = u.zu.settings := fun u => by cases e <;> simp [process]
  unfold consume
  dsimp only
  split
  · simpa using h
  · exact settle_inRange _ (by simpa [hprocess] using h)

theorem deliverHanded_inRange {s : State} (h : SettingsInRange s.zu.settings) :
    SettingsInRange (deliverHanded s).zu.settings := by
  have hfold : ∀ (es : List Handover) (u : State), SettingsInRange u.zu.settings →
      SettingsInRange (es.foldl consume u).zu.settings := fun es => by
    induction es with
    | nil => exact fun _ hu => hu
    | cons e es ih => exact fun _ hu => ih _ (consume_inRange e hu)
  exact hfold _ _ h

/-! ### The front link -/

theorem arrive_settings {go : State → State} (hgo : ∀ s, (go s).zu.settings = s.zu.settings) (code count : Byte)
    (sector : Word) (s : State) : (arrive code count sector go s).zu.settings = s.zu.settings := by
  obtain ⟨-, h⟩ | ⟨-, -, h⟩ | ⟨-, -, -, h⟩ | ⟨-, -, -, h⟩ := arrive_cases code count sector go s <;> rw [h] <;> simp [hgo]

theorem assembleFrom_settings (left n : Nat) (s : State) : (assembleFrom left n s).zu.settings = s.zu.settings := by
  induction left generalizing n s with
  | zero => rfl
  | succ left ih =>
    unfold assembleFrom
    cases hm : isMiss s n with
    | true =>
      rw [readSource_of_miss hm]
      simp [waitForMiss]
    | false =>
      rw [readSource_of_not_miss hm]
      refine (ih _ _).trans ?_
      split <;> rfl

theorem assemble_settings (s : State) : (assemble s).zu.settings = s.zu.settings := by
  unfold assemble
  split
  · exact assembleFrom_settings _ _ _
  · rfl

theorem beginRead_settings (count : Byte) (sector : Word) (s : State) :
    (beginRead count sector s).zu.settings = s.zu.settings := by
  unfold beginRead
  (repeat' split)
  · simp
  · simp
  · exact assemble_settings s

theorem beginWrite_settings (count : Byte) (sector : Word) (s : State) :
    (beginWrite count sector s).zu.settings = s.zu.settings := by
  unfold beginWrite
  split <;> simp

theorem beginFlush_settings (s : State) : (beginFlush s).zu.settings = s.zu.settings := by
  unfold beginFlush
  split <;> simp

theorem beginInfo_settings (s : State) : (beginInfo s).zu.settings = s.zu.settings := by
  unfold beginInfo
  split <;> simp

theorem dataArrives_inRange {s : State} (d : Sector) (h : SettingsInRange s.zu.settings) :
    SettingsInRange (dataArrives d s).zu.settings := by
  have htake : ∀ n, SettingsInRange (takeFrame n d s).zu.settings := fun n => by
    unfold takeFrame
    split
    · simpa using h
    · exact offerSector_inRange n d h
  unfold dataArrives
  (repeat' split)
  · exact settle_inRange s (htake _)
  · exact h
  · exact h

/-! ### The hold-up sequence and its recoveries (R136, R137, R144, R145) -/

theorem enterHoldup_settings (s : State) : (enterHoldup s).zu.settings = s.zu.settings := by
  have htest : ∀ u, (testAtEntry u).zu.settings = u.zu.settings := fun u => by
    unfold testAtEntry
    split <;> simp
  have hfront : (frontAtHoldup s).zu.settings = s.zu.settings := by rw [frontAtHoldup_eq]
  simp [enterHoldup, htest, stopFirstTimer, powerAtHoldup, hfront]

theorem noteServed_settings (s : State) : (noteServed s).zu.settings = s.zu.settings := by
  unfold noteServed
  split <;> simp

theorem gaugeAtRecovery_settings (s : State) : (gaugeAtRecovery s).zu.settings = s.zu.settings := by
  unfold gaugeAtRecovery
  split <;> rfl

theorem resumeService_inRange {s : State} (h : SettingsInRange s.zu.settings) :
    SettingsInRange (resumeService s).zu.settings := by
  have hserved : (noteServed (gaugeAtRecovery (motionAtRecovery (resumePolling (powerAtRecovery s))))).zu.settings =
      s.zu.settings := by
    simp [noteServed_settings, gaugeAtRecovery_settings, powerAtRecovery]
  have hoffered := offerAll_inRange (hserved ▸ h)
  simpa [resumeService] using hoffered

theorem firstService_inRange {s : State} (h : SettingsInRange s.zu.settings) :
    SettingsInRange (firstService s).zu.settings := by
  have hserved : (noteServed (changePower (socDerived s) s)).zu.settings = s.zu.settings := by
    simp [noteServed_settings]
  have hoffered := offerAll_inRange (hserved ▸ h)
  simpa [firstService] using hoffered

theorem startUp_settings (wp : Bool) (s : State) : (startUp wp s).zu.settings = .default := by
  simp [startUp, powerOnState, State.reset, ZoneUnit.reset]

theorem supplyLost_settings (s : State) : (supplyLost s).zu.settings = s.zu.settings := by
  have hoff : ∀ u, (offAfterOperation u).zu.settings = u.zu.settings := fun u => by
    unfold offAfterOperation noteBrownedOut
    split <;> simp
  unfold supplyLost brownoutStarting stopStartup noteBrownedOut
  (repeat' split) <;> simp [hoff, enterHoldup_settings]

theorem supplyReturned_inRange {s : State} (h : SettingsInRange s.zu.settings) :
    SettingsInRange (supplyReturned s).zu.settings := by
  unfold supplyReturned
  (repeat' split)
  · rw [startUp_settings]; exact settingsInRange_default
  · exact resumeService_inRange h
  · unfold beginInvalidate
    dsimp only
    split
    · simpa using h
    · exact h
  all_goals exact h

/-! ### Start-up (R146 to R152) -/

theorem applyDecision_settings (a b : Option (List Sector)) (s : State) :
    (applyDecision a b s).zu.settings = s.zu.settings := by
  have hrestored : ∀ im u, (restoreImage im u).zu.settings = u.zu.settings := fun im u => by
    have hzones : (restoreZones im u).zu.settings = u.zu.settings := by
      simpa [restoreZones] using forZones_keep (·.zu.settings) _ (fun k v => by simp) 64 u
    have hgauge : ∀ b v, (restoreGauge b v).zu.settings = v.zu.settings := fun b v => by
      unfold restoreGauge
      split <;> simp
    exact (hgauge _ _).trans hzones
  unfold applyDecision
  dsimp only
  split
  · exact hrestored _ _
  · unfold rebuildCold
    simpa using forZones_keep (·.zu.settings) _ (fun k v => by simp) 64 _

theorem startupDone_running_inRange {step : StartStep} {result : Option (List Byte)} {s : State}
    (hb : s.ps.brownedOut = false) (h : SettingsInRange s.zu.settings) :
    SettingsInRange (startupDone step result s).zu.settings := by
  unfold startupDone
  rw [if_neg (by simp [hb])]
  cases step with
  | moduleReset | served => exact h
  | capacity =>
    dsimp only [capacityKnown]
    (repeat' split) <;> exact h
  | mapArea =>
    cases result with
    | none => exact settingsInRange_default
    | some p => simpa [mapAreaRead, buildFromMap] using settingsInRange_header _
  | gaugeRecord => cases result <;> exact h
  | dropLog =>
    cases result with
    | none => exact h
    | some p =>
      dsimp only [dropLogRead]
      split <;> exact h
  | checkTable | imageFirst => exact h
  | imageSecond =>
    have hdecided : SettingsInRange (applyDecision s.ps.imageRead (result.map (sectorsOf 8)) s).zu.settings := by
      rwa [applyDecision_settings]
    dsimp only [imageSecondRead]
    split
    · exact hdecided
    · exact firstService_inRange hdecided
  | invalidate =>
    dsimp only [startupInvalidated]
    split
    · exact firstService_inRange h
    · exact h

theorem startupDone_inRange {s : State} (step : StartStep) (result : Option (List Byte))
    (h : SettingsInRange s.zu.settings) : SettingsInRange (startupDone step result s).zu.settings := by
  cases hb : s.ps.brownedOut with
  | false => exact startupDone_running_inRange hb h
  | true =>
    have hstop : startupDone step result s = stoppedStartupDone step result.isSome s := if_pos hb
    rw [hstop]
    unfold stoppedStartupDone enterMediaFault
    (repeat' split)
    · rw [enterHoldup_settings]; exact deliverHanded_inRange h
    · simpa using h
    · simpa using h

/-! ### The outcomes of media operations (R18, R19, R142, R145, R158, R165) -/

theorem testAfterRun_settings (s : State) : (testAfterRun s).zu.settings = s.zu.settings := by
  unfold testAfterRun
  split <;> simp

theorem afterRun_inRange {s : State} (before : State) (h : SettingsInRange s.zu.settings) :
    SettingsInRange (afterRun before s).zu.settings := by
  have hreact := react_inRange before h
  unfold afterRun
  dsimp only
  split <;> simpa using hreact

theorem runEnded_inRange {s : State} (op : MediaOp) (h : SettingsInRange s.zu.settings) :
    SettingsInRange (runDone op s).zu.settings ∧ SettingsInRange (runLost op s).zu.settings := by
  have hlost := afterRun_inRange (s := dropRun op.sector op.count s) s (by simpa using h)
  constructor
  · rw [runDone, testAfterRun_settings]
    exact afterRun_inRange s h
  · rw [runLost, testAfterRun_settings]
    exact react_inRange _ (by simpa using hlost)

theorem missEnded_settings (op : MediaOp) (result : Option (List Byte)) (s : State) :
    (missEnded op result s).zu.settings = s.zu.settings := by
  have hdone : (readMissDone op.count result s).zu.settings = s.zu.settings := by
    unfold readMissDone
    split
    · rw [assemble_settings, foldl_putRead]
    · simp
  unfold missEnded leaveReadOnlySave
  (repeat' split) <;> simp [hdone]

theorem invalidateDone_inRange {s : State} (ok : Bool) (h : SettingsInRange s.zu.settings) :
    SettingsInRange (invalidateDone ok s).zu.settings := by
  unfold invalidateDone
  (repeat' split)
  · simpa using h
  · simpa using h
  · exact resumeService_inRange h
  · exact h

/-- The image writes change no setting, however they end. -/
theorem imageDone_settings (ok : Bool) (s : State) : (imageFirstDone ok s).zu.settings = s.zu.settings ∧
    (imageSecondDone s).zu.settings = s.zu.settings := by
  unfold imageFirstDone imageSecondDone imageThenInvalidate
  constructor <;> (repeat' split) <;> simp

/-- A run ends in one of its two ways. -/
theorem runOutcome_inRange {s : State} (op : MediaOp) (ok : Bool) (h : SettingsInRange s.zu.settings) :
    SettingsInRange (if ok then runDone op s else runLost op s).zu.settings := by
  obtain ⟨hdone, hlost⟩ := runEnded_inRange op h
  cases ok
  · exact hlost
  · exact hdone

theorem handOutcome_inRange {s : State} (op : MediaOp) (result : Option (List Byte)) (h : SettingsInRange s.zu.settings) :
    SettingsInRange (handOutcome op result s).zu.settings := by
  obtain ⟨hfirst, hsecond⟩ := imageDone_settings result.isSome s
  unfold handOutcome
  cases op.requester with
  | readMiss => rwa [missEnded_settings]
  | drain => exact runOutcome_inRange op _ h
  | holdup what =>
    cases what with
    | drainRun => exact runOutcome_inRange op _ h
    | imageFirst => rwa [hfirst]
    | imageSecond => rwa [hsecond]
    | invalidate => exact invalidateDone_inRange _ h
  | startup step => exact startupDone_inRange step result h

theorem finishOp_inRange {s : State} (op : MediaOp) (result : Option (List Byte)) (h : SettingsInRange s.zu.settings) :
    SettingsInRange (finishOp op result s).zu.settings := by
  have hhanded := handOutcome_inRange (s := { s with mp := { s.mp with current := none, handing := true } }) op result h
  simpa [finishOp] using hhanded

theorem attemptFailure_inRange {s : State} (op : MediaOp) (h : SettingsInRange s.zu.settings) :
    SettingsInRange (attemptFailure op s).zu.settings := by
  unfold attemptFailure
  split
  · exact h
  · exact finishOp_inRange op none h

theorem operationComplete_inRange {s : State} (status : Byte) (payload : List Byte) (h : SettingsInRange s.zu.settings) :
    SettingsInRange (operationComplete status payload s).zu.settings := by
  unfold operationComplete
  (repeat' split)
  · exact h
  · exact finishOp_inRange _ _ h
  · exact attemptFailure_inRange _ h

theorem operationTimeout_inRange {s : State} (h : SettingsInRange s.zu.settings) :
    SettingsInRange (operationTimeout s).zu.settings := by
  unfold operationTimeout
  split
  · exact h
  · exact attemptFailure_inRange _ (by simpa [pulseReset] using h)

/-! ### All commands -/

theorem endConversion_settings (s : State) : (endConversion s).zu.settings = s.zu.settings := by
  unfold endConversion
  dsimp only
  split <;> simp

theorem checkpointExpiry_inRange {s : State} (due : Word) (h : SettingsInRange s.zu.settings) :
    SettingsInRange (checkpointExpiry due s).zu.settings := by
  have hmarked : ∀ u, (markChanged u).zu.settings = u.zu.settings := fun u =>
    foldl_keep (·.zu.settings) (fun u o => markSector o u) (fun _ _ => rfl) _ u
  unfold checkpointExpiry
  dsimp only
  split
  · exact settle_inRange _ (by simpa [hmarked] using h)
  · simpa using h

/-- The commands of the front link that take no sector, of the rail and of the slider. -/
theorem front_settings {c : Instr} {s t : State} (hc : c = .responseSent ∨ c = .linkReset ∨ c = .frstRelease ∨
    c = .holdLimit ∨ c = .railReturn ∨ c = .railReturnCancel ∨ c = .wpChange ∨ c = .wpDebounceExpiry)
    (h : exec c s = .next t) : t.zu.settings = s.zu.settings := by
  obtain rfl | rfl | rfl | rfl | rfl | rfl | rfl | rfl := hc <;> cases h
  · split <;> rfl
  · unfold linkResetPort
    split <;> simp
  · rfl
  · split <;> simp
  · split <;> rfl
  · split <;> rfl
  · unfold noteSlider
    (repeat' split) <;> rfl
  · unfold takeSlider
    (repeat' split) <;> simp

/-- The commands of the sense bus: SE alone, and time. -/
theorem sense_settings {c : Instr} {s t : State} (hc : c = .motionCadence ∨ c = .gaugeCadence ∨
    (∃ how, c = .attemptComplete how) ∨ c = .senseTimeout ∨ c = .recoveryTrainEnd ∨ c = .busStartSeen ∨
    c = .busStopSeen ∨ c = .alertEdge ∨ c = .alertDeferExpiry) (h : exec c s = .next t) :
    t.zu.settings = s.zu.settings := by
  have hdefer : ∀ u, (deferredAlert u).zu.settings = u.zu.settings := fun u => by
    unfold deferredAlert
    dsimp only
    split <;> simp
  obtain rfl | rfl | ⟨how, rfl⟩ | rfl | rfl | rfl | rfl | rfl | rfl := hc <;> cases h
  · split <;> simp
  · split <;> simp
  · split <;> simp
  · split <;> simp
  · split <;> simp
  · rfl
  · unfold stopSeen
    dsimp only
    split <;> simp
  · unfold alertFalls
    (repeat' split) <;> simp
  · (repeat' split) <;> simp [hdefer]

/-- R38: a command keeps the settings within their ranges. -/
theorem exec_inRange {c : Instr} {s t : State} (h : exec c s = .next t) (hs : SettingsInRange s.zu.settings) :
    SettingsInRange t.zu.settings := by
  cases c with
  | powerOn wp => cases h; rw [startUp_settings]; exact settingsInRange_default
  | read count sector => cases h; rwa [arrive_settings (beginRead_settings count sector)]
  | write count sector => cases h; rwa [arrive_settings (beginWrite_settings count sector)]
  | flush count sector => cases h; rwa [arrive_settings beginFlush_settings]
  | info count sector => cases h; rwa [arrive_settings beginInfo_settings]
  | unknownCodeRequest code count sector => cases h; rwa [arrive_settings fun _ => by simp [beginUnknown]]
  | dataFrame data => cases h; exact dataArrives_inRange _ hs
  | mediaOperationComplete status payload => cases h; exact operationComplete_inRange status payload hs
  | mediaTimeout => cases h; exact operationTimeout_inRange hs
  | conversionCadence => cases h; simpa [startConversion] using hs
  | conversionComplete vsys vcap =>
    cases h
    split
    · exact hs
    · exact settle_inRange _ (by simpa [computeConversion, endConversion_settings] using hs)
  | brownout =>
    cases h
    split
    · simpa [supplyLost_settings, setRail] using deliverHanded_inRange hs
    · exact hs
  | recoveryQualified =>
    cases h
    split
    · exact supplyReturned_inRange (by simpa [setRail] using hs)
    · exact hs
  | responseSent | linkReset | frstRelease | holdLimit | railReturn | railReturnCancel | wpChange | wpDebounceExpiry =>
    rwa [front_settings (by simp) h]
  | motionCadence | gaugeCadence | attemptComplete _ | senseTimeout | recoveryTrainEnd | busStartSeen | busStopSeen |
      alertEdge | alertDeferExpiry =>
    rwa [sense_settings (by simp) h]
  | motionSample _ _ _ | motionMiss | gaugeSample _ _ _ | gaugeMiss => cases h; exact consume_inRange _ hs
  | firstSampleTimerExpiry =>
    cases h
    unfold firstTimerExpiry
    (repeat' split) <;> simpa using hs
  | checkpointTimerExpiry =>
    cases h
    split
    · exact checkpointExpiry_inRange _ hs
    · exact hs
  | untaggedFrontByte _ | strayMediaBytes _ => cases h; exact hs

/-- Settles O31: a step is a command of the queue or of a hand-over, or lets a millisecond pass. -/
theorem stepKeepsSettingsInRange : Obligations.StepKeepsSettingsInRange := by
  refine ⟨rfl, fun s t hs h => ?_⟩
  unfold step idleStep at h
  split at h
  · exact exec_inRange h hs
  · split at h
    · exact exec_inRange h hs
    · cases h
      exact hs

end Sys2Proof.Machine

/-! An entry sector's validation is the first of R46's rows that its lowest-numbered failing entry meets, and a sector that
fails ends its request MAP_REJECT (R45 to R47, R64, R70). -/

namespace Sys2Proof.Machine

open Sys2Proof

/-! ### The first failing check (R46) -/

/-- What an evaluation of the checks in R46's order answers, `fails` saying which fail: the first that fails, or none. -/
def FirstFailing (fails : MapCheck → Prop) : Option MapCheck → Prop
  | some c => fails c ∧ ∀ d, d.code < c.code → ¬fails d
  | none => ∀ d, ¬fails d

theorem MapCheck.code_injective : Function.Injective MapCheck.code := by
  intro c d h
  revert h
  cases c <;> cases d <;> simp [MapCheck.code]

theorem FirstFailing.unique {fails : MapCheck → Prop} {a b : Option MapCheck} (ha : FirstFailing fails a)
    (hb : FirstFailing fails b) : a = b := by
  match a, b with
  | none, none => rfl
  | none, some d => exact absurd hb.1 (ha d)
  | some c, none => exact absurd ha.1 (hb c)
  | some c, some d =>
    obtain h | h | h := lt_trichotomy c.code d.code
    · exact absurd ha.1 (hb.2 c h)
    · rw [MapCheck.code_injective h]
    · exact absurd hb.1 (ha.2 d h)

/-! ### Each row of R46 -/

section

variable {s : State} {sec pos : Nat} {data : Sector}

theorem rangesMeet_of_entryHolds {a b : RawEntry} {n : Nat} (ha : EntryHolds a n) (hb : EntryHolds b n) :
    rangesMeet a b = true := by
  obtain ⟨-, ha1, ha2⟩ := ha
  obtain ⟨-, hb1, hb2⟩ := hb
  simp only [rangesMeet, Bool.and_eq_true, decide_eq_true_eq]
  omega

theorem overlapFails_of_entryFails (hp : pos < 16) (h : EntryFails s sec data (16 * sec + pos) .overlap) :
    overlapFails (finalTable s.zu.zones sec data) (16 * sec + pos) (rawEntry data pos) = true := by
  obtain ⟨j, n, hj, hne, hk, ho⟩ := h
  rw [finalEntry_own s data hp] at hk
  have hmem : (finalEntry s sec data j, j) ∈ (finalTable s.zu.zones sec data).zipIdx :=
    List.mem_zipIdx_iff_getElem?.mpr (finalTable_getElem? s sec data hj)
  simp only [overlapFails, Bool.and_eq_true, List.any_eq_true, bne_iff_ne]
  exact ⟨(RawEntry.used_iff _).mpr hk.1, _, hmem, ⟨hne, (RawEntry.used_iff _).mpr ho.1⟩, rangesMeet_of_entryHolds hk ho⟩

/-- R46: the model's own test of each row, for the entry at a position of the sector. -/
def rowFails (s : State) (sec : Nat) (data : Sector) (pos : Nat) : MapCheck → Prop
  | .state => 3 ≤ (rawEntry data pos).st
  | .align => alignFails (rawEntry data pos) = true
  | .bounds => boundsFails (tailBase s) (rawEntry data pos) = true
  | .overlap => overlapFails (finalTable s.zu.zones sec data) (16 * sec + pos) (rawEntry data pos) = true
  | .transition => (!legalMove (zoneAt s (16 * sec + pos)).state (zoneStateOf (rawEntry data pos).st)) = true
  | .changed => changedFails (zoneAt s (16 * sec + pos)) (rawEntry data pos) = true

theorem entryFails_iff (hp : pos < 16) (c : MapCheck) :
    EntryFails s sec data (16 * sec + pos) c ↔ rowFails s sec data pos c := by
  have he := finalEntry_own s (sec := sec) data hp
  cases c with
  | state => simp only [EntryFails, he, rowFails]
  | align => simp [rowFails, EntryFails, he, alignFails, RawEntry.used, or_assoc]
  | bounds => simp [rowFails, EntryFails, he, boundsFails, RawEntry.used]
  | overlap => exact ⟨overlapFails_of_entryFails hp, entryFails_of_overlapFails hp⟩
  | transition =>
    simp only [EntryFails, he, rowFails, zoneStateOf]
    cases (zoneAt s (16 * sec + pos)).state <;> (repeat' split) <;> simp_all [legalMove]
  | changed =>
    simp only [EntryFails, he, rowFails, changedFails, zoneStateOf, RawEntry.used]
    cases (zoneAt s (16 * sec + pos)).state <;> (repeat' split) <;> simp_all [legalMove]

/-- R46: the checks of an entry are made in the order of their rows. -/
theorem entryCheck_firstFailing (hp : pos < 16) : FirstFailing (EntryFails s sec data (16 * sec + pos))
    (entryCheck (tailBase s) (finalTable s.zu.zones sec data) (zoneAt s (16 * sec + pos)) (16 * sec + pos)
      (rawEntry data pos)) := by
  have hrow := entryFails_iff (s := s) (sec := sec) (data := data) hp
  have hat : ∀ c, rowFails s sec data pos c → (∀ d, d.code < c.code → ¬rowFails s sec data pos d) →
      FirstFailing (EntryFails s sec data (16 * sec + pos)) (some c) := fun c h hbefore =>
    ⟨(hrow c).mpr h, fun d hd hf => hbefore d hd ((hrow d).mp hf)⟩
  unfold entryCheck
  split
  · next h1 => exact hat .state h1 (by intro d; cases d <;> simp [MapCheck.code])
  split
  · next h1 h2 => exact hat .align h2 (by intro d; cases d <;> simp [MapCheck.code, rowFails, *])
  split
  · next h1 h2 h3 => exact hat .bounds h3 (by intro d; cases d <;> simp [MapCheck.code, rowFails, *])
  split
  · next h1 h2 h3 h4 => exact hat .overlap h4 (by intro d; cases d <;> simp [MapCheck.code, rowFails, *])
  split
  · next h1 h2 h3 h4 h5 => exact hat .transition h5 (by intro d; cases d <;> simp [MapCheck.code, rowFails, *])
  split
  · next h1 h2 h3 h4 h5 h6 => exact hat .changed h6 (by intro d; cases d <;> simp [MapCheck.code, rowFails, *])
  · next h1 h2 h3 h4 h5 h6 => exact fun d hf => by cases d <;> exact absurd ((hrow _).mp hf) ‹_›

end

/-! ### The lowest-numbered failing entry (R47) -/

theorem findSome?_range_eq_some_iff {α : Type} {f : Nat → Option α} {n : Nat} {c : α} :
    (List.range n).findSome? f = some c ↔ ∃ p, p < n ∧ f p = some c ∧ ∀ q, q < p → f q = none := by
  induction n with
  | zero => simp
  | succ n ih =>
    rw [List.range_succ, List.findSome?_append, Option.or_eq_some_iff, ih]
    simp only [List.findSome?_eq_none_iff, List.mem_range, List.findSome?_singleton]
    constructor
    · rintro (⟨p, hp, hf, hlow⟩ | ⟨hnone, hf⟩)
      · exact ⟨p, by omega, hf, hlow⟩
      · exact ⟨n, by omega, hf, hnone⟩
    · rintro ⟨p, hp, hf, hlow⟩
      by_cases hpn : p = n
      · subst hpn
        exact .inr ⟨hlow, hf⟩
      · exact .inl ⟨p, by omega, hf, hlow⟩

/-- R45 to R47: the validation answers subclass `c` just where the sector is refused with it. -/
theorem validateSector_eq_some_iff (s : State) (sec : Nat) (data : Sector) (c : MapCheck) :
    validateSector s sec data = some c ↔ SectorRefused s sec data c := by
  have hfirst : ∀ p r, p < 16 → (entryCheck (tailBase s) (finalTable s.zu.zones sec data) (zoneAt s (16 * sec + p))
      (16 * sec + p) (rawEntry data p) = r ↔ FirstFailing (EntryFails s sec data (16 * sec + p)) r) := fun p r hp =>
    ⟨fun h => h ▸ entryCheck_firstFailing hp, (entryCheck_firstFailing hp).unique⟩
  simp only [validateSector, findSome?_range_eq_some_iff]
  refine exists_congr fun pos => and_congr_right fun hp => ?_
  rw [hfirst pos _ hp, FirstFailing, and_assoc]
  exact and_congr_right fun _ => and_congr_right fun _ =>
    forall₂_congr fun q hq => hfirst q none (by omega)

theorem validateSector_eq_none_iff (s : State) (sec : Nat) (data : Sector) :
    validateSector s sec data = none ↔ SectorPasses s sec data := by
  refine ⟨fun h pos hp => ?_, validateSector_none_of_passes⟩
  simp only [validateSector, List.findSome?_eq_none_iff, List.mem_range] at h
  have hfirst := entryCheck_firstFailing (s := s) (sec := sec) (data := data) hp
  rwa [h pos hp] at hfirst

/-! ### The request of a failing sector (R47, R64, R70) -/

theorem validation_some {s : State} {n o : Nat} {data : Sector} {c : MapCheck} (hn : n = tailBase s + o) (h1 : 1 ≤ o)
    (h4 : o ≤ 4) (h : validateSector s (o - 1) data = some c) : validation s n data = some c := by
  have ho : tailOffset? s n = some o := by
    rw [tailOffset?, if_neg (by omega)]
    exact congrArg some (by omega)
  unfold validation
  rw [ho]
  exact (if_pos ⟨h1, h4⟩).trans h

theorem refuse_answers (a : Answer) (m : BitVec 9) (n : Nat) (p : List Byte) (s : State) :
    Answers (refuse a m n p s) a n p :=
  ⟨refuse_port a m n p s, refuse_response a m n p s⟩

/-- R63, R156: outside HOLDUP a sector whose frame ends the request without an admission changes no line, and MP's grant
is all that follows. -/
theorem frame_ends {data : Sector} {s : State} {r : Request} {a : Answer} {m : BitVec 9} (ht : takesSector s = true)
    (hr : s.fp.req = some r) (hh : s.ps.power ≠ .holdup)
    (htake : takeFrame (r.sector.toNat + r.taken) (toSector data) s = refuse a m r.taken [] s) :
    ∃ t, exec (.dataFrame data) s = .next t ∧ Answers t a r.taken [] ∧
      Recorded t a r.code r.count r.sector m r.taken ∧
      t = { s with fp := t.fp, wc := { s.wc with refusal := t.wc.refusal },
                   mp := { t.mp with resetPulses := s.mp.resetPulses }, sb := { s.sb with lines := t.sb.lines } } := by
  obtain ⟨f, w, hu⟩ : ∃ (f : FrontPort) (w : RefusalRecord), refuse a m r.taken [] s =
      { s with fp := f, wc := { s.wc with refusal := w } } := ⟨_, _, refuse_eq a m r.taken [] s⟩
  have hrec := refuse_recorded (a := a) (m := m) (n := r.taken) (p := []) hr
  have hans := refuse_answers a m r.taken [] s
  have hstep : exec (.dataFrame data) s = .next (pump (refuse a m r.taken [] s)) := by
    rw [exec_dataFrame ht hr, htake, settle_of_not_due]
    · exact retryDue_of_eq (by simp) (by simp) (by simp)
    · exact markedSince_of_ru (by simp)
  generalize refuse a m r.taken [] s = u at *
  have hg := pump_grantOnly (s := u) (by rw [hu]; exact hh)
  generalize pump u = t at *
  subst hu
  refine ⟨t, hstep, ?_, ?_, ?_⟩
  · rw [Answers, hg.fp]; exact hans
  · rw [Recorded, hg.wc]; exact hrec
  · rw [hg.fp, hg.wc]
    exact hg.eq

theorem takeFrame_rejected {s : State} {r : Request} {n : Nat} {data : Sector} {c : MapCheck} (hr : s.fp.req = some r)
    (h : validation s n data = some c) : takeFrame n data s = refuse (.mapReject c) 0#9 r.taken [] s := by
  unfold takeFrame
  rw [h]
  dsimp only
  rw [takenCount_of_req hr]
  rfl

/-- Settles O17: the validation is the first failing check of the lowest-numbered failing entry, and its answer ends the
request of the frame. -/
theorem mapSectorRejected : Obligations.MapSectorRejected := by
  refine ⟨fun data s sec _ _ => ⟨validateSector_eq_some_iff s sec data, validateSector_eq_none_iff s sec data⟩,
    fun data s r o c _ ht hr hh h1 h4 hn hc => ?_⟩
  have hv := (validateSector_eq_some_iff s (o - 1) (toSector data) c).mpr hc
  exact frame_ends ht hr hh (takeFrame_rejected hr (validation_some hn h1 h4 hv))

end Sys2Proof.Machine

/-! A step with and without a command waiting, and what the passage of time does to the counters (R41, R131). -/

namespace Sys2Proof.Machine

open Sys2Proof

theorem step_front {c : Instr} {rest : List Instr} {s : State} (h : s.pending = c :: rest) :
    step s = exec c { s with pending := rest } := by
  unfold step
  rw [h]

theorem step_idle {s : State} (h : s.pending = []) : step s = idleStep s := by
  unfold step
  rw [h]

theorem idleStep_handed {e : Handover} {rest : List Handover} {s : State} (h : s.se.handed = e :: rest) :
    idleStep s = exec (handoverCommand e) s := by
  unfold idleStep
  rw [h]

theorem idleStep_quiet {s : State} (h : s.se.handed = []) : idleStep s = .next (passTime 1 s) := by
  unfold idleStep
  rw [h]

/-- The seconds counter after one millisecond: it rises where the second is full, and saturates. -/
theorem passTime_one_seconds (s : State) :
    (s.msOfSec < 999 → (passTime 1 s).uptimeSec = s.uptimeSec) ∧
    (s.msOfSec = 999 → (passTime 1 s).uptimeSec.toNat = min 4294967295 (s.uptimeSec.toNat + 1)) := by
  have hlt := s.uptimeSec.isLt
  refine ⟨fun h => ?_, fun h => ?_⟩
  · have hdiv : (s.msOfSec + 1) / 1000 = 0 := by omega
    have hmin : satAdd 4294967295 s.uptimeSec.toNat 0 = s.uptimeSec.toNat := by rw [satAdd]; omega
    simp [passTime, hdiv, hmin]
  · have hmin : min 4294967295 (s.uptimeSec.toNat + 1) < 2 ^ 32 := by omega
    simp only [passTime, h, satAdd, BitVec.toNat_ofNat]
    exact Nat.mod_eq_of_lt hmin

/-- Time let run to an instant up to 2^31 ms ahead ends at that instant (log entry 2). -/
theorem waitUntil_ahead {instant : Word} {s : State} (h : (instant - s.uptimeMs).toNat ≤ 2147483648) :
    waitUntil instant s = { passTime (instant - s.uptimeMs).toNat s with uptimeMs := instant } := by
  have hms := waitUntil_uptimeMs instant s h
  rw [waitUntil, if_pos h] at hms ⊢
  exact congrArg (fun i => { passTime (instant - s.uptimeMs).toNat s with uptimeMs := i }) hms

/-- Settles O1, by the two cases of the queue and of what SE has handed over. -/
theorem stepRunsFrontCommand : Obligations.StepRunsFrontCommand := by
  refine ⟨fun c rest s h => step_front h, fun e rest s h he => ?_, fun s h he => ?_, fun instant n s hn => ?_, fun s => ?_⟩
  · rw [step_idle h, idleStep_handed he]
    cases e <;> rfl
  · obtain ⟨hbelow, hfull⟩ := passTime_one_seconds s
    refine ⟨_, (step_idle h).trans (idleStep_quiet he), rfl, fun hm => ⟨?_, hbelow hm⟩, fun hm => ⟨?_, hfull hm⟩, rfl⟩
    · rw [passTime_msOfSec, Nat.mod_eq_of_lt (by omega)]
    · rw [passTime_msOfSec, hm]
  · subst hn
    exact ⟨fun h => waitUntil_ahead h, fun h => if_neg (by omega)⟩
  · exact ⟨fun h => if_pos h, fun h => if_neg h⟩

end Sys2Proof.Machine

/-! The zone table that start-up builds from the map area: each entry is accepted or ignored against the entries below it
(R54). -/

namespace Sys2Proof.Machine

open Sys2Proof

/-! ### The table entry by entry -/

/-- What entry `e` becomes after the entries `accepted` (R54 steps 3 and 4). -/
def builtEntry (T : Nat) (accepted : List ZoneEntry) (e : RawEntry) : ZoneEntry :=
  if buildFails T accepted e then .unused else enteredZone e

/-- The table `zs` of the first `m` entries of `f` and the count `n` of the ignored ones among them. -/
structure BuiltTo (T : Nat) (f : Nat → RawEntry) (m : Nat) (zs : List ZoneEntry) (n : Nat) : Prop where
  length : zs.length = m
  entry : ∀ k, k < m → zs[k]? = some (builtEntry T (zs.take k) (f k))
  ignored : n = ((List.range m).filter fun k => buildFails T (zs.take k) (f k)).length

theorem buildTable_cons (T : Nat) (e : RawEntry) (es : List RawEntry) (zs : List ZoneEntry) (n : Nat) :
    buildTable T (e :: es) (zs, n) =
      buildTable T es (zs ++ [builtEntry T zs e], n + (buildFails T zs e).toNat) := by
  rw [buildTable, builtEntry]
  cases buildFails T zs e <;> rfl

theorem BuiltTo.succ {T : Nat} {f : Nat → RawEntry} {m : Nat} {zs : List ZoneEntry} {n : Nat} (h : BuiltTo T f m zs n) :
    BuiltTo T f (m + 1) (zs ++ [builtEntry T zs (f m)]) (n + (buildFails T zs (f m)).toNat) := by
  have htake : ∀ k, k ≤ m → (zs ++ [builtEntry T zs (f m)]).take k = zs.take k := fun k hk =>
    List.take_append_of_le_length (by rw [h.length]; exact hk)
  have hall : zs.take m = zs := List.take_of_length_le h.length.le
  refine ⟨by simp [h.length], fun k hk => ?_, ?_⟩
  · rw [htake k (by omega)]
    obtain hlt | rfl := Nat.lt_succ_iff_lt_or_eq.mp hk
    · rw [List.getElem?_append_left (by rw [h.length]; exact hlt), h.entry k hlt]
    · rw [hall, ← h.length, List.getElem?_concat_length]
  · have hbelow : (List.range m).filter (fun k => buildFails T ((zs ++ [builtEntry T zs (f m)]).take k) (f k)) =
        (List.range m).filter fun k => buildFails T (zs.take k) (f k) :=
      List.filter_congr fun k hk => by rw [htake k (List.mem_range.mp hk).le]
    rw [List.range_succ, List.filter_append, List.length_append, hbelow, ← h.ignored, List.filter_singleton, htake m le_rfl,
      hall]
    cases buildFails T zs (f m) <;> rfl

theorem buildTable_built {T : Nat} {f : Nat → RawEntry} (j : Nat) {m : Nat} {acc : List ZoneEntry × Nat}
    (h : BuiltTo T f m acc.1 acc.2) :
    BuiltTo T f (m + j) (buildTable T ((List.range' m j).map f) acc).1 (buildTable T ((List.range' m j).map f) acc).2 := by
  induction j generalizing m acc with
  | zero => exact h
  | succ j ih =>
    rw [List.range'_succ, List.map_cons, buildTable_cons T (f m), ← Nat.add_assoc, Nat.add_right_comm]
    exact ih h.succ

theorem buildTable_range (T : Nat) (f : Nat → RawEntry) (m : Nat) :
    BuiltTo T f m (buildTable T ((List.range m).map f) ([], 0)).1 (buildTable T ((List.range m).map f) ([], 0)).2 := by
  have h := buildTable_built (T := T) (f := f) m (m := 0) (acc := ([], 0)) ⟨rfl, nofun, rfl⟩
  rwa [Nat.zero_add, ← List.range_eq_range'] at h

/-! ### Accepted entries (R54) -/

theorem zoneStateOf_ne_unused {st : Nat} : zoneStateOf st ≠ .unused ↔ st = 1 ∨ st = 2 := by
  unfold zoneStateOf
  (repeat' split) <;> simp_all

theorem raw_used (z : ZoneEntry) : z.raw.used = (z.state != .unused) := by
  obtain ⟨st, b, l⟩ := z
  cases st <;> rfl

/-- An accepted entry that is OPEN or CLOSED is no shorter than a line. -/
theorem BuiltTo.length_of_used {T : Nat} {f : Nat → RawEntry} {m : Nat} {zs : List ZoneEntry} {n : Nat}
    (h : BuiltTo T f m zs n) {z : ZoneEntry} (hz : z ∈ zs) (hu : z.state ≠ .unused) : 8 ≤ z.length := by
  obtain ⟨k, hk, rfl⟩ := List.mem_iff_getElem.mp hz
  have hentry := h.entry k (h.length ▸ hk)
  rw [List.getElem?_eq_getElem hk, Option.some.injEq] at hentry
  rw [hentry, builtEntry] at hu ⊢
  split at hu
  · exact absurd rfl hu
  · next hfails =>
    rw [if_neg hfails]
    rw [enteredZone_state] at hu
    have hused : (f k).used = true := (RawEntry.used_iff _).mpr (zoneStateOf_ne_unused.mp hu)
    simp only [buildFails, alignFails, hused, Bool.or_eq_true, Bool.true_and, decide_eq_true_eq, not_or] at hfails
    rw [(enteredZone_range hu).2]
    omega

theorem take_eq_map_range {α : Type} {l : List α} {k : Nat} (h : k ≤ l.length) (d : α) :
    l.take k = (List.range k).map fun j => l.getD j d := by
  refine List.ext_getElem (by simp [h]) fun j h1 h2 => ?_
  have hj : j < l.length := by simp at h1; omega
  simp [List.getD_eq_getElem?_getD, hj]

/-- R46 OVERLAP, for entries that are no shorter than a line. -/
theorem used_and_rangesMeet {e : RawEntry} {z : ZoneEntry} (he : 8 ≤ e.length) (hz : z.state ≠ .unused → 8 ≤ z.length) :
    (z.raw.used && rangesMeet e z.raw) = (z.state != .unused && decide (z.base < e.base + e.length) &&
      decide (e.base < z.base + z.length)) := by
  rw [raw_used]
  by_cases hu : z.state = .unused
  · simp [hu]
  · have hpos : 0 < z.length := by have := hz hu; omega
    have hpos' : 0 < e.length := by omega
    rw [Bool.eq_iff_iff]
    simp only [rangesMeet, Bool.and_eq_true, decide_eq_true_eq]
    have hbase : z.raw.base = z.base := rfl
    have hlength : z.raw.length = z.length := rfl
    rw [hbase, hlength]
    tauto

/-- R54: the build's own test of an entry is the one of the statements. -/
theorem BuiltTo.fails_eq {T : Nat} {f : Nat → RawEntry} {m : Nat} {zs : List ZoneEntry} {n : Nat} (h : BuiltTo T f m zs n)
    {t : State} (hz : t.zu.zones = zs) (ht : tailBase t = T) {k : Nat} (hk : k ≤ m) (e : RawEntry) :
    buildFails T (zs.take k) e = entryIgnored t k e := by
  have hover : 8 ≤ e.length → ((zs.take k).any fun z => z.raw.used && rangesMeet e z.raw) =
      (List.range k).any fun j => (zoneAt t j).state != .unused && decide ((zoneAt t j).base < e.base + e.length) &&
        decide (e.base < (zoneAt t j).base + (zoneAt t j).length) := fun he => by
    rw [take_eq_map_range (hk.trans h.length.ge) .unused, List.any_map]
    refine List.any_congr rfl fun j => ?_
    have hzone : zs.getD j .unused = zoneAt t j := by rw [zoneAt, hz]
    rw [Function.comp_apply, hzone]
    refine used_and_rangesMeet he fun hu => ?_
    have hj : j < zs.length := lt_of_not_ge fun hge => hu (by
      rw [← hzone, List.getD_eq_getElem?_getD, List.getElem?_eq_none hge]
      rfl)
    refine h.length_of_used ?_ hu
    rw [← hzone, List.getD_eq_getElem?_getD, List.getElem?_eq_getElem hj]
    exact List.getElem_mem hj
  subst ht
  unfold buildFails entryIgnored alignFails boundsFails
  cases hu : e.used with
  | false =>
    have hu' : (e.st == 1 || e.st == 2) = false := hu
    simp [hu']
  | true =>
    have hu' : (e.st == 1 || e.st == 2) = true := hu
    by_cases hl : e.length < 8
    · simp [hu', hl]
    · simp only [hover (by omega), hu', hl]
      simp [Bool.or_assoc]

theorem zoneStateOf_zero : zoneStateOf 0 = .unused := rfl

/-- R42, R54: the zone unit that the build leaves. -/
theorem mapBuilt_of_build {sectors : List Sector} {s t : State} (hz : t.zu = (buildFromMap sectors s).zu)
    (ht : tailBase t = tailBase s) : MapBuilt sectors s t := by
  have hb := buildTable_range (tailBase s) (fun k => rawEntry (sectors.getD (1 + k / 16) []) (k % 16)) 64
  have hzones : t.zu.zones = (buildTable (tailBase s) (mapEntries sectors) ([], 0)).1 := by rw [hz]; rfl
  have hignored : t.zu.ignored = (buildTable (tailBase s) (mapEntries sectors) ([], 0)).2 := by rw [hz]; rfl
  have hfails : ∀ k, k ≤ 64 → ∀ e, buildFails (tailBase s) (t.zu.zones.take k) e = entryIgnored t k e := fun k hk e => by
    rw [hzones]
    exact hb.fails_eq hzones ht hk e
  refine ⟨?_, ?_, fun k e hk he => ?_, ?_⟩
  · rw [hz]; exact headerSettings_gives _
  · rw [hz]; rfl
  · have hentry : t.zu.zones[k]? = some (builtEntry (tailBase s) (t.zu.zones.take k) e) := by
      rw [hzones, he]
      exact hb.entry k hk
    have hzone : zoneAt t k = if entryIgnored t k e then .unused else enteredZone e := by
      rw [zoneAt, List.getD_eq_getElem?_getD, hentry, builtEntry, hfails k hk.le e]
      rfl
    refine ⟨fun h => ?_, fun hi hst => ?_⟩
    · rw [hzone]
      split
      · rfl
      · next hi => rw [enteredZone_state, h.resolve_left hi, zoneStateOf_zero]
    · have hused : zoneStateOf e.st ≠ .unused := zoneStateOf_ne_unused.mpr (by
        have hlt : ¬3 ≤ e.st := fun h3 => by simp [entryIgnored, h3] at hi
        omega)
      rw [hzone, hi, if_neg (by decide)]
      exact ⟨enteredZone_state e, (enteredZone_range hused).1, (enteredZone_range hused).2⟩
  · rw [hignored]
    refine hb.ignored.trans (congrArg List.length (List.filter_congr fun k hk => ?_))
    exact hb.fails_eq hzones ht (List.mem_range.mp hk).le _

end Sys2Proof.Machine

/-! Start-up's media operations up to the image (R146 to R148): the capacity INFO with its attempts, and each read in turn,
with the part that its outcome gives to the block it belongs to. -/

namespace Sys2Proof.Machine

open Sys2Proof

/-! ### Records read back (R147) -/

theorem byteAt_field {l : List Byte} {off len i : Nat} (h : i < len) : byteAt (field l off len) i = byteAt l (off + i) :=
  (byteAt_of_field rfl i h).symm

theorem u8At_field {l : List Byte} {off len i : Nat} (h : i < len) : u8At (field l off len) i = u8At l (off + i) := by
  rw [u8At, byteAt_field h, u8At]

theorem u16At_field {l : List Byte} {off len i : Nat} (h : i + 1 < len) :
    u16At (field l off len) i = u16At l (off + i) := by
  rw [u16At, u8At_field (by omega), u8At_field h, u16At, Nat.add_assoc]

theorem u32At_field {l : List Byte} {off len i : Nat} (h : i + 3 < len) :
    u32At (field l off len) i = u32At l (off + i) := by
  rw [u32At, u16At_field (by omega), u16At_field (by omega), u32At, Nat.add_assoc]

theorem wordAt_field {l : List Byte} {off len i : Nat} (h : i + 3 < len) :
    wordAt (field l off len) i = wordAt l (off + i) := by
  rw [wordAt, u32At_field h, wordAt]

theorem byteAt_eq_of_u8At {l : List Byte} {i n : Nat} (h : u8At l i = n) : byteAt l i = BitVec.ofNat 8 n := by
  subst h
  simp [u8At]

/-- R98, section 11.6: a drop record as its bytes give it. -/
theorem dropRead_readDrop (l : List Byte) (off : Nat) : DropRead (field l off 32) (readDrop l off) := by
  have hkind : ∀ n, u8At l (off + 2) = n → (readDrop l off).kind = dropKindOf (BitVec.ofNat 8 n) := fun n h => by
    rw [readDrop, byteAt_eq_of_u8At h]
  have houtcome : ∀ n, u8At l (off + 3) = n → (readDrop l off).outcome = dropOutcomeOf (BitVec.ofNat 8 n) := fun n h => by
    rw [readDrop, byteAt_eq_of_u8At h]
  unfold DropRead
  simp only [u8At_field, u16At_field, wordAt_field, byteAt_field, Nat.reduceAdd, Nat.reduceLT, Nat.add_zero]
  exact ⟨rfl, hkind 1, hkind 2, houtcome 1, houtcome 2, houtcome 3, houtcome 4, houtcome 5, rfl, rfl, rfl, rfl, rfl, rfl, rfl,
    rfl, rfl⟩

/-- R147: the ring read from a drop log sector. -/
theorem dropLogRead_readDropLog (l : List Byte) : DropLogRead l (readDropLog l) := by
  have hplaces : ((List.range 16).filter fun i => decide (byteAt l (32 * i + 2) ≠ 0)) =
      (List.range 16).filter fun i => u8At l (32 * i + 2) != 0 :=
    List.filter_congr fun i _ => by
      rw [Bool.eq_iff_iff, decide_eq_true_iff, bne_iff_ne, u8At, Ne, Ne, BitVec.toNat_eq]
      rfl
  refine ⟨_, rfl, by rw [readDropLog, List.length_map, hplaces], fun n i h => ⟨readDrop l (32 * i), ?_, dropRead_readDrop l _⟩⟩
  rw [readDropLog, List.getElem?_map, hplaces, h]
  rfl

/-! ### The outcome of a start-up operation -/

/-- What the last attempt of an operation brings: the payload, or none after a failure (R164, R165). -/
def outcomeOf (status : Byte) (payload : List Byte) : Option (List Byte) :=
  if status = 0 then some payload else none

theorem outcomeOf_success {status : Byte} (h : status = 0) (payload : List Byte) : outcomeOf status payload = some payload :=
  if_pos h

theorem outcomeOf_failure {status : Byte} (h : status ≠ 0) (payload : List Byte) : outcomeOf status payload = none :=
  if_neg h

theorem mayRetry_startup {op : MediaOp} {step : StartStep} {s : State} (hq : op.requester = .startup step) :
    mayRetry op s = if step = .capacity then decide (op.attempt < 3) else decide (op.attempt < 2) := by
  rw [mayRetry, hq]

/-- R165: the last attempt of a start-up operation hands its outcome to PS. -/
theorem exec_startup {status : Byte} {payload : List Byte} {s : State} {op : MediaOp} {step : StartStep}
    (hc : s.mp.current = some op) (hq : op.requester = .startup step)
    (hfinal : status = 0 ∨ (2 ≤ op.attempt ∧ (step = .capacity → 3 ≤ op.attempt))) :
    exec (.mediaOperationComplete status payload) s =
      .next (goIdle s.mp.waiters (startupDone step (outcomeOf status payload) (handing s))) := by
  have hout : ∀ r, handOutcome op r (handing s) = startupDone step r (handing s) := fun r => by rw [handOutcome, hq]
  by_cases hs : status = 0
  · rw [outcomeOf_success hs, hs, operationComplete_success hc, hout]
  · obtain ⟨htwo, hthree⟩ := hfinal.resolve_left hs
    have hlast : mayRetry op s = false := by
      rw [mayRetry_startup hq]
      split
      · next hcap => exact decide_eq_false (Nat.not_lt.mpr (hthree hcap))
      · exact decide_eq_false (Nat.not_lt.mpr htwo)
    rw [outcomeOf_failure hs, exec_complete_failure hc hs, attemptFailure_last hlast, hout]

/-- R146 to R148, R166: the next operation of start-up is granted when MP goes idle, and nothing else is. -/
theorem goIdle_requestStartup {before : Waiters} {u : State} (p : StartStep) (hp : u.ps.power = .starting)
    (hc : u.mp.current = none) : ∃ w n, goIdle before (requestStartup p u) =
      { u with
        ps := { u.ps with startPos := p }
        mp := { u.mp with current := (issueStartup p u).mp.current, waiters := w, starvation := n, handing := false } } := by
  have hg : ∀ v : State, v.ps.power = .starting → mpIdle v = true → v.mp.waiters.startup = some p →
      grantNext v = issueStartup p { v with mp := { v.mp with waiters := { v.mp.waiters with startup := none } } } :=
    fun v hp hi hw => by
      rw [grantNext, if_pos hi, hp]
      dsimp only
      rw [grantStarting, hw]
  obtain ⟨d, n, hd⟩ := exists_syncDrain (outcomeHanded (requestStartup p u))
  have hgrant := hg (syncDrain (outcomeHanded (requestStartup p u))) (by rw [hd]; exact hp)
    (by rw [hd]; exact mpIdle_outcomeHanded hc) (by rw [hd]; rfl)
  rw [goIdle_outside_service (by rw [requestStartup, hp]; rfl), pump, hgrant, hd, syncDrain_eq]
  cases p <;> exact ⟨_, _, rfl⟩

end Sys2Proof.Machine

/-! Start-up reads the tail (R146 to R148, O26): what each outcome leaves, and the obligation. -/

namespace Sys2Proof.Machine

open Sys2Proof

/-! ### The read that follows an outcome -/

section
variable {r : Option (List Byte)} {s : State} (hb : s.ps.brownedOut = false)
include hb

theorem startupDone_capacity : startupDone .capacity r (handing s) = capacityKnown r (handing s) :=
  if_neg (ne_true_of_eq_false hb)

theorem startupDone_mapArea : startupDone .mapArea r (handing s) = mapAreaRead r (handing s) :=
  if_neg (ne_true_of_eq_false hb)

theorem startupDone_gaugeRecord : startupDone .gaugeRecord r (handing s) = gaugeRecordRead r (handing s) :=
  if_neg (ne_true_of_eq_false hb)

theorem startupDone_dropLog : startupDone .dropLog r (handing s) = dropLogRead r (handing s) :=
  if_neg (ne_true_of_eq_false hb)

theorem startupDone_checkTable : startupDone .checkTable r (handing s) = checkTableRead r (handing s) :=
  if_neg (ne_true_of_eq_false hb)

theorem startupDone_imageFirst : startupDone .imageFirst r (handing s) = imageFirstRead r (handing s) :=
  if_neg (ne_true_of_eq_false hb)

end

/-- R146 to R148: an outcome that asks for the next operation, in the state that the operation starts from. -/
theorem exec_startup_next {status : Byte} {payload : List Byte} {s u : State} {op : MediaOp} {step : StartStep}
    (p : StartStep) (hc : s.mp.current = some op) (hq : op.requester = .startup step)
    (hfinal : status = 0 ∨ 2 ≤ op.attempt) (hcap : status = 0 ∨ step ≠ .capacity)
    (hdone : startupDone step (outcomeOf status payload) (handing s) = requestStartup p u)
    (hp : u.ps.power = .starting) (hu : u.mp.current = none) :
    ∃ w n, exec (.mediaOperationComplete status payload) s = .next { u with
      ps := { u.ps with startPos := p }
      mp := { u.mp with current := (issueStartup p u).mp.current, waiters := w, starvation := n, handing := false } } := by
  obtain ⟨w, n, h⟩ := goIdle_requestStartup (before := s.mp.waiters) p hp hu
  have hlast : status = 0 ∨ (2 ≤ op.attempt ∧ (step = .capacity → 3 ≤ op.attempt)) :=
    or_and_left.mpr ⟨hfinal, hcap.imp_right fun hne heq => absurd heq hne⟩
  exact ⟨w, n, by rw [exec_startup hc hq hlast, hdone, h]⟩

/-- R141, R146: media FAULT of start-up; nothing but MP and the staged lines moves besides it. -/
theorem goIdle_mediaFault {before : Waiters} {s : State} (hp : s.ps.power = .starting) :
    ∃ (m : MediaPort) (l : List Line), goIdle before (enterMediaFault (handing s)) =
      { s with ps := { s.ps with mediaFault := true }, mp := { m with resetPulses := s.mp.resetPulses },
               sb := { s.sb with lines := l } } := by
  have hpower : (outcomeHanded (enterMediaFault (handing s))).ps.power = .starting := hp
  have hservice : inService (enterMediaFault (handing s)).ps.power = false := congrArg inService hp
  rw [goIdle_outside_service hservice, (pump_grantOnly (ne_of_eq_of_ne hpower (by decide))).eq]
  exact ⟨_, _, rfl⟩

/-! ### The capacity (R146) -/

theorem capacity_success {payload : List Byte} {s : State} {op : MediaOp} (hc : s.mp.current = some op)
    (hq : op.requester = .startup .capacity) (hp : s.ps.power = .starting) (hb : s.ps.brownedOut = false) :
    ∃ t, exec (.mediaOperationComplete 0 payload) s = .next t ∧
      t = { s with ps := t.ps, mp := t.mp, sb := { s.sb with lines := t.sb.lines } } ∧
      (u32At payload 0 < 1048576 → t.ps = { s.ps with mediaFault := true }) ∧
      (1048576 ≤ u32At payload 0 →
        t.ps = { s.ps with capacity := min (u32At payload 0 / 8 * 8) 4294967288, startPos := .mapArea } ∧
        t.mp.current = some { kind := .read, sector := t.ps.capacity - 32, count := 5, data := [],
                              requester := .startup .mapArea, attempt := 1, start := s.uptimeMs,
                              abandoned := false }) := by
  by_cases hsmall : u32At payload 0 < 1048576
  · have hdone : startupDone .capacity (outcomeOf 0 payload) (handing s) = enterMediaFault (handing s) := by
      rw [outcomeOf_success rfl, startupDone_capacity hb]
      exact if_pos hsmall
    obtain ⟨m, l, h⟩ := goIdle_mediaFault (before := s.mp.waiters) hp
    refine ⟨_, by rw [exec_startup hc hq (Or.inl rfl), hdone, h], rfl, fun _ => rfl, fun hbig => absurd hsmall (by omega)⟩
  · have hdone : startupDone .capacity (outcomeOf 0 payload) (handing s) = requestStartup .mapArea { handing s with
        ps := { s.ps with capacity := workingCapacity (u32At payload 0) } } := by
      rw [outcomeOf_success rfl, startupDone_capacity hb]
      exact if_neg hsmall
    obtain ⟨w, n, h⟩ := exec_startup_next .mapArea hc hq (Or.inl rfl) (Or.inl rfl) hdone hp rfl
    exact ⟨_, h, rfl, fun h => absurd h hsmall, fun _ => ⟨rfl, rfl⟩⟩

/-- R146, R164: an attempt before the third is made again. -/
theorem capacity_retried {status : Byte} {payload : List Byte} {s : State} {op : MediaOp} (hc : s.mp.current = some op)
    (hq : op.requester = .startup .capacity) (hs : status ≠ 0) (hlt : op.attempt < 3) :
    exec (.mediaOperationComplete status payload) s = .next
      { s with mp := { s.mp with current := some { op with attempt := op.attempt + 1, start := s.uptimeMs } } } := by
  have hretry : mayRetry op s = true := by
    rw [mayRetry_startup hq, if_pos rfl]
    exact decide_eq_true hlt
  rw [exec_complete_failure hc hs, attemptFailure, if_pos hretry, retryOp]

/-- R146: the third attempt that fails is media FAULT, by whichever way it fails. -/
theorem attemptFailure_capacity {s : State} {op : MediaOp} (hq : op.requester = .startup .capacity)
    (hp : s.ps.power = .starting) (hb : s.ps.brownedOut = false) (hlast : 3 ≤ op.attempt) :
    ∃ (m : MediaPort) (l : List Line), attemptFailure op s =
      { s with ps := { s.ps with mediaFault := true }, mp := { m with resetPulses := s.mp.resetPulses },
               sb := { s.sb with lines := l } } := by
  have hno : mayRetry op s = false := by
    rw [mayRetry_startup hq, if_pos rfl]
    exact decide_eq_false (Nat.not_lt.mpr hlast)
  have hout : handOutcome op none (handing s) = enterMediaFault (handing s) := by
    rw [handOutcome, hq]
    exact startupDone_capacity hb
  rw [attemptFailure_last hno, hout]
  exact goIdle_mediaFault hp

theorem capacity_failure {status : Byte} {payload : List Byte} {s : State} {op : MediaOp} (hc : s.mp.current = some op)
    (hq : op.requester = .startup .capacity) (hp : s.ps.power = .starting) (hb : s.ps.brownedOut = false)
    (hs : status ≠ 0) (hlast : 3 ≤ op.attempt) :
    ∃ t, exec (.mediaOperationComplete status payload) s = .next t ∧ t.ps = { s.ps with mediaFault := true } ∧
      t = { s with ps := t.ps, mp := { t.mp with resetPulses := s.mp.resetPulses }
                   sb := { s.sb with lines := t.sb.lines } } := by
  obtain ⟨m, l, h⟩ := attemptFailure_capacity hq hp hb hlast
  exact ⟨_, by rw [exec_complete_failure hc hs, h], rfl, rfl⟩

theorem capacity_timeout {s : State} {op : MediaOp} (hc : s.mp.current = some op)
    (hq : op.requester = .startup .capacity) (hp : s.ps.power = .starting) (hb : s.ps.brownedOut = false)
    (hlast : 3 ≤ op.attempt) :
    ∃ t, exec .mediaTimeout s = .next t ∧ t.ps = { s.ps with mediaFault := true } ∧
      t.mp.resetPulses = s.mp.resetPulses + 1 := by
  have hps : (timedOut op s).ps = s.ps := by simp [timedOut]
  obtain ⟨m, l, h⟩ := attemptFailure_capacity (s := timedOut op s) hq (by rw [hps, hp]) (by rw [hps, hb]) hlast
  exact ⟨_, by rw [exec_timeout hc, h], by rw [hps], rfl⟩

/-! ### The map area (R42, R54, R55, R109) -/

/-- R109: a design capacity taken while the gauge is unset gives FCC_eff, where it is a new one. -/
theorem takeDesign_unset {old : Nat} {s : State} (hg : s.bg.isSet = false) :
    takeDesign old s = { s with bg := if old = s.zu.settings.design then s.bg else
      { s.bg with fcc := fccOf s.zu.settings.design s.bg.band } } := by
  unfold takeDesign
  dsimp only
  by_cases hd : old = s.zu.settings.design
  · rw [if_pos hd, if_pos hd]
  · rw [if_neg hd, if_neg hd, if_pos (by rw [hg]; rfl)]

theorem mapArea_done {status : Byte} {payload : List Byte} {s : State} {op : MediaOp} (hc : s.mp.current = some op)
    (hp : s.ps.power = .starting) (hb : s.ps.brownedOut = false) (hfinal : status = 0 ∨ 2 ≤ op.attempt)
    (hq : op.requester = .startup .mapArea) (hg : s.bg.isSet = false) :
    ∃ t, exec (.mediaOperationComplete status payload) s = .next t ∧ StartupReads .gaugeRecord 11 1 s t ∧
      (status = 0 → t.ps.mapCopy = some (sectorsOf 5 payload) ∧ MapBuilt (sectorsOf 5 payload) s t) ∧
      (status ≠ 0 → t.ps.mapCopy = none ∧ MapUnread s t) ∧
      (status ≠ 0 ∨ t.zu.settings.design = s.zu.settings.design → t.bg = s.bg) ∧
      (status = 0 → t.zu.settings.design ≠ s.zu.settings.design →
        t.bg = { s.bg with fcc := t.zu.settings.design * 3600000 * bandFactor s.bg.band / 256 }) ∧
      t = { s with ps := { s.ps with startPos := .gaugeRecord, mapCopy := t.ps.mapCopy }, zu := t.zu, bg := t.bg
                   mp := { t.mp with resetPulses := s.mp.resetPulses } } := by
  by_cases hs : status = 0
  · have hdone := startupDone_mapArea (r := outcomeOf status payload) hb
    rw [outcomeOf_success hs] at hdone
    dsimp only [mapAreaRead] at hdone
    rw [takeDesign_unset (by exact hg), ← outcomeOf_success hs] at hdone
    obtain ⟨w, n, h⟩ := exec_startup_next .gaugeRecord hc hq hfinal (Or.inr nofun) hdone hp rfl
    refine ⟨_, h, ⟨rfl, rfl⟩, fun _ => ⟨rfl, mapBuilt_of_build rfl rfl⟩, fun hn => absurd hs hn, fun hd => if_pos ?_,
      fun _ hd => if_neg (Ne.symm hd), rfl⟩
    exact (hd.resolve_left (not_not_intro hs)).symm
  · have hdone := startupDone_mapArea (r := outcomeOf status payload) hb
    rw [outcomeOf_failure hs] at hdone
    dsimp only [mapAreaRead] at hdone
    rw [← outcomeOf_failure hs] at hdone
    obtain ⟨w, n, h⟩ := exec_startup_next .gaugeRecord hc hq hfinal (Or.inr nofun) hdone hp rfl
    exact ⟨_, h, ⟨rfl, rfl⟩, fun h => absurd h hs, fun _ => ⟨rfl, rfl⟩, fun _ => rfl, fun h => absurd h hs, rfl⟩

/-! ### Gauge record, drop log, check table and the first part of the image (R147, R148) -/

theorem gaugeRecord_done {status : Byte} {payload : List Byte} {s : State} {op : MediaOp} (hc : s.mp.current = some op)
    (hp : s.ps.power = .starting) (hb : s.ps.brownedOut = false) (hfinal : status = 0 ∨ 2 ≤ op.attempt)
    (hq : op.requester = .startup .gaugeRecord) :
    ∃ t, exec (.mediaOperationComplete status payload) s = .next t ∧ StartupReads .dropLog 12 1 s t ∧
      (status = 0 → field payload 0 8 = markerGauge → t.ps.coldTotal = u32At payload 8) ∧
      (status ≠ 0 ∨ field payload 0 8 ≠ markerGauge → t.ps.coldTotal = 0) ∧
      t = { s with ps := { s.ps with startPos := .dropLog, coldTotal := t.ps.coldTotal }
                   mp := { t.mp with resetPulses := s.mp.resetPulses } } := by
  have hdone : startupDone .gaugeRecord (outcomeOf status payload) (handing s) = requestStartup .dropLog { handing s with
      ps := { s.ps with
        coldTotal := if status = 0 ∧ field payload 0 8 = markerGauge then u32At payload 8 else 0 } } := by
    rw [startupDone_gaugeRecord hb]
    by_cases hs : status = 0
    · have hmarker : hasMarker markerGauge 0 payload = true ↔ status = 0 ∧ field payload 0 8 = markerGauge :=
        decide_eq_true_iff.trans (and_iff_right hs).symm
      simp only [outcomeOf_success hs, gaugeRecordRead, hmarker]
      rfl
    · simp only [outcomeOf_failure hs, gaugeRecordRead, if_neg fun h : _ ∧ _ => hs h.1]
      rfl
  obtain ⟨w, n, h⟩ := exec_startup_next .dropLog hc hq hfinal (Or.inr nofun) hdone hp rfl
  exact ⟨_, h, ⟨rfl, rfl⟩, fun hs hm => if_pos ⟨hs, hm⟩, fun hn => if_neg fun ⟨hs, hm⟩ => hn.elim (· hs) (· hm), rfl⟩

theorem dropLog_done {status : Byte} {payload : List Byte} {s : State} {op : MediaOp} (hc : s.mp.current = some op)
    (hp : s.ps.power = .starting) (hb : s.ps.brownedOut = false) (hfinal : status = 0 ∨ 2 ≤ op.attempt)
    (hq : op.requester = .startup .dropLog) :
    ∃ t, exec (.mediaOperationComplete status payload) s = .next t ∧ StartupReads .checkTable 13 4 s t ∧
      (status = 0 → field payload 28 4 = markerDropLog → DropLogRead payload t.mm.log ∧
        t.mm.total = u16At payload 60 ∧ t.mm.lastSeq = u16At payload 62) ∧
      (status ≠ 0 ∨ field payload 28 4 ≠ markerDropLog → t.mm.log = [] ∧ t.mm.total = 0 ∧ t.mm.lastSeq = 0) ∧
      t = { s with ps := { s.ps with startPos := .checkTable }, mp := { t.mp with resetPulses := s.mp.resetPulses }
                   mm := { s.mm with log := t.mm.log, total := t.mm.total, lastSeq := t.mm.lastSeq
                                     pendingRecs := [] } } := by
  have hstep := startupDone_dropLog (r := outcomeOf status payload) hb
  by_cases hlog : status = 0 ∧ field payload 28 4 = markerDropLog
  · obtain ⟨hs, hm⟩ := hlog
    have hdone : startupDone .dropLog (outcomeOf status payload) (handing s) = requestStartup .checkTable
        (takeDropLog (readDropLog payload) (u16At payload 60) (u16At payload 62) (handing s)) := by
      rw [hstep, outcomeOf_success hs, dropLogRead]
      exact congrArg (requestStartup .checkTable) (if_pos (decide_eq_true hm))
    obtain ⟨w, n, h⟩ := exec_startup_next .checkTable hc hq hfinal (Or.inr nofun) hdone hp rfl
    exact ⟨_, h, ⟨rfl, rfl⟩, fun _ _ => ⟨dropLogRead_readDropLog payload, rfl, rfl⟩,
      fun hn => absurd hn (not_or.mpr ⟨not_not_intro hs, not_not_intro hm⟩), rfl⟩
  · have hdone : startupDone .dropLog (outcomeOf status payload) (handing s) = requestStartup .checkTable
        (takeDropLog [] 0 0 (handing s)) := by
      rw [hstep]
      by_cases hs : status = 0
      · have hm : ¬hasMarker markerDropLog 28 payload = true := fun h => hlog ⟨hs, of_decide_eq_true h⟩
        simp only [outcomeOf_success hs, dropLogRead, if_neg hm]
      · simp only [outcomeOf_failure hs, dropLogRead]
    obtain ⟨w, n, h⟩ := exec_startup_next .checkTable hc hq hfinal (Or.inr nofun) hdone hp rfl
    exact ⟨_, h, ⟨rfl, rfl⟩, fun hs hm => absurd ⟨hs, hm⟩ hlog, fun _ => ⟨rfl, rfl, rfl⟩, rfl⟩

theorem checkTable_done {status : Byte} {payload : List Byte} {s : State} {op : MediaOp} (hc : s.mp.current = some op)
    (hp : s.ps.power = .starting) (hb : s.ps.brownedOut = false) (hfinal : status = 0 ∨ 2 ≤ op.attempt)
    (hq : op.requester = .startup .checkTable) :
    ∃ t, exec (.mediaOperationComplete status payload) s = .next t ∧ StartupReads .imageFirst 17 7 s t ∧
      t = { s with ps := { s.ps with
                     startPos := .imageFirst
                     checkRead := if status = 0 then sectorsOf 4 payload else List.replicate 4 zeroSector }
                   mp := { t.mp with resetPulses := s.mp.resetPulses } } := by
  have hdone : startupDone .checkTable (outcomeOf status payload) (handing s) = requestStartup .imageFirst { handing s with
      ps := { s.ps with checkRead := if status = 0 then sectorsOf 4 payload else List.replicate 4 zeroSector } } := by
    rw [startupDone_checkTable hb]
    by_cases hs : status = 0
    · rw [outcomeOf_success hs, if_pos hs]
      rfl
    · rw [outcomeOf_failure hs, if_neg hs]
      rfl
  obtain ⟨w, n, h⟩ := exec_startup_next .imageFirst hc hq hfinal (Or.inr nofun) hdone hp rfl
  exact ⟨_, h, ⟨rfl, rfl⟩, rfl⟩

theorem imageFirst_done {status : Byte} {payload : List Byte} {s : State} {op : MediaOp} (hc : s.mp.current = some op)
    (hp : s.ps.power = .starting) (hb : s.ps.brownedOut = false) (hfinal : status = 0 ∨ 2 ≤ op.attempt)
    (hq : op.requester = .startup .imageFirst) :
    ∃ t, exec (.mediaOperationComplete status payload) s = .next t ∧ StartupReads .imageSecond 24 8 s t ∧
      t = { s with ps := { s.ps with
                     startPos := .imageSecond, imageRead := if status = 0 then some (sectorsOf 7 payload) else none }
                   mp := { t.mp with resetPulses := s.mp.resetPulses } } := by
  have hdone : startupDone .imageFirst (outcomeOf status payload) (handing s) = requestStartup .imageSecond { handing s with
      ps := { s.ps with imageRead := if status = 0 then some (sectorsOf 7 payload) else none } } := by
    rw [startupDone_imageFirst hb]
    by_cases hs : status = 0
    · rw [outcomeOf_success hs, if_pos hs]
      rfl
    · rw [outcomeOf_failure hs, if_neg hs]
      rfl
  obtain ⟨w, n, h⟩ := exec_startup_next .imageSecond hc hq hfinal (Or.inr nofun) hdone hp rfl
  exact ⟨_, h, ⟨rfl, rfl⟩, rfl⟩

/-! ### The obligation -/

/-- Settles O26: every outcome of a start-up operation asks for the next one, whose state `exec_startup_next` gives. -/
theorem capacityFormsTail : Obligations.CapacityFormsTail := by
  unfold Obligations.CapacityFormsTail
  refine ⟨fun payload s op hc hq hp hb => capacity_success hc hq hp hb,
    fun status payload s op hc hp hb hfinal => ⟨mapArea_done hc hp hb hfinal, gaugeRecord_done hc hp hb hfinal,
      dropLog_done hc hp hb hfinal, checkTable_done hc hp hb hfinal, imageFirst_done hc hp hb hfinal⟩,
    fun status payload s op hc hq hp hb hs => ⟨capacity_retried hc hq hs,
      fun hlast => ⟨capacity_failure hc hq hp hb hs hlast, capacity_timeout hc hq hp hb hlast⟩⟩⟩

end Sys2Proof.Machine

/-! What answers a request at its header: R57 before the checks, the nine checks of a WRITE and its check mask, the two
checks of a READ, and an unknown code (R57 to R62, R69, R70). -/

namespace Sys2Proof.Machine

open Sys2Proof

/-! ### Every command has a next state -/

theorem exec_next (c : Instr) (s : State) : ∃ t, exec c s = .next t := by
  cases c <;> exact ⟨_, rfl⟩

/-- Settles O2: a waiting command, a handed-over sense event and the passage of time each have a next state. -/
theorem stepNeverStops : Obligations.StepNeverStops := by
  intro s
  cases hqueue : s.pending with
  | cons c rest => exact step_front hqueue ▸ exec_next c _
  | nil =>
    rw [step_idle hqueue]
    cases hhanded : s.se.handed with
    | cons e rest => exact idleStep_handed hhanded ▸ exec_next _ s
    | nil => exact ⟨_, idleStep_quiet hhanded⟩

/-! ### The answers of R57 -/

/-- R155: a request command is the arrival of its header. -/
theorem exec_requestHeader {c : Instr} {code count : Byte} {sector : Word}
    (h : requestHeader c = some (code, count, sector)) : ∃ go, ∀ s, exec c s = .next (arrive code count sector go s) := by
  cases c <;> cases h <;> exact ⟨_, fun _ => rfl⟩

/-- R57, R160: an answer given before the checks leaves the refusal record as it is. -/
theorem answered_before_checks {c : Instr} {code count : Byte} {sector : Word} {s : State} {a : Answer}
    (hc : requestHeader c = some (code, count, sector)) (ht : takesFrames s = true) (ha : answerBeforeChecks s = some a) :
    ∃ t, exec c s = .next t ∧ Answers t a 0 [] ∧ t = { s with fp := t.fp, mp := (abandonRead s).mp } := by
  obtain ⟨go, hexec⟩ := exec_requestHeader hc
  have harrive : arrive code count sector go s = respond a 0 [] (newRequest code count sector s) := by
    rw [arrive, if_pos ht, ha]
  exact ⟨_, (hexec s).trans (congrArg _ harrive), ⟨rfl, rfl⟩, rfl⟩

/-- Settles O4: media FAULT answers first, STARTING where it does not. -/
theorem answersBeforeService : Obligations.AnswersBeforeService := by
  rintro c ⟨code, count, sector⟩ s hc ht
  refine ⟨fun hm => answered_before_checks hc ht (if_pos hm), fun hm hp => answered_before_checks hc ht ?_⟩
  rw [answerBeforeChecks, if_neg (Bool.eq_false_iff.mp hm), if_pos hp]

/-! ### A refused request (R69, R70) -/

/-- R70, R155, R160: a request refused at its header. -/
theorem refuse_newRequest (a : Answer) (mask : BitVec 9) (code count : Byte) (sector : Word) (s : State) :
    OnlyRequest s (refuse a mask 0 [] (newRequest code count sector s)) ∧
    Answers (refuse a mask 0 [] (newRequest code count sector s)) a 0 [] ∧
    Recorded (refuse a mask 0 [] (newRequest code count sector s)) a code count sector mask 0 ∧
    (refuse a mask 0 [] (newRequest code count sector s)).wc.refusal.uptime = s.uptimeSec ∧
    (refuse a mask 0 [] (newRequest code count sector s)).wc.refusal.wall = wallSeconds s :=
  ⟨rfl, ⟨rfl, rfl⟩, refuse_recorded (s := newRequest code count sector s) rfl, rfl, rfl⟩

/-- Settles O13: an unknown code is refused with the code as it came. -/
theorem unknownCodeRefused : Obligations.UnknownCodeRefused := by
  intro code count sector s hs _
  exact ⟨_, congrArg Host.Outcome.next (arrive_passedOn hs code count sector beginUnknown),
    refuse_newRequest .rangeFormat 1#9 code count sector s⟩

/-! ### The checks, as the statements give them (R58, R60, R61) -/

theorem countFails_iff (count : Byte) : countFails count = true ↔ FormatFails count := by
  simp [countFails, FormatFails]

theorem check2_iff (s : State) (count : Byte) (sector : Word) : check2 s count sector = true ↔ EndFails s count sector :=
  decide_eq_true_iff

theorem check3_iff (s : State) : check3 s = true ↔ s.ps.power = .critical ∨ s.ps.power = .holdup := by
  simp [check3]

theorem check4_iff (s : State) (count : Byte) (sector : Word) :
    check4 s count sector = true ↔ OwnedFails s count sector := by
  simp [check4, rangeSectors, OwnedFails, and_assoc]

/-- Two members of a list differ just where one differs from its head. -/
theorem any_ne_head?_iff {α : Type} [DecidableEq α] (l : List α) :
    (l.any fun c => some c != l.head?) = true ↔ ∃ c ∈ l, ∃ d ∈ l, c ≠ d := by
  cases l with
  | nil => simp
  | cons a l =>
    simp only [List.head?_cons, List.any_eq_true, bne_iff_ne, ne_eq, Option.some.injEq]
    refine ⟨fun ⟨c, hc, hne⟩ => ⟨c, hc, a, List.mem_cons_self, hne⟩, fun ⟨c, hc, d, hd, hne⟩ => ?_⟩
    by_cases hca : c = a
    · exact ⟨d, hd, fun hda => hne (hca.trans hda.symm)⟩
    · exact ⟨c, hc, hca⟩

/-- R60: the categories that a range covers below the working capacity. -/
theorem mem_rangeCategories (s : State) (count : Byte) (sector : Word) (c : Category) :
    c ∈ ((rangeSectors sector count).filter fun n => n < s.ps.capacity).filterMap (categoryOf s) ↔
      ∃ i, i < count.toNat ∧ sector.toNat + i < s.ps.capacity ∧ categoryOf s (sector.toNat + i) = some c := by
  simp [rangeSectors, and_assoc]

theorem check7_iff (s : State) (count : Byte) (sector : Word) :
    check7 s count sector = true ↔ SpanFails s count sector := by
  rw [check7, any_ne_head?_iff]
  simp only [mem_rangeCategories, SpanFails]
  constructor
  · rintro ⟨c, ⟨i, hi, hil, hic⟩, d, ⟨j, hj, hjl, hjd⟩, hne⟩
    exact ⟨i, j, c, d, hi, hj, hil, hjl, hic, hjd, hne⟩
  · rintro ⟨i, j, c, d, hi, hj, hil, hjl, hic, hjd, hne⟩
    exact ⟨c, ⟨i, hi, hil, hic⟩, d, ⟨j, hj, hjl, hjd⟩, hne⟩

theorem targetZone_eq_some_iff (s : State) (count : Byte) (sector : Word) (k : Nat) :
    targetZone s count sector = some k ↔ 0 < count.toNat ∧ zoneOf s.zu.zones sector.toNat = some k := by
  by_cases h : count.toNat = 0 <;> simp [targetZone, h, Nat.pos_iff_ne_zero]

theorem check8_iff (s : State) (count : Byte) (sector : Word) :
    check8 s count sector = true ↔ ClosedFails s count sector := by
  rw [ClosedFails, ← exists_and_left]
  simp only [← and_assoc, ← targetZone_eq_some_iff]
  cases h : targetZone s count sector <;> simp [check8, h]

/-- R61: the zone that a request's first sector lies in is one. -/
theorem not_closedFails_of_openAt {s : State} {count : Byte} {sector : Word} {mark : Nat} (h : OpenAt s count sector mark) :
    ¬ClosedFails s count sector := by
  obtain ⟨-, k, hk, hopen, -⟩ := h
  rintro ⟨-, j, hj, hclosed⟩
  obtain rfl := Option.some.inj (hk.symm.trans hj)
  cases hopen.symm.trans hclosed

/-- R61: check 9 in an OPEN target zone compares the sector number with the fill mark. -/
theorem check9_of_openAt {s : State} {count : Byte} {sector : Word} {mark : Nat} (h : OpenAt s count sector mark) :
    check9 s count sector = if sector.toNat < mark then some .sequenceBehind
      else if mark < sector.toNat then some .sequenceAhead else none := by
  obtain ⟨hc, k, hk, hopen, rfl⟩ := h
  rw [check9, (targetZone_eq_some_iff ..).mpr ⟨hc, hk⟩]
  exact if_pos hopen

/-- R61: outside an OPEN zone check 9 passes. -/
theorem check9_of_not_openAt {s : State} {count : Byte} {sector : Word} (h : ∀ mark, ¬OpenAt s count sector mark) :
    check9 s count sector = none := by
  cases hz : targetZone s count sector with
  | none => rw [check9, hz]
  | some k =>
    obtain ⟨hc, hk⟩ := (targetZone_eq_some_iff ..).mp hz
    rw [check9, hz]
    exact if_neg fun hopen => h _ ⟨hc, k, hk, hopen, rfl⟩

theorem check9_eq_none_iff (s : State) (count : Byte) (sector : Word) :
    check9 s count sector = none ↔ ∀ mark, OpenAt s count sector mark → sector.toNat = mark := by
  by_cases h : ∃ mark, OpenAt s count sector mark
  · obtain ⟨mark, h⟩ := h
    have hone : ∀ m, OpenAt s count sector m → m = mark := fun m hm => by
      obtain ⟨-, k, hk, -, rfl⟩ := h
      obtain ⟨-, j, hj, -, rfl⟩ := hm
      rw [Option.some.inj (hj.symm.trans hk)]
    rw [check9_of_openAt h]
    constructor
    · intro hnone m hm
      rw [hone m hm]
      split_ifs at hnone
      omega
    · intro hall
      simp [hall mark h]
  · have hnot := not_exists.mp h
    exact ⟨fun _ mark hm => absurd hm (hnot mark), fun _ => check9_of_not_openAt hnot⟩

/-! ### The check mask (R62) -/

/-- Bit `i` of a flag byte is its flag `i`. -/
theorem testBit_flagByte (flags : List Bool) (i : Nat) : (flagByte flags).testBit i = flags.getD i false := by
  induction flags generalizing i with
  | nil => simp [flagByte]
  | cons b flags ih =>
    cases i with
    | zero => cases b <;> simp [flagByte, Nat.testBit_zero]
    | succ i =>
      have hhalf : flagByte (b :: flags) / 2 = flagByte flags := by
        cases b
        · simp [flagByte]
        · simp only [flagByte, if_true]
          omega
      rw [Nat.testBit_succ, hhalf, ih, List.getD_cons_succ]

theorem getLsbD_maskOf (fails : List Bool) {i : Nat} (h : i < 9) : (maskOf fails).getLsbD i = fails.getD i false := by
  rw [maskOf, BitVec.getLsbD_ofNat, testBit_flagByte, decide_eq_true h, Bool.true_and]

/-- R62: every failing check has its flag in the mask of a WRITE. -/
theorem writeMask_flags (s : State) (count : Byte) (sector : Word) :
    ((writeMask s count sector).getLsbD 0 = true ↔ FormatFails count) ∧
    ((writeMask s count sector).getLsbD 1 = true ↔ EndFails s count sector) ∧
    ((writeMask s count sector).getLsbD 2 = true ↔ s.ps.power = .critical ∨ s.ps.power = .holdup) ∧
    ((writeMask s count sector).getLsbD 3 = true ↔ OwnedFails s count sector) ∧
    ((writeMask s count sector).getLsbD 4 = true ↔ s.wc.slider = true) ∧
    ((writeMask s count sector).getLsbD 5 = true ↔ s.zu.readOnly = true) ∧
    ((writeMask s count sector).getLsbD 6 = true ↔ SpanFails s count sector) ∧
    ((writeMask s count sector).getLsbD 7 = true ↔ ClosedFails s count sector) ∧
    ((writeMask s count sector).getLsbD 8 = true ↔ ∃ mark, OpenAt s count sector mark ∧ sector.toNat ≠ mark) := by
  have hflag : ∀ i, i < 9 → (writeMask s count sector).getLsbD i = [countFails count, check2 s count sector, check3 s,
      check4 s count sector, s.wc.slider, s.zu.readOnly, check7 s count sector, check8 s count sector,
      (check9 s count sector).isSome].getD i false := fun i hi => getLsbD_maskOf _ hi
  refine ⟨?_, ?_, ?_, ?_, ?_, ?_, ?_, ?_, ?_⟩ <;> rw [hflag _ (by omega)]
  · exact countFails_iff count
  · exact check2_iff s count sector
  · exact check3_iff s
  · exact check4_iff s count sector
  · rfl
  · rfl
  · exact check7_iff s count sector
  · exact check8_iff s count sector
  · change (check9 s count sector).isSome = true ↔ _
    rw [Option.isSome_iff_ne_none, ne_eq, check9_eq_none_iff]
    simp

/-! ### A WRITE at its header (R58) -/

theorem exec_write {s : State} (hs : PassedOn s) (count : Byte) (sector : Word) :
    exec (.write count sector) s = .next (beginWrite count sector (newRequest 2 count sector s)) :=
  congrArg Host.Outcome.next (arrive_passedOn hs 2 count sector (beginWrite count sector))

/-- R58: the checks do not look at the ports. -/
theorem exec_write_refused {s : State} {count : Byte} {sector : Word} {a : Answer} (hs : PassedOn s)
    (h : writeRefusalOf s count sector = some a) : exec (.write count sector) s =
      .next (refuse a (writeMask s count sector) 0 [] (newRequest 2 count sector s)) := by
  have h' : writeRefusalOf (newRequest 2 count sector s) count sector = some a := h
  rw [exec_write hs, beginWrite, h']
  rfl

theorem exec_write_taken {s : State} {count : Byte} {sector : Word} (hs : PassedOn s)
    (h : writeRefusalOf s count sector = none) : exec (.write count sector) s = .next
      { s with
        fp := { FrontPort.reset with
          port := .taking, req := some { code := 2, count := count, sector := sector, taken := 0 } }
        mp := (abandonRead s).mp } := by
  have h' : writeRefusalOf (newRequest 2 count sector s) count sector = none := h
  rw [exec_write hs, beginWrite, h']
  rfl

/-- R58: a WRITE is answered with its first failing check, or taken. -/
theorem exec_write_answered {s : State} (hs : PassedOn s) (count : Byte) (sector : Word) :
    ∃ t, exec (.write count sector) s = .next t ∧ OnlyRequest s t ∧
      (∀ a, writeRefusalOf s count sector = some a → Answers t a 0 []) ∧
      (writeRefusalOf s count sector = none →
        t.fp = { FrontPort.reset with
          port := .taking, req := some { code := 2, count := count, sector := sector, taken := 0 } } ∧
        t.wc = s.wc) := by
  cases h : writeRefusalOf s count sector with
  | none => exact ⟨_, exec_write_taken hs h, rfl, nofun, fun _ => ⟨rfl, rfl⟩⟩
  | some a =>
    obtain ⟨honly, hans, -⟩ := refuse_newRequest a (writeMask s count sector) 2 count sector s
    exact ⟨_, exec_write_refused hs h, honly, fun b hb => Option.some.inj hb ▸ hans, nofun⟩

/-- Settles O6. -/
theorem refusedWriteRecorded : Obligations.RefusedWriteRecorded := by
  intro count sector s a hs h
  obtain ⟨honly, hans, hrec, huptime, hwall⟩ := refuse_newRequest a (writeMask s count sector) 2 count sector s
  exact ⟨_, exec_write_refused hs h, honly, hans, hrec, huptime, hwall, writeMask_flags s count sector⟩

/-! ### The first failing check of a WRITE (R58) -/

open Classical in
/-- R58: the checks in their order, each as the statements give it. -/
theorem writeRefusalOf_eq (s : State) (count : Byte) (sector : Word) :
    writeRefusalOf s count sector =
      if FormatFails count then some .rangeFormat
      else if EndFails s count sector then some .rangeEnd
      else if s.ps.power = .critical ∨ s.ps.power = .holdup then some (powerAnswer s.ps.power)
      else if OwnedFails s count sector then some .protectedOwned
      else if s.wc.slider = true then some .protectedSwitch
      else if s.zu.readOnly = true then some .protectedNomap
      else if SpanFails s count sector then some .rangeSpan
      else if ClosedFails s count sector then some .protectedClosed
      else check9 s count sector := by
  simp only [writeRefusalOf, countFails_iff, check2_iff, check3_iff, check4_iff, check7_iff, check8_iff]

/-- Settles O5: along the order of the checks. -/
theorem writeFirstFailingCheck : Obligations.WriteFirstFailingCheck := by
  intro count sector s hs
  obtain ⟨t, hexec, honly, hans, htaken⟩ := exec_write_answered hs count sector
  rw [writeRefusalOf_eq] at hans htaken
  refine ⟨t, hexec, honly, fun hf => hans _ (if_pos hf), fun hf he => ?_, fun hf he => ?_⟩
  · exact hans _ ((if_neg hf).trans (if_pos he))
  rw [if_neg hf, if_neg he] at hans htaken
  refine ⟨fun hp => hans _ (by simp [hp, powerAnswer]), fun hp => hans _ (by simp [hp, powerAnswer]), fun hc hh => ?_⟩
  rw [if_neg (not_or.mpr ⟨hc, hh⟩)] at hans htaken
  refine ⟨fun ho => hans _ (if_pos ho), fun ho => ?_⟩
  rw [if_neg ho] at hans htaken
  refine ⟨fun hsl => hans _ (if_pos hsl), fun hsl hro => hans _ (by simp [hsl, hro]), fun hsl hro => ?_⟩
  rw [if_neg (Bool.eq_false_iff.mp hsl), if_neg (Bool.eq_false_iff.mp hro)] at hans htaken
  refine ⟨fun hsp => hans _ (if_pos hsp), fun hsp => ?_⟩
  rw [if_neg hsp] at hans htaken
  refine ⟨fun hcl => hans _ (if_pos hcl), fun mark hopen => ?_, fun hcl hall => htaken ?_⟩
  · rw [if_neg (not_closedFails_of_openAt hopen), check9_of_openAt hopen] at hans
    exact ⟨fun hlt => hans _ (if_pos hlt), fun hgt => hans _ (by simp [hgt, Nat.lt_asymm hgt])⟩
  · rw [if_neg hcl, check9_eq_none_iff]
    exact hall

/-! ### A READ at its header (R59) -/

theorem exec_read {s : State} (hs : PassedOn s) (count : Byte) (sector : Word) :
    exec (.read count sector) s = .next (beginRead count sector (newRequest 1 count sector s)) :=
  congrArg Host.Outcome.next (arrive_passedOn hs 1 count sector (beginRead count sector))

/-- R59, R62: a READ refused by a check, its mask being `m`. -/
theorem exec_read_refused {s : State} {count : Byte} {sector : Word} {a : Answer} {m : BitVec 9} (hs : PassedOn s)
    (h : readRefusalOf s count sector = some a) (hm : readMask s count sector = m) :
    ∃ t, exec (.read count sector) s = .next t ∧ OnlyRequest s t ∧ Answers t a 0 [] ∧
      Recorded t a 1 count sector m 0 := by
  have h' : readRefusalOf (newRequest 1 count sector s) count sector = some a := h
  have hm' : readMask (newRequest 1 count sector s) count sector = m := hm
  obtain ⟨honly, hans, hrec, -⟩ := refuse_newRequest a m 1 count sector s
  refine ⟨_, ?_, honly, hans, hrec⟩
  rw [exec_read hs, beginRead, h', ← hm']

/-- R59: in HOLDUP a READ that passes its checks is answered at once, with no flag. -/
theorem exec_read_holdup {s : State} {count : Byte} {sector : Word} (hs : PassedOn s)
    (h : readRefusalOf s count sector = none) (hp : s.ps.power = .holdup) : exec (.read count sector) s =
      .next (refuse .powerHoldup 0 0 [] (newRequest 1 count sector s)) := by
  have h' : readRefusalOf (newRequest 1 count sector s) count sector = none := h
  rw [exec_read hs, beginRead, h']
  exact congrArg _ (if_pos hp)

/-- Settles O7, by the two checks. -/
theorem readRefused : Obligations.ReadRefused := by
  intro count sector s hs
  have hfirst : readRefusalOf s count sector = if countFails count = true then some .rangeFormat
      else if check2 s count sector = true then some .rangeEnd else none := rfl
  have hmask : readMask s count sector = maskOf [countFails count, check2 s count sector] := rfl
  rw [← countFails_iff, ← check2_iff]
  cases hf : countFails count <;> cases he : check2 s count sector <;> rw [hf, he] at hfirst hmask
  case true.true =>
    obtain ⟨t, hexec, honly, hans, hrec⟩ := exec_read_refused hs hfirst hmask
    exact ⟨t, hexec, fun _ => ⟨honly, hans, fun _ => hrec, fun h => absurd rfl h⟩, fun h => absurd rfl h,
      fun h => absurd rfl h⟩
  case true.false =>
    obtain ⟨t, hexec, honly, hans, hrec⟩ := exec_read_refused hs hfirst hmask
    exact ⟨t, hexec, fun _ => ⟨honly, hans, nofun, fun _ => hrec⟩, nofun, fun h => absurd rfl h⟩
  case false.true =>
    obtain ⟨t, hexec, honly, hans, hrec⟩ := exec_read_refused hs hfirst hmask
    exact ⟨t, hexec, nofun, fun _ _ => ⟨honly, hans, hrec⟩, fun _ h => absurd rfl h⟩
  case false.false =>
    by_cases hp : s.ps.power = .holdup
    · obtain ⟨honly, hans, hrec, -⟩ := refuse_newRequest .powerHoldup 0 1 count sector s
      exact ⟨_, exec_read_holdup hs hfirst hp, nofun, nofun, fun _ _ _ => ⟨honly, hans, hrec⟩⟩
    · exact ⟨_, exec_read hs count sector, nofun, nofun, fun _ _ h => absurd h hp⟩

end Sys2Proof.Machine

/-! The write-protect slider (R63, R66, R67, R70). -/

namespace Sys2Proof.Machine

open Sys2Proof

/-! ### A change of WP (R66) -/

theorem noteSlider_cancels {s : State} (hoff : s.ps.power ≠ .off) (h : s.pins.wp = s.wc.slider) :
    noteSlider s = { s with wc := { s.wc with debounce := none } } := by
  rw [noteSlider, if_neg hoff, if_pos h]

theorem noteSlider_starts {s : State} (hoff : s.ps.power ≠ .off) (h : s.pins.wp ≠ s.wc.slider) :
    noteSlider s = { s with wc := { s.wc with debounce := some { start := s.uptimeMs, level := s.pins.wp } } } := by
  rw [noteSlider, if_neg hoff, if_neg h]

/-- Settles O40: the changed level is compared with the debounced state. -/
theorem sliderQualified : Obligations.SliderQualified := by
  refine fun s hoff => ⟨fun h => congrArg Host.Outcome.next ?_, fun h => congrArg Host.Outcome.next ?_⟩
  · exact noteSlider_starts (s := { s with pins := { s.pins with wp := !s.pins.wp } }) hoff (by simp [h])
  · exact noteSlider_cancels (s := { s with pins := { s.pins with wp := !s.pins.wp } }) hoff (Bool.not_eq.mpr h)

/-! ### The end of a transfer (R63) -/

/-- R63: a transfer in progress ends as a refusal, with the count taken. -/
theorem endTransfer_inTransfer {s : State} {r : Request} (hr : s.fp.req = some r)
    (hp : s.fp.port = .taking ∨ s.fp.port = .held) (a : Answer) (mask : BitVec 9) :
    endTransfer a mask s = refuse a mask r.taken [] s := by
  rw [← takenCount_of_req hr]
  obtain hp | hp := hp <;> rw [endTransfer, hp]

/-- R63: no other request ends. -/
theorem endTransfer_elsewhere {s : State} (ht : s.fp.port ≠ .taking) (hh : s.fp.port ≠ .held) (a : Answer)
    (mask : BitVec 9) : endTransfer a mask s = s := by
  unfold endTransfer
  split
  · next h => exact absurd h ht
  · next h => exact absurd h hh
  · rfl

theorem endTransfer_eq (a : Answer) (mask : BitVec 9) (s : State) :
    endTransfer a mask s = { s with
      fp := (endTransfer a mask s).fp, wc := { s.wc with refusal := (endTransfer a mask s).wc.refusal } } := by
  unfold endTransfer
  split
  · exact refuse_eq a mask (takenCount s) [] s
  · exact refuse_eq a mask (takenCount s) [] s
  · rfl

/-! ### The expiry (R66, R67) -/

/-- The debounced slider takes a level. -/
def sliderSet (level : Bool) (s : State) : State :=
  { s with wc := { s.wc with slider := level, debounce := none } }

theorem takeSlider_eq (level : Bool) (s : State) : takeSlider level s =
    if level = true then endTransfer .protectedSwitch (maskFlag 5) (sliderSet level s) else sliderSet level s :=
  rfl

/-- R66, R67: the effect of a qualified level. -/
theorem takeSlider_spec (level : Bool) (s : State) :
    (takeSlider level s).wc.slider = level ∧ (takeSlider level s).wc.debounce = none ∧
    (∀ r, level = true → s.fp.req = some r → s.fp.port = .taking ∨ s.fp.port = .held →
      Answers (takeSlider level s) .protectedSwitch r.taken [] ∧
      Recorded (takeSlider level s) .protectedSwitch r.code r.count r.sector 16#9 r.taken ∧
      (takeSlider level s).fp.held = none) ∧
    (level = false ∨ (s.fp.port ≠ .taking ∧ s.fp.port ≠ .held) →
      (takeSlider level s).fp = s.fp ∧ (takeSlider level s).wc.refusal = s.wc.refusal) ∧
    takeSlider level s = { s with fp := (takeSlider level s).fp, wc := (takeSlider level s).wc } := by
  rw [takeSlider_eq]
  cases level with
  | false => exact ⟨rfl, rfl, nofun, fun _ => ⟨rfl, rfl⟩, rfl⟩
  | true =>
    rw [if_pos rfl]
    have heq := endTransfer_eq .protectedSwitch (maskFlag 5) (sliderSet true s)
    refine ⟨?_, ?_, fun r _ hr hp => ?_, fun h => ?_, ?_⟩
    · rw [heq]; rfl
    · rw [heq]; rfl
    · rw [endTransfer_inTransfer (s := sliderSet true s) hr hp]
      exact ⟨⟨rfl, rfl⟩, refuse_recorded (s := sliderSet true s) hr, rfl⟩
    · obtain ⟨ht, hh⟩ := h.resolve_left nofun
      rw [endTransfer_elsewhere (s := sliderSet true s) ht hh]
      exact ⟨rfl, rfl⟩
    · rw [heq]; rfl

/-- Settles O41: the level takes effect in the state that the wait ends in. -/
theorem sliderTakesEffect : Obligations.SliderTakesEffect := by
  intro s d hoff hd
  have hexec : exec .wpDebounceExpiry s = .next (takeSlider d.level (waitUntil (d.start + 20) s)) := by
    simp only [exec, execWpDebounceExpiry, hd, if_neg hoff]
  obtain ⟨hslider, hdebounce, hends, hkeeps, heq⟩ := takeSlider_spec d.level (waitUntil (d.start + 20) s)
  have hfp : (waitUntil (d.start + 20) s).fp = s.fp := by simp
  have hwc : (waitUntil (d.start + 20) s).wc = s.wc := by simp
  rw [hfp] at hends hkeeps
  rw [hwc] at hkeeps
  refine ⟨_, hexec, hslider, hdebounce, fun h => ?_, hends, hkeeps, heq⟩
  rw [heq]
  exact waitUntil_uptimeMs _ s h

end Sys2Proof.Machine

/-! A gauge sample that changes the power state, where offers fail as in the statements about twin RECORD lines above: no run
of the part reaches such a pair, and the statement names no premise that excludes it (R5, R7, R17, R120, R122, R174). -/

namespace Sys2Proof.Machine

open Sys2Proof

/-- Refutes O56: the sample of 0 mV and 0 mA leaves RC 0, and the SOC computed, 0, takes the part from NORMAL to CRITICAL; there
offset 11 is offered in vain before MP's grant, which makes it admissible, so the report of the new state is not as stated. -/
theorem not_sampleIntegrates : ¬Obligations.SampleIntegrates := by
  rintro ⟨-, hevery, -⟩
  obtain ⟨u, -, -, hex, -, hreport, -⟩ :=
    hevery 0 0 0 (gaugeTwins emptyingGauge) _ (by decide) (by decide) (fun h => by cases h) rfl rfl rfl
  have hu := endState_of_next hex
  have hcritical : u.ps.power = .critical := by rw [hu]; decide +kernel
  obtain ⟨-, -, -, hoffers, -⟩ := hreport (by rw [hcritical]; decide)
  have hmade := hoffers (.inr hcritical) rfl (tablesSized_gaugeTwins _) ⟨11, by omega, by omega, by decide⟩
  refine not_offersMade_of_eval hmade hex (o := 11) (by omega) (by omega) trivial (by decide +kernel) fun p hp _ => ?_
  interval_cases p <;> decide +kernel

end Sys2Proof.Machine

/-! The end of start-up's image decision, where offers fail as in the statements about twin RECORD lines above: no run of the
part reaches such a pair, and the statement names no premise that excludes it (R5, R7, R17, R148, R152, R174). -/

namespace Sys2Proof.Machine

open Sys2Proof

/-- The second image read of start-up, in progress. -/
def imageSecondOp : MediaOp :=
  { kind := .read, sector := 56, count := 8, data := [], requester := .startup .imageSecond, attempt := 1, start := 0
    abandoned := false }

/-- A read-only part in STARTING at that read, the first one failed, with the lines of `gaugeTwins`. -/
def decidingTwins : State :=
  { gaugeTwins Gauge.reset with
    zu := { ZoneUnit.reset with readOnly := true }
    ps := { PowerSup.reset with startPos := .imageSecond, capacity := 64 }
    mp := { MediaPort.reset with current := some imageSecondOp } }

theorem tablesSized_decidingTwins : TablesSized decidingTwins :=
  tablesSized_gaugeTwins Gauge.reset

/-- Refutes O34: the first service of the part, read-only and its gauge not set, is in LOW, which marks all six sectors;
there offset 11 is offered in vain before MP's grant, which makes it admissible, so the offers are not as stated. -/
theorem not_emptyStagingSaves : ¬Obligations.EmptyStagingSaves := by
  rintro ⟨-, hdecision⟩
  obtain ⟨t, -, hex, -, -, -, -, -, -, hserved⟩ :=
    hdecision 0 [] decidingTwins imageSecondOp _ rfl rfl rfl rfl (.inl rfl) (by decide) tablesSized_decidingTwins rfl rfl rfl
  obtain ⟨-, -, -, -, -, -, -, -, -, hoffers⟩ := hserved (.inl rfl)
  have ht := endState_of_next hex
  have hlow : t.ps.power = .low := by rw [ht]; decide +kernel
  have hmade := hoffers (by rw [ht]; decide +kernel) tablesSized_decidingTwins
  refine not_offersMade_of_eval hmade hex (o := 11) (by omega) (by omega) (.inl hlow) (by decide +kernel) fun p hp _ => ?_
  interval_cases p <;> decide +kernel

end Sys2Proof.Machine

/-! The recording of a drop as a whole: the log and the pending records, the record and the zones that count it (R77, R98 to
R101). -/

namespace Sys2Proof.Machine

open Sys2Proof

/-- R100: below sixteen records the ring keeps them all. -/
theorem appendRing_of_lt (r : DropRecord) {log : List DropRecord} (h : log.length < 16) : appendRing r log = log ++ [r] := by
  rw [appendRing, if_pos h]

/-- R100: a full ring gives up its oldest record. -/
theorem appendRing_of_full (r : DropRecord) {log : List DropRecord} (h : 16 ≤ log.length) :
    appendRing r log = log.drop 1 ++ [r] := by
  rw [appendRing, if_neg (Nat.not_lt.mpr h)]

@[simp] theorem zoneNames_length (zs : List Nat) : (zoneNames zs).length = 4 := by
  simp [zoneNames]

/-- R77: place `n` names the zone of that number among the lowest, or nothing, which is 255. -/
theorem zoneNames_getElem? (zs : List Nat) {n : Nat} (h : n < 4) : (zoneNames zs)[n]? = some (zs.getD n 255) := by
  rw [zoneNames, List.getElem?_take_of_lt h, List.getD_eq_getElem?_getD]
  obtain hin | hout := Nat.lt_or_ge n zs.length
  · rw [List.getElem?_append_left hin, List.getElem?_eq_getElem hin, Option.getD_some]
  · rw [List.getElem?_append_right hout, List.getElem?_eq_none hout, Option.getD_none]
    exact List.getElem?_replicate_of_lt (n := 4) (by omega)

/-- Settles O50: MM enters the record that R98 forms, and every OPEN zone counts it. -/
theorem dropRecorded : Obligations.DropRecorded := by
  intro o s hs
  have hmm := recordDrop_mm o s
  have hlog : (recordDrop o s).mm.log = appendRing (formDrop o s) s.mm.log := by rw [hmm]; rfl
  have hrecs : (recordDrop o s).mm.pendingRecs = appendRing (formDrop o s) s.mm.pendingRecs := by rw [hmm]; rfl
  refine ⟨fun h => hlog.trans (appendRing_of_lt _ h), fun h => hlog.trans (appendRing_of_full _ h),
    fun h => hrecs.trans (appendRing_of_lt _ h), fun h => hrecs.trans (appendRing_of_full _ h), rfl, rfl, rfl, rfl,
    fun _ => formDrop_recorded o s, ?zones, by rw [hmm]; rfl, by rw [hmm]; rfl, rfl, fun p => (sets_recordDrop o s p).1,
    fun p => (sets_recordDrop o s p).2, fun k _ hk => ?opened, fun k _ hk => ?other⟩
  case zones =>
    rintro zs rfl
    exact ⟨rfl, zoneNames_length (openZones s), fun n hn => zoneNames_getElem? (openZones s) hn⟩
  case opened => simp only [runtimeAt_recordDrop hs, if_pos hk, and_self]
  case other => simp only [runtimeAt_recordDrop hs, if_neg hk]

end Sys2Proof.Machine

/-! The live window: each field of the live status (R169, R170, section 11.6), and the READ of one of its sectors, which
clears the ATTN latch where it forms the live status (R158, R172). -/

namespace Sys2Proof.Machine

open Sys2Proof

/-! ### The live status -/

/-- The fields of the live status, section 11.6. -/
def liveStatusFields (s : State) : List (Nat × List Byte) :=
  [(0, markerLive), (8, le 1 s.ps.power.code), (9, le 1 s.bg.soc), (10, le 1 s.bg.flagBits), (11, le 1 s.bg.band),
    (12, le 4 (s.bg.rc / 3600000)), (16, le16s s.bg.iavg), (18, shownSample s), (22, le 2 s.bg.runtime),
    (24, le 4 (cycleCount s)), (28, le 4 s.bg.total), (32, le 2 s.sm.vcap), (34, le 1 s.sm.budget), (35, le 1 s.sm.limit),
    (36, le 1 (dirtyCost s.sb.lines)), (37, le 1 (freeCount s.sb.lines)), (38, le 1 s.sm.mode.code),
    (39, le 1 (bit (overCommit s))), (40, le 1 s.mm.motion.code), (41, le 1 s.ps.cause.code), (42, le 2 s.mm.total),
    (44, le 2 s.mm.lastSeq),
    (46, le 2 s.se.noAck ++ le 2 s.se.arbLost ++ le 2 s.se.busError ++ le 2 s.se.timeout ++ le 2 s.se.pecBad),
    (56, le 2 s.sb.lostCount), (58, le 4 s.sb.lastLost), (62, le 1 (bit s.sb.deferred)), (63, le 1 (bit s.zu.readOnly)),
    (64, le 1 s.zu.ignored), (65, le 1 (bit s.ru.attn)), (68, le 4 s.uptimeSec.toNat), (72, le 4 (wallSeconds s).toNat),
    (80, le 1 s.wc.refusal.answer.status), (81, le 1 s.wc.refusal.answer.subclass), (82, [s.wc.refusal.code]),
    (83, [s.wc.refusal.count]), (84, le 2 s.wc.refusal.mask.toNat), (86, le 1 s.wc.refusal.taken),
    (88, le 4 s.wc.refusal.sector.toNat), (92, le 4 s.wc.refusal.uptime.toNat), (96, le 4 s.wc.refusal.wall.toNat)]

theorem liveStatus_eq_layout (s : State) : liveStatus s = layout 512 (liveStatusFields s) :=
  rfl

theorem markerLive_length : markerLive.length = 8 := by decide

@[simp] theorem shownSample_length (s : State) : (shownSample s).length = 4 := by
  unfold shownSample
  split <;> simp

/-- R170: with a good sample its V and T are shown. -/
theorem shownSample_some {s : State} {x : GaugeSample} (h : s.bg.last = some x) :
    shownSample s = le16s x.v ++ le16s x.t := by
  simp [shownSample, h]

theorem liveStatusFields_fit (s : State) : FieldsFrom 512 0 (liveStatusFields s) := by
  simp [liveStatusFields, FieldsFrom, markerLive_length]

theorem liveStatus_field {s : State} {off : Nat} {bs : List Byte} (h : (off, bs) ∈ liveStatusFields s) :
    field (liveStatus s) off bs.length = bs :=
  layout_field (liveStatusFields_fit s) h

/-- A number among the fields. -/
theorem liveStatus_number {s : State} {off k n : Nat} (h : (off, le k n) ∈ liveStatusFields s) :
    field (liveStatus s) off k = le k n := by
  simpa using liveStatus_field h

/-- A code or a flag among the fields. -/
theorem liveStatus_code {s : State} {off n : Nat} (h : (off, le 1 n) ∈ liveStatusFields s) :
    u8At (liveStatus s) off = n % 256 :=
  u8At_of_le_one (liveStatus_number h)

/-- The first part of two. -/
theorem field_append_first {a b : List Byte} {n : Nat} (h : a.length = n) : field (a ++ b) 0 n = a := by
  simp [field, ← h]

/-- The second part of two. -/
theorem field_append_rest {a b : List Byte} {n m : Nat} (ha : a.length = n) (hb : b.length = m) :
    field (a ++ b) n m = b := by
  simp [field, ← ha, ← hb]

theorem bit_mod (b : Bool) : bit b % 256 = b.toNat := by cases b <;> rfl

theorem statusGauge_liveStatus (s : State) : StatusGauge s (liveStatus s) := by
  have hmarker := liveStatus_field (s := s) (off := 0) (bs := markerLive) (by simp [liveStatusFields])
  rw [markerLive_length] at hmarker
  have hpower := liveStatus_code (s := s) (off := 8) (n := s.ps.power.code) (by simp [liveStatusFields])
  have hflags := liveStatus_number (s := s) (off := 10) (k := 1) (n := s.bg.flagBits) (by simp [liveStatusFields])
  have hsample := liveStatus_field (s := s) (off := 18) (bs := shownSample s) (by simp [liveStatusFields])
  have hbyte := byteAt_of_le_one hflags
  obtain ⟨hlt, h0, h1, h2, h3, h4⟩ :=
    flagByte_five s.bg.flagStale s.bg.flagUnknown s.bg.flagUncertain s.bg.isSet (charging s.bg)
  refine ⟨layout_length_of_fieldsFrom (liveStatusFields_fit s), hmarker, ?_, ?_, ?_,
    liveStatus_number (by simp [liveStatusFields]), by rw [hbyte]; exact h0, by rw [hbyte]; exact h1,
    by rw [hbyte]; exact h2, by rw [hbyte]; exact h3, ?_, ?_, liveStatus_number (by simp [liveStatusFields]),
    liveStatus_number (by simp [liveStatusFields]), ?_, fun x hx => ?_,
    liveStatus_number (by simp [liveStatusFields]), liveStatus_number (by simp [liveStatusFields, cycleCount]),
    liveStatus_number (by simp [liveStatusFields])⟩
  · intro h; rw [hpower, h]; rfl
  · intro h; rw [hpower, h]; rfl
  · intro h; rw [hpower, h]; rfl
  · have hc : (BitVec.ofNat 8 s.bg.flagBits).getLsbD 4 = charging s.bg := h4
    rw [hbyte, hc, charging, decide_eq_true_eq]
  · have hb : s.bg.flagBits < 32 := hlt
    rw [u8At_of_le_one hflags]
    omega
  · exact liveStatus_field (bs := le16s _) (by simp [liveStatusFields])
  · rw [shownSample_length, shownSample_some hx] at hsample
    have hpart : ∀ b, b + 2 ≤ 4 → field (liveStatus s) (18 + b) 2 = field (le16s x.v ++ le16s x.t) b 2 := fun b hb => by
      rw [← hsample, field_field hb]
    exact ⟨(hpart 0 (by omega)).trans (field_append_first (by simp)),
      (hpart 2 (by omega)).trans (field_append_rest (by simp) (by simp))⟩

theorem statusSupply_liveStatus (s : State) : StatusSupply s (liveStatus s) := by
  have hmode := liveStatus_code (s := s) (off := 38) (n := s.sm.mode.code) (by simp [liveStatusFields])
  have hover := liveStatus_code (s := s) (off := 39) (n := bit (overCommit s)) (by simp [liveStatusFields])
  have hmotion := liveStatus_code (s := s) (off := 40) (n := s.mm.motion.code) (by simp [liveStatusFields])
  have hcause := liveStatus_code (s := s) (off := 41) (n := s.ps.cause.code) (by simp [liveStatusFields])
  have hdeferred := liveStatus_code (s := s) (off := 62) (n := bit s.sb.deferred) (by simp [liveStatusFields])
  have hreadOnly := liveStatus_code (s := s) (off := 63) (n := bit s.zu.readOnly) (by simp [liveStatusFields])
  have hattn := liveStatus_code (s := s) (off := 65) (n := bit s.ru.attn) (by simp [liveStatusFields])
  have hsense := liveStatus_field (s := s) (off := 46) (bs := le 2 s.se.noAck ++ le 2 s.se.arbLost ++
    le 2 s.se.busError ++ le 2 s.se.timeout ++ le 2 s.se.pecBad) (by simp [liveStatusFields])
  have hcounter : ∀ b, b + 2 ≤ 10 → field (liveStatus s) (46 + b) 2 = field (le 2 s.se.noAck ++ le 2 s.se.arbLost ++
      le 2 s.se.busError ++ le 2 s.se.timeout ++ le 2 s.se.pecBad) b 2 := fun b hb =>
    (field_field hb).symm.trans (congrArg (field · b 2) hsense)
  refine ⟨liveStatus_number (by simp [liveStatusFields]), liveStatus_number (by simp [liveStatusFields]),
    liveStatus_number (by simp [liveStatusFields]), liveStatus_number (by simp [liveStatusFields]),
    liveStatus_number (by simp [liveStatusFields]), ?_, ?_, ?_, ?_, ?_, ?_, ?_, ?_, ?_, ?_, ?_, ?_,
    liveStatus_number (by simp [liveStatusFields]), liveStatus_number (by simp [liveStatusFields]),
    hcounter 0 (by omega), hcounter 2 (by omega), hcounter 4 (by omega), hcounter 6 (by omega), hcounter 8 (by omega),
    liveStatus_number (by simp [liveStatusFields]), liveStatus_number (by simp [liveStatusFields]),
    hdeferred.trans (bit_mod _), hreadOnly.trans (bit_mod _), liveStatus_number (by simp [liveStatusFields]),
    hattn.trans (bit_mod _)⟩
  · intro h; rw [hmode, h]; rfl
  · intro h; rw [hmode, h]; rfl
  · intro h; rw [hover, bit_mod, overCommit, decide_eq_false (Nat.not_lt.mpr h)]; rfl
  · intro h; rw [hover, bit_mod, overCommit, decide_eq_true h]; rfl
  · intro h; rw [hmotion, h]; rfl
  · intro h; rw [hmotion, h]; rfl
  · intro h; rw [hmotion, h]; rfl
  · intro h; rw [hmotion, h]; rfl
  · intro h; rw [hmotion, h]; rfl
  · intro h; rw [hcause, h]; rfl
  · intro h; rw [hcause, h]; rfl
  · intro h; rw [hcause, h]; rfl

/-- Section 10.1: an answer with its status and subclass codes is a row of the table. -/
theorem answer_mem_statusCodes (a : Answer) : (a, a.status, a.subclass) ∈ statusCodes := by
  cases a with
  | mapReject check => cases check <;> decide
  | _ => decide

theorem answer_codes_mod (a : Answer) : a.status % 256 = a.status ∧ a.subclass % 256 = a.subclass := by
  cases a with
  | mapReject check => cases check <;> decide
  | _ => decide

/-- The bytes that no field of the live status covers. -/
theorem liveStatusFields_free {s : State} {n : Nat} (h : n = 66 ∨ n = 67 ∨ (76 ≤ n ∧ n ≤ 79) ∨ n = 87 ∨ 100 ≤ n) :
    ∀ f ∈ liveStatusFields s, n < f.1 ∨ f.1 + f.2.length ≤ n := by
  simp only [liveStatusFields, List.forall_mem_cons, List.length_append, List.length_cons, List.length_nil, le_length,
    le16s_length, shownSample_length, markerLive_length]
  simp only [List.not_mem_nil, false_imp_iff, implies_true, and_true]
  omega

theorem statusRest_liveStatus (s : State) : StatusRest s (liveStatus s) := by
  have hstatus := liveStatus_code (s := s) (off := 80) (n := s.wc.refusal.answer.status) (by simp [liveStatusFields])
  have hsubclass := liveStatus_code (s := s) (off := 81) (n := s.wc.refusal.answer.subclass) (by simp [liveStatusFields])
  have hcode := liveStatus_field (s := s) (off := 82) (bs := [s.wc.refusal.code]) (by simp [liveStatusFields])
  have hcount := liveStatus_field (s := s) (off := 83) (bs := [s.wc.refusal.count]) (by simp [liveStatusFields])
  obtain ⟨hst, hsub⟩ := answer_codes_mod s.wc.refusal.answer
  refine ⟨liveStatus_number (by simp [liveStatusFields]), liveStatus_number (by simp [liveStatusFields]), ?_,
    byteAt_of_field hcode 0 Nat.one_pos, byteAt_of_field hcount 0 Nat.one_pos,
    liveStatus_number (by simp [liveStatusFields]), liveStatus_number (by simp [liveStatusFields]),
    liveStatus_number (by simp [liveStatusFields]), liveStatus_number (by simp [liveStatusFields]),
    liveStatus_number (by simp [liveStatusFields]), fun n _ hn => ?_⟩
  · rw [hstatus, hsubclass, hst, hsub]
    exact answer_mem_statusCodes _
  · exact layout_byteAt_zero (liveStatusFields_fit s) (liveStatusFields_free hn)

/-! ### A READ of one live sector -/

/-- R158, R169, R172: a READ of one sector of the live window is answered with that sector as it is formed at that
moment. -/
theorem exec_read_live {sector : Word} {s : State} {o : Nat} (hs : PassedOn s) (hp : inService s.ps.power = true)
    (hcap : 32 ≤ s.ps.capacity) (h5 : 5 ≤ o) (h10 : o ≤ 10) (hsec : sector.toNat = tailBase s + o) :
    ∃ t b, exec (.read 1#8 sector) s = .next t ∧ Answers t .ok 1 b ∧ Assembles s (tailBase s + o) 1 [b] ∧
      StatusRead (o = 5) s t ∧ t = { s with fp := t.fp, mp := (abandonRead s).mp, ru := t.ru, fresh := t.fresh } := by
  obtain ⟨-, -, hread⟩ := readServedFromStaging
  have hend : ¬EndFails s 1#8 sector := by
    have htail : tailBase s = s.ps.capacity - 32 := rfl
    have hone : (1#8).toNat = 1 := rfl
    unfold EndFails
    omega
  have hlive : ∀ i, i < (1#8).toNat → isMiss s (sector.toNat + i) = false := by
    intro i hi
    obtain rfl : i = 0 := by simpa using hi
    refine Bool.eq_false_iff.mpr fun hmiss => ?_
    obtain ⟨hout, -⟩ := (isMiss_iff s _).mp hmiss
    omega
  obtain ⟨t, out, hex, hasm, hans, hread, hframe⟩ := hread 1#8 sector s hs hp (by unfold FormatFails; decide) hend hlive
  obtain ⟨b, rfl⟩ := List.length_eq_one_iff.mp hasm.1
  have hcovers : CoversStatus s sector.toNat (1#8).toNat ↔ o = 5 := by
    have hone : (1#8).toNat = 1 := rfl
    unfold CoversStatus
    omega
  rw [StatusRead, hcovers] at hread
  rw [hsec] at hasm
  exact ⟨t, b, hex, by simpa using hans, hasm, hread, hframe⟩

/-- Settles O10: the READ forms the sector of its offset, and each formed sector is a layout of its fields. -/
theorem liveStatusClearsAttn : Obligations.LiveStatusClearsAttn := by
  refine ⟨fun sector s hs hp hcap => ⟨fun hsec => ?status, fun o h6 h10 hsec => ?other⟩,
    fun s => ⟨statusGauge_liveStatus s, statusSupply_liveStatus s, statusRest_liveStatus s⟩,
    fun s q pos _ hpos => ?check, fun s => ?log⟩
  case status =>
    obtain ⟨t, b, hex, hans, ⟨-, hout⟩, ⟨hclear, -⟩, hframe⟩ := exec_read_live hs hp hcap le_rfl (by omega) hsec
    obtain ⟨hb, -⟩ := hout 0 b rfl
    obtain ⟨hru, hfresh⟩ := hclear rfl
    refine ⟨t, hex, hb rfl ▸ hans, ?_⟩
    rw [← hru, ← hfresh]
    exact hframe
  case other =>
    obtain ⟨t, b, hex, hans, ⟨-, hout⟩, ⟨-, hkeep⟩, hframe⟩ := exec_read_live hs hp hcap (by omega) h10 hsec
    obtain ⟨-, hlog, hcheck, -⟩ := hout 0 b rfl
    obtain ⟨hru, hfresh⟩ := hkeep (by omega)
    refine ⟨t, hex, fun h => ?_, fun h => ?_, ?_⟩
    · exact hlog (by omega) ▸ hans
    · exact hcheck (o - 7) (by omega) (by omega) ▸ hans
    · rw [hru, hfresh] at hframe
      exact hframe
  case check =>
    rw [field_checkSector s q hpos]
    exact checkFields_checkRecord _ _
  case log =>
    obtain ⟨-, hmarker, htotal, hseq, hplaces, -⟩ := logFields_dropLogSector s
    exact ⟨hmarker, htotal, hseq, hplaces⟩

end Sys2Proof.Machine

/-! The figures of a drop record: the fall height and the reported peak (R96, R97). -/

namespace Sys2Proof.Machine

open Sys2Proof

/-! ### The root (R97) -/

/-- The places below `k` bring a root that is too low by less than `2 ^ k` to the root rounded down. -/
theorem rootFrom_isRoot {m : Nat} (k : Nat) {r : Nat} (hle : r ^ 2 ≤ m) (hlt : m < (r + 2 ^ k) ^ 2) :
    rootFrom m k r ^ 2 ≤ m ∧ m < (rootFrom m k r + 1) ^ 2 := by
  induction k generalizing r with
  | zero => exact ⟨hle, hlt⟩
  | succ k ih =>
    rw [rootFrom]
    split
    · next hplace => exact ih hplace (by rwa [Nat.add_assoc, ← Nat.two_mul, ← Nat.pow_succ'])
    · next hplace => exact ih hle (Nat.lt_of_not_le hplace)

/-- R97: thirteen binary places are enough for the root of a 26-bit number. -/
theorem reportedPeak_eq_sqrt {m : Nat} (h : m < 2 ^ 26) : reportedPeak m = Nat.sqrt m := by
  obtain ⟨hle, hlt⟩ := rootFrom_isRoot (m := m) 13 (r := 0) (Nat.zero_le m) (by omega)
  rw [Nat.eq_sqrt', reportedPeak]
  exact ⟨hle, hlt⟩

/-- R97: three axes of at most 4095 give a root of at most 7092. -/
theorem reportedPeak_isRoot {m : Nat} (h : m ≤ 50307075) :
    reportedPeak m ^ 2 ≤ m ∧ m < (reportedPeak m + 1) ^ 2 ∧ reportedPeak m ≤ 7092 := by
  have hlt : m < 7093 ^ 2 := by omega
  rw [reportedPeak_eq_sqrt (by omega)]
  exact ⟨Nat.sqrt_le' m, Nat.lt_succ_sqrt' m, Nat.le_of_lt_succ (Nat.sqrt_lt'.mpr hlt)⟩

/-! ### The record's figures (R96, R97) -/

/-- R96: 1829 samples are a fall of 65.6 m. -/
theorem fallHeight_saturates {n : Nat} (h : 1829 ≤ n) : fallHeight n = 65535 := by
  have hsq : 1829 ^ 2 ≤ n ^ 2 := Nat.pow_le_pow_left h 2
  rw [fallHeight]
  omega

theorem dropPeakNow_of_struck {s : State} (h : s.mm.motion ≠ .falling) : dropPeakNow s = reportedPeak s.mm.peak :=
  if_neg h

theorem dropPeakNow_of_falling {s : State} (h : s.mm.motion = .falling) : dropPeakNow s = 0 :=
  if_pos h

/-- Settles O48: a formed record's height is the fall height of its samples, and its peak the root of the strike's. -/
theorem dropFigures : Obligations.DropFigures :=
  ⟨fun _ _ => ⟨rfl, fallHeight_saturates⟩, fun _ => reportedPeak_isRoot, fun _ _ => dropPeakNow_of_struck,
    fun _ _ => dropPeakNow_of_falling⟩

end Sys2Proof.Machine

/-! What follows a motion event outside HOLDUP, whether or not a front sector is held: the retries, offers and grants leave MM
alone but for the records not yet persisted, keep ATTN, and lose no sector of the changed set but by admitting it (R10, R101,
R171, R174, R175). -/

namespace Sys2Proof.Machine

open Sys2Proof

/-! ### Reports that only add (R171, R175) -/

/-- From `s` to `t` ATTN stays set and no sector leaves the changed set. -/
structure ReportsGrow (s t : State) : Prop where
  attn : s.ru.attn = true → t.ru.attn = true
  changed : ∀ o ∈ s.ru.changed, o ∈ t.ru.changed

theorem ReportsGrow.of_ru {s t : State} (h : t.ru = s.ru) : ReportsGrow s t := by
  constructor <;> simp [h]

theorem ReportsGrow.refl (s : State) : ReportsGrow s s := .of_ru rfl

theorem ReportsGrow.trans {s t u : State} (h : ReportsGrow s t) (g : ReportsGrow t u) : ReportsGrow s u :=
  ⟨g.attn ∘ h.attn, fun o ho => g.changed o (h.changed o ho)⟩

theorem ReportsGrow.after {s t u : State} (g : ReportsGrow t u) (h : ReportsGrow s t) : ReportsGrow s u := h.trans g

theorem foldl_reportsGrow {α : Type} {f : State → α → State} (h : ∀ s x, ReportsGrow s (f s x)) (l : List α) (s : State) :
    ReportsGrow s (l.foldl f s) := by
  induction l generalizing s with
  | nil => exact .refl s
  | cons x xs ih => exact (h s x).trans (ih _)

theorem noteChanged_reportsGrow (o : Nat) (s : State) : ReportsGrow s (noteChanged o s) :=
  ⟨id, fun p hp => (mem_noteChanged p o s).mpr (.inr hp)⟩

theorem runtimeChange_reportsGrow (k : Nat) (r : Runtime) (s : State) :
    ReportsGrow s (runtimeChange k (setRuntime k r s)) :=
  (noteChanged_reportsGrow _ _).after (.of_ru rfl)

theorem applyEntry_reportsGrow (k : Nat) (e : RawEntry) (s : State) : ReportsGrow s (applyEntry k e s) :=
  ⟨fun h => by rw [applyEntry_eq]; exact h, fun _ ho => applyEntry_sets.2.mpr (.inr ho)⟩

theorem appendToZone_reportsGrow (n : Nat) (d : Sector) (s : State) : ReportsGrow s (appendToZone n d s) := by
  unfold appendToZone
  split
  · exact .refl s
  · split
    · exact runtimeChange_reportsGrow _ _ s
    · exact .refl s

theorem reportFlags_reportsGrow (old : Gauge) (s : State) : ReportsGrow s (reportFlags old s) := by
  have hattn : ReportsGrow s (if flagsDiffer old s.bg then raiseAttn s else s) := by
    split
    · exact ⟨fun _ => rfl, fun _ ho => ho⟩
    · exact .refl s
  unfold reportFlags
  dsimp only
  split
  · exact hattn
  · exact hattn.trans (.of_ru (by simp))

theorem reportGaugeChange_reportsGrow (old : Gauge) (s : State) : ReportsGrow s (reportGaugeChange old s) := by
  unfold reportGaugeChange
  split
  · exact noteChanged_reportsGrow 11 s
  · exact .refl s

theorem lowerMinSoc_reportsGrow (soc k : Nat) (s : State) : ReportsGrow s (lowerMinSoc soc k s) := by
  unfold lowerMinSoc
  split
  · exact runtimeChange_reportsGrow k _ s
  · exact .refl s

theorem attributeSoc_reportsGrow (soc : Nat) (s : State) : ReportsGrow s (attributeSoc soc s) :=
  foldl_reportsGrow (fun u k => lowerMinSoc_reportsGrow soc k u) _ s

theorem reportSoc_reportsGrow (old : Gauge) (s : State) : ReportsGrow s (reportSoc old s) := by
  unfold reportSoc
  split
  · exact .refl s
  · exact (attributeSoc_reportsGrow _ _).after (.of_ru rfl)

theorem publishGauge_reportsGrow (g : Gauge) (s : State) : ReportsGrow s (publishGauge g s) :=
  (reportSoc_reportsGrow _ _).after ((reportGaugeChange_reportsGrow _ _).after
    ((reportFlags_reportsGrow _ _).after (.of_ru rfl)))

theorem applyHeader_reportsGrow (d : Sector) (s : State) : ReportsGrow s (applyHeader d s) := by
  have hlatched : ReportsGrow s (headerLatched d s) := .of_ru rfl
  obtain ⟨hsame, hunset, hset⟩ := applyHeader_cases d s
  by_cases hd : (headerSettings d).design = s.zu.settings.design
  · rw [hsame hd]
    exact hlatched
  · cases hi : s.bg.isSet with
    | false =>
      rw [hunset hd hi]
      exact .of_ru rfl
    | true =>
      rw [hset hd hi]
      exact hlatched.trans (publishGauge_reportsGrow _ _)

theorem takeContent_reportsGrow (n : Nat) (d : Sector) (s : State) : ReportsGrow s (takeContent n d s) := by
  unfold takeContent
  split
  · exact appendToZone_reportsGrow n d s
  · split
    · exact (applyHeader_reportsGrow d s).trans (.of_ru rfl)
    · split
      · exact (foldl_reportsGrow (fun u pos => applyEntry_reportsGrow _ _ u) _ s).trans (.of_ru rfl)
      · exact .refl s

/-- R8: what an admitted sector's content does not touch. -/
theorem takeContent_frame (n : Nat) (d : Sector) (s : State) : (takeContent n d s).mm = s.mm ∧
    (takeContent n d s).ps.power = s.ps.power ∧ (takeContent n d s).ps.capacity = s.ps.capacity ∧
    (takeContent n d s).sb = s.sb := by
  have hmap : ∀ (o : Nat) (u : State), (noteMapCopy o d u).mm = u.mm ∧ (noteMapCopy o d u).ps.power = u.ps.power ∧
      (noteMapCopy o d u).ps.capacity = u.ps.capacity ∧ (noteMapCopy o d u).sb = u.sb := fun _ _ => ⟨rfl, rfl, rfl, rfl⟩
  unfold takeContent
  (repeat' split)
  · simp
  · simp [hmap, applyHeader]
  · simp [hmap]
  · simp

/-! ### Sectors that stay staged (R5, R174) -/

/-- R5, R6: a placed sector leaves every live line live, in its place, of its address and class, with its valid slots. -/
theorem placeSector_live_kept {sb t : Staging} {cls : LineClass} {n : Nat} {zone : Option Nat} {reserve : Nat} {data : Sector}
    (h : placeSector sb cls n zone reserve data = some t) {l : Line} (hl : l ∈ sb.lines) (hlive : l.live = true) :
    ∃ m ∈ t.lines, m.live = true ∧ m.cls = l.cls ∧ m.addr = l.addr ∧
      ∀ i, l.valid.getLsbD i = true → m.valid.getLsbD i = true := by
  obtain ⟨j, hj⟩ := List.getElem?_of_mem hl
  have hother : ∀ (i : Nat) (a : Line), i ≠ j → l ∈ sb.lines.set i a := fun i a hij =>
    List.mem_of_getElem? (i := j) (by rw [List.getElem?_set_ne hij, hj])
  obtain ⟨i, a, hm, rfl⟩ | ⟨i, a, -, -, hget, hfree, -, rfl⟩ := placeSector_cases h
  · by_cases hij : i = j
    · subst hij
      obtain ⟨-, hget, -⟩ := mergeTarget_some hm
      obtain rfl := Option.some.inj (hget.symm.trans hj)
      refine ⟨a.store (n % 8) data, ?_, hlive, rfl, rfl, fun k hk => ?_⟩
      · exact List.mem_of_getElem? (i := i) (List.getElem?_set_self (List.getElem?_eq_some_iff.mp hget).1)
      · rw [Line.store_valid _ _ _ _ (Nat.mod_lt _ (by omega)), hk]
        rfl
    · exact ⟨l, hother i _ hij, hlive, rfl, rfl, fun _ h => h⟩
  · have hij : i ≠ j := by
      rintro rfl
      obtain rfl := Option.some.inj (hget.symm.trans hj)
      rw [hlive] at hfree
      cases hfree
    exact ⟨l, hother i _ hij, hlive, rfl, rfl, fun _ h => h⟩

theorem RecordStaged.placed {s : State} {sb : Staging} {cls : LineClass} {n o : Nat} {zone : Option Nat} {reserve : Nat}
    {data : Sector} (h : RecordStaged s o) (hp : placeSector s.sb cls n zone reserve data = some sb) :
    RecordStaged { s with sb := sb } o := by
  obtain ⟨l, hl, hlive, hcls, haddr, hvalid⟩ := h
  obtain ⟨m, hm, hmlive, hmcls, hmaddr, hmvalid⟩ := placeSector_live_kept hp hl hlive
  exact ⟨m, hm, hmlive, hmcls.trans hcls, hmaddr.trans haddr, hmvalid _ hvalid⟩

theorem RecordStaged.of_lines {s t : State} {o : Nat} (h : RecordStaged s o) (hl : t.sb.lines = s.sb.lines)
    (hc : t.ps.capacity = s.ps.capacity) : RecordStaged t o := by
  rw [RecordStaged, tailBase, hl, hc]
  exact h

/-! ### What follows a motion event -/

/-- From `s` to `t` MM loses no more than records that have been persisted, ATTN stays set, and a sector of the changed set, or
one that is staged, is one or the other still. -/
structure ReportsKept (s t : State) : Prop where
  power : t.ps.power = s.ps.power
  mm : t.mm = { s.mm with pendingRecs := t.mm.pendingRecs }
  attn : s.ru.attn = true → t.ru.attn = true
  accounted : ∀ o, o ∈ s.ru.changed ∨ RecordStaged s o → o ∈ t.ru.changed ∨ RecordStaged t o

theorem ReportsKept.refl (s : State) : ReportsKept s s := ⟨rfl, rfl, id, fun _ h => h⟩

theorem ReportsKept.trans {s t u : State} (h : ReportsKept s t) (g : ReportsKept t u) : ReportsKept s u where
  power := g.power.trans h.power
  mm := by rw [g.mm, h.mm]
  attn := g.attn ∘ h.attn
  accounted o ho := g.accounted o (h.accounted o ho)

theorem ReportsKept.awake {s t : State} (h : ReportsKept s t) (hp : s.ps.power ≠ .holdup) : t.ps.power ≠ .holdup := by
  rw [h.power]
  exact hp

/-- The lines stay, and reports only add. -/
theorem ReportsKept.of_grow {s t : State} (hp : t.ps.power = s.ps.power) (hc : t.ps.capacity = s.ps.capacity)
    (hm : t.mm = s.mm) (hl : t.sb.lines = s.sb.lines) (hr : ReportsGrow s t) : ReportsKept s t :=
  ⟨hp, by rw [hm], hr.attn, fun o ho => ho.imp (hr.changed o) fun h => h.of_lines hl hc⟩

theorem OfferEffect.reportsKept {s t : State} (h : OfferEffect s t) : ReportsKept s t where
  power := h.only.psPower
  mm := congrArg State.mm h.only.onlyOffers
  attn := fun ha => by rw [h.only.ruAttn]; exact ha
  accounted := fun o ho => ho.elim (fun hc => (h.changedKept o hc).imp_right And.right) fun hs => .inr (h.held o hs)

theorem acceptSector_reportsKept {s : State} {sb : Staging} {cls : LineClass} {n m : Nat} {zone : Option Nat} {reserve : Nat}
    {data d : Sector} (hp : s.ps.power ≠ .holdup) (h : placeSector s.sb cls n zone reserve data = some sb) :
    ReportsKept s (acceptSector m d sb s) := by
  have hplaced : ReportsKept s { s with sb := sb } := ⟨rfl, rfl, id, fun o ho => ho.imp_right (·.placed h)⟩
  have hcounted : ReportsKept { s with sb := sb } (countTaken { s with sb := sb }) := .of_grow rfl rfl rfl rfl (.of_ru rfl)
  obtain ⟨hmm, hpower, hcap, hsb⟩ := takeContent_frame m d (countTaken { s with sb := sb })
  have hcontent := (hplaced.trans hcounted).trans (.of_grow hpower hcap hmm (by rw [hsb]) (takeContent_reportsGrow m d _))
  have htaken := hcontent.trans (pump_offerEffect (hcontent.awake hp)).reportsKept
  unfold acceptSector
  dsimp only
  split
  · refine htaken.trans (.of_grow ?_ ?_ ?_ ?_ (.of_ru ?_)) <;> simp
  · exact htaken

theorem offerSector_reportsKept (n : Nat) (d : Sector) {s : State} (hp : s.ps.power ≠ .holdup) :
    ReportsKept s (offerSector n d s) := by
  unfold offerSector
  split
  · refine .of_grow ?_ ?_ ?_ ?_ (.of_ru ?_) <;> simp
  · split
    · next ha => exact acceptSector_reportsKept hp (admitTest_admitted ha).1
    · exact .of_grow rfl rfl rfl rfl (.of_ru rfl)

theorem retryHeld_reportsKept {s : State} (hp : s.ps.power ≠ .holdup) : ReportsKept s (retryHeld s) := by
  unfold retryHeld
  split
  · exact offerSector_reportsKept _ _ hp
  · exact .refl s

theorem offerFrom_reportsKept (os : List Nat) {s : State} (hp : s.ps.power ≠ .holdup) : ReportsKept s (offerFrom os s) := by
  induction os generalizing s with
  | nil => exact .refl s
  | cons o os ih =>
    unfold offerFrom
    split
    · next hpend =>
      split
      · exact .refl s
      · next t ht =>
        have hoffered := (offerCheckpoint_offerEffect hp (by simpa using hpend) ht).reportsKept
        split
        · have hretried := hoffered.trans (retryHeld_reportsKept (hoffered.awake hp))
          exact hretried.trans (ih (hretried.awake hp))
        · exact hoffered.trans (ih (hoffered.awake hp))
    · exact ih hp

theorem offerAll_reportsKept {s : State} (hp : s.ps.power ≠ .holdup) : ReportsKept s (offerAll s) := by
  unfold offerAll
  split
  · exact offerFrom_reportsKept _ hp
  · exact .refl s

theorem retryRound_reportsKept (before : State) {s : State} (hp : s.ps.power ≠ .holdup) :
    ReportsKept s (retryRound before s) := by
  unfold retryRound
  split
  · have hretried := retryHeld_reportsKept hp
    exact hretried.trans (offerAll_reportsKept (hretried.awake hp))
  · exact offerAll_reportsKept hp

theorem react_reportsKept (before : State) {s : State} (hp : s.ps.power ≠ .holdup) : ReportsKept s (react before s) := by
  unfold react
  split
  · have hround := retryRound_reportsKept before hp
    exact hround.trans (offerAll_reportsKept (hround.awake hp))
  · exact .refl s

theorem settle_reportsKept (before : State) {s : State} (hp : s.ps.power ≠ .holdup) : ReportsKept s (settle before s) := by
  have hreact := react_reportsKept before hp
  exact hreact.trans (pump_offerEffect (hreact.awake hp)).reportsKept

end Sys2Proof.Machine

/-! A motion miss (R87): below the eighth in a row it is counted alone; the eighth enters DISABLED, which records a drop in
progress SENSOR_LOST and caps L. -/

namespace Sys2Proof.Machine

open Sys2Proof

/-! ### The change that a miss makes (R87) -/

/-- The stale count after one miss more. -/
def missCounted (s : State) : State :=
  { s with mm := { s.mm with stale := s.mm.stale + 1 } }

theorem takeMotionMiss_disabled {s : State} (h : s.mm.motion = .disabled) :
    takeMotionMiss s = { s with mm := { s.mm with stale := s.mm.stale + 1, good := 0 } } :=
  if_pos h

theorem takeMotionMiss_below {s : State} (h : s.mm.motion ≠ .disabled) (hn : s.mm.stale < 7) :
    takeMotionMiss s = missCounted s :=
  (if_neg h).trans (if_neg (Nat.not_le.mpr (Nat.succ_lt_succ hn)))

theorem takeMotionMiss_eighth {s : State} (h : s.mm.motion ≠ .disabled) (hn : 7 ≤ s.mm.stale) :
    takeMotionMiss s = enterDisabled (missCounted s) :=
  (if_neg h).trans (if_pos (Nat.succ_le_succ hn))

/-- R87: all that a miss can make of the state. -/
theorem takeMotionMiss_cases (s : State) :
    takeMotionMiss s = { s with mm := { s.mm with stale := s.mm.stale + 1, good := 0 } } ∨
    takeMotionMiss s = missCounted s ∨ takeMotionMiss s = enterDisabled (missCounted s) := by
  by_cases h : s.mm.motion = .disabled
  · exact .inl (takeMotionMiss_disabled h)
  · obtain hn | hn := Nat.lt_or_ge s.mm.stale 7
    · exact .inr (.inl (takeMotionMiss_below h hn))
    · exact .inr (.inr (takeMotionMiss_eighth h hn))

/-! ### Entry to DISABLED (R27, R87) -/

/-- R87: a drop in progress is recorded SENSOR_LOST before the entry. -/
def dropLost (s : State) : State :=
  if bracedState s.mm.motion then recordDrop .sensorLost s else s

theorem dropLost_drop {s : State} (h : bracedState s.mm.motion = true) : dropLost s = recordDrop .sensorLost s :=
  if_pos h

theorem dropLost_rest {s : State} (h : bracedState s.mm.motion = false) : dropLost s = s :=
  if_neg (by simp [h])

/-- R99: what a recorded drop changes. -/
theorem recordDrop_eq (o : DropOutcome) (s : State) : recordDrop o s = { s with
    mm := s.mm.enter (formDrop o s), zu := { s.zu with runtimes := (recordDrop o s).zu.runtimes }
    ru := { s.ru with attn := true, pending := (recordDrop o s).ru.pending, changed := (recordDrop o s).ru.changed } } := by
  unfold recordDrop
  rw [attributeAll_eq]
  rfl

theorem enterDisabled_mm (s : State) :
    (enterDisabled s).mm = { (dropLost s).mm.clearCounts with motion := .disabled } := by
  simp [enterDisabled, dropLost, raiseAttn]

theorem enterDisabled_ru (s : State) : (enterDisabled s).ru = { (dropLost s).ru with attn := true } := by
  simp [enterDisabled, dropLost, raiseAttn]

/-- R27: L in DISABLED. -/
theorem enterDisabled_limit (s : State) : (enterDisabled s).sm.limit = min (min (enterDisabled s).sm.budget 128) 8 := by
  obtain ⟨hlimit, -⟩ := enterDisabled_agrees s
  rw [hlimit, enterDisabled_mm]
  rfl

/-- R13, R28: the mode is recomputed, and a write-through wait may end with it. -/
theorem recomputeMode_eq (s : State) : recomputeMode s =
    { s with sm := { s.sm with mode := (recomputeMode s).sm.mode }, fp := (recomputeMode s).fp } := by
  unfold recomputeMode endThroughWait
  (repeat' split) <;> rfl

/-! ### The frame of a motion event -/

theorem OnlyMotion.offered {h : Handover} {s u t : State} (hu : OnlyMotion h s u) (ho : OnlyOffers u t) :
    OnlyMotion h s t := by
  obtain ⟨lines, age, port, recs, offreq, pending, changed, rfl⟩ := ho.exists_eq
  rw [OnlyMotion] at hu ⊢
  rw [hu]

theorem OnlyMotion.withMotion {h : Handover} {s u : State} (hu : OnlyMotion h s u) (m : Motion) :
    OnlyMotion h s { u with mm := m } := by
  rw [OnlyMotion] at hu ⊢
  rw [hu]

theorem OnlyMotion.dropLost {h : Handover} {s u : State} (hu : OnlyMotion h s u) : OnlyMotion h s (dropLost u) := by
  rw [OnlyMotion] at hu ⊢
  unfold Machine.dropLost
  split
  · rw [recordDrop_eq, hu]
  · exact hu

theorem OnlyMotion.limitAtMotion {h : Handover} {s u : State} (hu : OnlyMotion h s u) : OnlyMotion h s (limitAtMotion u) := by
  rw [OnlyMotion] at hu ⊢
  rw [Machine.limitAtMotion, recomputeMode_eq, hu]
  rfl

theorem OnlyMotion.raiseAttn {h : Handover} {s u : State} (hu : OnlyMotion h s u) : OnlyMotion h s (raiseAttn u) := by
  rw [OnlyMotion] at hu ⊢
  rw [hu]
  rfl

theorem OnlyMotion.enterDisabled {h : Handover} {s u : State} (hu : OnlyMotion h s u) : OnlyMotion h s (enterDisabled u) :=
  (hu.dropLost.withMotion _).limitAtMotion.raiseAttn

theorem takeHandover_onlyMotion (h : Handover) (s : State) : OnlyMotion h s (takeHandover h s) := rfl

theorem takeMotionMiss_onlyMotion (h : Handover) (s : State) : OnlyMotion h s (takeMotionMiss (takeHandover h s)) := by
  have htaken := takeHandover_onlyMotion h s
  obtain heq | heq | heq := takeMotionMiss_cases (takeHandover h s) <;> rw [heq]
  · exact htaken.withMotion _
  · exact htaken.withMotion _
  · exact (htaken.withMotion _).enterDisabled

/-! ### The miss as an event -/

/-- R86, R87: outside HOLDUP and OFF a miss is a change of MM and what follows it. -/
theorem exec_motionMiss {s : State} (hh : s.ps.power ≠ .holdup) (ho : s.ps.power ≠ .off) :
    exec .motionMiss s =
      .next (settle (takeHandover .motionMiss s) (takeMotionMiss (takeHandover .motionMiss s))) := by
  have hawake : consumersStopped (takeHandover .motionMiss s) = false := by simp [consumersStopped, hh, ho]
  refine (exec_handoverCommand .motionMiss s).trans (congrArg Host.Outcome.next ?_)
  unfold consume
  dsimp only
  rw [if_neg (by simp [hawake])]
  rfl

/-- R87: in DISABLED a miss clears the count of good samples. -/
theorem takeMotionMiss_inDisabled {s : State} (h : s.mm.motion = .disabled) : (takeMotionMiss s).mm.motion = .disabled ∧
    (takeMotionMiss s).mm.good = 0 ∧ (takeMotionMiss s).mm.log = s.mm.log := by
  rw [takeMotionMiss_disabled h]
  exact ⟨h, rfl, rfl⟩

theorem enterDisabled_stale (s : State) : (enterDisabled s).mm.stale = s.mm.stale := by
  rw [enterDisabled_mm]
  unfold dropLost
  split
  · rw [recordDrop_mm]
    rfl
  · rfl

theorem takeMotionMiss_stale (s : State) : (takeMotionMiss s).mm.stale = s.mm.stale + 1 := by
  obtain heq | heq | heq := takeMotionMiss_cases s <;> rw [heq]
  · rfl
  · exact enterDisabled_stale (missCounted s)

/-- R87: what the eighth miss leaves before anything is retried, offered or granted. -/
structure SensorLost (s t : State) : Prop where
  motion : t.mm.motion = .disabled
  good : t.mm.good = 0
  limit : t.sm.limit = min (min t.sm.budget 128) 8
  attn : t.ru.attn = true
  drop : bracedState s.mm.motion = true → t.mm.log = appendRing (formDrop .sensorLost s) s.mm.log ∧
    ∀ p, DropChanges s p → p ∈ t.ru.changed
  rest : bracedState s.mm.motion = false → t.mm.log = s.mm.log

theorem enterDisabled_sensorLost (s : State) : SensorLost s (enterDisabled s) := by
  have hlog : (enterDisabled s).mm.log = (dropLost s).mm.log := by rw [enterDisabled_mm]; rfl
  have hchanged : (enterDisabled s).ru.changed = (dropLost s).ru.changed := by rw [enterDisabled_ru]
  refine ⟨by rw [enterDisabled_mm], by rw [enterDisabled_mm]; rfl, enterDisabled_limit s, by rw [enterDisabled_ru],
    fun hb => ⟨?_, fun p hp => ?_⟩, fun hb => ?_⟩
  · rw [hlog, dropLost_drop hb, recordDrop_mm]
    rfl
  · rw [hchanged, dropLost_drop hb]
    exact (sets_recordDrop .sensorLost s p).2.mpr (.inr hp)
  · rw [hlog, dropLost_rest hb]

/-- R10, R174: what follows keeps what the eighth miss has left; a sector of the changed set may be admitted. -/
theorem SensorLost.settled {s u : State} (h : SensorLost s u) (before : State) (hp : u.ps.power ≠ .holdup) :
    (settle before u).mm.motion = .disabled ∧ (settle before u).mm.good = 0 ∧
    (settle before u).sm.limit = min (min (settle before u).sm.budget 128) 8 ∧ (settle before u).ru.attn = true ∧
    (bracedState s.mm.motion = true →
      (∃ r, (settle before u).mm.log = appendRing r s.mm.log ∧ r.outcome = .sensorLost) ∧
      ∀ p, DropChanges s p → p ∈ (settle before u).ru.changed ∨ RecordStaged (settle before u) p) ∧
    (bracedState s.mm.motion = false → (settle before u).mm.log = s.mm.log) := by
  obtain ⟨-, hmm, hattn, haccounted⟩ := settle_reportsKept before hp
  have hview := ((settle_course before u).quiet hp).view
  have hbudget : (settle before u).sm.budget = u.sm.budget := congrArg SupplyView.budget hview
  have hlimit : (settle before u).sm.limit = u.sm.limit := congrArg SupplyView.limit hview
  rw [hmm, hlimit, hbudget]
  exact ⟨h.motion, h.good, h.limit, hattn h.attn, fun hb => ⟨⟨_, (h.drop hb).1, rfl⟩,
    fun p hd => haccounted p (.inl ((h.drop hb).2 p hd))⟩, h.rest⟩

/-- Settles O51: MM takes the miss in one of three ways, and what follows keeps what it has left. -/
theorem motionMissDisables : Obligations.MotionMissDisables := by
  intro s hh ho
  have hpower : (takeMotionMiss (takeHandover .motionMiss s)).ps.power ≠ .holdup := by simpa using hh
  have hkept := settle_reportsKept (takeHandover .motionMiss s) hpower
  refine ⟨_, exec_motionMiss hh ho, ?stale, fun hport => ?frame, fun hm => ?disabled, fun hm hn => ?below, fun hm hn => ?eighth⟩
  case stale =>
    rw [hkept.mm]
    exact takeMotionMiss_stale (takeHandover .motionMiss s)
  case frame =>
    have hfree : (takeMotionMiss (takeHandover .motionMiss s)).fp.port ≠ .held := by
      obtain hfp | hanswered := takeMotionMiss_calm (takeHandover .motionMiss s)
      · rw [hfp]
        exact hport
      · rw [hanswered]
        nofun
    exact (takeMotionMiss_onlyMotion .motionMiss s).offered (settle_offerEffect _ hpower hfree).only.onlyOffers
  case disabled =>
    rw [hkept.mm]
    exact takeMotionMiss_inDisabled (s := takeHandover .motionMiss s) hm
  case below =>
    rw [hkept.mm, takeMotionMiss_below (s := takeHandover .motionMiss s) hm hn]
    exact ⟨rfl, rfl, rfl, rfl, rfl⟩
  case eighth =>
    have hlost := enterDisabled_sensorLost (missCounted (takeHandover .motionMiss s))
    rw [← takeMotionMiss_eighth (s := takeHandover .motionMiss s) hm hn] at hlost
    exact hlost.settled _ hpower

end Sys2Proof.Machine

/-! What the gauge reads from its tables and what a rescale leaves (R111, R112, R113, R115): the voltage table, the band that a
temperature moves to, and SOC under another FCC_eff. -/

namespace Sys2Proof.Machine

open Sys2Proof

/-! ### The voltage table (R115) -/

theorem perMille_below {v : Nat} (h : v < 3300) : perMille v = 0 := if_pos h

theorem perMille_above {v : Nat} (h : 4150 ≤ v) : perMille v = 1000 := by
  have hlow : ¬v < 3300 := by omega
  have hpast : ∀ hi ≤ 4150, ¬v < hi := fun hi hle => by omega
  simp [perMille, voltageIntervals, perMilleFrom, hlow, hpast]

/-- R115: in interval `i` of a list of them, each of which begins no lower than those before it end. -/
theorem perMilleFrom_interval {v lo hi : Nat} {l : List (Nat × Nat)} (hl : l.Pairwise fun p q => p.2 ≤ q.1) (k : Nat) {i : Nat}
    (hi' : l[i]? = some (lo, hi)) (hlo : lo ≤ v) (hhi : v < hi) :
    perMilleFrom v k l = 100 * (k + i) + 100 * (v - lo) / (hi - lo) := by
  induction l generalizing k i with
  | nil => cases hi'
  | cons p l ih =>
    obtain ⟨hafter, hl⟩ := List.pairwise_cons.mp hl
    cases i with
    | zero =>
      obtain rfl : p = (lo, hi) := Option.some.inj hi'
      exact if_pos hhi
    | succ i =>
      have hpast : p.2 ≤ lo := hafter _ (List.mem_of_getElem? hi')
      rw [perMilleFrom, if_neg (by omega), ih hl (k + 1) hi', Nat.add_right_comm, Nat.add_assoc k]

/-- R115: the per-mille in interval `i` of the table. -/
theorem perMille_interval {i lo hi v : Nat} (hi' : voltageIntervals[i]? = some (lo, hi)) (hv : 3300 ≤ v) (hlo : lo ≤ v)
    (hhi : v < hi) : perMille v = 100 * i + 100 * (v - lo) / (hi - lo) := by
  rw [perMille, if_neg (by omega), perMilleFrom_interval (by decide) 0 hi' hlo hhi, Nat.zero_add]

/-- R116: the rest run that is complete anchors RC. -/
theorem restAnchor_rc {x : GaugeSample} {g : Gauge} (hlo : -20 < x.i) (hhi : x.i < 20) (ht : 0 ≤ x.t)
    (hrun : 239 ≤ g.restRun) : (g.restAnchor x).rc = anchoredCharge g.fcc x.v := by
  rw [Gauge.restAnchor, if_pos ⟨hlo, hhi, ht⟩, if_pos (by omega)]

/-- Settles O52: the table interval by interval, and the three uses of the anchored charge. -/
theorem voltageTable : Obligations.VoltageTable := by
  refine ⟨fun v h => perMille_below h, fun v h => perMille_above h, fun p hp => ?_,
    fun design x g => ⟨rfl, rfl, fun h1 h2 ht hrun => restAnchor_rc h1 h2 ht hrun⟩⟩
  have hrow : voltageIntervals[p.1]? = some p.2 ∧ 3300 ≤ p.2.1 := by
    revert p
    decide
  exact fun v hlo hhi => perMille_interval hrow.1 (hrow.2.trans hlo) hlo hhi

/-! ### The derating band (R111) -/

/-- R111: the edges on the way to a warmer band are passed, and the next one, if any, is not. -/
theorem warmTo_farthest (t : Int) (fuel b : Nat) (hb : b ≤ 5) (hfuel : 5 ≤ b + fuel) :
    b ≤ warmTo t fuel b ∧ warmTo t fuel b ≤ 5 ∧ (∀ j, b ≤ j → j < warmTo t fuel b → bandEdge j + 10 ≤ t) ∧
      (warmTo t fuel b < 5 → t < bandEdge (warmTo t fuel b) + 10) := by
  induction fuel generalizing b with
  | zero => exact ⟨le_rfl, hb, fun j h1 h2 => absurd h2 (Nat.not_lt.mpr h1), fun h => absurd h (by simp [warmTo]; omega)⟩
  | succ fuel ih =>
    rw [warmTo]
    split
    · next h =>
      obtain ⟨hle, h5, hpassed, hnext⟩ := ih (b + 1) h.1 (by omega)
      refine ⟨by omega, h5, fun j h1 h2 => ?_, hnext⟩
      obtain rfl | hlt := Nat.eq_or_lt_of_le h1
      · exact h.2
      · exact hpassed j hlt h2
    · next h => exact ⟨le_rfl, hb, fun j h1 h2 => absurd h2 (Nat.not_lt.mpr h1), fun h5 => by
        by_contra hge
        exact h ⟨h5, by omega⟩⟩

/-- R111: as `warmTo_farthest`, on the way to a colder band. -/
theorem coolTo_farthest (t : Int) (fuel b : Nat) (hb : 1 ≤ b) (hfuel : b ≤ fuel + 1) :
    1 ≤ coolTo t fuel b ∧ coolTo t fuel b ≤ b ∧ (∀ j, coolTo t fuel b ≤ j → j < b → t < bandEdge j - 10) ∧
      (1 < coolTo t fuel b → bandEdge (coolTo t fuel b - 1) - 10 ≤ t) := by
  induction fuel generalizing b with
  | zero => exact ⟨hb, le_rfl, fun j h1 h2 => absurd h2 (Nat.not_lt.mpr h1), fun h => absurd h (by simp [coolTo]; omega)⟩
  | succ fuel ih =>
    rw [coolTo]
    split
    · next h =>
      obtain ⟨h1, hle, hpassed, hnext⟩ := ih (b - 1) (by omega) (by omega)
      refine ⟨h1, by omega, fun j hj hlt => ?_, hnext⟩
      obtain rfl | hne := eq_or_ne j (b - 1)
      · exact h.2
      · exact hpassed j hj (by omega)
    · next h => exact ⟨hb, le_rfl, fun j h1 h2 => absurd h2 (Nat.not_lt.mpr h1), fun h1 => by
        by_contra hlt
        exact h ⟨h1, by omega⟩⟩

/-- R111: a sample that has passed an edge to a warmer band passes none back. -/
theorem coolTo_of_warmed {t : Int} {b : Nat} (h : 1 < b → bandEdge (b - 1) + 10 ≤ t) (fuel : Nat) : coolTo t fuel b = b := by
  cases fuel with
  | zero => rfl
  | succ fuel =>
    rw [coolTo, if_neg]
    rintro ⟨h1, hlt⟩
    have := h h1
    omega

/-- R111: the new band is the farthest one that the temperature reaches through every edge on the way. -/
theorem nextBand_farthest {b : Nat} (t : Int) (h1 : 1 ≤ b) (h5 : b ≤ 5) :
    1 ≤ nextBand b t ∧ nextBand b t ≤ 5 ∧ (∀ j, b ≤ j → j < nextBand b t → bandEdge j + 10 ≤ t) ∧
      (∀ j, nextBand b t ≤ j → j < b → t < bandEdge j - 10) ∧
      (b ≤ nextBand b t → nextBand b t < 5 → t < bandEdge (nextBand b t) + 10) ∧
      (nextBand b t ≤ b → 1 < nextBand b t → bandEdge (nextBand b t - 1) - 10 ≤ t) := by
  obtain ⟨hle, hle5, hpassed, hnext⟩ := warmTo_farthest t 4 b h5 (by omega)
  rw [nextBand]
  obtain hstays | hwarmer := Nat.eq_or_lt_of_le hle
  · rw [← hstays] at hnext ⊢
    obtain ⟨hge1, hcolder, hback, hlast⟩ := coolTo_farthest t 4 b h1 (by omega)
    refine ⟨hge1, by omega, fun j hj hlt => by omega, hback, fun hb hlt => ?_, fun _ => hlast⟩
    rw [Nat.le_antisymm hcolder hb] at hlt ⊢
    exact hnext hlt
  · rw [coolTo_of_warmed fun _ => hpassed _ (by omega) (by omega)]
    exact ⟨by omega, hle5, hpassed, fun j hj hlt => by omega, fun _ => hnext, fun hb => by omega⟩

theorem testBand_band (design : Nat) (x : GaugeSample) (g : Gauge) : (g.testBand design x).band = nextBand g.band x.t := by
  unfold Gauge.testBand
  split
  · next h => exact h.symm
  · rfl

theorem bandByTable_cases (t : Int) : (t < -200 → bandByTable t = 1) ∧ (-200 ≤ t → t ≤ -101 → bandByTable t = 2) ∧
    (-100 ≤ t → t ≤ -1 → bandByTable t = 3) ∧ (0 ≤ t → t ≤ 99 → bandByTable t = 4) ∧ (100 ≤ t → bandByTable t = 5) := by
  unfold bandByTable
  (repeat' split) <;> omega

/-- Settles O53. -/
theorem bandHysteresis : Obligations.BandHysteresis :=
  ⟨bandByTable_cases, rfl, rfl, testBand_band, fun _ t h1 h5 => nextBand_farthest t h1 h5⟩

/-! ### A rescale (R112, R113) -/

/-- R113: the charges of an SOC. -/
theorem socOf_eq_iff {rc fcc soc : Nat} (h : 0 < fcc) : socOf rc fcc = soc ↔ fcc * soc ≤ rc * 100 ∧ rc * 100 < fcc * (soc + 1) := by
  rw [socOf, Nat.div_eq_iff h, Nat.mul_comm soc, Nat.mul_add_one fcc soc]
  omega

theorem socOf_full {fcc : Nat} (h : 0 < fcc) : socOf fcc fcc = 100 :=
  (socOf_eq_iff h).mpr ⟨le_rfl, by omega⟩

/-- R112: a charge above FCC_eff gives an SOC of 100 or more; its clamp gives 100. -/
theorem socOf_min {rc fcc soc : Nat} (h : 0 < fcc) (hsoc : soc ≤ 100) (hrc : socOf rc fcc = soc) :
    socOf (min fcc rc) fcc = soc := by
  obtain hle | hlt := Nat.le_total rc fcc
  · rwa [Nat.min_eq_right hle]
  · have hfull : 100 ≤ soc := by
      rw [← hrc, socOf, Nat.le_div_iff_mul_le h, Nat.mul_comm]
      exact Nat.mul_le_mul_right 100 hlt
    rw [Nat.min_eq_left hlt, socOf_full h]
    omega

/-- R112: the least charge of an SOC. -/
theorem socOf_ceilDiv {fcc soc : Nat} (h : 100 ≤ fcc) : socOf (ceilDiv (fcc * soc) 100) fcc = soc := by
  rw [socOf_eq_iff (by omega), ceilDiv, Nat.mul_add_one fcc soc]
  omega

/-- R112: one below the least charge of the next SOC. -/
theorem socOf_ceilDiv_pred {fcc soc : Nat} (h : 100 ≤ fcc) : socOf (ceilDiv (fcc * (soc + 1)) 100 - 1) fcc = soc := by
  rw [socOf_eq_iff (by omega), ceilDiv, Nat.mul_add_one fcc soc]
  omega

/-- Settles O54: whichever of the three charges the rule takes has the SOC that is kept, and so has its clamp. -/
theorem rescaleKeepsSoc : Obligations.RescaleKeepsSoc := by
  intro rc soc old new fcc hfcc _ hsoc
  unfold rescaleCharge
  refine socOf_min (by omega) hsoc ?_
  (repeat' split)
  · exact socOf_ceilDiv (by omega)
  · exact socOf_ceilDiv_pred (by omega)
  · omega

end Sys2Proof.Machine

/-! The ticks of the two cadence timers: each adds its read or hands over a miss (R130 to R132). -/

namespace Sys2Proof.Machine

open Sys2Proof

/-! ### A read joins the pending set (R131, R132) -/

/-- R130: a read of a kind in the pending set. -/
def SenseEngine.withRead (k : SenseKind) (e : SenseEngine) : SenseEngine :=
  { e with motionPending := e.motionPending || k == .motion, gaugePending := e.gaugePending || k == .gauge }

/-- R131: an attempt begins, or waits for a busy bus. -/
theorem beginAttempt_eq (now : Word) (e : SenseEngine) : e.beginAttempt now =
    { e with busBusy := true, since := now, trans := if e.busBusy then .waitBus else .transfer } := by
  unfold SenseEngine.beginAttempt
  split
  · next hbusy => rw [← hbusy]
  · rfl

/-- R131: within a transaction none is started. -/
theorem startIfIdle_of_not_idle {e : SenseEngine} (h : e.trans ≠ .idle) (now : Word) : e.startIfIdle now = e := if_neg h

/-- R131: the motion read goes first. -/
theorem startIfIdle_motion {e : SenseEngine} (h : e.trans = .idle) (hm : e.motionPending = true) (now : Word) :
    e.startIfIdle now = SenseEngine.beginAttempt now { e with reading := some .motion, attempt := 1 } := by
  rw [SenseEngine.startIfIdle, if_pos h, if_pos hm]

theorem startIfIdle_gauge {e : SenseEngine} (h : e.trans = .idle) (hm : e.motionPending = false)
    (hg : e.gaugePending = true) (now : Word) : e.startIfIdle now =
      SenseEngine.beginAttempt now { e with reading := some .gauge, attempt := 1, gaugeStart := some now } := by
  rw [SenseEngine.startIfIdle, if_pos h, if_neg (by simp [hm]), if_pos hg]

theorem startIfIdle_readAdded (k : SenseKind) (now : Word) (e : SenseEngine) :
    ReadAdded k now e ((e.withRead k).startIfIdle now) := by
  refine ⟨fun h => ?_, fun h hk => ?_, fun h hk hm => ?_⟩
  · exact startIfIdle_of_not_idle (e := e.withRead k) h now
  · have hm : (e.motionPending || k == .motion) = true := by
      obtain rfl | hm := hk <;> simp [*]
    rw [startIfIdle_motion (e := e.withRead k) h hm, beginAttempt_eq]
    simp [SenseEngine.withRead, hm]
  · subst hk
    rw [startIfIdle_gauge (e := e.withRead .gauge) h (by simp [SenseEngine.withRead, hm]) (Bool.or_true _), beginAttempt_eq]
    simp [SenseEngine.withRead, hm]

/-- What the start of a transaction leaves alone. -/
theorem startIfIdle_kept (now : Word) (e : SenseEngine) : (e.startIfIdle now).motionPending = e.motionPending ∧
    (e.startIfIdle now).gaugePending = e.gaugePending ∧ (e.startIfIdle now).motionDue = e.motionDue ∧
    (e.startIfIdle now).gaugeDue = e.gaugeDue := by
  unfold SenseEngine.startIfIdle
  (repeat' split) <;> simp [beginAttempt_eq]

/-! ### A hand-over (R131, R134) -/

theorem handOver_eq (h : Handover) (s : State) :
    handOver h s = { s with se := { s.se with handed := (handOver h s).se.handed } } := by
  unfold handOver
  split <;> rfl

theorem handOver_handsOver (h : Handover) {s u : State} (hps : u.ps = s.ps) (hse : u.se.handed = s.se.handed) :
    HandsOver h s (handOver h u) := by
  unfold handOver consumersStopped
  rw [hps]
  refine ⟨fun hstop => ?_, fun h1 h2 => ?_⟩
  · rw [if_pos (by simpa using hstop), hse]
  · rw [if_neg (by simp [h1, h2])]
    exact congrArg (· ++ [h]) hse

/-! ### A tick (R130) -/

/-- R130: the tick of a kind's timer in state `u`, SE standing as `e`. -/
def tickAt (k : SenseKind) (e : SenseEngine) (u : State) : State :=
  if pendingRead (setSense e u) k then handOver k.miss (setSense e u)
  else setSense ((e.withRead k).startIfIdle u.uptimeMs) u

theorem motionTick_eq (e : SenseEngine) (u : State) : motionTick (setSense e u) = tickAt .motion e u := by
  have hread : { e with motionPending := true } = e.withRead .motion := by simp [SenseEngine.withRead]
  show (if e.motionPending then _ else setSense (SenseEngine.startIfIdle u.uptimeMs { e with motionPending := true }) u) = _
  rw [hread]
  rfl

theorem gaugeTick_eq (e : SenseEngine) (u : State) : gaugeTick (setSense e u) = tickAt .gauge e u := by
  have hread : { e with gaugePending := true } = e.withRead .gauge := by simp [SenseEngine.withRead]
  show (if e.gaugePending then _ else setSense (SenseEngine.startIfIdle u.uptimeMs { e with gaugePending := true }) u) = _
  rw [hread]
  rfl

/-- R130: what a tick leaves of the two reads and the two timers. -/
theorem tickAt_reads (k : SenseKind) (e : SenseEngine) (u : State) :
    (tickAt k e u).se.motionPending = (e.motionPending || k == .motion) ∧
    (tickAt k e u).se.gaugePending = (e.gaugePending || k == .gauge) ∧
    (tickAt k e u).se.motionDue = e.motionDue ∧ (tickAt k e u).se.gaugeDue = e.gaugeDue := by
  unfold tickAt
  split
  · next hp =>
    rw [handOver_eq]
    cases k <;> simp_all [pendingRead]
  · obtain ⟨hm, hg, hmd, hgd⟩ := startIfIdle_kept u.uptimeMs (e.withRead k)
    exact ⟨hm, hg, hmd, hgd⟩

theorem tickAt_onlySense (k : SenseKind) (e : SenseEngine) (u : State) : OnlySense u (tickAt k e u) := by
  unfold tickAt
  split
  · rw [handOver_eq]
    rfl
  · rfl

/-- R130: a tick that finds its read pending. -/
theorem tickAt_pending {k : SenseKind} {e : SenseEngine} {s u : State} (hp : pendingRead (setSense e u) k = true)
    (hps : u.ps = s.ps) (he : e.handed = s.se.handed) :
    HandsOver k.miss s (tickAt k e u) ∧ (tickAt k e u).se = { e with handed := (tickAt k e u).se.handed } := by
  have htick : tickAt k e u = handOver k.miss (setSense e u) := if_pos hp
  rw [htick]
  exact ⟨handOver_handsOver _ hps he, congrArg State.se (handOver_eq _ _)⟩

/-- R130, R131: a tick that does not. -/
theorem tickAt_free {k : SenseKind} {e : SenseEngine} {u : State} (hp : pendingRead (setSense e u) k = false) :
    ReadAdded k (tickAt k e u).uptimeMs e (tickAt k e u).se := by
  have htick : tickAt k e u = setSense ((e.withRead k).startIfIdle u.uptimeMs) u := if_neg (by simp [hp])
  rw [htick]
  exact startIfIdle_readAdded k u.uptimeMs e

/-- Settles O42: each command is a tick at its timer's instant, with the next instant one period later. -/
theorem cadenceTicks : Obligations.CadenceTicks := by
  intro s htimers
  constructor
  · obtain ⟨-, -, -, -, -, -, -, -, -, -, hps, hse, -⟩ := waitUntil_frame s.se.motionDue s
    have hexec : exec .motionCadence s =
        .next (tickAt .motion { s.se with motionDue := s.se.motionDue + 2 } (waitUntil s.se.motionDue s)) := by
      simp only [exec, execMotionCadence, htimers, if_true, hse, motionTick_eq]
    obtain ⟨hm, hg, hmd, -⟩ := tickAt_reads .motion { s.se with motionDue := s.se.motionDue + 2 } (waitUntil s.se.motionDue s)
    exact ⟨_, hexec, tickAt_onlySense _ _ _, hm.trans (Bool.or_true _), hmd, hg.trans (Bool.or_false _),
      fun hp => tickAt_pending (k := .motion) hp hps rfl, fun hp => tickAt_free (k := .motion) hp⟩
  · obtain ⟨-, -, -, -, -, -, -, -, -, -, hps, hse, -⟩ := waitUntil_frame s.se.gaugeDue s
    have hexec : exec .gaugeCadence s =
        .next (tickAt .gauge { s.se with gaugeDue := s.se.gaugeDue + 250 } (waitUntil s.se.gaugeDue s)) := by
      simp only [exec, execGaugeCadence, htimers, if_true, hse, gaugeTick_eq]
    obtain ⟨hm, hg, -, hgd⟩ := tickAt_reads .gauge { s.se with gaugeDue := s.se.gaugeDue + 250 } (waitUntil s.se.gaugeDue s)
    exact ⟨_, hexec, tickAt_onlySense _ _ _, hg.trans (Bool.or_true _), hgd, hm.trans (Bool.or_false _),
      fun hp => tickAt_pending (k := .gauge) hp hps rfl, fun hp => tickAt_free (k := .gauge) hp⟩

end Sys2Proof.Machine

/-! The outputs of the part: released in OFF, which the image writes end in, and elsewhere as the state they show (R124, R127,
R142, R143, R154, R156, R171, R177, R178). -/

namespace Sys2Proof.Machine

open Sys2Proof

/-! ### The pins (R124, R127, R143, R154, R156, R171) -/

theorem pins_off {s : State} (h : s.ps.power = .off) : attnPin s = .released ∧ offreqPin s = .released ∧
    mrstPin s = .released ∧ mediaLines s = .released ∧ senseLines s = .released ∧ ∀ n, ledPin s n = .released :=
  ⟨if_pos h, if_pos h, if_pos h, if_pos h, if_pos h, fun _ => if_pos h⟩

theorem attnPin_on {s : State} (h : s.ps.power ≠ .off) : (s.ps.startPos ≠ .served → attnPin s = .inactive) ∧
    (s.ps.startPos = .served → s.ru.attn = true → attnPin s = .active) ∧
    (s.ps.startPos = .served → s.ru.attn = false → attnPin s = .inactive) := by
  rw [attnPin, if_neg h]
  exact ⟨fun hs => if_neg hs, fun hs ha => by rw [if_pos hs, if_pos ha], fun hs ha => by rw [if_pos hs, if_neg (by simp [ha])]⟩

theorem offreqPin_on {s : State} (h : s.ps.power ≠ .off) : (s.ps.offreq = true → offreqPin s = .active) ∧
    (s.ps.offreq = false → offreqPin s = .inactive) := by
  rw [offreqPin, if_neg h]
  exact ⟨fun ho => if_pos ho, fun ho => if_neg (by simp [ho])⟩

theorem mediaLines_driven_iff {s : State} (h : s.ps.power ≠ .off) : mediaLines s = .driven ↔ s.mp.current.isSome = true := by
  rw [mediaLines, if_neg h]
  split <;> simp [*]

theorem senseLines_driven_iff {s : State} (h : s.ps.power ≠ .off) :
    senseLines s = .driven ↔ s.se.trans = .transfer ∨ s.se.trans = .recovery := by
  rw [senseLines, if_neg h]
  split <;> simp [*]

theorem waitPin_cases (s : State) :
    (s.fp.port = .held ∨ s.fp.port = .completing ∨ s.fp.port = .missWait → waitPin s = .active) ∧
    (s.fp.port = .idle ∨ s.fp.port = .taking ∨ s.fp.port = .assembling ∨ s.fp.port = .answering → waitPin s = .inactive) ∧
    (s.fp.port = .closed → waitPin s = .released) := by
  unfold waitPin
  split <;> simp [*]

theorem frontLines_driven_iff (s : State) : frontLines s = .driven ↔ s.fp.port = .answering := by
  unfold frontLines
  split <;> simp [*]

/-! ### The LEDs (R177, R178) -/

theorem ledPin_on {s : State} (h : s.ps.power ≠ .off) (n : Nat) :
    ledPin s n = ledPinIs (ledLit (indicatorPattern s) s.uptimeMs n) := if_neg h

theorem ledPin_dark {s : State} (h : s.ps.power ≠ .off) (hd : inService s.ps.power = false ∨ s.ps.mediaFault = true) (n : Nat) :
    ledPin s n = .inactive := by
  have hpattern : indicatorPattern s = .allOff := if_pos (by simpa using hd)
  rw [ledPin_on h, hpattern]
  rfl

/-- R177: the first row does not hold in service, without media FAULT. -/
theorem indicatorPattern_service {s : State} (hs : inService s.ps.power = true) (hf : s.ps.mediaFault = false) :
    indicatorPattern s = if s.bg.flagUnknown then .unknown
      else if s.ps.power = .critical then .critical
      else .bar (barBySoc s.bg.soc) (s.ps.power = .low) (charging s.bg) :=
  if_neg (by simp [hs, hf])

theorem ledPin_unknown {s : State} (hs : inService s.ps.power = true) (hf : s.ps.mediaFault = false)
    (hu : s.bg.flagUnknown = true) : ledPin s 1 = ledPinIs (on1Hz s) ∧ ledPin s 2 = .inactive ∧ ledPin s 3 = .inactive ∧
      ledPin s 4 = ledPinIs (!on1Hz s) := by
  have hpattern : indicatorPattern s = .unknown := by rw [indicatorPattern_service hs hf, if_pos hu]
  simp only [ledPin_on (ne_off_of_inService hs), hpattern]
  refine ⟨?_, rfl, rfl, rfl⟩
  exact congrArg ledPinIs (Bool.or_false _)

theorem ledPin_critical {s : State} (hs : inService s.ps.power = true) (hf : s.ps.mediaFault = false)
    (hu : s.bg.flagUnknown = false) (hc : s.ps.power = .critical) :
    ledPin s 1 = ledPinIs (on4Hz s) ∧ ∀ n, 2 ≤ n → n ≤ 4 → ledPin s n = .inactive := by
  have hpattern : indicatorPattern s = .critical := by
    rw [indicatorPattern_service hs hf, if_neg (by simp [hu]), if_pos hc]
  simp only [ledPin_on (ne_off_of_inService hs), hpattern]
  refine ⟨rfl, fun n h2 _ => ?_⟩
  have hn : (n == 1) = false := by simp; omega
  simp only [ledLit, hn]
  rfl

/-- R177: LED `n` is among those that SOC lights. -/
theorem le_barBySoc_iff {n : Nat} (soc : Nat) (h1 : 1 ≤ n) (h4 : n ≤ 4) : n ≤ barBySoc soc ↔ barFrom n ≤ soc := by
  unfold barBySoc
  interval_cases n <;> simp [barFrom] <;> omega

/-- R177: LED `n`, unlit by SOC, is the lowest such. -/
theorem eq_barBySoc_succ_iff {n : Nat} (soc : Nat) (h1 : 1 ≤ n) (h4 : n ≤ 4) (hn : ¬n ≤ barBySoc soc) :
    n = barBySoc soc + 1 ↔ n = 1 ∨ barFrom (n - 1) ≤ soc := by
  obtain rfl | h2 := Nat.eq_or_lt_of_le h1
  · simp; omega
  · rw [← le_barBySoc_iff soc (by omega) (by omega)]
    omega

theorem ledPin_bar {s : State} (hs : inService s.ps.power = true) (hf : s.ps.mediaFault = false)
    (hu : s.bg.flagUnknown = false) (hc : s.ps.power ≠ .critical) {n : Nat} (h1 : 1 ≤ n) (h4 : n ≤ 4) :
    ledPin s n = barLed s n := by
  have hpattern : indicatorPattern s = .bar (barBySoc s.bg.soc) (s.ps.power = .low) (charging s.bg) := by
    rw [indicatorPattern_service hs hf, if_neg (by simp [hu]), if_neg hc]
  rw [ledPin_on (ne_off_of_inService hs), hpattern, ledLit, barLed]
  by_cases hlow : s.ps.power = .low ∧ n = 1
  · rw [if_pos hlow, if_pos (by simpa using hlow)]
    rfl
  · rw [if_neg hlow, if_neg (by simpa using hlow)]
    by_cases hlit : n ≤ barBySoc s.bg.soc
    · rw [if_pos hlit, if_pos ((le_barBySoc_iff _ h1 h4).mp hlit)]
      rfl
    · rw [if_neg hlit, if_neg (mt (le_barBySoc_iff _ h1 h4).mpr hlit)]
      have hlowest := eq_barBySoc_succ_iff s.bg.soc h1 h4 hlit
      by_cases hblink : s.bg.iavg < -10 ∧ (n = 1 ∨ barFrom (n - 1) ≤ s.bg.soc)
      · rw [if_pos hblink]
        simp [charging, hblink.1, hlowest.mpr hblink.2, on1Hz, blink1Hz]
      · rw [if_neg hblink]
        have hno : (charging s.bg && n == barBySoc s.bg.soc + 1) = false := by
          simpa [charging, ← hlowest] using hblink
        simp [hno, ledPinIs]

/-! ### The image writes (R142, R143, R165) -/

/-- R165: an operation ends with its success or its last failure. -/
theorem exec_complete_ended {status : Byte} {s : State} {op : MediaOp} (hc : s.mp.current = some op) (payload : List Byte)
    (hlast : status ≠ 0 → mayRetry op s = false) : exec (.mediaOperationComplete status payload) s =
      .next (goIdle s.mp.waiters (handOutcome op (if status = 0 then some payload else none) (handing s))) := by
  by_cases hs : status = 0
  · subst hs
    rw [operationComplete_success hc, if_pos rfl]
  · rw [exec_complete_failure hc hs, attemptFailure_last (hlast hs), if_neg hs]

theorem mayRetry_image {op : MediaOp} {s : State}
    (hq : op.requester = .holdup .imageFirst ∨ op.requester = .holdup .imageSecond) (h2 : 2 ≤ op.attempt) :
    mayRetry op s = false := by
  obtain hq | hq := hq <;> rw [mayRetry, hq] <;> simp <;> omega

theorem enterOff_eq (s : State) : enterOff s = { s with
    fp := (enterOff s).fp, mp := (enterOff s).mp, ps := (enterOff s).ps, se := (enterOff s).se
    ru := { s.ru with attn := true }, sm := { s.sm with mode := (enterOff s).sm.mode } } := by
  unfold enterOff
  dsimp only
  rw [changePower_eq (p := .off) nofun nofun s]

/-- R166, R168: an outcome that takes the part to OFF grants nothing after it. -/
theorem goIdle_enterOff (before : Waiters) (s : State) : goIdle before (enterOff s) = outcomeHanded (enterOff s) := by
  have hoff := enterOff_power s
  rw [goIdle_outside_service (by rw [hoff]; rfl), pump_off (s := outcomeHanded (enterOff s)) hoff]

/-- R142: the second image write is granted where MP goes idle after the first. -/
theorem pump_imageSecond {s : State} (hp : s.ps.power = .holdup) (hc : s.mp.current = none) : ∃ w n,
    pump (outcomeHanded (requestHoldup .imageSecond s)) =
      syncDrain (issueImage .imageSecond
        { s with mp := { s.mp with waiters := w, starvation := n, handing := false } }) := by
  rw [pump_holdup (what := .imageSecond) (by exact hp) (mpIdle_outcomeHanded (by exact hc)) rfl, grantHoldup,
    if_neg (by decide)]
  obtain ⟨d, n, hd⟩ := exists_syncDrain (outcomeHanded (requestHoldup .imageSecond s))
  rw [hd]
  exact ⟨_, n, rfl⟩

/-- R142, R143: the second image write ends in OFF, either way. -/
theorem exec_imageSecond {status : Byte} {s : State} {op : MediaOp} (hc : s.mp.current = some op) (payload : List Byte)
    (hq : op.requester = .holdup .imageSecond) (hph : s.ps.phase ≠ some .invalidate) (h : status = 0 ∨ 2 ≤ op.attempt) :
    exec (.mediaOperationComplete status payload) s = .next (outcomeHanded (enterOff (handing s))) := by
  rw [exec_complete_ended hc payload fun hs => mayRetry_image (.inr hq) (h.resolve_left hs), handOutcome, hq]
  dsimp only
  rw [imageSecondDone, if_neg (show (handing s).ps.phase ≠ _ from hph), goIdle_enterOff]

theorem exec_imageFirst {status : Byte} {s : State} {op : MediaOp} (hc : s.mp.current = some op) (payload : List Byte)
    (hq : op.requester = .holdup .imageFirst) (hph : s.ps.phase ≠ some .invalidate) (h : status = 0 ∨ 2 ≤ op.attempt) :
    exec (.mediaOperationComplete status payload) s = .next (goIdle s.mp.waiters
      (if status = 0 then requestHoldup .imageSecond (handing s) else enterOff (handing s))) := by
  rw [exec_complete_ended hc payload fun hs => mayRetry_image (.inl hq) (h.resolve_left hs), handOutcome, hq]
  dsimp only
  rw [imageFirstDone, if_neg (show (handing s).ps.phase ≠ _ from hph)]
  split <;> rfl

theorem imageSecond_released {status : Byte} {payload : List Byte} {s : State} {op : MediaOp} (hc : s.mp.current = some op)
    (hq : op.requester = .holdup .imageSecond) (hph : s.ps.phase ≠ some .invalidate) (h : status = 0 ∨ 2 ≤ op.attempt) :
    ∃ t, exec (.mediaOperationComplete status payload) s = .next t ∧ t.ps.power = .off ∧ t.ps.phase = none ∧
      t.fp.port = .closed ∧ t.mp.current = none ∧ t.mp.waiters = .none ∧ t.se.timersOn = false ∧
      waitPin t = .released ∧ attnPin t = .released ∧ offreqPin t = .released ∧ (∀ n, ledPin t n = .released) ∧
      mrstPin t = .released ∧ frontLines t = .released ∧ mediaLines t = .released ∧ senseLines t = .released ∧
      t = { s with fp := t.fp, mp := t.mp, ps := t.ps, se := t.se, ru := { s.ru with attn := true },
                   sm := { s.sm with mode := t.sm.mode } } := by
  have hoff : (outcomeHanded (enterOff (handing s))).ps.power = .off := enterOff_power _
  obtain ⟨hattn, hoffreq, hmrst, hmedia, hsense, hled⟩ := pins_off hoff
  refine ⟨_, exec_imageSecond hc payload hq hph h, hoff, rfl, rfl, rfl, rfl, rfl, rfl, hattn, hoffreq, hled, hmrst, rfl,
    hmedia, hsense, ?_⟩
  conv_lhs => rw [outcomeHanded, enterOff_eq]
  rfl

theorem imageFirst_success {payload : List Byte} {s : State} {op : MediaOp} (hc : s.mp.current = some op)
    (hq : op.requester = .holdup .imageFirst) (hp : s.ps.power = .holdup) (hph : s.ps.phase ≠ some .invalidate) :
    ∃ t, exec (.mediaOperationComplete 0 payload) s = .next t ∧
      t = { s with mp := { t.mp with resetPulses := s.mp.resetPulses } } ∧
      t.mp.current = some { kind := .write, sector := tailBase s + 24, count := 8, data := s.ps.image.drop 7
                            requester := .holdup .imageSecond, attempt := 1, start := s.uptimeMs, abandoned := false } := by
  obtain ⟨w, n, hpump⟩ := pump_imageSecond (s := handing s) hp rfl
  refine ⟨_, exec_imageFirst hc payload hq hph (.inl rfl), ?_⟩
  have hup : inService (requestHoldup .imageSecond (handing s)).ps.power = false := by
    show inService s.ps.power = false
    rw [hp]
    rfl
  rw [if_pos rfl, goIdle_outside_service hup, hpump, syncDrain_eq]
  exact ⟨rfl, rfl⟩

/-- Settles O27: the image writes by what PS does with their outcomes, and each output by the function that gives it. -/
theorem secondImageWriteEndsInOff : Obligations.SecondImageWriteEndsInOff := by
  refine ⟨fun status payload s op hc hq hph h => imageSecond_released hc hq hph h,
    fun status payload s op hc hq hp hph => ⟨?first, fun hs h2 => ?last⟩, fun s hport => ?reset, fun s => ?pins⟩
  case first =>
    rintro rfl
    exact imageFirst_success hc hq hp hph
  case last =>
    refine ⟨_, exec_imageFirst hc payload hq hph (.inr h2), ?_⟩
    rw [if_neg hs, goIdle_enterOff]
    exact enterOff_power _
  case reset =>
    have hexec : exec .linkReset s = .next (abandonRequest { s with pins := { s.pins with frst := true } }) := by
      simp only [exec, execLinkReset, linkResetPort, if_neg hport]
    exact ⟨_, hexec, rfl, rfl⟩
  case pins =>
    obtain ⟨hwait, hcalm, hclosed⟩ := waitPin_cases s
    refine ⟨fun hp => ?_, fun hp => pins_off hp, hwait, hcalm, hclosed, frontLines_driven_iff s,
      fun hp hd n => ledPin_dark hp hd n, fun hs hf => ⟨fun hu => ledPin_unknown hs hf hu,
        fun hu hc => ledPin_critical hs hf hu hc, fun hu hc _ n h1 h4 => ledPin_bar hs hf hu hc h1 h4⟩⟩
    obtain ⟨hearly, hlatched, hclear⟩ := attnPin_on hp
    obtain ⟨hasserted, hdeasserted⟩ := offreqPin_on hp
    exact ⟨hearly, hlatched, hclear, hasserted, hdeasserted, if_neg hp, mediaLines_driven_iff hp, senseLines_driven_iff hp⟩

end Sys2Proof.Machine

/-! A hold-up recovery, where offers fail as in the statements about twin RECORD lines above: no run of the part reaches such a
pair, and the statement names no premise that excludes it (R5, R7, R17, R144, R174). -/

namespace Sys2Proof.Machine

open Sys2Proof

/-- `drainingTwins` without its run, in phase DRAIN of HOLDUP with the rail returning: MP is idle and offset 11 is pending. -/
def recoveringTwins : State :=
  { twinState [twinLine 5 1, twinLine 5 4] with
    sm := { Supply.reset with rail := .returning, converting := 0, firstPending := false }
    ps := { PowerSup.reset with power := .holdup, phase := some .drain, startPos := .served, capacity := 64 }
    ru := { ReportUnit.reset with pending := [11] } }

theorem tablesSized_recoveringTwins : TablesSized recoveringTwins :=
  ⟨rfl, by simp [recoveringTwins, twinState, twinLine, Line.free], rfl, rfl⟩

/-- Refutes O35: service is resumed in NORMAL, where offset 11 is offered in vain before MP's grant, which makes it
admissible, so the offers are not as stated. -/
theorem not_recoveryResumesService : ¬Obligations.RecoveryResumesService := by
  rintro ⟨hrecovery, -⟩
  obtain ⟨t, hex, -, hresumed, -⟩ := hrecovery recoveringTwins rfl rfl (.inl rfl)
  obtain ⟨-, -, -, -, -, -, -, -, -, -, -, -, -, -, -, hoffers⟩ := hresumed
  have ht := endState_of_next hex
  have hnormal : t.ps.power = .normal := by rw [ht]; decide +kernel
  have hmade := hoffers (by rw [ht]; decide +kernel) tablesSized_recoveringTwins
  refine not_offersMade_of_eval hmade hex (o := 11) (by omega) (by omega) (.inr (.inr (by decide))) (by decide +kernel)
    fun p _ hp => ?_
  obtain rfl : p = 11 := by
    obtain h | h | h := hp
    · rw [hnormal] at h; cases h
    · rw [hnormal] at h; cases h
    · exact List.mem_singleton.mp h
  decide +kernel

end Sys2Proof.Machine

/-! The outputs that show the power state: OFFREQ is asserted in CRITICAL alone, and the front port is CLOSED exactly in OFF,
where no media operation is in progress. Outside HOLDUP what follows a change moves none of them; in HOLDUP a grant may take
the part to OFF, which releases them all (R124, R143, R162, R168). -/

namespace Sys2Proof.Machine

open Sys2Proof

/-! ### The invariant, in a powered part and in OFF -/

/-- R124, R143, R168: the two statements about the outputs. -/
def OutputsStand (s : State) : Prop :=
  OffreqInCritical s ∧ ClosedInOff s

/-- Outside OFF nothing is asked of the media port. -/
structure Powered (s : State) : Prop where
  offreq : OffreqInCritical s
  on : s.ps.power ≠ .off
  opened : s.fp.port ≠ .closed

theorem Powered.stand {s : State} (h : Powered s) : OutputsStand s :=
  ⟨h.offreq, ⟨fun hc => absurd hc h.opened, fun ho => absurd ho h.on⟩, fun ho => absurd ho h.on⟩

theorem OutputsStand.powered {s : State} (h : OutputsStand s) (hp : s.ps.power ≠ .off) : Powered s :=
  ⟨h.1, hp, fun hc => hp (h.2.1.mp hc)⟩

theorem OutputsStand.powered_of_opened {s : State} (h : OutputsStand s) (hp : s.fp.port ≠ .closed) : Powered s :=
  h.powered fun ho => hp (h.2.1.mpr ho)

/-- R168: an operation in progress says that the part is not in OFF. -/
theorem OutputsStand.powered_of_busy {s : State} {op : MediaOp} (h : OutputsStand s) (hc : s.mp.current = some op) :
    Powered s :=
  h.powered fun ho => by simp [h.2.2 ho] at hc

/-! ### What moves no output -/

/-- From `s` to `t` the power state, OFFREQ outside CRITICAL, whether the front port is CLOSED, and an idle media port in OFF
are as they were. -/
structure Steady (s t : State) : Prop where
  power : t.ps.power = s.ps.power
  offreq : t.ps.offreq = true → s.ps.offreq = true ∨ t.ps.power = .critical
  port : t.fp.port = .closed ↔ s.fp.port = .closed
  idle : s.ps.power = .off → s.mp.current = none → t.mp.current = none

theorem Steady.refl (s : State) : Steady s s := ⟨rfl, .inl, .rfl, fun _ => id⟩

theorem Steady.trans {s t u : State} (h : Steady s t) (g : Steady t u) : Steady s u where
  power := g.power.trans h.power
  offreq hu := (g.offreq hu).elim (fun ht => (h.offreq ht).imp_right (g.power.trans ·)) .inr
  port := g.port.trans h.port
  idle ho hi := g.idle (h.power.trans ho) (h.idle ho hi)

theorem Steady.stand {s t : State} (h : Steady s t) (hs : OutputsStand s) : OutputsStand t := by
  obtain ⟨hoffreq, hport, hidle⟩ := hs
  refine ⟨fun ht => ?_, ?_, fun ho => ?_⟩
  · exact (h.offreq ht).elim (fun hq => h.power.trans (hoffreq hq)) id
  · rw [h.port, h.power]
    exact hport
  · rw [h.power] at ho
    exact h.idle ho (hidle ho)

theorem Steady.powered {s t : State} (h : Steady s t) (hs : Powered s) : Powered t :=
  (h.stand hs.stand).powered (by rw [h.power]; exact hs.on)

theorem Steady.after {s t u : State} (g : Steady t u) (h : Steady s t) : Steady s u := h.trans g

/-- The same, from what stands: the state that follows is read off the goal. -/
theorem OutputsStand.keep {s t : State} (hs : OutputsStand s) (h : Steady s t) : OutputsStand t := h.stand hs

theorem Powered.keep {s t : State} (hs : Powered s) (h : Steady s t) : Powered t := h.powered hs

theorem Steady.opened {s t : State} (h : Steady s t) (hs : s.fp.port ≠ .closed) : t.fp.port ≠ .closed := by
  rwa [ne_eq, h.port]

/-- The four parts are untouched. -/
theorem Steady.of_same {s t : State} (hpower : t.ps.power = s.ps.power) (hoffreq : t.ps.offreq = s.ps.offreq)
    (hport : t.fp.port = s.fp.port) (hcurrent : t.mp.current = s.mp.current) : Steady s t :=
  ⟨hpower, fun h => .inl (hoffreq ▸ h), by rw [hport], fun _ hi => hcurrent.trans hi⟩

/-- An open front port goes from one open state to another. -/
theorem Steady.of_opened {s t : State} (hps : t.ps = s.ps) (hs : s.fp.port ≠ .closed) (ht : t.fp.port ≠ .closed)
    (hcurrent : t.mp.current = s.mp.current) : Steady s t :=
  ⟨by rw [hps], fun h => .inl (hps ▸ h), iff_of_false ht hs, fun _ hi => hcurrent.trans hi⟩

theorem FrontCalm.opened {s t : State} (h : FrontCalm s t) (hs : s.fp.port ≠ .closed) : t.fp.port ≠ .closed := by
  obtain h | h := h
  · rwa [h]
  · rw [h]
    nofun

theorem FrontCalm.steady {s t : State} (h : FrontCalm s t) (hs : s.fp.port ≠ .closed) (hps : t.ps = s.ps)
    (hmp : t.mp = s.mp) : Steady s t :=
  .of_opened hps hs (h.opened hs) (by rw [hmp])

/-- A grant outside OFF leaves every output alone. -/
theorem GrantOnly.steady {s t : State} (h : GrantOnly s t) (hp : s.ps.power ≠ .off) : Steady s t :=
  ⟨by rw [h.ps], fun ho => .inl (h.ps ▸ ho), by rw [h.fp], fun ho => absurd ho hp⟩

theorem testWindDown_steady (s : State) : Steady s (testWindDown s) := by
  unfold testWindDown
  split
  · next h => exact ⟨rfl, fun _ => .inr h.1, .rfl, fun _ => id⟩
  · exact .refl s

/-! ### Answers -/

theorem respond_steady {s : State} (h : s.fp.port ≠ .closed) (a : Answer) (n : Nat) (p : List Byte) :
    Steady s (respond a n p s) := .of_opened rfl h nofun rfl

theorem refuse_steady {s : State} (h : s.fp.port ≠ .closed) (a : Answer) (m : BitVec 9) (n : Nat) (p : List Byte) :
    Steady s (refuse a m n p s) := by
  rw [refuse_eq]
  exact .of_opened rfl h nofun rfl

theorem endTransfer_steady (a : Answer) (m : BitVec 9) (s : State) : Steady s (endTransfer a m s) := by
  unfold endTransfer
  split
  · next h => exact refuse_steady (by rw [h]; nofun) _ _ _ _
  · next h => exact refuse_steady (by rw [h]; nofun) _ _ _ _
  · exact .refl s

theorem testWait_steady (s : State) : Steady s (testWait s) := by
  unfold testWait answerFlush
  split
  · next h _ _ =>
    have hopen : s.fp.port ≠ .closed := by rw [h]; nofun
    (repeat' split)
    · exact .refl s
    · exact .of_opened rfl hopen nofun rfl
    · exact .of_opened rfl hopen nofun rfl
    · exact .of_opened rfl hopen nofun rfl
  · exact .refl s

theorem answerWrite_steady {s : State} (h : s.fp.port ≠ .closed) : Steady s (answerWrite s) := by
  have hwait : Steady s { s with fp := { s.fp with port := .completing, mark := some s.sb.ageCounter } } :=
    .of_opened rfl h nofun rfl
  unfold answerWrite
  split
  · exact respond_steady h _ _ _
  · exact hwait.trans (testWait_steady _)

theorem endThroughWait_steady (s : State) : Steady s (endThroughWait s) := by
  unfold endThroughWait
  split
  · next h _ =>
    split
    · exact respond_steady (by rw [h]; nofun) _ _ _
    · exact .refl s
  · exact .refl s

theorem recomputeMode_steady (s : State) : Steady s (recomputeMode s) := by
  unfold recomputeMode
  split
  · exact Steady.after (endThroughWait_steady _) (.of_same rfl rfl rfl rfl)
  · exact .of_same rfl rfl rfl rfl

/-! ### Another power state (R122, R143) -/

theorem changePower_powered {p : PowerState} {s : State} (hp : p ≠ .off) (h : s.fp.port ≠ .closed) :
    Powered (changePower p s) := by
  refine ⟨fun ho => ?_, by rwa [changePower_power], ?_⟩
  · by_cases hc : p = .critical
    · rw [changePower_power, hc]
    · simp [changePower, marksAtPower, frontAtPower, raiseAttn, hc] at ho
      split at ho <;> simp at ho
  · have hfront : ∀ u : State, u.fp.port ≠ .closed → (frontAtPower p u).fp.port ≠ .closed := fun u hu => by
      unfold frontAtPower
      split
      · exact (endTransfer_steady _ _ u).opened hu
      · exact hu
    have hattn := hfront (raiseAttn { s with ps := { s.ps with power := p, offreq := false } }) h
    have hmode := (recomputeMode_steady _).opened hattn
    simpa [changePower] using hmode

theorem enterOff_stand (s : State) : OutputsStand (enterOff s) := by
  have hoffreq : (enterOff s).ps.offreq = false := by
    unfold enterOff
    dsimp only
    rw [changePower_eq (p := .off) nofun nofun]
  exact ⟨fun ho => by simp [hoffreq] at ho, ⟨fun _ => enterOff_power s, fun _ => rfl⟩, fun _ => rfl⟩

end Sys2Proof.Machine

/-! What follows a change: retries, offers and grants (R17, R138, R139, R166, R174). -/

namespace Sys2Proof.Machine

open Sys2Proof

/-! ### Grants in HOLDUP -/

/-- A powered part stays one over a change of the media port alone. -/
theorem Powered.of_media {s t : State} (h : Powered s) (hps : t.ps = s.ps) (hfp : t.fp = s.fp) : Powered t := by
  obtain ⟨hoffreq, hon, hopen⟩ := h
  exact ⟨by rwa [OffreqInCritical, hps], by rwa [hps], by rwa [hfp]⟩

theorem offWithoutImage_stand {s : State} (h : Powered s) : OutputsStand (offWithoutImage s) := by
  unfold offWithoutImage
  split
  · exact enterOff_stand s
  · exact h.stand

/-- R138: phase SAVE, or OFF with no request left waiting. -/
theorem enterSave_stand {s : State} (h : Powered s) : OutputsStand (enterSave s) ∧
    ∀ what, (enterSave s).mp.waiters.holdup = some what → Powered (enterSave s) := by
  have hphase : ∀ ph, Powered { s with ps := { s.ps with phase := ph } } := fun ph =>
    h.keep (.of_same rfl rfl rfl rfl)
  unfold enterSave
  dsimp only
  split
  · refine ⟨offWithoutImage_stand (hphase _), fun what hw => ?_⟩
    unfold offWithoutImage at hw ⊢
    split
    · next hidle =>
      rw [if_pos hidle, enterOff_waiters] at hw
      cases hw
    · exact hphase _
  · have himage : Powered (requestHoldup .imageFirst { s with ps := { s.ps with
        phase := some .save, image := formImage { s with ps := { s.ps with phase := some .save } } } }) :=
      h.keep (.of_same rfl rfl rfl rfl)
    exact ⟨himage.stand, fun _ _ => himage⟩

theorem testDrained_stand {s : State} (h : Powered s) : OutputsStand (testDrained s) := by
  unfold testDrained
  split
  · exact (h.of_media rfl rfl).stand
  · exact (enterSave_stand h).1

theorem issueImage_stand {s : State} (what : HoldupRequest) (h : Powered s) : OutputsStand (issueImage what s) :=
  (h.of_media (by simp) (by simp)).stand

theorem stopDraining_stand {s : State} (h : Powered s) : OutputsStand (stopDraining s) := by
  have hdiscard : Powered (discardAll (dirtyCost s.sb.lines) s) := h.of_media (by simp) (by simp)
  obtain ⟨hsave, hwaiting⟩ := enterSave_stand hdiscard
  unfold stopDraining
  dsimp only
  split
  · next what hw => exact issueImage_stand what ((hwaiting what hw).of_media rfl rfl)
  · exact hsave

theorem grantHoldup_stand {s : State} (what : HoldupRequest) (h : Powered s) : OutputsStand (grantHoldup what s) := by
  unfold grantHoldup
  dsimp only
  (repeat' split)
  · exact (h.of_media (by simp) (by simp)).stand
  · exact (h.of_media rfl rfl).stand
  · exact stopDraining_stand (h.of_media rfl rfl)
  · exact issueImage_stand what (h.of_media rfl rfl)

/-! ### Grants -/

/-- What follows a change: outside HOLDUP no output moves, and everywhere the outputs stand. -/
structure OutputsCourse (s t : State) : Prop where
  quiet : s.ps.power ≠ .holdup → Steady s t
  stand : OutputsStand s → OutputsStand t

theorem OutputsCourse.of_steady {s t : State} (h : Steady s t) : OutputsCourse s t := ⟨fun _ => h, h.stand⟩

theorem OutputsCourse.refl (s : State) : OutputsCourse s s := .of_steady (.refl s)

theorem OutputsCourse.trans {s t u : State} (h : OutputsCourse s t) (g : OutputsCourse t u) : OutputsCourse s u where
  quiet hp := (h.quiet hp).trans (g.quiet (by rw [(h.quiet hp).power]; exact hp))
  stand := g.stand ∘ h.stand

theorem grantNext_outputs (s : State) : OutputsCourse s (grantNext s) := by
  by_cases hp : s.ps.power = .holdup
  · refine ⟨fun h => absurd hp h, fun hs => ?_⟩
    have hon : Powered s := hs.powered (by rw [hp]; nofun)
    rw [grantNext, hp]
    dsimp only
    (repeat' split)
    · exact grantHoldup_stand _ hon
    · exact hs
    · exact hs
  · by_cases ho : s.ps.power = .off
    · have hsame : grantNext s = s := by simp [grantNext, ho]
      rw [hsame]
      exact .refl s
    · exact .of_steady ((grantNext_grantOnly hp).steady ho)

theorem syncDrain_outputs (s : State) : OutputsCourse s (syncDrain s) :=
  .of_steady (.of_same (by simp) (by simp) (by simp) (syncDrain_current s))

theorem pump_outputs (s : State) : OutputsCourse s (pump s) :=
  (syncDrain_outputs s).trans ((grantNext_outputs _).trans (syncDrain_outputs _))

/-- The requests that wait are no output. -/
theorem waiters_outputs (w : Waiters) (s : State) : OutputsCourse s { s with mp := { s.mp with waiters := w } } :=
  .of_steady (.of_same rfl rfl rfl rfl)

theorem grantAmong_outputs (old : Waiters) (s : State) : OutputsCourse s (grantAmong old s) :=
  (waiters_outputs old s).trans ((grantNext_outputs _).trans ((waiters_outputs _ _).trans (syncDrain_outputs _)))

theorem goIdle_outputs (before : Waiters) (s : State) : OutputsCourse s (goIdle before s) := by
  have hhanding : OutputsCourse s { s with mp := { s.mp with handing := false } } := .of_steady (.of_same rfl rfl rfl rfl)
  refine (hhanding.trans (syncDrain_outputs _)).trans ?_
  unfold goIdle
  generalize syncDrain { s with mp := { s.mp with handing := false } } = u
  dsimp only
  have hfresh : OutputsCourse u { u with fresh := u.fresh + 1 } := .of_steady (.of_same rfl rfl rfl rfl)
  (repeat' split)
  · exact hfresh.trans (grantAmong_outputs _ _)
  · exact hfresh.trans (pump_outputs _)
  · exact pump_outputs u

/-! ### The held sector and the offers -/

theorem publishGauge_steady (g : Gauge) {s : State} (h : s.fp.port ≠ .closed) : Steady s (publishGauge g s) :=
  (publishGauge_calm g s).steady h (by simp) (by simp)

theorem publishFlags_steady (g : Gauge) {s : State} (h : s.fp.port ≠ .closed) : Steady s (publishFlags g s) :=
  (publishFlags_calm g s).steady h (by simp) (by simp)

theorem takeDesign_steady (old : Nat) {s : State} (h : s.fp.port ≠ .closed) : Steady s (takeDesign old s) := by
  unfold takeDesign
  dsimp only
  (repeat' split)
  · exact .refl s
  · exact .of_same rfl rfl rfl rfl
  · exact publishGauge_steady _ h

theorem takeContent_steady (n : Nat) (d : Sector) {s : State} (h : s.fp.port ≠ .closed) : Steady s (takeContent n d s) := by
  have hnote : ∀ o u, Steady u (noteMapCopy o d u) := fun _ _ => .of_same rfl rfl rfl rfl
  have hlatched : Steady s (latchTimeBase (headerTimeBase d) (setSettings (headerSettings d) s)) := by
    refine .of_same ?_ ?_ ?_ ?_ <;> simp
  unfold takeContent
  (repeat' split)
  · refine .of_same ?_ ?_ ?_ ?_ <;> simp
  · exact (hlatched.trans (takeDesign_steady _ (hlatched.opened h))).trans (hnote _ _)
  · refine Steady.trans (.of_same ?_ ?_ ?_ ?_) (hnote _ _) <;> simp
  · exact .refl s

/-- R8, R17: outside HOLDUP an admitted sector's grants move no output. -/
theorem acceptSector_steady (n : Nat) (d : Sector) (sb : Staging) {s : State} (h : s.fp.port ≠ .closed)
    (hp : s.ps.power ≠ .holdup) : Steady s (acceptSector n d sb s) := by
  have hcount : Steady s (countTaken { s with sb := sb }) := .of_opened rfl h nofun rfl
  have hcontent := hcount.trans (takeContent_steady n d (hcount.opened h))
  have hgrant := hcontent.trans ((pump_outputs _).quiet (by rw [hcontent.power]; exact hp))
  unfold acceptSector
  dsimp only
  split
  · exact hgrant.trans (answerWrite_steady (hgrant.opened h))
  · exact hgrant

/-- R16: in HOLDUP no sector is admitted. -/
theorem offerSector_steady (n : Nat) (d : Sector) {s : State} (h : s.fp.port ≠ .closed) : Steady s (offerSector n d s) := by
  unfold offerSector
  split
  · exact refuse_steady h _ _ _ _
  · next hr =>
    split
    · refine acceptSector_steady n d _ h fun hp => ?_
      simp [admissionRefusal, hp] at hr
    · exact .of_opened rfl h nofun rfl

theorem retryHeld_steady (s : State) : Steady s (retryHeld s) := by
  unfold retryHeld
  split
  · next hheld _ _ => exact offerSector_steady _ _ (by rw [hheld]; nofun)
  · exact .refl s

theorem checkpointTaken_steady (o : Nat) (s : State) : Steady s (checkpointTaken o s) := by
  unfold checkpointTaken
  refine Steady.trans ?_ (testWindDown_steady _)
  dsimp only
  split <;> exact .of_same rfl rfl rfl rfl

theorem offerCheckpoint_steady {o : Nat} {s t : State} (hp : s.ps.power ≠ .holdup) (h : offerCheckpoint o s = some t) :
    Steady s t := by
  obtain ⟨sb, -, rfl⟩ := offerCheckpoint_some h
  have hput : Steady s { s with sb := sb } := .of_same rfl rfl rfl rfl
  have htaken := hput.trans (checkpointTaken_steady o _)
  exact htaken.trans ((pump_outputs _).quiet (by rw [htaken.power]; exact hp))

theorem offerFrom_steady (os : List Nat) {s : State} (hp : s.ps.power ≠ .holdup) : Steady s (offerFrom os s) := by
  induction os generalizing s with
  | nil => exact .refl s
  | cons o os ih =>
    unfold offerFrom
    split
    · split
      · exact .refl s
      · next t ht =>
        have hoffer := offerCheckpoint_steady hp ht
        have hretry : Steady s (if dirtyCost t.sb.lines < dirtyCost s.sb.lines then retryHeld t else t) := by
          split
          · exact hoffer.trans (retryHeld_steady t)
          · exact hoffer
        exact hretry.trans (ih (by rw [hretry.power]; exact hp))
    · exact ih hp

/-- R174: outside service nothing is offered. -/
theorem offerAll_steady (s : State) : Steady s (offerAll s) := by
  unfold offerAll
  split
  · next h =>
    refine offerFrom_steady _ fun hp => ?_
    simp [offersAllowed, hp, inService] at h
  · exact .refl s

theorem react_steady (before s : State) : Steady s (react before s) := by
  unfold react retryRound
  (repeat' split)
  · exact ((retryHeld_steady s).trans (offerAll_steady _)).trans (offerAll_steady _)
  · exact (offerAll_steady s).trans (offerAll_steady _)
  · exact .refl s

theorem settle_outputs (before s : State) : OutputsCourse s (settle before s) :=
  (OutputsCourse.of_steady (react_steady before s)).trans (pump_outputs _)

theorem afterRun_steady (before s : State) : Steady s (afterRun before s) := by
  have h := (react_steady before s).trans (testWait_steady _)
  unfold afterRun
  dsimp only
  split
  · exact h
  · exact h.trans (testWindDown_steady _)

end Sys2Proof.Machine

/-! Every command keeps the outputs of the power state: a change of the power state drops OFFREQ and moves the front port with
it, everything else leaves the four parts alone, and what follows is an `OutputsCourse` (R124, R143, R162, R168). -/

namespace Sys2Proof.Machine

open Sys2Proof

/-! ### The consumers (R86, R105, R120, R134) -/

/-- R120: SOC takes no powered part to OFF. -/
theorem socTransition_ne_off {p : PowerState} (h : p ≠ .off) (soc low critical : Nat) (e : Bool) :
    socTransition p soc low critical e ≠ .off := by
  cases p with
  | normal | low | critical =>
    unfold socTransition
    dsimp only
    (repeat' split) <;> nofun
  | starting | holdup => nofun
  | off => exact absurd rfl h

theorem evaluatePower_powered (e : Bool) {s : State} (h : Powered s) : Powered (evaluatePower e s) := by
  unfold evaluatePower
  dsimp only
  (repeat' split)
  · exact h
  · exact h
  · exact changePower_powered (socTransition_ne_off h.on _ _ _ _) h.opened

theorem process_powered (e : Handover) {s : State} (h : Powered s) : Powered (process e s) := by
  have hstore : ∀ g, Powered { s with bg := g } := fun g => h.keep (.of_same rfl rfl rfl rfl)
  have hgauge : ∀ b g, Powered (evaluatePower b (publishGauge g s)) := fun b g =>
    evaluatePower_powered b ((publishGauge_steady g h.opened).powered h)
  cases e with
  | motionSample x y z => exact ((takeMotionSample_calm x y z s).steady h.opened (by simp) (by simp)).powered h
  | motionMiss => exact ((takeMotionMiss_calm s).steady h.opened (by simp) (by simp)).powered h
  | gaugeSample v i t =>
    unfold process takeGaugeSample
    dsimp only
    (repeat' split)
    · exact hgauge _ _
    · exact hgauge _ _
    · exact hgauge _ _
    · exact hstore _
  | gaugeMiss =>
    unfold process takeGaugeMiss
    dsimp only
    (repeat' split)
    · exact hstore _
    · exact hgauge _ _
    · exact (publishFlags_steady _ h.opened).powered h
    · exact hstore _

theorem takeHandover_steady (e : Handover) (s : State) : Steady s (takeHandover e s) := .of_same rfl rfl rfl rfl

theorem consume_powered (e : Handover) {s : State} (h : Powered s) : Powered (consume s e) := by
  have htaken := (takeHandover_steady e s).powered h
  unfold consume
  dsimp only
  split
  · exact htaken
  · next hs =>
    have hawake := process_awake e (Bool.eq_false_iff.mpr hs)
    have hquiet : (process e (takeHandover e s)).ps.power ≠ .holdup := fun hp => by simp [consumersStopped, hp] at hawake
    exact ((settle_outputs _ _).quiet hquiet).powered (process_powered e htaken)

theorem consume_stand (e : Handover) {s : State} (h : OutputsStand s) : OutputsStand (consume s e) := by
  by_cases ho : s.ps.power = .off
  · have hsame : consume s e = takeHandover e s := by simp [consume, consumersStopped, ho]
    rw [hsame]
    exact (takeHandover_steady e s).stand h
  · exact (consume_powered e (h.powered ho)).stand

theorem deliverHanded_powered {s : State} (h : Powered s) : Powered (deliverHanded s) :=
  List.foldlRecOn _ _ h fun _ hu e _ => consume_powered e hu

theorem deliverHanded_stand {s : State} (h : OutputsStand s) : OutputsStand (deliverHanded s) :=
  List.foldlRecOn _ _ h fun _ hu e _ => consume_stand e hu

/-! ### The front link (R57, R154, R158, R162) -/

theorem abandonRequest_powered {s : State} (h : Powered s) : Powered (abandonRequest s) := by
  obtain ⟨hoffreq, hon, -⟩ := h
  exact ⟨hoffreq, hon, nofun⟩

theorem newRequest_powered (code count : Byte) (sector : Word) {s : State} (h : Powered s) :
    Powered (newRequest code count sector s) := by
  obtain ⟨hoffreq, hon, -⟩ := h
  exact ⟨hoffreq, hon, nofun⟩

theorem arrive_stand {go : State → State} (hgo : ∀ u, Powered u → OutputsStand (go u)) (code count : Byte) (sector : Word)
    {s : State} (h : OutputsStand s) : OutputsStand (arrive code count sector go s) := by
  have hnew : takesFrames s = true → Powered (newRequest code count sector s) := fun ht =>
    newRequest_powered _ _ _ (h.powered_of_opened fun hc => by simp [takesFrames, hc] at ht)
  have hanswer : ∀ a u, Powered u → OutputsStand (respond a 0 [] u) := fun a u hu =>
    (respond_steady hu.opened a 0 []).stand hu.stand
  obtain ⟨-, ha⟩ | ⟨ht, -, ha⟩ | ⟨ht, -, -, ha⟩ | ⟨ht, -, -, ha⟩ := arrive_cases code count sector go s
  · rwa [ha]
  · rw [ha]; exact hanswer _ _ (hnew ht)
  · rw [ha]; exact hanswer _ _ (hnew ht)
  · rw [ha]; exact hgo _ (hnew ht)

theorem refuse_stand (a : Answer) (m : BitVec 9) (n : Nat) (p : List Byte) {s : State} (h : Powered s) :
    OutputsStand (refuse a m n p s) := (refuse_steady h.opened a m n p).stand h.stand

theorem assembleFrom_stand (left n : Nat) {s : State} (h : Powered s) : OutputsStand (assembleFrom left n s) := by
  induction left generalizing n s with
  | zero => exact (respond_steady h.opened _ _ _).stand h.stand
  | succ left ih =>
    unfold assembleFrom
    cases hm : isMiss s n with
    | true =>
      rw [readSource_of_miss hm]
      refine (pump_outputs _).stand (Steady.stand ?_ h.stand)
      exact .of_opened rfl h.opened nofun rfl
    | false =>
      rw [readSource_of_not_miss hm]
      refine ih _ (Steady.powered ?_ h)
      split <;> exact .of_same rfl rfl rfl rfl

theorem assemble_stand {s : State} (h : Powered s) : OutputsStand (assemble s) := by
  have hbegun : Powered { s with fp := { s.fp with port := .assembling } } :=
    h.keep (.of_opened rfl h.opened nofun rfl)
  unfold assemble
  split
  · exact assembleFrom_stand _ _ hbegun
  · exact h.stand

theorem beginRead_stand (count : Byte) (sector : Word) {s : State} (h : Powered s) :
    OutputsStand (beginRead count sector s) := by
  unfold beginRead
  (repeat' split)
  · exact refuse_stand _ _ _ _ h
  · exact refuse_stand _ _ _ _ h
  · exact assemble_stand h

theorem beginWrite_stand (count : Byte) (sector : Word) {s : State} (h : Powered s) :
    OutputsStand (beginWrite count sector s) := by
  unfold beginWrite
  split
  · exact refuse_stand _ _ _ _ h
  · exact h.stand.keep (.of_opened rfl h.opened nofun rfl)

theorem beginFlush_stand {s : State} (h : Powered s) : OutputsStand (beginFlush s) := by
  have hwait : Steady s { s with fp := { s.fp with port := .completing, mark := some s.sb.ageCounter } } :=
    .of_opened rfl h.opened nofun rfl
  unfold beginFlush
  split
  · exact refuse_stand _ _ _ _ h
  · exact (hwait.trans (testWait_steady _)).stand h.stand

theorem beginInfo_stand {s : State} (h : Powered s) : OutputsStand (beginInfo s) := by
  unfold beginInfo
  split
  · exact refuse_stand _ _ _ _ h
  · exact (respond_steady h.opened _ _ _).stand h.stand

theorem takeFrame_steady (n : Nat) (d : Sector) {s : State} (h : s.fp.port ≠ .closed) : Steady s (takeFrame n d s) := by
  unfold takeFrame
  split
  · exact refuse_steady h _ _ _ _
  · exact offerSector_steady n d h

theorem dataArrives_stand (d : Sector) {s : State} (h : OutputsStand s) : OutputsStand (dataArrives d s) := by
  unfold dataArrives
  split
  · next ht =>
    have hopen : s.fp.port ≠ .closed := fun hc => by simp [takesSector, hc] at ht
    split
    · exact (settle_outputs s _).stand ((takeFrame_steady _ d hopen).stand h)
    · exact h
  · exact h

/-! ### The hold-up sequence and its recoveries (R136, R137, R144, R145) -/

theorem frontAtHoldup_calm (s : State) : FrontCalm s (frontAtHoldup s) := by
  have hrefuse : ∀ a m n p, FrontCalm s (refuse a m n p s) := fun _ _ _ _ => .inr rfl
  have habandon : ∀ a m n p, FrontCalm s (abandonRead (refuse a m n p s)) := hrefuse
  unfold frontAtHoldup
  split
  · exact .of_fp rfl
  · split
    · exact hrefuse _ _ _ _
    · exact hrefuse _ _ _ _
    · exact hrefuse _ _ _ _
    · exact habandon _ _ _ _
    · exact habandon _ _ _ _
    · exact .of_fp rfl
    · exact .of_fp rfl
    · exact .of_fp rfl

theorem holdupEntered_powered {s : State} (h : s.fp.port ≠ .closed) : Powered (holdupEntered s) := by
  have hchanged : Powered (changePower .holdup (frontAtHoldup s)) :=
    changePower_powered nofun ((frontAtHoldup_calm s).opened h)
  have hpower : Powered (powerAtHoldup s) := hchanged.keep (.of_same rfl rfl rfl rfl)
  refine Steady.powered (.of_same ?_ ?_ ?_ ?_) hpower <;> simp [holdupEntered, stopFirstTimer]

theorem enterHoldup_stand {s : State} (h : s.fp.port ≠ .closed) : OutputsStand (enterHoldup s) := by
  have hentered := holdupEntered_powered h
  show OutputsStand (testAtEntry (holdupEntered s))
  unfold testAtEntry
  split
  · exact hentered.stand
  · exact testDrained_stand hentered

theorem noteBrownedOut_steady (s : State) : Steady s (noteBrownedOut s) := .of_same rfl rfl rfl rfl

theorem offAfterOperation_stand {s : State} (h : OutputsStand s) : OutputsStand (offAfterOperation s) := by
  unfold offAfterOperation
  split
  · exact enterOff_stand s
  · exact (noteBrownedOut_steady s).stand h

theorem supplyLost_stand {s : State} (h : OutputsStand s) : OutputsStand (supplyLost s) := by
  have henter : s.ps.power ≠ .off → OutputsStand (enterHoldup s) := fun hp => enterHoldup_stand (h.powered hp).opened
  have hstop : OutputsStand (stopStartup s) :=
    offAfterOperation_stand ((waiters_outputs { s.mp.waiters with startup := none } s).stand h)
  unfold supplyLost
  split
  · split
    · exact h
    · exact offAfterOperation_stand h
  · split
    · next hp => exact henter (by rw [hp]; nofun)
    · next hp => exact henter (by rw [hp]; nofun)
    · next hp => exact henter (by rw [hp]; nofun)
    · next hp =>
      unfold brownoutStarting
      split
      · exact henter (by rw [hp]; nofun)
      · exact hstop
    · split
      · exact (noteBrownedOut_steady s).stand h
      · exact h
    · exact h

theorem beginInvalidate_stand {s : State} (h : OutputsStand s) : OutputsStand (beginInvalidate s) := by
  have hphase : OutputsStand { s with
      ps := { s.ps with phase := some .invalidate }
      mp := { s.mp with waiters := { s.mp.waiters with holdup := none } } } := h.keep (.of_same rfl rfl rfl rfl)
  unfold beginInvalidate
  dsimp only
  split
  · exact (pump_outputs _).stand (hphase.keep (.of_same rfl rfl rfl rfl))
  · exact hphase

theorem socDerived_ne_off (s : State) : socDerived s ≠ .off := by
  unfold socDerived
  (repeat' split) <;> nofun

theorem noteServed_steady (s : State) : Steady s (noteServed s) := by
  unfold noteServed
  split <;> exact .of_same rfl rfl rfl rfl

theorem gaugeAtRecovery_steady (s : State) : Steady s (gaugeAtRecovery s) := by
  unfold gaugeAtRecovery
  split <;> exact .of_same rfl rfl rfl rfl

theorem motionAtRecovery_steady (s : State) : Steady s (motionAtRecovery s) := by
  have hcalm : ∀ u, Steady u (raiseAttn (limitAtMotion u)) := fun u =>
    (Steady.of_same (by simp) (by simp) (by simp) (by simp)).trans
      ((recomputeMode_steady (recomputeLimit u)).trans (.of_same rfl rfl rfl rfl))
  unfold motionAtRecovery
  dsimp only
  split
  · exact Steady.after (hcalm _) (.of_same rfl rfl rfl rfl)
  · exact .of_same rfl rfl rfl rfl

/-- R152, R175: service begins with the offers of what is pending. -/
theorem offered_stand {s : State} (h : Powered s) : OutputsStand (pump (offerAll s)) :=
  (pump_outputs _).stand ((offerAll_steady s).stand h.stand)

theorem resumeService_stand (s : State) : OutputsStand (resumeService s) := by
  have hpower : Powered (powerAtRecovery s) := changePower_powered (socDerived_ne_off s) nofun
  have hpoll : Steady (powerAtRecovery s) (resumePolling (powerAtRecovery s)) := by refine .of_same ?_ ?_ ?_ ?_ <;> simp
  have hmotion := hpoll.trans (motionAtRecovery_steady _)
  exact offered_stand ((hmotion.trans ((gaugeAtRecovery_steady _).trans (noteServed_steady _))).powered hpower)

theorem firstService_stand {s : State} (h : s.fp.port ≠ .closed) : OutputsStand (firstService s) :=
  offered_stand ((noteServed_steady _).powered (changePower_powered (socDerived_ne_off s) h))

theorem startUp_stand (wp : Bool) (s : State) : OutputsStand (startUp wp s) := by
  have hreset : Powered (powerOnState wp s) := ⟨nofun, nofun, nofun⟩
  exact (pump_outputs _).stand hreset.stand

theorem supplyReturned_stand {s : State} (h : OutputsStand s) : OutputsStand (supplyReturned s) := by
  have hinvalidate : Steady s (recoverInvalidate s) := .of_same rfl rfl rfl rfl
  unfold supplyReturned
  split
  · exact startUp_stand _ s
  · (repeat' split)
    · exact resumeService_stand s
    · exact beginInvalidate_stand h
    · exact h
    · exact hinvalidate.stand h
  · exact h
  · exact h
  · exact h
  · exact h

/-! ### Start-up (R146 to R152) -/

theorem coldDecision_steady {s : State} (h : s.fp.port ≠ .closed) : Steady s (coldDecision s) := by
  unfold coldDecision
  split
  · exact publishGauge_steady _ h
  · exact .of_same rfl rfl rfl rfl

/-- What a fold over the zones leaves alone. -/
theorem forZones_steady {f : Nat → State → State} (hps : ∀ k u, (f k u).ps = u.ps) (hfp : ∀ k u, (f k u).fp = u.fp)
    (hmp : ∀ k u, (f k u).mp = u.mp) (n : Nat) (s : State) : Steady s (forZones n f s) :=
  .of_same (congrArg PowerSup.power (forZones_keep (·.ps) f hps n s))
    (congrArg PowerSup.offreq (forZones_keep (·.ps) f hps n s))
    (congrArg FrontPort.port (forZones_keep (·.fp) f hfp n s)) (congrArg MediaPort.current (forZones_keep (·.mp) f hmp n s))

theorem restoreImage_steady (image : List Byte) {s : State} (h : s.fp.port ≠ .closed) : Steady s (restoreImage image s) := by
  have hzones : Steady s (restoreZones image s) :=
    (forZones_steady (by simp) (by simp) (by simp) 64 s).trans (.of_same rfl rfl rfl rfl)
  have hmotion : ∀ b u, Steady u (restoreMotion b (restoreStaging b u)) := fun _ _ => .of_same rfl rfl rfl rfl
  have hgauge : ∀ (b : List Byte) (u : State), u.fp.port ≠ .closed → Steady u (restoreGauge b u) := fun b u hu => by
    unfold restoreGauge
    split
    · exact publishGauge_steady _ hu
    · exact Steady.after (coldDecision_steady hu) (.of_same rfl rfl rfl rfl)
  have hrestored := hzones.trans (hmotion (image.drop 64) _)
  exact (hrestored.trans (hgauge _ _ (hrestored.opened h))).trans (.of_same rfl rfl rfl rfl)

theorem rebuildCold_steady {s : State} (h : s.fp.port ≠ .closed) : Steady s (rebuildCold s) := by
  have hzones : Steady s (forZones 64 (rebuildZone s.ps.checkRead) { s with zu := { s.zu with timeBase := 0 } }) :=
    Steady.after (forZones_steady (by simp) (by simp) (by simp) 64 _) (.of_same rfl rfl rfl rfl)
  have htotal : ∀ u : State, Steady u { u with bg := { u.bg with total := u.ps.coldTotal } } := fun _ =>
    .of_same rfl rfl rfl rfl
  unfold rebuildCold
  dsimp only
  generalize forZones 64 (rebuildZone s.ps.checkRead) { s with zu := { s.zu with timeBase := 0 } } = u at hzones ⊢
  have hrebuilt := hzones.trans (htotal u)
  exact hrebuilt.trans (coldDecision_steady (hrebuilt.opened h))

theorem applyDecision_steady (a b : Option (List Sector)) {s : State} (h : s.fp.port ≠ .closed) :
    Steady s (applyDecision a b s) := by
  have hdecided : Steady s { s with ps := { s.ps with cause := decideCause s a b, startPos := .invalidate } } :=
    .of_same rfl rfl rfl rfl
  unfold applyDecision
  dsimp only
  split
  · exact hdecided.trans (restoreImage_steady _ (hdecided.opened h))
  · exact hdecided.trans (rebuildCold_steady (hdecided.opened h))

theorem requestStartup_steady (step : StartStep) (s : State) : Steady s (requestStartup step s) := .of_same rfl rfl rfl rfl

theorem enterMediaFault_steady (s : State) : Steady s (enterMediaFault s) := .of_same rfl rfl rfl rfl

theorem mapAreaRead_steady (result : Option (List Byte)) {s : State} (h : s.fp.port ≠ .closed) :
    Steady s (mapAreaRead result s) := by
  refine Steady.trans ?_ (requestStartup_steady .gaugeRecord _)
  cases result with
  | none => exact .of_same rfl rfl rfl rfl
  | some p => exact Steady.after (takeDesign_steady _ h) (.of_same rfl rfl rfl rfl)

theorem startupDone_stand (step : StartStep) (result : Option (List Byte)) {s : State} (h : Powered s) :
    OutputsStand (startupDone step result s) := by
  unfold startupDone
  split
  · unfold stoppedStartupDone
    (repeat' split)
    · exact enterHoldup_stand (deliverHanded_powered h).opened
    · exact enterOff_stand _
    · exact enterOff_stand s
  · cases step with
    | moduleReset | served => exact h.stand
    | capacity =>
      refine Steady.stand ?_ h.stand
      dsimp only [capacityKnown]
      (repeat' split) <;> exact .of_same rfl rfl rfl rfl
    | mapArea => exact (mapAreaRead_steady result h.opened).stand h.stand
    | gaugeRecord =>
      refine Steady.stand (Steady.trans ?_ (requestStartup_steady .dropLog _)) h.stand
      cases result <;> exact .of_same rfl rfl rfl rfl
    | dropLog =>
      refine Steady.stand (Steady.trans ?_ (requestStartup_steady .checkTable _)) h.stand
      cases result with
      | none => exact .of_same rfl rfl rfl rfl
      | some p =>
        dsimp only
        split <;> exact .of_same rfl rfl rfl rfl
    | checkTable | imageFirst => exact h.stand.keep (.of_same rfl rfl rfl rfl)
    | imageSecond =>
      have hdecided := applyDecision_steady s.ps.imageRead (result.map (sectorsOf 8)) h.opened
      dsimp only [imageSecondRead]
      split
      · exact (hdecided.trans (requestStartup_steady _ _)).stand h.stand
      · exact firstService_stand (hdecided.opened h.opened)
    | invalidate =>
      dsimp only [startupInvalidated]
      split
      · exact firstService_stand h.opened
      · exact (enterMediaFault_steady s).stand h.stand

/-! ### The outcomes of media operations (R18, R19, R142, R145, R158, R165) -/

theorem testAfterRun_stand {s : State} (h : Powered s) : OutputsStand (testAfterRun s) := by
  unfold testAfterRun
  split
  · exact testDrained_stand h
  · exact h.stand

theorem runDone_stand (op : MediaOp) {s : State} (h : Powered s) : OutputsStand (runDone op s) := by
  have hfinished : Steady s (finishRunAt op.sector op.count s) := .of_same rfl rfl rfl rfl
  exact testAfterRun_stand ((hfinished.trans (afterRun_steady s _)).powered h)

theorem runLost_stand (op : MediaOp) {s : State} (h : Powered s) : OutputsStand (runLost op s) := by
  have hdropped : Steady s (dropRun op.sector op.count s) := by refine .of_same ?_ ?_ ?_ ?_ <;> simp
  have hreport : ∀ n z u, Steady u (reportLoss n z u) := fun n z u => by refine .of_same ?_ ?_ ?_ ?_ <;> simp
  have hlost := (hdropped.trans (afterRun_steady s _)).trans (hreport op.sector (drainingZone s.sb.lines) _)
  exact testAfterRun_stand ((hlost.trans (react_steady _ _)).powered h)

theorem requestHoldup_steady (what : HoldupRequest) (s : State) : Steady s (requestHoldup what s) :=
  .of_same rfl rfl rfl rfl

theorem imageThenInvalidate_stand {s : State} (h : OutputsStand s) : OutputsStand (imageThenInvalidate s) := by
  unfold imageThenInvalidate
  split
  · exact enterOff_stand s
  · exact (requestHoldup_steady _ s).stand h

theorem imageFirstDone_stand (ok : Bool) {s : State} (h : OutputsStand s) : OutputsStand (imageFirstDone ok s) := by
  unfold imageFirstDone
  (repeat' split)
  · exact imageThenInvalidate_stand h
  · exact (requestHoldup_steady _ s).stand h
  · exact enterOff_stand s

theorem imageSecondDone_stand {s : State} (h : OutputsStand s) : OutputsStand (imageSecondDone s) := by
  unfold imageSecondDone
  split
  · exact imageThenInvalidate_stand h
  · exact enterOff_stand s

theorem invalidateDone_stand (ok : Bool) {s : State} (h : Powered s) : OutputsStand (invalidateDone ok s) := by
  unfold invalidateDone
  (repeat' split)
  · have hcleared : Powered { s with ps := { s.ps with brownedOut := false } } := h.keep (.of_same rfl rfl rfl rfl)
    exact (enterSave_stand hcleared).1
  · exact enterOff_stand s
  · exact resumeService_stand _
  · exact (enterMediaFault_steady s).stand h.stand

theorem readMissDone_stand (count : Nat) (result : Option (List Byte)) {s : State} (h : Powered s) :
    OutputsStand (readMissDone count result s) := by
  unfold readMissDone
  split
  · rw [foldl_putRead]
    exact assemble_stand (h.keep (.of_same rfl rfl rfl rfl))
  · exact (respond_steady h.opened _ _ _).stand h.stand

/-- R138: a read-only part leaves phase SAVE for OFF. -/
theorem leaveReadOnlySave_stand {s : State} (h : OutputsStand s) : OutputsStand (leaveReadOnlySave s) := by
  unfold leaveReadOnlySave
  split
  · next hs => exact offWithoutImage_stand (h.powered (by rw [hs.1]; nofun))
  · exact h

theorem missEnded_stand (op : MediaOp) (result : Option (List Byte)) {s : State} (h : Powered s) :
    OutputsStand (missEnded op result s) := by
  refine leaveReadOnlySave_stand ?_
  split
  · exact h.stand
  · exact readMissDone_stand _ result h

theorem handOutcome_stand (op : MediaOp) (result : Option (List Byte)) {s : State} (h : Powered s) :
    OutputsStand (handOutcome op result s) := by
  have hrun : OutputsStand (if result.isSome then runDone op s else runLost op s) := by
    split
    · exact runDone_stand op h
    · exact runLost_stand op h
  unfold handOutcome
  cases op.requester with
  | readMiss => exact missEnded_stand op result h
  | drain => exact hrun
  | holdup what =>
    cases what with
    | drainRun => exact hrun
    | imageFirst => exact imageFirstDone_stand _ h.stand
    | imageSecond => exact imageSecondDone_stand h.stand
    | invalidate => exact invalidateDone_stand _ h
  | startup step => exact startupDone_stand step result h

theorem finishOp_stand (op : MediaOp) (result : Option (List Byte)) {s : State} (h : Powered s) :
    OutputsStand (finishOp op result s) :=
  (goIdle_outputs _ _).stand (handOutcome_stand op result (h.of_media rfl rfl))

theorem attemptFailure_stand (op : MediaOp) {s : State} (h : Powered s) : OutputsStand (attemptFailure op s) := by
  have hretry : Powered (retryOp op s) := h.of_media rfl rfl
  unfold attemptFailure
  split
  · exact hretry.stand
  · exact finishOp_stand op none h

theorem operationComplete_stand (status : Byte) (payload : List Byte) {s : State} (h : OutputsStand s) :
    OutputsStand (operationComplete status payload s) := by
  unfold operationComplete
  split
  · exact h
  · next hc =>
    split
    · exact finishOp_stand _ _ (h.powered_of_busy hc)
    · exact attemptFailure_stand _ (h.powered_of_busy hc)

theorem waitUntil_steady (i : Word) (s : State) : Steady s (waitUntil i s) := by
  refine .of_same ?_ ?_ ?_ ?_ <;> simp

theorem operationTimeout_stand {s : State} (h : OutputsStand s) : OutputsStand (operationTimeout s) := by
  unfold operationTimeout
  split
  · exact h
  · next op hc =>
    have hpulsed : Powered (pulseReset (waitUntil (op.start + 200) s)) :=
      (h.powered_of_busy hc).of_media (by simp [pulseReset]) (by simp [pulseReset])
    exact attemptFailure_stand op hpulsed

/-! ### The supply, the timers and the sense bus -/

theorem computeConversion_steady (vsys vcap : Int) (s : State) : Steady s (computeConversion vsys vcap s) := by
  have hstored : Steady s (recomputeLimit (storeConversion vsys vcap s)) := by refine .of_same ?_ ?_ ?_ ?_ <;> simp
  have hdip : ∀ u, Steady u (railDip u) := fun u => by refine .of_same ?_ ?_ ?_ ?_ <;> simp
  exact (hstored.trans (recomputeMode_steady _)).trans (hdip _)

theorem setRail_steady (r : RailState) (s : State) : Steady s (setRail r s) := .of_same rfl rfl rfl rfl

theorem endConversion_steady (s : State) : Steady s (endConversion s) := by
  unfold endConversion
  split
  · exact (waitUntil_steady 10 s).trans (.of_same rfl rfl rfl rfl)
  · exact .of_same rfl rfl rfl rfl

theorem markChanged_steady (s : State) : Steady s (markChanged s) :=
  List.foldlRecOn (motive := Steady s) _ _ (.refl s) fun _ hu _ _ => hu.trans (.of_same rfl rfl rfl rfl)

theorem checkpointExpiry_stand (due : Word) {s : State} (h : OutputsStand s) : OutputsStand (checkpointExpiry due s) := by
  have hwait : Steady s { waitUntil due s with ru := { (waitUntil due s).ru with timerDue := some (due + 30000) } } :=
    (waitUntil_steady due s).trans (.of_same rfl rfl rfl rfl)
  unfold checkpointExpiry
  dsimp only
  split
  · exact (settle_outputs _ _).stand ((hwait.trans (markChanged_steady _)).stand h)
  · exact hwait.stand h

theorem holdLimit_outputs {s t : State} (hs : OutputsStand s) (h : exec .holdLimit s = .next t) : OutputsStand t := by
  cases h
  split
  · next start _ hport _ _ =>
    have hwait := waitUntil_steady (start + 25) s
    exact (hwait.trans (refuse_steady (hwait.opened (by rw [hport]; nofun)) _ _ _ _)).stand hs
  · exact hs

theorem linkReset_outputs {s t : State} (hs : OutputsStand s) (h : exec .linkReset s = .next t) : OutputsStand t := by
  cases h
  unfold linkResetPort
  have hhigh : OutputsStand { s with pins := { s.pins with frst := true } } := hs.keep (.of_same rfl rfl rfl rfl)
  split
  · exact hhigh
  · next hc => exact (abandonRequest_powered (hhigh.powered_of_opened hc)).stand

theorem slider_outputs {s t : State} (hs : OutputsStand s) (h : exec .wpDebounceExpiry s = .next t) : OutputsStand t := by
  cases h
  split
  · next d _ =>
    split
    · exact hs
    · refine (waitUntil_steady (d.start + 20) s).trans ?_ |>.stand hs
      unfold takeSlider
      dsimp only
      split
      · exact Steady.after (endTransfer_steady _ _ _) (.of_same rfl rfl rfl rfl)
      · exact .of_same rfl rfl rfl rfl
  · exact hs

theorem wpChange_outputs {s t : State} (hs : OutputsStand s) (h : exec .wpChange s = .next t) : OutputsStand t := by
  cases h
  refine Steady.stand ?_ hs
  unfold noteSlider
  (repeat' split) <;> exact .of_same rfl rfl rfl rfl

theorem firstTimerExpiry_stand {s : State} (h : OutputsStand s) : OutputsStand (firstTimerExpiry s) := by
  unfold firstTimerExpiry
  dsimp only
  split
  · exact h.keep (.of_same rfl rfl rfl rfl)
  · next hc =>
    have hon : Powered s := h.powered fun ho => by simp [consumersStopped, ho] at hc
    exact (publishFlags_steady _ hon.opened).stand h

theorem firstTimer_outputs {s t : State} (hs : OutputsStand s) (h : exec .firstSampleTimerExpiry s = .next t) :
    OutputsStand t := by
  cases h
  split
  · next g _ => exact firstTimerExpiry_stand ((waitUntil_steady (g + 1000) s).stand hs)
  · exact hs

theorem rail_outputs {c : Instr} {s t : State} (hc : c = .railReturn ∨ c = .railReturnCancel) (hs : OutputsStand s)
    (h : exec c s = .next t) : OutputsStand t := by
  refine Steady.stand ?_ hs
  obtain rfl | rfl := hc <;> cases h <;> split <;> exact .of_same rfl rfl rfl rfl

/-- R162: a response sent leaves the port IDLE, and the release of the reset and stray input move no output. -/
theorem front_outputs {c : Instr} {s t : State} (hc : c = .responseSent ∨ c = .frstRelease ∨
    (∃ b, c = .untaggedFrontByte b) ∨ ∃ bs, c = .strayMediaBytes bs) (hs : OutputsStand s) (h : exec c s = .next t) :
    OutputsStand t := by
  refine Steady.stand ?_ hs
  obtain rfl | rfl | ⟨b, rfl⟩ | ⟨bs, rfl⟩ := hc <;> cases h
  · split
    · next hp => exact .of_opened rfl (by rw [hp]; nofun) nofun rfl
    · exact .refl s
  · exact .of_same rfl rfl rfl rfl
  · exact .refl s
  · exact .refl s

/-- The commands of the sense bus: SE alone, and time. -/
theorem sense_outputs {c : Instr} {s t : State} (hc : c = .motionCadence ∨ c = .gaugeCadence ∨
    (∃ how, c = .attemptComplete how) ∨ c = .senseTimeout ∨ c = .recoveryTrainEnd ∨ c = .busStartSeen ∨
    c = .busStopSeen ∨ c = .alertEdge ∨ c = .alertDeferExpiry) (hs : OutputsStand s) (h : exec c s = .next t) :
    OutputsStand t := by
  have hsame : ∀ {u : State}, u.ps = s.ps → u.fp = s.fp → u.mp = s.mp → Steady s u := fun hps hfp hmp =>
    .of_same (by rw [hps]) (by rw [hps]) (by rw [hfp]) (by rw [hmp])
  have hdefer : ∀ u : State, (deferredAlert u).ps = u.ps ∧ (deferredAlert u).fp = u.fp ∧ (deferredAlert u).mp = u.mp :=
      fun u => by
    unfold deferredAlert
    dsimp only
    split <;> simp
  refine Steady.stand ?_ hs
  obtain rfl | rfl | ⟨how, rfl⟩ | rfl | rfl | rfl | rfl | rfl | rfl := hc <;> cases h
  · split <;> refine hsame ?_ ?_ ?_ <;> simp
  · split <;> refine hsame ?_ ?_ ?_ <;> simp
  · split <;> refine hsame ?_ ?_ ?_ <;> simp
  · split <;> refine hsame ?_ ?_ ?_ <;> simp
  · split <;> refine hsame ?_ ?_ ?_ <;> simp
  · exact hsame rfl rfl rfl
  · unfold stopSeen
    dsimp only
    split <;> exact hsame rfl rfl rfl
  · unfold alertFalls
    (repeat' split) <;> refine hsame ?_ ?_ ?_ <;> simp
  · (repeat' split) <;> refine hsame ?_ ?_ ?_ <;> simp [hdefer]

/-! ### All commands -/

theorem exec_outputs {c : Instr} {s t : State} (hs : OutputsStand s) (h : exec c s = .next t) : OutputsStand t := by
  cases c with
  | powerOn wp => cases h; exact startUp_stand wp s
  | read count sector => cases h; exact arrive_stand (fun _ hu => beginRead_stand count sector hu) _ _ _ hs
  | write count sector => cases h; exact arrive_stand (fun _ hu => beginWrite_stand count sector hu) _ _ _ hs
  | flush count sector => cases h; exact arrive_stand (fun _ hu => beginFlush_stand hu) _ _ _ hs
  | info count sector => cases h; exact arrive_stand (fun _ hu => beginInfo_stand hu) _ _ _ hs
  | unknownCodeRequest code count sector => cases h; exact arrive_stand (fun _ hu => refuse_stand _ _ _ _ hu) _ _ _ hs
  | dataFrame data => cases h; exact dataArrives_stand _ hs
  | responseSent => exact front_outputs (.inl rfl) hs h
  | linkReset => exact linkReset_outputs hs h
  | frstRelease => exact front_outputs (.inr (.inl rfl)) hs h
  | holdLimit => exact holdLimit_outputs hs h
  | mediaOperationComplete status payload => cases h; exact operationComplete_stand status payload hs
  | mediaTimeout => cases h; exact operationTimeout_stand hs
  | conversionCadence =>
    cases h
    exact ((waitUntil_steady s.sm.cadenceDue s).trans (.of_same rfl rfl rfl rfl)).stand hs
  | conversionComplete vsys vcap =>
    cases h
    split
    · exact hs
    · exact (settle_outputs _ _).stand (((endConversion_steady s).trans (computeConversion_steady _ _ _)).stand hs)
  | brownout =>
    cases h
    split
    · have hrail := (setRail_steady .lost _).stand (deliverHanded_stand hs)
      exact (pump_outputs _).stand (supplyLost_stand hrail)
    · exact hs
  | railReturn => exact rail_outputs (.inl rfl) hs h
  | railReturnCancel => exact rail_outputs (.inr rfl) hs h
  | recoveryQualified =>
    cases h
    split
    · exact supplyReturned_stand (((waitUntil_steady _ s).trans (setRail_steady .good _)).stand hs)
    · exact hs
  | wpChange => exact wpChange_outputs hs h
  | wpDebounceExpiry => exact slider_outputs hs h
  | motionCadence => exact sense_outputs (.inl rfl) hs h
  | gaugeCadence => exact sense_outputs (.inr (.inl rfl)) hs h
  | attemptComplete how => exact sense_outputs (.inr (.inr (.inl ⟨how, rfl⟩))) hs h
  | senseTimeout => exact sense_outputs (by simp) hs h
  | recoveryTrainEnd => exact sense_outputs (by simp) hs h
  | busStartSeen => exact sense_outputs (by simp) hs h
  | busStopSeen => exact sense_outputs (by simp) hs h
  | alertEdge => exact sense_outputs (by simp) hs h
  | alertDeferExpiry => exact sense_outputs (by simp) hs h
  | motionSample x y z => cases h; exact consume_stand _ hs
  | motionMiss => cases h; exact consume_stand _ hs
  | gaugeSample v i g => cases h; exact consume_stand _ hs
  | gaugeMiss => cases h; exact consume_stand _ hs
  | firstSampleTimerExpiry => exact firstTimer_outputs hs h
  | checkpointTimerExpiry =>
    cases h
    split
    · exact checkpointExpiry_stand _ hs
    · exact hs
  | untaggedFrontByte b => exact front_outputs (.inr (.inr (.inl ⟨b, rfl⟩))) hs h
  | strayMediaBytes bs => exact front_outputs (.inr (.inr (.inr ⟨bs, rfl⟩))) hs h

/-- With no command waiting a consumer takes the oldest event, or a millisecond passes. -/
theorem idleStep_outputs {s t : State} (hs : OutputsStand s) (h : idleStep s = .next t) : OutputsStand t := by
  unfold idleStep at h
  split at h
  · exact exec_outputs hs h
  · cases h
    exact hs.keep (.of_same rfl rfl rfl rfl)

/-- Settles O37: each command moves the front port with the power state and drops OFFREQ at its changes, only the wind-down in
CRITICAL asserts it, and a grant that takes the part to OFF leaves no operation behind. -/
theorem stepKeepsPowerOutputs : Obligations.StepKeepsPowerOutputs := by
  intro s t hoffreq hclosed h
  unfold step at h
  split at h
  · next c rest _ =>
    have hrest : OutputsStand { s with pending := rest } := ⟨hoffreq, hclosed⟩
    exact exec_outputs hrest h
  · exact idleStep_outputs ⟨hoffreq, hclosed⟩ h

end Sys2Proof.Machine
